-- ==== Sys2Proof/Word.lean ====
section
/-! DEFINITION. The word types of the block and the numeric constants of 00_scope.md rule R8. -/

namespace Sys2Proof

/-- A byte of the data memory, of a ring, or of a packet payload (R60). -/
abbrev Byte := BitVec 8

/-- A 16-bit container of a 10-bit sample or ANC word (R62, R183). -/
abbrev HalfWord := BitVec 16

/-- A host register, a command word or a packed word of the pixel codec (R20, R80, R220). -/
abbrev Word := BitVec 32

/-- An argument or result register (R27, R28). -/
abbrev DWord := BitVec 64

/-- A 10-bit ANC word or picture sample (R180, R220). -/
abbrev Sample := BitVec 10

/-- `INT64_MIN`, which is also the TimePoint `INVALID` (R8, R35). -/
abbrev int64Min : Int := -9223372036854775808

/-- `INT64_MAX` (R8). -/
abbrev int64Max : Int := 9223372036854775807

/-- `U32_MAX` (R8). -/
abbrev u32Max : Nat := 4294967295

/-- The bit pattern of the TimePoint `INVALID` (R35). -/
abbrev invalidBits : DWord := 0x8000000000000000#64

end Sys2Proof
end

