-- ==== Sys2Proof/Config.lean ====
section
/-! DEFINITION. The implementation parameters of 00_scope.md rule R6, and the values the spec leaves
open: constants without a body, so that nothing can be proved about their value. -/

namespace Sys2Proof.Config

/-- The parameters of R6, but for `BLOCK_ID`, which is `Config.blockId`. "The block is defined for every
value of the parameters": they are carried by the state as a constant part (`State.params`, written by no
step), so that a statement about every state is a statement about every build of the block
(log entry 1). -/
structure Params where
  /-- `NPORTS`, 1..15 -/
  nports : Nat
  /-- `MAX_SOURCES`, 1..16 -/
  maxSources : Nat
  /-- `SUBFRAME_BYTES`, 1..8 -/
  subframeBytes : Nat
  /-- `TICK_HZ`, at least 1 -/
  tickHz : Nat
  /-- `SAMPLE_RATE`, at least 1 -/
  sampleRate : Nat
  /-- `RING_BYTES`, at least 1 -/
  ringBytes : Nat
  /-- `CHUNK_SLOTS`, at least 1 -/
  chunkSlots : Nat
  /-- `DMEM_SIZE`, 1..2^64 -/
  dmemSize : Nat
  /-- `PAD_WORD`, 10 bits -/
  padWord : Sample
  /-- `AFD_DID`, 8 bits -/
  afdDid : Byte
  /-- `AFD_SDID`, 8 bits -/
  afdSdid : Byte
deriving DecidableEq, Repr

/-- The legal ranges of R6 (the widths of the last three fields are their ranges). -/
def Params.legal (P : Params) : Bool :=
  decide (1 ≤ P.nports ∧ P.nports ≤ 15) && decide (1 ≤ P.maxSources ∧ P.maxSources ≤ 16) &&
  decide (1 ≤ P.subframeBytes ∧ P.subframeBytes ≤ 8) && decide (1 ≤ P.tickHz) &&
  decide (1 ≤ P.sampleRate) && decide (1 ≤ P.ringBytes) && decide (1 ≤ P.chunkSlots) &&
  decide (1 ≤ P.dmemSize ∧ P.dmemSize ≤ 2 ^ 64)

/-- The "reference" column of R6. -/
def Params.reference : Params where
  nports := 2
  maxSources := 16
  subframeBytes := 4
  tickHz := 1000000
  sampleRate := 48000
  ringBytes := 262144
  chunkSlots := 64
  dmemSize := 16777216
  padWord := 0x040#10
  afdDid := 0x41#8
  afdSdid := 0x05#8

/-- `BLOCK_ID`, the value of the ID register: OPEN in the spec (R6, R22, D2, I1), so a free value
(log entry 2). -/
opaque blockId : Word

/-- `CAPTION_DID` (R8, R190). -/
def captionDid : Byte := 0x61#8

/-- `CAPTION_SDID` (R8, R190). -/
def captionSdid : Byte := 0x01#8

/-- What a data-memory address reads as while nothing has been stored to it. The spec gives DMEM no
contents at power-on (R43: "not touched by reset"). DESIGN CHOICE, unsafe (log entry 3). -/
def unlistedByte : Byte := 0#8

/-- The free choice among the agents that can move (R71, D40, I3): the `n`-th choice names an agent by
its number; where that agent cannot move, the first that can moves instead (log entry 4). -/
opaque schedule : Nat → Nat

/-- The three values that R73 leaves open where hosts have raced with a pending command on a range. -/
inductive RaceKind where
  /-- a byte that the command reads from the range -/
  | commandRead
  /-- a byte of the range, as the command leaves it -/
  | commandWrite
  /-- a byte that a host reads from the range -/
  | hostRead
deriving DecidableEq, Repr

/-- The draw of R73: the arbitrary value of a racing byte, by kind of race, number of the step it
happens in, and address (log entry 5). -/
opaque raceByte : RaceKind → Nat → Nat → Byte

end Sys2Proof.Config
end

