-- ==== Sys2Proof/Machine/State.lean ====
section
/-! DEFINITION. The state of the block (10_state.md), of the hosts that drive it, and of its executor:
plain data, with its value after reset (R43). -/

namespace Sys2Proof.Machine

open Sys2Proof.Config (Params)

/-- The status codes of R260. Codes 0x0A to 0xFF are never reported, so they are no values here. -/
inductive Code where
  | ok
  | badOpcode
  | badSource
  | badArg
  | rejected
  | noResource
  | dmemFault
  | notReady
  | malformed
  | badState
deriving DecidableEq, Repr

/-- The eight argument registers of a port, or their snapshot (R27). -/
abbrev Args := Vector DWord 8

/-- The four result registers of a port (R28). -/
abbrev Results := Vector DWord 4

/-- An accepted command: its word and its argument snapshot (R24), and the data-memory bytes that hosts
have written and read since its acceptance, which decide the races of R73. -/
structure Pending where
  word : Word
  args : Args
  hostWrote : List Nat
  hostRead : List Nat
deriving DecidableEq, Repr

/-- The IE register (R26). -/
structure IrqEnable where
  done : Bool
  err : Bool
  ovr : Bool
deriving DecidableEq, Repr

/-- The registers of one port (R23) and its pending command (R24). BUSY is 1 exactly from acceptance to
completion (R25), that is while `pending` holds a command, so it has no storage of its own. -/
structure Port where
  /-- CMD readback: the last command word accepted -/
  cmd : Word
  pending : Option Pending
  /-- STATUS.DONE -/
  done : Bool
  /-- STATUS.ERR -/
  err : Bool
  /-- STATUS.OVR -/
  ovr : Bool
  /-- STATUS.CODE -/
  code : Code
  ie : IrqEnable
  args : Args
  res : Results
deriving DecidableEq, Repr

/-- A pushed chunk `(pts, frames)` (R30). -/
structure Chunk where
  pts : DWord
  frames : Nat
deriving DecidableEq, Repr

/-- A source context (R30). `nmap` is the length of `slots`. -/
structure Source where
  isOpen : Bool
  nsub : Nat
  pcm : Bool
  /-- `slot[i]` for `i < nmap` -/
  slots : List Nat
  chunks : List Chunk
  headOff : Nat
  data : List Byte
  tagged : Nat
deriving DecidableEq, Repr

/-- An owner of a subframe slot: source and source channel (R34). -/
structure Owner where
  source : Nat
  chan : Nat
deriving DecidableEq, Repr

/-- The data memory: the listed bytes, by rising address (`Memory.wf`). -/
abbrev Memory := List Host.Cell

/-- One access of a port's host (R21, R72), or the pseudo-instruction WAIT (R91). Offsets and addresses
are plain numbers and `width` is in bytes, so that the accesses R21 shuts out can be written down. -/
inductive HostAction where
  | regRead (offset width : Nat)
  | regWrite (offset width : Nat) (value : Word)
  | dmemRead (addr : Nat)
  | dmemWrite (addr : Nat) (value : Byte)
  | wait
deriving DecidableEq, Repr

/-- The host at a port: the accesses it will make, in its program order, and the value its last read
returned. It is an input of the block, not part of it, and no reset touches it. -/
structure HostAgent where
  actions : List HostAction
  lastRead : Word
deriving DecidableEq, Repr

/-- The machine: the block (`ports` to `owner`), the data memory, the hosts, the executor and the
parameters. -/
structure State where
  /-- ports `p < NPORTS` (R23); the others do not exist and are never used -/
  ports : Vector Port 15
  /-- `AUDIO_CH`, one of 0, 2, 8, 16 (R37) -/
  audioCh : Nat
  /-- `DECLARED_ONLY` (R37) -/
  declaredOnly : Bool
  /-- `head`, a TimePoint (R40) -/
  head : DWord
  /-- `CDP_COUNTER` (R38) -/
  cdpCounter : BitVec 16
  /-- `ctx[s]` for `s < MAX_SOURCES` (R30); the others do not exist and stay closed -/
  sources : Vector Source 16
  /-- `owner[k]` (R34) -/
  owner : Vector (Option Owner) 16
  /-- the data memory (R60) -/
  dmem : Memory
  /-- the hosts, one per port (R13) -/
  hosts : Vector HostAgent 15
  /-- the port whose command the executor performs (R70): the issuing port of R10 -/
  serving : Fin 15
  /-- how many steps were taken: the number of the next free choice (R71) -/
  steps : Nat
  /-- how many of them were not a WAIT that reads BUSY again: the number of the next draw (R73) -/
  draws : Nat
  /-- the parameters of this build (R6): constant -/
  params : Params
deriving DecidableEq, Repr

/-- Why a step stops with a fault. -/
inductive Fault where
  /-- A host accesses a data-memory address at or above `DMEM_SIZE`, which does not exist (R60). Raised by
  the host's own step only, never by a command. Safe. -/
  | hostDmemRange
deriving DecidableEq, Repr

/-- Why a step is refused. -/
inductive Refusal where
  /-- An instruction without a meaning yet. No arm of `exec` answers it in this model. Safe. -/
  | notModelled (mnemonic : String)
  /-- A host access of the register window that is not an aligned 32-bit access inside it, which R21 tells
  a model to refuse. Raised by the host's own step only, never by a command. Safe. -/
  | badHostAccess
deriving DecidableEq, Repr

/-- A port after reset (R43). -/
def Port.reset : Port where
  cmd := 0#32
  pending := none
  done := false
  err := false
  ovr := false
  code := .ok
  ie := ⟨false, false, false⟩
  args := Vector.replicate 8 0#64
  res := Vector.replicate 4 0#64

/-- A closed source context (R32, R43). `nsub` and `pcm` have no meaning while it is closed. -/
def Source.closed : Source where
  isOpen := false
  nsub := 0
  pcm := false
  slots := []
  chunks := []
  headOff := 0
  data := []
  tagged := 0

/-- A host with nothing to do. -/
def HostAgent.idle : HostAgent where
  actions := []
  lastRead := 0#32

/-- The machine right after power-on, in the reference build (R43, R290). -/
def State.reset : State where
  ports := Vector.replicate 15 Port.reset
  audioCh := 0
  declaredOnly := false
  head := invalidBits
  cdpCounter := 0#16
  sources := Vector.replicate 16 Source.closed
  owner := Vector.replicate 16 none
  dmem := []
  hosts := Vector.replicate 15 HostAgent.idle
  serving := 0
  steps := 0
  draws := 0
  params := Params.reference

end Sys2Proof.Machine
end

