-- ==== Sys2Proof/Machine/Flags.lean ====
section
/-! DEFINITION. The status word, the interrupt enables and the interrupt request of a port
(10_state.md rules R25, R26, R39; 60_exceptions.md rules R260, R270). -/

namespace Sys2Proof.Machine

/-- The number of a status code (R260). -/
def Code.toByte : Code → BitVec 8
  | .ok => 0x00#8
  | .badOpcode => 0x01#8
  | .badSource => 0x02#8
  | .badArg => 0x03#8
  | .rejected => 0x04#8
  | .noResource => 0x05#8
  | .dmemFault => 0x06#8
  | .notReady => 0x07#8
  | .malformed => 0x08#8
  | .badState => 0x09#8

/-- The codes that set ERR: all but OK and MALFORMED (R29, R198, R260). -/
def Code.setsErr : Code → Bool
  | .ok => false
  | .badOpcode => true
  | .badSource => true
  | .badArg => true
  | .rejected => true
  | .noResource => true
  | .dmemFault => true
  | .notReady => true
  | .malformed => false
  | .badState => true

/-- STATUS.BUSY: 1 from acceptance to completion (R25). -/
def Port.busy (p : Port) : Bool := p.pending.isSome

/-- STATUS as the host reads it (R25). -/
def Port.statusWord (p : Port) : Word :=
  0#16 ++ p.code.toByte ++ 0#4 ++ BitVec.ofBool p.ovr ++ BitVec.ofBool p.err ++
    BitVec.ofBool p.done ++ BitVec.ofBool p.busy

/-- A host write of `v` to STATUS clears each of DONE, ERR and OVR whose bit is 1 in `v` (R25). -/
def Port.clearStatus (p : Port) (v : Word) : Port :=
  { p with
    done := p.done && !v.getLsbD 1
    err := p.err && !v.getLsbD 2
    ovr := p.ovr && !v.getLsbD 3 }

/-- IE as the host reads it (R26). -/
def Port.ieWord (p : Port) : Word :=
  0#29 ++ BitVec.ofBool p.ie.ovr ++ BitVec.ofBool p.ie.err ++ BitVec.ofBool p.ie.done

/-- A host write of `v` to IE (R26). -/
def Port.writeIe (p : Port) (v : Word) : Port :=
  { p with ie := ⟨v.getLsbD 0, v.getLsbD 1, v.getLsbD 2⟩ }

/-- The interrupt request `IRQ(p)` (R270). -/
def Port.irq (p : Port) : Bool :=
  (p.done && p.ie.done) || (p.err && p.ie.err) || (p.ovr && p.ie.ovr)

/-- Whether port `p` exists and requests an interrupt. -/
def State.irqOf (s : State) (p : Fin 15) : Bool :=
  decide (p.val < s.params.nports) && s.ports[p].irq

/-- IRQ_STATUS: bit `p` is `IRQ(p)` for `p < NPORTS`, the rest 0 (R22, R39). -/
def State.irqStatus (s : State) : Word :=
  BitVec.ofNat 32
    ((List.finRange 15).map fun p => if s.irqOf p then 2 ^ p.val else 0).sum

/-- The block's one interrupt output: the OR of the ports' requests (R270). -/
def State.irqOutput (s : State) : Bool := (List.finRange 15).any s.irqOf

end Sys2Proof.Machine
end

