-- ==== Sys2Proof/Machine/Ops.lean ====
section
/-! DEFINITION. The named operations over the data memory, the ports and the source contexts, and the one
operation by which every command ends: its completion, with OK or with the code it raises
(10_state.md rules R24, R29; 20_memory.md; 60_exceptions.md rules R264, R275). The block takes no traps
and has no return from one (R275, R276): raising a status code is all it does on a failure. -/

namespace Sys2Proof.Machine

open Sys2Proof.Config (Params)

/-! ### Data memory -/

/-- The byte at an address; `Config.unlistedByte` where none is listed. -/
def Memory.read : Memory → Nat → Byte
  | [], _ => Config.unlistedByte
  | c :: m, a => if c.1 = a then c.2 else Memory.read m a

/-- `m` with `c` before it, unless `c` says what an unlisted address reads as. -/
def Memory.listed (c : Host.Cell) (m : Memory) : Memory :=
  if c.2 = Config.unlistedByte then m else c :: m

/-- A byte stored at an address, keeping the canonical form. -/
def Memory.write : Memory → Nat → Byte → Memory
  | [], a, v => Memory.listed (a, v) []
  | c :: m, a, v =>
    if a < c.1 then Memory.listed (a, v) (c :: m)
    else if a = c.1 then Memory.listed (a, v) m
    else c :: Memory.write m a v

/-- Bytes stored at rising addresses from `a`. -/
def Memory.writeBytes : Memory → Nat → List Byte → Memory
  | m, _, [] => m
  | m, a, b :: bs => Memory.writeBytes (Memory.write m a b) (a + 1) bs

/-- Every listed address is above `lo`, the addresses rise strictly, and no listed byte is what an
unlisted address reads as. -/
def Memory.wfFrom : Nat → Memory → Bool
  | _, [] => true
  | lo, c :: m => decide (lo ≤ c.1) && decide (c.2 ≠ Config.unlistedByte) && Memory.wfFrom (c.1 + 1) m

/-- The canonical form of the data memory. -/
def Memory.wf (m : Memory) : Bool := Memory.wfFrom 0 m

/-! ### Ports -/

/-- `s` with port `p` replaced. -/
def State.setPort (s : State) (p : Fin 15) (x : Port) : State :=
  { s with ports := s.ports.set p x }

/-- `s` with host `p` replaced. -/
def State.setHost (s : State) (p : Fin 15) (h : HostAgent) : State :=
  { s with hosts := s.hosts.set p h }

/-- A host write of `w` to the CMD register (R24): dropped with OVR set while BUSY, else accepted with a
snapshot of the argument registers, unchecked. -/
def Port.writeCmd (p : Port) (w : Word) : Port :=
  if p.busy then { p with ovr := true }
  else { p with cmd := w, pending := some ⟨w, p.args, [], []⟩, done := false }

/-- The command being performed: the one pending at the port that the executor serves (R70). -/
def State.command (s : State) : Option Pending := s.ports[s.serving].pending

/-- The snapshot the command reads (R10, R27); all 0 where no command is pending, which no step meets. -/
def State.args (s : State) : Args :=
  match s.command with
  | some c => c.args
  | none => Vector.replicate 8 0#64

/-- The bytes that hosts have written since the command being performed was accepted (R73). -/
def State.hostWrites (s : State) : List Nat :=
  match s.command with
  | some c => c.hostWrote
  | none => []

/-- The bytes that hosts have read since then (R73). -/
def State.hostReads (s : State) : List Nat :=
  match s.command with
  | some c => c.hostRead
  | none => []

/-- The bytes that hosts have written or read since then (R73). -/
def State.touches (s : State) : List Nat := s.hostWrites ++ s.hostReads

/-- `ARG[n]` as its 64 bits. -/
def State.argBits (s : State) (n : Fin 8) : DWord := s.args[n]

/-- `ARG[n]` as an unsigned integer (R10). -/
def State.arg (s : State) (n : Fin 8) : Nat := (s.argBits n).toNat

/-- `sarg(n)`: `ARG[n]` as a signed integer (R10). -/
def State.sarg (s : State) (n : Fin 8) : Int := (s.argBits n).toInt

/-- The four results of a command (R28). -/
def results (r0 r1 r2 r3 : DWord) : Results := #v[r0, r1, r2, r3]

/-- What a completion does to its port (R29). -/
def Port.complete (p : Port) (code : Code) (res : Results) : Port :=
  { p with
    res := res
    code := code
    done := true
    err := p.err || code.setsErr
    pending := none }

/-- The completion of the command being performed (R29). -/
def State.complete (s : State) (code : Code) (res : Results) : State :=
  s.setPort s.serving (s.ports[s.serving].complete code res)

/-- `finish()` with the values the command's rule wrote to its result registers (R10). -/
def State.finish (s : State) (r0 r1 r2 r3 : DWord) : Host.Outcome State Fault Refusal :=
  .next (s.complete .ok (results r0 r1 r2 r3))

/-- `raise CODE()`: the command completes with that code and every result 0 (R10, R264). -/
def State.raise (s : State) (code : Code) : Host.Outcome State Fault Refusal :=
  .next (s.complete code (results 0#64 0#64 0#64 0#64))

/-! ### Source contexts and slots -/

/-- `ctx[i]`; a context that does not exist is closed. -/
def State.source (s : State) (i : Nat) : Source := (s.sources[i]?).getD Source.closed

/-- `ctx[i]` is an existing, open context: the negation of the BAD_SOURCE test of the source commands. -/
def State.sourceOpen (s : State) (i : Nat) : Bool :=
  decide (i < s.params.maxSources) && (s.source i).isOpen

/-- `s` with source context `i` replaced. -/
def State.setSource (s : State) (i : Nat) (c : Source) : State :=
  { s with sources := s.sources.setIfInBounds i c }

/-- `s` with `f` applied to each source context that `p` picks by its index. -/
def State.mapSources (s : State) (p : Nat → Bool) (f : Source → Source) : State :=
  { s with sources := Vector.ofFn fun i => if p i.val then f s.sources[i] else s.sources[i] }

/-- `owner[k]` (R34). -/
def State.ownerAt (s : State) (k : Nat) : Option Owner := (s.owner[k]?).join

/-! ### Ranges, runs and byte order -/

/-- `CheckRange(addr, n)` passes: the range is empty or ends inside the data memory (R10, R63). -/
def inRange (P : Params) (addr n : Nat) : Bool := decide (n = 0 ∨ addr + n ≤ P.dmemSize)

/-- A byte range that a command's rule computes and checks: `[base, base + size)` (R63). -/
structure Range where
  base : Nat
  size : Nat
deriving DecidableEq, Repr

/-- The byte at `a` lies in the range. -/
def Range.holds (r : Range) (a : Nat) : Bool := decide (r.base ≤ a ∧ a < r.base + r.size)

/-- `CheckRange` of the range passes (R10, R63). -/
def Range.inside (P : Params) (r : Range) : Bool := inRange P r.base r.size

/-- The bytes of a 16-bit value, least significant first (R62). -/
def le16 (v : HalfWord) : List Byte := [v.extractLsb' 0 8, v.extractLsb' 8 8]

/-- The bytes of a 32-bit value, least significant first (R62). -/
def le32 (v : Word) : List Byte :=
  [v.extractLsb' 0 8, v.extractLsb' 8 8, v.extractLsb' 16 8, v.extractLsb' 24 8]

/-- A run of bytes a command writes: the address of the first, and the bytes. -/
abbrev Run := Nat × List Byte

/-- The run lies over address `a`. -/
def Run.covers (r : Run) (a : Nat) : Bool := decide (r.1 ≤ a ∧ a < r.1 + r.2.length)

/-- Runs stored one after another. -/
def Memory.writeRuns (m : Memory) (runs : List Run) : Memory :=
  runs.foldl (fun m r => Memory.writeBytes m r.1 r.2) m

end Sys2Proof.Machine
end

