-- ==== Sys2Proof/Machine/Operands.lean ====
section
/-! DEFINITION. The operand forms of 30_encoding.md rules R85 to R87, the conversions between frames
and ticks of 00_scope.md rule R11, and the picture operands of 44_pixel_codec.md rule R224. -/

namespace Sys2Proof.Machine

open Sys2Proof.Config (Params)

/-- A *count* operand is at most `U32_MAX` (R85). -/
def isCount (n : Nat) : Bool := decide (n ≤ u32Max)

/-- A valid TimePoint is any 64-bit value but INVALID (R35). -/
def isValidTime (t : Int) : Bool := decide (t ≠ int64Min)

/-- The register bits of a TimePoint or of another signed value (R10, R28). -/
def timeBits (t : Int) : DWord := BitVec.ofInt 64 t

/-- The register bits of a count, zero-extended (R28). -/
def countBits (n : Nat) : DWord := BitVec.ofNat 64 n

/-- `F2D(f) = floor(f * TICK_HZ / SAMPLE_RATE)` (R11). -/
def framesToTicks (P : Params) (f : Nat) : Nat := f * P.tickHz / P.sampleRate

/-- `D2F(d) = floor(d * SAMPLE_RATE / TICK_HZ)` (R11). -/
def ticksToFrames (P : Params) (d : Nat) : Nat := d * P.sampleRate / P.tickHz

/-- Entry `i` of a slot list: `ARG1[4i+3:4i]` (R86). -/
def slotEntry (list : DWord) (i : Nat) : Nat := (list.extractLsb' (4 * i) 4).toNat

/-- The slot list of `n` entries (R86). -/
def slotList (list : DWord) (n : Nat) : List Nat := (List.range n).map (slotEntry list)

/-- The slot list in one argument value, as the assembler packs it (R86, R90). What an entry of 16 or more
stands for, or a list of more than 16, R90 does not say: the model packs the low four bits of each entry, and
entries past the sixteenth fall outside the argument. DESIGN CHOICE (log entry 15). -/
def packSlots : List Nat → Nat
  | [] => 0
  | k :: ks => k % 16 + 16 * packSlots ks

/-- `W = ARG7[31:0]`, the width in pixels (R87). -/
def pictureWidth (size : DWord) : Nat := (size.extractLsb' 0 32).toNat

/-- `H = ARG7[63:32]`, the height in rows (R87). -/
def pictureHeight (size : DWord) : Nat := (size.extractLsb' 32 32).toNat

/-! ### Pictures -/

/-- The operands of the plane commands (R224, R226): the addresses of the packed rows and of the three
planes, the pitches in bytes, and the picture size. -/
structure Picture where
  packed : Nat
  luma : Nat
  cb : Nat
  cr : Nat
  lumaPitch : Nat
  chromaPitch : Nat
  stride : Nat
  width : Nat
  height : Nat
deriving DecidableEq, Repr

/-- The operands of PX_PACK_PLANE (R224). -/
def packPicture (args : Args) : Picture where
  packed := args[3].toNat
  luma := args[0].toNat
  cb := args[1].toNat
  cr := args[2].toNat
  lumaPitch := args[4].toNat
  chromaPitch := args[5].toNat
  stride := args[6].toNat
  width := pictureWidth args[7]
  height := pictureHeight args[7]

/-- The operands of PX_UNPACK_PLANE (R226). -/
def unpackPicture (args : Args) : Picture where
  packed := args[0].toNat
  luma := args[1].toNat
  cb := args[2].toNat
  cr := args[3].toNat
  lumaPitch := args[5].toNat
  chromaPitch := args[6].toNat
  stride := args[4].toNat
  width := pictureWidth args[7]
  height := pictureHeight args[7]

/-- `G = ceil(W / 6)`, the groups of a row (R224). -/
def pictureGroups (p : Picture) : Nat := (p.width + 5) / 6

/-- The argument checks of the plane commands (R224). -/
def pictureOk (p : Picture) : Bool :=
  decide (2 ≤ p.width ∧ p.width % 2 = 0 ∧ 1 ≤ p.height) &&
    (isCount p.lumaPitch && isCount p.chromaPitch && isCount p.stride) &&
    decide (2 * p.width ≤ p.lumaPitch ∧ p.width ≤ p.chromaPitch ∧ 16 * pictureGroups p ≤ p.stride)

/-- The range of a plane or of the packed rows: from the first row to the last byte of the last (R224). -/
def rowsRange (base pitch rows bytes : Nat) : Range where
  base := base
  size := (rows - 1) * pitch + bytes

/-- The range of the luma plane (R224). -/
def lumaRange (p : Picture) : Range := rowsRange p.luma p.lumaPitch p.height (2 * p.width)

/-- The range of the `Cb` plane (R224). -/
def cbRange (p : Picture) : Range := rowsRange p.cb p.chromaPitch p.height p.width

/-- The range of the `Cr` plane (R224). -/
def crRange (p : Picture) : Range := rowsRange p.cr p.chromaPitch p.height p.width

/-- The range of the packed rows (R224). -/
def packedRange (p : Picture) : Range := rowsRange p.packed p.stride p.height (16 * pictureGroups p)

/-- The range checks of the plane commands (R224, R226). -/
def pictureInRange (P : Params) (p : Picture) : Bool :=
  (lumaRange p).inside P && (cbRange p).inside P && (crRange p).inside P && (packedRange p).inside P

end Sys2Proof.Machine
end

