-- ==== Sys2Proof/Machine/HostPort.lean ====
section
/-! DEFINITION. The host register window (10_state.md rules R20 to R28, R37 to R40; 45_control.md rules
R251, R252): which register lies at an offset, what a read returns, what a write does. -/

namespace Sys2Proof.Machine

/-- The registers of R22 and R23; `hole` is every other offset. `hi` picks bits 63:32 of a 64-bit one. -/
inductive HostReg where
  | id
  | ctrl
  | audioCfg
  | cdpCounter
  | head (hi : Bool)
  | irqStatus
  | params
  | cmd (p : Fin 15)
  | status (p : Fin 15)
  | ie (p : Fin 15)
  | arg (p : Fin 15) (n : Fin 8) (hi : Bool)
  | res (p : Fin 15) (n : Fin 4) (hi : Bool)
  | hole
deriving DecidableEq, Repr

/-- The global register at an offset below 0x100 (R22). -/
def globalReg (off : Nat) : HostReg :=
  match off with
  | 0x000 => .id
  | 0x004 => .ctrl
  | 0x008 => .audioCfg
  | 0x00C => .cdpCounter
  | 0x010 => .head false
  | 0x014 => .head true
  | 0x018 => .irqStatus
  | 0x01C => .params
  | _ => .hole

/-- The register of port `p` at offset `off` from the port's base (R23). -/
def portReg (p : Fin 15) (off : Nat) : HostReg :=
  if off = 0x00 then .cmd p
  else if off = 0x04 then .status p
  else if off = 0x08 then .ie p
  else if 0x10 ≤ off ∧ off < 0x50 then
    .arg p (Fin.ofNat 8 ((off - 0x10) / 8)) (decide ((off - 0x10) % 8 = 4))
  else if 0x50 ≤ off ∧ off < 0x70 then
    .res p (Fin.ofNat 4 ((off - 0x50) / 8)) (decide ((off - 0x50) % 8 = 4))
  else .hole

/-- The register at an offset of the window: port `p`'s base is `0x100 × (p + 1)`, and only ports below
`NPORTS` exist (R20). -/
def hostReg (nports off : Nat) : HostReg :=
  if off < 0x100 then globalReg off
  else if h : off / 0x100 - 1 < 15 then
    if off / 0x100 - 1 < nports then portReg ⟨off / 0x100 - 1, h⟩ (off % 0x100) else .hole
  else .hole

/-- One half of a 64-bit register. -/
def half (v : DWord) (hi : Bool) : Word := if hi then v.extractLsb' 32 32 else v.extractLsb' 0 32

/-- A 64-bit register with one half replaced. -/
def withHalf (v : DWord) (hi : Bool) (w : Word) : DWord :=
  if hi then w ++ v.extractLsb' 0 32 else v.extractLsb' 32 32 ++ w

/-- AUDIO_CFG (R22). -/
def State.audioCfgWord (s : State) : Word :=
  0#23 ++ BitVec.ofBool s.declaredOnly ++ 0#3 ++ BitVec.ofNat 5 s.audioCh

/-- PARAMS (R22). -/
def State.paramsWord (s : State) : Word :=
  0#16 ++ BitVec.ofNat 4 s.params.subframeBytes ++ 0#3 ++ BitVec.ofNat 5 s.params.maxSources ++
    BitVec.ofNat 4 s.params.nports

/-- What a host read of a register returns. A read changes nothing (R252). -/
def State.readReg (s : State) : HostReg → Word
  | .id => Config.blockId
  | .ctrl => 0#32
  | .audioCfg => s.audioCfgWord
  | .cdpCounter => 0#16 ++ s.cdpCounter
  | .head hi => half s.head hi
  | .irqStatus => s.irqStatus
  | .params => s.paramsWord
  | .cmd p => s.ports[p].cmd
  | .status p => s.ports[p].statusWord
  | .ie p => s.ports[p].ieWord
  | .arg p n hi => half s.ports[p].args[n] hi
  | .res p n hi => half s.ports[p].res[n] hi
  | .hole => 0#32

/-- The block reset (R251, R290): every piece of block state takes its value of R43. The data memory and
the hosts are not the block's; the parameters are constant. -/
def State.blockReset (s : State) : State :=
  { State.reset with
    dmem := s.dmem, hosts := s.hosts, steps := s.steps, draws := s.draws, params := s.params }

/-- A host write of an argument half (R23, R27). -/
def Port.writeArg (p : Port) (n : Fin 8) (hi : Bool) (w : Word) : Port :=
  { p with args := p.args.set n (withHalf p.args[n] hi w) }

/-- A host write of `w` to a register. A read-only register or a hole ignores it (R252). -/
def State.writeReg (s : State) (r : HostReg) (w : Word) : State :=
  match r with
  | .id => s
  | .ctrl => if w.getLsbD 0 then s.blockReset else s
  | .audioCfg => s
  | .cdpCounter => { s with cdpCounter := w.extractLsb' 0 16 }
  | .head _ => s
  | .irqStatus => s
  | .params => s
  | .cmd p => s.setPort p (s.ports[p].writeCmd w)
  | .status p => s.setPort p (s.ports[p].clearStatus w)
  | .ie p => s.setPort p (s.ports[p].writeIe w)
  | .arg p n hi => s.setPort p (s.ports[p].writeArg n hi w)
  | .res _ _ _ => s
  | .hole => s

/-- A host access the interface has: 32 bits wide, aligned, inside the 4096-byte window (R20, R21). -/
def isHostAccess (off width : Nat) : Bool := decide (width = 4 ∧ off % 4 = 0 ∧ off < 4096)

end Sys2Proof.Machine
end

