-- ==== Sys2Proof/Syntax.lean ====
section
/-! DEFINITION. The commands of 30_encoding.md rule R83: one constructor per row of the opcode table.
A command word carries only SRC and the flag bits of R84; the arguments are the port's snapshot (R24). -/

namespace Sys2Proof

/-- A command. `src` is the SRC field as a source index (R81); the Booleans are the flags of R84. -/
inductive Instr where
  | nop
  | rbPush (src : Nat)
  | rbBufferStart (src : Nat)
  | rbAvailable (src : Nat)
  | rbRead (src : Nat)
  | rbFlushConsumed (src : Nat)
  | rbTagVirtualConsumed (src : Nat)
  | rbForwardTo (src : Nat)
  | rbInfo (src : Nat)
  | mxSetAudioConfig (d : Bool)
  | mxAddMapping (src : Nat) (x a m : Bool)
  | mxRemoveMapping (src : Nat)
  | mxBufferStart
  | mxAvailableVirtual
  | mxAlignedInterleave
  | mxExtract
  | mxSlotMap
  | ancData10 (p : Bool)
  | ancPad
  | ancAfd (p : Bool)
  | ancCaptions (p : Bool)
  | ancParse
  | cdpParse
  | pxPackPlane
  | pxPackWords (c : Bool)
  | pxUnpackPlane
  | pxUnpackWords
deriving DecidableEq, Repr

end Sys2Proof
end

