-- ==== Sys2Proof/WellFormed.lean ====
section
/-! DEFINITION. Which commands have a command word: the source index must fit the SRC field (R80). -/

namespace Sys2Proof

/-- The source a command names, where its SRC column in R83 is `s`. -/
def Instr.source? : Instr → Option Nat
  | .nop => none
  | .rbPush src => some src
  | .rbBufferStart src => some src
  | .rbAvailable src => some src
  | .rbRead src => some src
  | .rbFlushConsumed src => some src
  | .rbTagVirtualConsumed src => some src
  | .rbForwardTo src => some src
  | .rbInfo src => some src
  | .mxSetAudioConfig _ => none
  | .mxAddMapping src _ _ _ => some src
  | .mxRemoveMapping src => some src
  | .mxBufferStart => none
  | .mxAvailableVirtual => none
  | .mxAlignedInterleave => none
  | .mxExtract => none
  | .mxSlotMap => none
  | .ancData10 _ => none
  | .ancPad => none
  | .ancAfd _ => none
  | .ancCaptions _ => none
  | .ancParse => none
  | .cdpParse => none
  | .pxPackPlane => none
  | .pxPackWords _ => none
  | .pxUnpackPlane => none
  | .pxUnpackWords => none

/-- The SRC field has eight bits (R80). A SRC at or above `MAX_SOURCES` is no encoding error (R82). -/
def Instr.wellFormed (i : Instr) : Bool :=
  match i.source? with
  | some src => decide (src < 256)
  | none => true

end Sys2Proof
end

