-- ==== Sys2Proof/Decode.lean ====
section
/-! DEFINITION. Decoding and encoding of the 32-bit command word (30_encoding.md rules R80 to R84, R88, R89). -/

namespace Sys2Proof

/-- Why a word is no valid encoding (R82, R88). The block reports all of them as BAD_OPCODE. -/
inductive DecodeError where
  /-- RSVD is not 0 -/
  | reservedBits
  /-- OPC is no opcode of R83 -/
  | unassignedOpcode
  /-- a FLAGS bit the opcode does not define is 1 -/
  | undefinedFlag
  /-- SRC is not 0 on an opcode that takes none -/
  | sourceNotTaken
deriving DecidableEq, Repr

/-- `OPC = w[7:0]` (R81). -/
def opcOf (w : Word) : BitVec 8 := w.extractLsb' 0 8

/-- `SRC = w[15:8]` (R81). -/
def srcOf (w : Word) : BitVec 8 := w.extractLsb' 8 8

/-- `FLAGS = w[23:16]` (R81). -/
def flagsOf (w : Word) : BitVec 8 := w.extractLsb' 16 8

/-- `RSVD = w[31:24]` (R81). -/
def rsvdOf (w : Word) : BitVec 8 := w.extractLsb' 24 8

/-- A flag named at FLAGS bit `k` is `w[16 + k]` (R81). -/
def flagOf (w : Word) (k : Nat) : Bool := w.getLsbD (16 + k)

/-- The FLAGS part of R82: only the bits of `mask` may be 1. -/
def checkFlags (w : Word) (mask : BitVec 8) (i : Instr) : Except DecodeError Instr :=
  if flagsOf w &&& ~~~mask = 0#8 then .ok i else .error .undefinedFlag

/-- An opcode whose SRC column is `s` and whose flags are those of `mask`. -/
def withSource (w : Word) (mask : BitVec 8) (f : Nat → Instr) : Except DecodeError Instr :=
  checkFlags w mask (f (srcOf w).toNat)

/-- An opcode whose SRC column is "—" and whose flags are those of `mask` (R82: SRC must be 0). -/
def withoutSource (w : Word) (mask : BitVec 8) (i : Instr) : Except DecodeError Instr :=
  if srcOf w = 0#8 then checkFlags w mask i else .error .sourceNotTaken

/-- The opcode map of R83, for a word whose RSVD is 0. -/
def decodeOpcode (w : Word) : Except DecodeError Instr :=
  match (opcOf w).toNat with
  | 0x00 => withoutSource w 0#8 .nop
  | 0x10 => withSource w 0#8 .rbPush
  | 0x11 => withSource w 0#8 .rbBufferStart
  | 0x12 => withSource w 0#8 .rbAvailable
  | 0x13 => withSource w 0#8 .rbRead
  | 0x14 => withSource w 0#8 .rbFlushConsumed
  | 0x15 => withSource w 0#8 .rbTagVirtualConsumed
  | 0x16 => withSource w 0#8 .rbForwardTo
  | 0x17 => withSource w 0#8 .rbInfo
  | 0x20 => withoutSource w 1#8 (.mxSetAudioConfig (flagOf w 0))
  | 0x21 => withSource w 7#8 (fun src => .mxAddMapping src (flagOf w 0) (flagOf w 1) (flagOf w 2))
  | 0x22 => withSource w 0#8 .mxRemoveMapping
  | 0x23 => withoutSource w 0#8 .mxBufferStart
  | 0x24 => withoutSource w 0#8 .mxAvailableVirtual
  | 0x25 => withoutSource w 0#8 .mxAlignedInterleave
  | 0x26 => withoutSource w 0#8 .mxExtract
  | 0x27 => withoutSource w 0#8 .mxSlotMap
  | 0x30 => withoutSource w 1#8 (.ancData10 (flagOf w 0))
  | 0x31 => withoutSource w 0#8 .ancPad
  | 0x32 => withoutSource w 1#8 (.ancAfd (flagOf w 0))
  | 0x33 => withoutSource w 1#8 (.ancCaptions (flagOf w 0))
  | 0x34 => withoutSource w 0#8 .ancParse
  | 0x35 => withoutSource w 0#8 .cdpParse
  | 0x40 => withoutSource w 0#8 .pxPackPlane
  | 0x41 => withoutSource w 1#8 (.pxPackWords (flagOf w 0))
  | 0x42 => withoutSource w 0#8 .pxUnpackPlane
  | 0x43 => withoutSource w 0#8 .pxUnpackWords
  | _ => .error .unassignedOpcode

/-- The validity test of R82 and the command a valid word names. -/
def decode (w : Word) : Except DecodeError Instr :=
  if rsvdOf w = 0#8 then decodeOpcode w else .error .reservedBits

/-- The host's question: the command the decoder reads from a table row's word. A command is one 32-bit
word (R80, R89), so the bits of `w` below `nbits`, and no others, are its bits. -/
def decodeTableWord (nbits w : Nat) : Option Instr :=
  match decode (BitVec.ofNat 32 (w % 2 ^ nbits)) with
  | .ok i => some i
  | .error _ => none

/-- `RSVD || FLAGS || SRC || OPC` with RSVD = 0 (R80, R92). -/
def commandWord (flags src opc : BitVec 8) : Word := 0#8 ++ flags ++ src ++ opc

/-- One flag at FLAGS bit 0. -/
def flag0 (b : Bool) : BitVec 8 := if b then 1#8 else 0#8

/-- The flags X, A, M of MX_ADD_MAPPING at FLAGS bits 0, 1, 2 (R84). -/
def flagsXAM (x a m : Bool) : BitVec 8 :=
  flag0 x ||| (flag0 a <<< 1) ||| (flag0 m <<< 2)

/-- The command word of a command: `w = (FLAGS << 16) | (N << 8) | OPC` (R92). -/
def encode : Instr → Word
  | .nop => commandWord 0#8 0#8 0x00#8
  | .rbPush src => commandWord 0#8 (BitVec.ofNat 8 src) 0x10#8
  | .rbBufferStart src => commandWord 0#8 (BitVec.ofNat 8 src) 0x11#8
  | .rbAvailable src => commandWord 0#8 (BitVec.ofNat 8 src) 0x12#8
  | .rbRead src => commandWord 0#8 (BitVec.ofNat 8 src) 0x13#8
  | .rbFlushConsumed src => commandWord 0#8 (BitVec.ofNat 8 src) 0x14#8
  | .rbTagVirtualConsumed src => commandWord 0#8 (BitVec.ofNat 8 src) 0x15#8
  | .rbForwardTo src => commandWord 0#8 (BitVec.ofNat 8 src) 0x16#8
  | .rbInfo src => commandWord 0#8 (BitVec.ofNat 8 src) 0x17#8
  | .mxSetAudioConfig d => commandWord (flag0 d) 0#8 0x20#8
  | .mxAddMapping src x a m => commandWord (flagsXAM x a m) (BitVec.ofNat 8 src) 0x21#8
  | .mxRemoveMapping src => commandWord 0#8 (BitVec.ofNat 8 src) 0x22#8
  | .mxBufferStart => commandWord 0#8 0#8 0x23#8
  | .mxAvailableVirtual => commandWord 0#8 0#8 0x24#8
  | .mxAlignedInterleave => commandWord 0#8 0#8 0x25#8
  | .mxExtract => commandWord 0#8 0#8 0x26#8
  | .mxSlotMap => commandWord 0#8 0#8 0x27#8
  | .ancData10 p => commandWord (flag0 p) 0#8 0x30#8
  | .ancPad => commandWord 0#8 0#8 0x31#8
  | .ancAfd p => commandWord (flag0 p) 0#8 0x32#8
  | .ancCaptions p => commandWord (flag0 p) 0#8 0x33#8
  | .ancParse => commandWord 0#8 0#8 0x34#8
  | .cdpParse => commandWord 0#8 0#8 0x35#8
  | .pxPackPlane => commandWord 0#8 0#8 0x40#8
  | .pxPackWords c => commandWord (flag0 c) 0#8 0x41#8
  | .pxUnpackPlane => commandWord 0#8 0#8 0x42#8
  | .pxUnpackWords => commandWord 0#8 0#8 0x43#8

end Sys2Proof
end

