-- ==== Sys2Proof/Machine/Packets.lean ====
section
/-! DEFINITION. The words of ancillary packets and the bytes of caption packets, and the tests that their
parsers make (43_ancillary.md rules R180 to R199): functions of words and bytes, with no state. -/

namespace Sys2Proof.Machine

open Sys2Proof.Config (Params)

/-! ### Words and packets -/

/-- `popcount(v)` (R9). -/
def popcount (v : Byte) : Nat := (List.range 8).countP v.getLsbD

/-- `Par(v)`: bit 8 is `popcount(v) mod 2` and bit 9 its inverse (R180). -/
def par (v : Byte) : Sample :=
  (if popcount v % 2 = 1 then 0b01#2 else 0b10#2) ++ v

/-- The 9-bit sum of the words' bits 0 to 8 (R181). -/
def wordSum (ws : List Sample) : Nat := (ws.map fun w => w.toNat % 512).sum % 512

/-- `Cs(w)`: the 9-bit sum, with bit 9 the inverse of its bit 8 (R181). -/
def checksum (ws : List Sample) : Sample :=
  BitVec.ofNat 10 (wordSum ws + (if 256 ≤ wordSum ws then 0 else 512))

/-- DID, SDID, LEN and payload words of a packet: words 3 to `5 + n` (R182). -/
def packetBody (did sdid : Byte) (b : List Byte) : List Sample :=
  [par did, par sdid, par (BitVec.ofNat 8 b.length)] ++ b.map par

/-- `Build(did, sdid, b)` (R182, R184). -/
def build (did sdid : Byte) (b : List Byte) : List Sample :=
  [0x000#10, 0x3FF#10, 0x3FF#10] ++ packetBody did sdid b ++ [checksum (packetBody did sdid b)]

/-- `PadCount(m)` (R186). -/
def padCount (m : Nat) : Nat := (6 - m % 6) % 6

/-- The filler words of `pad()` (R186). -/
def fillers (P : Params) (m : Nat) : List Sample := List.replicate (padCount m) P.padWord

/-- The words `Emit` writes: the packet, padded where the flag P is set (R184). -/
def emitted (P : Params) (pad : Bool) (ws : List Sample) : List Sample :=
  if pad then ws ++ fillers P ws.length else ws

/-- The number of words `Emit` writes for a packet of `m` words. -/
def emittedCount (pad : Bool) (m : Nat) : Nat := m + if pad then padCount m else 0

/-- The 16-bit containers of a word array, in byte order (R183). -/
def wordBytes (ws : List Sample) : List Byte := ws.flatMap fun w => le16 (w.setWidth 16)

/-- A 10-bit word in a result register. -/
def wordResult (w : Sample) : DWord := w.setWidth 64

/-! ### Bodies -/

/-- The AFD body for code `a` and aspect bit `r` (R188). -/
def afdBody (a r : Nat) : List Byte :=
  [BitVec.ofNat 8 (a * 8 + r * 4), 0#8, 0#8, 0#8, 0#8, 0#8, 0#8, 0#8]

/-- The codes of the reduced rates (R192). -/
def rateTable : List ((Nat × Nat) × Nat) :=
  [((24000, 1001), 1), ((24, 1), 2), ((25, 1), 3), ((30000, 1001), 4), ((30, 1), 5), ((50, 1), 6),
    ((60000, 1001), 7), ((60, 1), 8)]

/-- `RateCode(num, den)` (R192). -/
def rateCode (num den : Nat) : Nat :=
  if den = 0 then 1
  else (rateTable.lookup (num / Nat.gcd num den, den / Nat.gcd num den)).getD 1

/-- The sum of a byte sequence. -/
def byteSum (bs : List Byte) : Nat := (bs.map BitVec.toNat).sum

/-- The CDP bytes before the checksum, for rate code `rc`, counter `c` and the triplet bytes `t` (R191). -/
def cdpBody (rc : Nat) (c : BitVec 16) (t : List Byte) : List Byte :=
  [0x96#8, 0x69#8, BitVec.ofNat 8 (13 + t.length), BitVec.ofNat 8 (rc * 16 + 0x0F), 0x43#8,
    c.extractLsb' 8 8, c.extractLsb' 0 8, 0x72#8, BitVec.ofNat 8 (0xE0 + t.length / 3)] ++ t ++
  [0x74#8, c.extractLsb' 8 8, c.extractLsb' 0 8]

/-- The CDP checksum (R193). -/
def cdpChecksum (bs : List Byte) : Byte := BitVec.ofNat 8 (256 - byteSum bs % 256)

/-- `CDP(rc, c, t)` (R191, R193). -/
def cdp (rc : Nat) (c : BitVec 16) (t : List Byte) : List Byte :=
  cdpBody rc c t ++ [cdpChecksum (cdpBody rc c t)]

/-! ### The parsers' tests -/

/-- The `w[j] = Par(w[j] & 0xFF)` test of ANC_PARSE, which also holds bits 15 to 10 to 0 (R197). -/
def parityOk (w : HalfWord) : Bool := decide (w = (par (w.setWidth 8)).setWidth 16)

/-- The words 3 to `5 + n` of a word array, as the checksum takes them (R197). -/
def bodyWords (w : Nat → HalfWord) (n : Nat) : List Sample :=
  (List.range (3 + n)).map fun j => (w (3 + j)).setWidth 10

/-- The checks of ANC_PARSE on an array of `m` words; the payload length where they pass (R197). -/
def ancCheck (w : Nat → HalfWord) (m : Nat) : Option Nat :=
  let n := ((w 5).setWidth 8 : Byte).toNat
  if m < 7 then none
  else if w 0 ≠ 0x000#16 ∨ w 1 ≠ 0x3FF#16 ∨ w 2 ≠ 0x3FF#16 then none
  else if 7 + n > m then none
  else if !((List.range (3 + n)).all fun j => parityOk (w (3 + j))) then none
  else if w (6 + n) ≠ (checksum (bodyWords w n)).setWidth 16 then none
  else some n

/-- The low byte of a word (R197). -/
def lowByte (w : HalfWord) : Byte := w.setWidth 8

/-- The checks of CDP_PARSE on `m` bytes; the triplet count where they pass (R199). -/
def cdpCheck (b : Nat → Byte) (m : Nat) : Option Nat :=
  let len := (b 2).toNat
  let rc := ((b 3).extractLsb' 4 4).toNat
  let q := ((b 8).extractLsb' 0 5).toNat
  if m < 13 then none
  else if b 0 ≠ 0x96#8 ∨ b 1 ≠ 0x69#8 then none
  else if len < 13 ∨ len > m then none
  else if b 3 &&& 0x0F#8 ≠ 0x0F#8 then none
  else if rc < 1 ∨ rc > 8 then none
  else if b 7 ≠ 0x72#8 ∨ b 8 &&& 0xE0#8 ≠ 0xE0#8 then none
  else if len ≠ 13 + 3 * q then none
  else if b (9 + 3 * q) ≠ 0x74#8 then none
  else if b (10 + 3 * q) ≠ b 5 ∨ b (11 + 3 * q) ≠ b 6 then none
  else if byteSum ((List.range len).map b) % 256 ≠ 0 then none
  else some q

end Sys2Proof.Machine
end

