-- ==== Sys2Proof/Machine/Ring.lean ====
section
/-! DEFINITION. The ring operations that the ring buffer and multiplexer commands share
(10_state.md rules R31, R32; 41_ring_buffer.md rules R100 to R102, R105, R106, R108, R109). -/

namespace Sys2Proof.Machine

open Sys2Proof.Config (Params)

/-- `total(s)`: the unconsumed frames (R32). -/
def Source.total (c : Source) : Nat := (c.chunks.map Chunk.frames).sum - c.headOff

/-- `FB(s) = nsub × SUBFRAME_BYTES` (R31). -/
def Source.frameBytes (c : Source) (P : Params) : Nat := c.nsub * P.subframeBytes

/-- `bufferStart(s)` (R100): INVALID, which is `INT64_MIN`, where the ring is empty. -/
def Source.bufferStart (c : Source) (P : Params) : Int :=
  if c.total = 0 then int64Min
  else
    match c.chunks with
    | [] => int64Min
    | k :: _ => k.pts.toInt + framesToTicks P c.headOff

/-- `Offset(s, t)` (R101). -/
def Source.offset (c : Source) (P : Params) (t : Int) : Int :=
  if c.bufferStart P ≥ t then (ticksToFrames P (c.bufferStart P - t).toNat : Int)
  else -(ticksToFrames P (t - c.bufferStart P).toNat : Int)

/-- `avail(s, from)` (R105). -/
def Source.avail (c : Source) (P : Params) (t : Int) : Nat :=
  if c.total = 0 then 0
  else if t = int64Min then c.total
  else (min (max ((c.total : Int) + c.offset P t) 0) (u32Max : Int)).toNat

/-- The chunk loop of `Discard` (R102): the chunks and head offset after `k` frames are dropped. -/
def dropFrames : List Chunk → Nat → Nat → List Chunk × Nat
  | [], h, _ => ([], h)
  | c :: cs, h, k =>
    if k = 0 then (c :: cs, h)
    else if c.frames - h ≤ k then dropFrames cs 0 (k - (c.frames - h))
    else (c :: cs, h + k)

/-- `Discard(s, k)` (R102). -/
def Source.discard (c : Source) (P : Params) (k : Nat) : Source :=
  { c with
    chunks := (dropFrames c.chunks c.headOff k).1
    headOff := (dropFrames c.chunks c.headOff k).2
    data := c.data.drop (k * c.frameBytes P) }

/-- The frames `Forward(s, t)` discards (R109). -/
def Source.forwardCount (c : Source) (P : Params) (t : Int) : Nat :=
  if c.total = 0 ∨ t ≤ c.bufferStart P then 0
  else min c.total (ticksToFrames P (t - c.bufferStart P).toNat)

/-- `Forward(s, t)` (R109). -/
def Source.forward (c : Source) (P : Params) (t : Int) : Source :=
  if c.total = 0 ∨ t ≤ c.bufferStart P then c
  else { c.discard P (c.forwardCount P t) with tagged := c.tagged - c.forwardCount P t }

/-- The frames tagged after RB_TAG_VIRTUAL_CONSUMED of `n` frames from `t` (R108). -/
def Source.taggedAfter (c : Source) (P : Params) (t : Int) (n : Nat) : Nat :=
  if c.total = 0 then c.tagged
  else min c.total (c.tagged + ((n : Int) - c.offset P t).toNat)

/-- RB_TAG_VIRTUAL_CONSUMED's change of the context (R108). -/
def Source.tag (c : Source) (P : Params) (t : Int) (n : Nat) : Source :=
  { c with tagged := c.taggedAfter P t n }

/-- RB_FLUSH_CONSUMED's change of the context (R107). -/
def Source.flush (c : Source) (P : Params) : Source :=
  { c.discard P c.tagged with tagged := 0 }

/-- The `SUBFRAME_BYTES` bytes of channel `chan` of frame `j` (R31). -/
def Source.subframe (c : Source) (P : Params) (j chan : Nat) : List Byte :=
  (c.data.drop ((j * c.nsub + chan) * P.subframeBytes)).take P.subframeBytes

/-- The source frame at the time of destination frame `i`, where the ring has one (R106). -/
def Source.frameAt (c : Source) (P : Params) (t : Int) (i : Nat) : Option Nat :=
  if 0 ≤ (i : Int) - c.offset P t ∧ (i : Int) - c.offset P t < (c.total : Int) then
    some ((i : Int) - c.offset P t).toNat
  else none

/-- The destination frames that RB_READ of `count` frames from time `t` copies: the first, and how many (R106). -/
def Source.copiedFrames (c : Source) (P : Params) (count : Nat) (t : Int) : Nat × Nat :=
  if c.total = 0 then (0, 0)
  else
    let first := (max (c.offset P t) 0).toNat
    (first, (min (count : Int) (c.offset P t + c.total)).toNat - first)

/-- The bytes RB_READ writes, frame by frame (R106): channel `chan` from time `t` into slot `slot` of a
block of `width` slot-pairs at `dst`. -/
def Source.readRuns (c : Source) (P : Params) (dst count : Nat) (t : Int) (chan slot width : Nat) :
    List Run :=
  if c.total = 0 then []
  else
    (List.range count).filterMap fun i =>
      (c.frameAt P t i).map fun j =>
        (dst + (i * 2 * width + slot) * P.subframeBytes, c.subframe P j chan)

end Sys2Proof.Machine
end

