-- ==== Sys2Proof/Machine/Buffers.lean ====
section
/-! DEFINITION. The data memory as a command sees it: the buffers a command reads and writes (20_memory.md
rule R63; 70_reset_and_hazards.md rule R301), and the reads and stores by which every command's rule reaches
the memory (00_scope.md rule R10), with the draws of the commands that hosts race with (20_memory.md rule
R73). -/

namespace Sys2Proof.Machine

open Sys2Proof.Config (Params)

/-! ### Buffers -/

/-- Bytes of the data memory: `rows` rows of `bytes` bytes, `pitch` bytes apart, the first at `base`. -/
structure Span where
  base : Nat
  pitch : Nat
  rows : Nat
  bytes : Nat
deriving DecidableEq, Repr

/-- The byte at `a` is one of them. -/
def Span.covers (r : Span) (a : Nat) : Bool :=
  decide (r.base ≤ a ∧ (a - r.base) / r.pitch < r.rows ∧ (a - r.base) % r.pitch < r.bytes)

/-- A buffer of a command: the range its rule checks, and the bytes of it that the command reads or writes. -/
structure Buffer where
  range : Range
  span : Span
deriving DecidableEq, Repr

/-- The buffer of the `n` bytes at `a`, every one of which the command reads or writes. -/
def whole (a n : Nat) : Buffer where
  range := ⟨a, n⟩
  span := ⟨a, n, 1, n⟩

/-- The three planes of a picture, without the padding of their rows (R224). -/
def planeBuffers (p : Picture) : List Buffer :=
  [⟨lumaRange p, ⟨p.luma, p.lumaPitch, p.height, 2 * p.width⟩⟩,
    ⟨cbRange p, ⟨p.cb, p.chromaPitch, p.height, p.width⟩⟩,
    ⟨crRange p, ⟨p.cr, p.chromaPitch, p.height, p.width⟩⟩]

/-- The packed rows of a picture, without their padding (R224). -/
def packedBuffer (p : Picture) : Buffer :=
  ⟨packedRange p, ⟨p.packed, p.stride, p.height, 16 * pictureGroups p⟩⟩

/-- The checks of a plane command pass (R224, R226). -/
def pictureFits (P : Params) (p : Picture) : Bool := pictureOk p && pictureInRange P p

/-- The checks of a word-array command of `n` words pass, which reads `m` bytes at `src` and writes `k` bytes
at `dst` (R222, R223). -/
def wordsFit (P : Params) (n src m dst k : Nat) : Bool :=
  isCount n && decide (n % 6 = 0) && (inRange P src m && inRange P dst k)

/-- The buffers `l` of a command whose checks pass; one whose checks fail reaches no byte. -/
def buffersIf (ok : Bool) (l : List Buffer) : List Buffer := if ok then l else []

/-- The buffers a command with the arguments `args` reads; none where its checks fail. Of RB_PUSH, whose checks
ask for the state of its source, those of its arguments alone. -/
def commandReads (P : Params) (args : Args) (i : Instr) : List Buffer :=
  let arg := fun n : Fin 8 => args[n].toNat
  match i with
  | .nop => []
  | .rbPush src =>
    buffersIf
      (decide (src < P.maxSources ∧ args[2] ≠ invalidBits ∧ arg 1 ≤ P.ringBytes) &&
        isCount (arg 1) && inRange P (arg 0) (arg 1))
      [whole (arg 0) (arg 1)]
  | .rbBufferStart _ => []
  | .rbAvailable _ => []
  | .rbRead _ => []
  | .rbFlushConsumed _ => []
  | .rbTagVirtualConsumed _ => []
  | .rbForwardTo _ => []
  | .rbInfo _ => []
  | .mxSetAudioConfig _ => []
  | .mxAddMapping _ _ _ _ => []
  | .mxRemoveMapping _ => []
  | .mxBufferStart => []
  | .mxAvailableVirtual => []
  | .mxAlignedInterleave => []
  | .mxExtract => []
  | .mxSlotMap => []
  | .ancData10 p =>
    buffersIf
      (decide (arg 0 ≤ 0xFF ∧ arg 1 ≤ 0xFF ∧ arg 3 ≤ 255) &&
        (inRange P (arg 2) (arg 3) && inRange P (arg 4) (2 * emittedCount p (7 + arg 3))))
      [whole (arg 2) (arg 3)]
  | .ancPad => []
  | .ancAfd _ => []
  | .ancCaptions p =>
    buffersIf
      (isCount (arg 0) && isCount (arg 1) && decide (arg 3 ≤ 31) &&
        (inRange P (arg 2) (3 * arg 3) &&
          inRange P (arg 4) (2 * emittedCount p (7 + (13 + 3 * arg 3)))))
      [whole (arg 2) (3 * arg 3)]
  | .ancParse =>
    buffersIf (isCount (arg 1) && inRange P (arg 0) (2 * arg 1)) [whole (arg 0) (2 * arg 1)]
  | .cdpParse => buffersIf (isCount (arg 1) && inRange P (arg 0) (arg 1)) [whole (arg 0) (arg 1)]
  | .pxPackPlane => buffersIf (pictureFits P (packPicture args)) (planeBuffers (packPicture args))
  | .pxPackWords _ =>
    buffersIf (wordsFit P (arg 1) (arg 0) (2 * arg 1) (arg 2) (16 * (arg 1 / 6)))
      [whole (arg 0) (2 * arg 1)]
  | .pxUnpackPlane =>
    buffersIf (pictureFits P (unpackPicture args)) [packedBuffer (unpackPicture args)]
  | .pxUnpackWords =>
    buffersIf (wordsFit P (arg 1) (arg 0) (16 * (arg 1 / 6)) (arg 2) (2 * arg 1))
      [whole (arg 0) (16 * (arg 1 / 6))]

/-- What the bytes that a command writes depend on besides its arguments. -/
structure Extent where
  /-- `AUDIO_CH` -/
  channels : Nat
  /-- the first destination frame that RB_READ of a source copies, and how many it copies -/
  copied : Nat → Nat × Nat
  /-- the payload bytes that ANC_PARSE finds -/
  payload : Nat
  /-- the triplet bytes that CDP_PARSE finds -/
  triplets : Nat

/-- The buffers a command with the arguments `args` writes; none where the checks of its arguments fail. -/
def commandWrites (P : Params) (args : Args) (e : Extent) (i : Instr) : List Buffer :=
  let arg := fun n : Fin 8 => args[n].toNat
  match i with
  | .nop => []
  | .rbPush _ => []
  | .rbBufferStart _ => []
  | .rbAvailable _ => []
  | .rbRead src =>
    let frame := 2 * arg 5 * P.subframeBytes
    buffersIf
      (decide (src < P.maxSources ∧ args[2] ≠ invalidBits) &&
        decide (1 ≤ arg 5 ∧ arg 5 ≤ 8 ∧ arg 3 < 16 ∧ arg 4 < 2 * arg 5) &&
        isCount (arg 1) && inRange P (arg 0) (arg 1 * frame))
      [⟨⟨arg 0, arg 1 * frame⟩,
        ⟨arg 0 + (e.copied src).1 * frame + arg 4 * P.subframeBytes, frame, (e.copied src).2,
          P.subframeBytes⟩⟩]
  | .rbFlushConsumed _ => []
  | .rbTagVirtualConsumed _ => []
  | .rbForwardTo _ => []
  | .rbInfo _ => []
  | .mxSetAudioConfig _ => []
  | .mxAddMapping _ _ _ _ => []
  | .mxRemoveMapping _ => []
  | .mxBufferStart => []
  | .mxAvailableVirtual => []
  | .mxAlignedInterleave => []
  | .mxExtract =>
    let bytes := arg 0 * 2 * (e.channels / 2) * P.subframeBytes
    buffersIf (isCount (arg 0) && inRange P (arg 1) bytes) [whole (arg 1) bytes]
  | .mxSlotMap => []
  | .ancData10 p =>
    let bytes := 2 * emittedCount p (7 + arg 3)
    buffersIf
      (decide (arg 0 ≤ 0xFF ∧ arg 1 ≤ 0xFF ∧ arg 3 ≤ 255) &&
        (inRange P (arg 2) (arg 3) && inRange P (arg 4) bytes))
      [whole (arg 4) bytes]
  | .ancPad =>
    let bytes := 2 * padCount (arg 1)
    buffersIf (isCount (arg 1) && inRange P (arg 0 + 2 * arg 1) bytes)
      [whole (arg 0 + 2 * arg 1) bytes]
  | .ancAfd p =>
    let bytes := 2 * emittedCount p 15
    buffersIf (decide (arg 0 ≤ 15 ∧ arg 1 ≤ 1) && inRange P (arg 2) bytes) [whole (arg 2) bytes]
  | .ancCaptions p =>
    let bytes := 2 * emittedCount p (7 + (13 + 3 * arg 3))
    buffersIf
      (isCount (arg 0) && isCount (arg 1) && decide (arg 3 ≤ 31) &&
        (inRange P (arg 2) (3 * arg 3) && inRange P (arg 4) bytes))
      [whole (arg 4) bytes]
  | .ancParse =>
    buffersIf (isCount (arg 1) && inRange P (arg 0) (2 * arg 1) && inRange P (arg 2) e.payload)
      [whole (arg 2) e.payload]
  | .cdpParse =>
    buffersIf (isCount (arg 1) && inRange P (arg 0) (arg 1) && inRange P (arg 2) e.triplets)
      [whole (arg 2) e.triplets]
  | .pxPackPlane => buffersIf (pictureFits P (packPicture args)) [packedBuffer (packPicture args)]
  | .pxPackWords _ =>
    buffersIf (wordsFit P (arg 1) (arg 0) (2 * arg 1) (arg 2) (16 * (arg 1 / 6)))
      [whole (arg 2) (16 * (arg 1 / 6))]
  | .pxUnpackPlane =>
    buffersIf (pictureFits P (unpackPicture args)) (planeBuffers (unpackPicture args))
  | .pxUnpackWords =>
    buffersIf (wordsFit P (arg 1) (arg 0) (16 * (arg 1 / 6)) (arg 2) (2 * arg 1))
      [whole (arg 2) (2 * arg 1)]

/-! ### Races with hosts (R73) -/

/-- The buffers that a command reads and those that it writes. -/
structure Buffers where
  reads : List Buffer
  writes : List Buffer
deriving DecidableEq, Repr

/-- The accesses by which hosts have broken R73, as the bytes they met: of the bytes `wrote` and `read` that
hosts have touched, those they wrote and the command reads, and those it writes. -/
def Buffers.violations (b : Buffers) (wrote read : List Nat) : List Nat :=
  (wrote.filter fun a => b.reads.any fun r => r.span.covers a) ++
    (wrote ++ read).filter fun a => b.writes.any fun r => r.span.covers a

/-- The byte lies in a range of the command's, be it read or written, that holds one of the bytes `met`. R73
leaves every byte of such a range open; that a range is one that the rule checks (R63) is the model's reading.
DEDUCED (log entry 5). -/
def Buffers.raced (b : Buffers) (met : List Nat) (a : Nat) : Bool :=
  met.any fun x => (b.reads ++ b.writes).any fun r => r.range.holds a && r.range.holds x

/-- The command being performed, where its word is an encoding. -/
def State.performed (s : State) : Option Instr := s.command.bind fun c => (decode c.word).toOption

/-- What the command being performed finds where it reads `byte a` at address `a`. -/
def State.extent (s : State) (byte : Nat → Byte) : Extent where
  channels := s.audioCh
  copied := fun src => (s.source src).copiedFrames s.params (s.arg 1) (s.sarg 2)
  payload := (ancCheck (fun j => byte (s.arg 0 + 2 * j + 1) ++ byte (s.arg 0 + 2 * j)) (s.arg 1)).getD 0
  triplets := 3 * (cdpCheck (fun j => byte (s.arg 0 + j)) (s.arg 1)).getD 0

/-- The buffers of `i` where it finds one of `found`. -/
def State.buffersOf (s : State) (i : Instr) (found : List Extent) : Buffers where
  reads := commandReads s.params s.args i
  writes := found.flatMap fun e => commandWrites s.params s.args e i

/-- The accesses by which hosts have broken R73 with the command being performed, where its buffers are `b`. -/
def State.violated (s : State) (b : Buffers) : List Nat := b.violations s.hostWrites s.hostReads

/-- The byte that a command with the buffers `b` reads at `a`: the memory's, or a draw where hosts raced with
it on a range that holds the byte. -/
def State.byteWith (s : State) (b : Buffers) (a : Nat) : Byte :=
  if b.raced (s.violated b) a then Config.raceByte .commandRead s.draws a else Memory.read s.dmem a

/-- What `i` finds: first as the races on its inputs alone leave them; and, where hosts then race with what it
so writes, as the draws of that range leave the inputs that lie in it. Only a parser's two findings can
differ, and only where it works in place (R301). -/
def State.findings (s : State) (i : Instr) : List Extent :=
  let first := s.extent (s.byteWith (s.buffersOf i []))
  [first, s.extent (s.byteWith (s.buffersOf i [first]))]

/-- The buffers of `i`, performed in this state (R301). -/
def State.buffers (s : State) (i : Instr) : Buffers := s.buffersOf i (s.findings i)

/-- The accesses by which hosts have broken R73 with `i`. -/
def State.violations (s : State) (i : Instr) : List Nat := s.violated (s.buffers i)

/-! ### What a command reads -/

/-- A byte the command reads: the memory's, or a draw where hosts raced with it on a range that holds the
byte, be it one of its input or of its output (R73). -/
def State.readByte (s : State) (a : Nat) : Byte :=
  match s.performed with
  | some i => s.byteWith (s.buffers i) a
  | none => Memory.read s.dmem a

/-- `MemReadBytes(addr, n)` (R10). -/
def State.readBytes (s : State) (a n : Nat) : List Byte :=
  (List.range n).map fun i => s.readByte (a + i)

/-- `MemRead16(addr)`, little-endian (R10, R62). -/
def State.read16 (s : State) (a : Nat) : HalfWord := s.readByte (a + 1) ++ s.readByte a

/-- `MemRead32(addr)`, little-endian (R10, R62). -/
def State.read32 (s : State) (a : Nat) : Word :=
  s.readByte (a + 3) ++ s.readByte (a + 2) ++ s.readByte (a + 1) ++ s.readByte a

/-! ### What a command stores -/

/-- A draw for every byte of a range (R73). -/
def State.drawn (s : State) (r : Range) : Run :=
  (r.base, (List.range r.size).map fun j => Config.raceByte .commandWrite s.draws (r.base + j))

/-- The output ranges of `i` that hosts raced with (R73). -/
def State.racedOutputs (s : State) (i : Instr) : List Range :=
  ((s.buffers i).writes.map Buffer.range).filter fun r => (s.violations i).any r.holds

/-- All the runs that `i` writes, in the order its rule gives (`MemWriteBytes`, R10). They are computed before
any of them is stored, so that every read comes before every write (R67). Every byte of an output range that
hosts raced with ends as a draw (R73). -/
def State.storeRuns (s : State) (i : Instr) (runs : List Run) : State :=
  { s with dmem := Memory.writeRuns s.dmem (runs ++ (s.racedOutputs i).map s.drawn) }

end Sys2Proof.Machine
end

