-- ==== Sys2Proof/Machine/Ancillary.lean ====
section
/-! DEFINITION. The ancillary packetizer commands (43_ancillary.md). -/

namespace Sys2Proof.Machine

open Sys2Proof.Config (Params)

/-! ### Generic packet and padding -/

/-- The payload of ANC_DATA10 (R185). -/
def State.data10Payload (s : State) : List Byte := s.readBytes (s.arg 2) (s.arg 3)

/-- ANC_DATA10 (R185). -/
def execAncData10 (p : Bool) (s : State) : Host.Outcome State Fault Refusal :=
  let n := s.arg 3
  let m := emittedCount p (7 + n)
  let did := BitVec.ofNat 8 (s.arg 0)
  let sdid := BitVec.ofNat 8 (s.arg 1)
  if s.arg 0 > 0xFF ∨ s.arg 1 > 0xFF then s.raise .badArg
  else if n > 255 then s.raise .badArg
  else if !(inRange s.params (s.arg 2) n && inRange s.params (s.arg 4) (2 * m)) then
    s.raise .dmemFault
  else
    (s.storeRuns (.ancData10 p)
      [(s.arg 4, wordBytes (emitted s.params p (build did sdid s.data10Payload)))]).finish
      (countBits m) (countBits (7 + n)) (wordResult (checksum (packetBody did sdid s.data10Payload)))
      0#64

/-- ANC_PAD (R187). -/
def execAncPad (s : State) : Host.Outcome State Fault Refusal :=
  let a := s.arg 0
  let m := s.arg 1
  let f := padCount m
  if !isCount m then s.raise .badArg
  else if !inRange s.params (a + 2 * m) (2 * f) then s.raise .dmemFault
  else
    (s.storeRuns .ancPad [(a + 2 * m, wordBytes (fillers s.params m))]).finish
      (countBits (m + f)) (countBits f) 0#64 0#64

/-! ### AFD packet -/

/-- ANC_AFD (R189). -/
def execAncAfd (p : Bool) (s : State) : Host.Outcome State Fault Refusal :=
  let P := s.params
  let body := afdBody (s.arg 0) (s.arg 1)
  let m := emittedCount p 15
  if s.arg 0 > 15 ∨ s.arg 1 > 1 then s.raise .badArg
  else if !inRange P (s.arg 2) (2 * m) then s.raise .dmemFault
  else
    (s.storeRuns (.ancAfd p)
      [(s.arg 2, wordBytes (emitted P p (build P.afdDid P.afdSdid body)))]).finish
      (countBits m) (countBits 15) (wordResult (checksum (packetBody P.afdDid P.afdSdid body))) 0#64

/-! ### Caption packet -/

/-- The CDP of ANC_CAPTIONS: from the counter, and the triplets its arguments name (R194). -/
def State.captionCdp (s : State) : List Byte :=
  cdp (rateCode (s.arg 0) (s.arg 1)) s.cdpCounter (s.readBytes (s.arg 2) (3 * s.arg 3))

/-- The words ANC_CAPTIONS emits (R190, R194). -/
def State.captionWords (s : State) (p : Bool) : List Sample :=
  emitted s.params p (build Config.captionDid Config.captionSdid s.captionCdp)

/-- ANC_CAPTIONS (R194). -/
def execAncCaptions (p : Bool) (s : State) : Host.Outcome State Fault Refusal :=
  let q := s.arg 3
  let n := 13 + 3 * q
  let m := emittedCount p (7 + n)
  if !(isCount (s.arg 0) && isCount (s.arg 1)) then s.raise .badArg
  else if q > 31 then s.raise .badArg
  else if !(inRange s.params (s.arg 2) (3 * q) && inRange s.params (s.arg 4) (2 * m)) then
    s.raise .dmemFault
  else
    { s.storeRuns (.ancCaptions p) [(s.arg 4, wordBytes (s.captionWords p))] with
      cdpCounter := s.cdpCounter + 1#16 }.finish
      (countBits m) (s.cdpCounter.setWidth 64) (countBits (rateCode (s.arg 0) (s.arg 1)))
      (countBits n)

/-! ### Parsers -/

/-- ANC_PARSE (R197). -/
def execAncParse (s : State) : Host.Outcome State Fault Refusal :=
  let a := s.arg 0
  let m := s.arg 1
  let dst := s.arg 2
  let w := fun j => s.read16 (a + 2 * j)
  if !isCount m then s.raise .badArg
  else if !inRange s.params a (2 * m) then s.raise .dmemFault
  else
    match ancCheck w m with
    | none => s.raise .malformed
    | some n =>
      if !inRange s.params dst n then s.raise .dmemFault
      else
        (s.storeRuns .ancParse [(dst, (List.range n).map fun j => lowByte (w (6 + j)))]).finish
          ((lowByte (w 3)).setWidth 64) ((lowByte (w 4)).setWidth 64) (countBits n)
          (countBits (7 + n))

/-- CDP_PARSE (R199). -/
def execCdpParse (s : State) : Host.Outcome State Fault Refusal :=
  let a := s.arg 0
  let m := s.arg 1
  let dst := s.arg 2
  let b := fun j => s.readByte (a + j)
  if !isCount m then s.raise .badArg
  else if !inRange s.params a m then s.raise .dmemFault
  else
    match cdpCheck b m with
    | none => s.raise .malformed
    | some q =>
      if !inRange s.params dst (3 * q) then s.raise .dmemFault
      else
        (s.storeRuns .cdpParse [(dst, (List.range (3 * q)).map fun j => b (9 + j))]).finish
          (countBits q) ((b 5 ++ b 6 : HalfWord).setWidth 64)
          (countBits ((b 3).extractLsb' 4 4).toNat) 0#64

end Sys2Proof.Machine
end

