-- ==== Sys2Proof/Machine/Control.lean ====
section
/-! DEFINITION. The control command (45_control.md). -/

namespace Sys2Proof.Machine

/-- NOP (R250). -/
def execNop (s : State) : Host.Outcome State Fault Refusal := s.finish 0#64 0#64 0#64 0#64

end Sys2Proof.Machine
end

