-- ==== Sys2Proof/Machine/Multiplexer.lean ====
section
/-! DEFINITION. The audio multiplexer commands (42_multiplexer.md). -/

namespace Sys2Proof.Machine

open Sys2Proof.Config (Params)

/-! ### Configuration and mapping -/

/-- `FW = AUDIO_CH / 2` (R7, R141). -/
def State.frameWidth (s : State) : Nat := s.audioCh / 2

/-- Some source context is open (R140). -/
def State.someOpen (s : State) : Bool := (List.range s.params.maxSources).any s.sourceOpen

/-- The channel counts of R7 and R140. -/
def isChannelCount (n : Nat) : Bool := decide (n = 0 ∨ n = 2 ∨ n = 8 ∨ n = 16)

/-- MX_SET_AUDIO_CONFIG (R140). -/
def execMxSetAudioConfig (d : Bool) (s : State) : Host.Outcome State Fault Refusal :=
  if s.someOpen then s.raise .badState
  else if !isChannelCount (s.arg 0) then s.raise .badArg
  else
    { s with audioCh := s.arg 0, declaredOnly := d, head := invalidBits }.finish 0#64 0#64 0#64 0#64

/-- The slots below `AUDIO_CH` with no owner, in ascending order (R146). -/
def State.freeSlots (s : State) : List Nat :=
  (List.range s.audioCh).filter fun k => (s.ownerAt k).isNone

/-- `FirstFit(c)` (R146); none where it raises NO_RESOURCE. -/
def State.firstFit (s : State) (c : Nat) : Option (List Nat) :=
  if s.freeSlots.length < c then none else some (s.freeSlots.take c)

/-- The slot-pairs with no owner in either slot, in ascending order (R147). -/
def State.freePairs (s : State) : List Nat :=
  (List.range s.frameWidth).filter fun p =>
    (s.ownerAt (2 * p)).isNone && (s.ownerAt (2 * p + 1)).isNone

/-- `FirstFitPairs(q)` (R147); none where it raises NO_RESOURCE. -/
def State.firstFitPairs (s : State) (q : Nat) : Option (List Nat) :=
  if s.freePairs.length < q then none
  else some ((s.freePairs.take q).flatMap fun p => [2 * p, 2 * p + 1])

/-- The argument checks of an explicit slot list of MX_ADD_MAPPING with `c` source channels (R86, R145). -/
def State.listOk (s : State) (c : Nat) : Bool :=
  decide (1 ≤ s.arg 2 ∧ s.arg 2 ≤ c) && decide (s.arg 2 < 16 → s.arg 1 / 2 ^ (4 * s.arg 2) = 0) &&
    decide (∀ k ∈ slotList (s.argBits 1) (s.arg 2), k < s.audioCh) &&
    decide (slotList (s.argBits 1) (s.arg 2)).Nodup

/-- The argument checks of a by-count request of MX_ADD_MAPPING (R86, R145). -/
def State.countOk (s : State) (aligned : Bool) (c : Nat) : Bool :=
  decide (s.arg 1 = 0 ∧ s.arg 2 = 0) && !(aligned && decide (c % 2 = 1))

/-- The slots MX_ADD_MAPPING gives a source of `c` channels, or the code it raises (R145). -/
def State.chooseSlots (s : State) (x a : Bool) (c : Nat) : Except Code (List Nat) :=
  if x then
    let list := slotList (s.argBits 1) (s.arg 2)
    if list.any fun k => (s.ownerAt k).isSome then .error .rejected else .ok list
  else if s.declaredOnly then .error .rejected
  else
    match if a then s.firstFitPairs (c / 2) else s.firstFit c with
    | some list => .ok list
    | none => .error .noResource

/-- The context MX_ADD_MAPPING opens (R145). -/
def Source.opened (c : Nat) (pcm : Bool) (slots : List Nat) : Source where
  isOpen := true
  nsub := c
  pcm := pcm
  slots := slots
  chunks := []
  headOff := 0
  data := []
  tagged := 0

/-- The owner of slot `k` where source `src` carries its channels in `slots` (R34, R145). -/
def ownerIn (src : Nat) (slots : List Nat) (k : Nat) : Option Owner :=
  if slots.contains k then some ⟨src, slots.idxOf k⟩ else none

/-- `s` with the slots of `slots` owned by source `src` (R145). -/
def State.claimSlots (s : State) (src : Nat) (slots : List Nat) : State :=
  { s with owner := Vector.ofFn fun k : Fin 16 => (ownerIn src slots k.val).or s.owner[k] }

/-- `s` with every slot of source `src` free (R148). -/
def State.freeSlotsOf (s : State) (src : Nat) : State :=
  { s with
    owner := Vector.ofFn fun k : Fin 16 =>
      s.owner[k].bind fun o => if o.source = src then none else some o }

/-- The sum of `1 << k` over the slots of a list (R145, R148). -/
def slotMask (slots : List Nat) : DWord := countBits (slots.map fun k => 2 ^ k).sum

/-- MX_ADD_MAPPING (R145). -/
def execMxAddMapping (src : Nat) (x a m : Bool) (s : State) : Host.Outcome State Fault Refusal :=
  let c := s.arg 0
  if ¬ src < s.params.maxSources then s.raise .badSource
  else if s.audioCh = 0 then s.raise .badState
  else if c < 1 ∨ c > 16 then s.raise .badArg
  else if x && a then s.raise .badArg
  else if !(if x then s.listOk c else s.countOk a c) then s.raise .badArg
  else if (s.source src).isOpen then s.raise .rejected
  else
    match s.chooseSlots x a c with
    | .error code => s.raise code
    | .ok slots =>
      ((s.setSource src (Source.opened c m slots)).claimSlots src slots).finish
        (slotMask slots) 0#64 0#64 0#64

/-- MX_REMOVE_MAPPING (R148). -/
def execMxRemoveMapping (src : Nat) (s : State) : Host.Outcome State Fault Refusal :=
  if !s.sourceOpen src then s.raise .badSource
  else
    ((s.setSource src Source.closed).freeSlotsOf src).finish
      (slotMask (s.source src).slots) 0#64 0#64 0#64

/-! ### Availability -/

/-- `s ∈ Act`: open, with at least one buffered frame (R150). -/
def State.isActive (s : State) (i : Nat) : Bool :=
  s.sourceOpen i && decide (0 < (s.source i).total)

/-- `Act` (R150). -/
def State.active (s : State) : List Nat := (List.range s.params.maxSources).filter s.isActive

/-- The active owners of slot-pair `p` (R151). -/
def State.pairOwners (s : State) (p : Nat) : List Owner :=
  ([s.ownerAt (2 * p), s.ownerAt (2 * p + 1)].filterMap id).filter fun o => s.isActive o.source

/-- The frames available in slot-pair `p`; none where it has no active owner (R151). -/
def State.pairAvail (s : State) (t : Int) (p : Nat) : Option Nat :=
  ((s.pairOwners p).map fun o => (s.source o.source).avail s.params t).min?

/-- `vavail(from)` (R151). -/
def State.virtualAvail (s : State) (t : Int) : Nat :=
  (((List.range s.frameWidth).filterMap (s.pairAvail t)).min?).getD 0

/-- The minimum buffer start of the active sources, INVALID where there is none (R152). -/
def State.muxStart (s : State) : Int :=
  ((s.active.map fun i => (s.source i).bufferStart s.params).min?).getD int64Min

/-- MX_BUFFER_START (R152). -/
def execMxBufferStart (s : State) : Host.Outcome State Fault Refusal :=
  if s.audioCh = 0 then s.raise .badState
  else s.finish (timeBits s.muxStart) 0#64 0#64 0#64

/-- MX_AVAILABLE_VIRTUAL (R153). -/
def execMxAvailableVirtual (s : State) : Host.Outcome State Fault Refusal :=
  if s.audioCh = 0 then s.raise .badState
  else s.finish (countBits (s.virtualAvail (s.sarg 0))) 0#64 0#64 0#64

/-- The frame positions, counted from `at`, where the chunks of a list end. -/
def chunkEnds : Nat → List Chunk → List Nat
  | _, [] => []
  | pos, c :: cs => (pos + c.frames) :: chunkEnds (pos + c.frames) cs

/-- `Ends(s)` (R155): the first chunk ends at `frames - headOff`. -/
def Source.ends (c : Source) : List Nat :=
  match c.chunks with
  | [] => []
  | k :: ks => (k.frames - c.headOff) :: chunkEnds (k.frames - c.headOff) ks

/-- `Legal(s, n, from)` (R155). -/
def Source.legalCut (c : Source) (P : Params) (t : Int) (n : Nat) : Bool :=
  decide (n = 0) || decide ((n : Int) ≤ c.offset P t) ||
    c.ends.any fun e => decide ((n : Int) - c.offset P t = (e : Int))

/-- `P`: the active non-PCM sources (R155). -/
def State.passthrough (s : State) : List Nat := s.active.filter fun i => !(s.source i).pcm

/-- A cut after `n` frames is legal for every active non-PCM source (R155). -/
def State.legalCut (s : State) (t : Int) (n : Nat) : Bool :=
  s.passthrough.all fun i => (s.source i).legalCut s.params t n

/-- The cuts at which a source's legality can end: its first frame and its chunk ends. -/
def Source.cuts (c : Source) (P : Params) (t : Int) : List Nat :=
  (c.offset P t).toNat :: c.ends.map fun e : Nat => ((e : Int) + c.offset P t).toNat

/-- The greatest legal `n` in `[0, wanted]` (R155): the greatest legal one among `wanted`, 0 and the
sources' cuts, which `Laws.alignedCut_spec` shows to be the same. -/
def State.alignedCut (s : State) (t : Int) (wanted : Nat) : Nat :=
  let cuts := wanted :: s.passthrough.flatMap fun i => (s.source i).cuts s.params t
  (cuts.filter fun n => decide (n ≤ wanted) && s.legalCut t n).foldl max 0

/-- MX_ALIGNED_INTERLEAVE (R155). -/
def execMxAlignedInterleave (s : State) : Host.Outcome State Fault Refusal :=
  if s.audioCh = 0 then s.raise .badState
  else if !isValidTime (s.sarg 0) then s.raise .badArg
  else if !isCount (s.arg 1) then s.raise .badArg
  else s.finish (countBits (s.alignedCut (s.sarg 0) (s.arg 1))) 0#64 0#64 0#64

/-! ### Extraction -/

/-- Every open source forwarded to `t` (R160). -/
def State.forwardAll (s : State) (t : Int) : State :=
  s.mapSources s.sourceOpen fun c => c.forward s.params t

/-- The copies of MX_EXTRACT (R160, R161): each owned slot of an active source, as RB_READ of the owner. -/
def State.slotRuns (s : State) (dst count : Nat) (t : Int) : List Run :=
  (List.range (2 * s.frameWidth)).flatMap fun k =>
    match s.ownerAt k with
    | some o =>
      if s.isActive o.source then
        (s.source o.source).readRuns s.params dst count t o.chan k s.frameWidth
      else []
    | none => []

/-- Every active source tagged with the window `[t, t + n)` and flushed (R160). -/
def State.consume (s : State) (t : Int) (n : Nat) : State :=
  s.mapSources s.isActive fun c => (c.tag s.params t n).flush s.params

/-- MX_EXTRACT's start regresses behind `head` (R160). -/
def State.regresses (s : State) : Bool :=
  decide (s.head ≠ invalidBits ∧ s.muxStart < s.head.toInt)

/-- The start MX_EXTRACT uses (R160, R302). -/
def State.extractStart (s : State) : Int := if s.regresses then s.head.toInt else s.muxStart

/-- The sources as MX_EXTRACT meets them: forwarded to `head` where the start regresses (R160). -/
def State.forwarded (s : State) : State := if s.regresses then s.forwardAll s.head.toInt else s

/-- The length in bytes of a block of `n` frames (R160). -/
def State.blockBytes (s : State) (n : Nat) : Nat := n * 2 * s.frameWidth * s.params.subframeBytes

/-- The runs of MX_EXTRACT: zeros over the whole block, then the copies (R160, R161). -/
def State.blockRuns (s : State) (dst n : Nat) (t : Int) : List Run :=
  (dst, List.replicate (s.blockBytes n) 0#8) :: s.slotRuns dst n t

/-- The end of a block of `n` frames from MX_EXTRACT's start (R160). -/
def State.extractStop (s : State) (n : Nat) : Int := s.extractStart + framesToTicks s.params n

/-- MX_EXTRACT (R160). A NOT_READY raised after the forwards keeps them (R264). -/
def execMxExtract (s : State) : Host.Outcome State Fault Refusal :=
  let n := s.arg 0
  let dst := s.arg 1
  let start := s.extractStart
  let f := s.forwarded
  if s.audioCh = 0 then s.raise .badState
  else if n < 1 ∨ n > u32Max then s.raise .badArg
  else if !inRange s.params dst (s.blockBytes n) then s.raise .dmemFault
  else if s.active = [] then s.raise .notReady
  else if s.extractStop n > int64Max then s.raise .badArg
  else if f.active = [] ∨ n > f.virtualAvail start then f.raise .notReady
  else
    { (f.storeRuns .mxExtract (f.blockRuns dst n start)).consume start n with
      head := timeBits (s.extractStop n) }.finish
      (timeBits start) (countBits n) (countBits (s.blockBytes n)) 0#64

/-- The sum over the owned slots of `g` of the owner, shifted to the slot's place (R165). -/
def State.sumSlots (s : State) (width : Nat) (g : Owner → Nat) : DWord :=
  countBits ((List.range 16).map fun k =>
    match s.ownerAt k with
    | some o => g o * 2 ^ (width * k)
    | none => 0).sum

/-- MX_SLOT_MAP (R165). -/
def execMxSlotMap (s : State) : Host.Outcome State Fault Refusal :=
  s.finish (s.sumSlots 1 fun _ => 1) (s.sumSlots 4 Owner.source) (s.sumSlots 4 Owner.chan)
    (countBits s.audioCh ||| (countBits s.declaredOnly.toNat <<< 8))

end Sys2Proof.Machine
end

