-- ==== Sys2Proof/Machine/PixelCodec.lean ====
section
/-! DEFINITION. The pixel codec commands (44_pixel_codec.md). -/

namespace Sys2Proof.Machine

open Sys2Proof.Config (Params)

/-! ### The packed group -/

/-- `Clip(v)` (R221). -/
def clip (v : HalfWord) : Sample := BitVec.ofNat 10 (min (max v.toNat 4) 1019)

/-- A packed word: positions at bits 9:0, 19:10 and 29:20, bits 31:30 zero (R220). -/
def pack3 (p0 p1 p2 : Sample) : Word := 0#2 ++ p2 ++ p1 ++ p0

/-- Position `k` of a packed word (R220). -/
def field3 (w : Word) (k : Nat) : Sample := w.extractLsb' (10 * k) 10

/-- The four words of a group of six luma and three pairs of chroma positions (R220). -/
def packGroup (y u v : Nat → Sample) : List Word :=
  [pack3 (u 0) (y 0) (v 0), pack3 (y 1) (u 1) (y 2), pack3 (v 1) (y 3) (u 2),
    pack3 (y 4) (v 2) (y 5)]

/-- Luma position `t` of a group (R220). -/
def lumaOf (w : Nat → Word) : Nat → Sample
  | 0 => field3 (w 0) 1
  | 1 => field3 (w 1) 0
  | 2 => field3 (w 1) 2
  | 3 => field3 (w 2) 1
  | 4 => field3 (w 3) 0
  | _ => field3 (w 3) 2

/-- `Cb` position `t` of a group (R220). -/
def cbOf (w : Nat → Word) : Nat → Sample
  | 0 => field3 (w 0) 0
  | 1 => field3 (w 1) 1
  | _ => field3 (w 2) 2

/-- `Cr` position `t` of a group (R220). -/
def crOf (w : Nat → Word) : Nat → Sample
  | 0 => field3 (w 0) 2
  | 1 => field3 (w 2) 0
  | _ => field3 (w 3) 1

/-- A group's 16 bytes, as its words lie in memory (R62, R220). -/
def groupBytes (ws : List Word) : List Byte := ws.flatMap le32

/-- A sample's 16-bit container, as it lies in memory (R62). -/
def sampleBytes (v : Sample) : List Byte := le16 (v.setWidth 16)

/-! ### Word arrays -/

/-- The word that PX_PACK_WORDS packs for an input: clipped with C, its low ten bits without (R222). -/
def packedWord (c : Bool) (v : HalfWord) : Sample := if c then clip v else v.setWidth 10

/-- The words of group `g` of PX_PACK_WORDS: six inputs on the luma positions, chroma 0 (R222). -/
def State.wordGroup (s : State) (c : Bool) (g : Nat) : List Word :=
  packGroup (fun t => packedWord c (s.read16 (s.arg 0 + 2 * (6 * g + t)))) (fun _ => 0#10)
    fun _ => 0#10

/-- The runs of PX_PACK_WORDS: one per group (R222). -/
def State.packWordRuns (s : State) (c : Bool) : List Run :=
  (List.range (s.arg 1 / 6)).map fun g => (s.arg 2 + 16 * g, groupBytes (s.wordGroup c g))

/-- PX_PACK_WORDS (R222). -/
def execPxPackWords (c : Bool) (s : State) : Host.Outcome State Fault Refusal :=
  let n := s.arg 1
  if !isCount n then s.raise .badArg
  else if n % 6 ≠ 0 then s.raise .badArg
  else if !(inRange s.params (s.arg 0) (2 * n) && inRange s.params (s.arg 2) (16 * (n / 6))) then
    s.raise .dmemFault
  else
    (s.storeRuns (.pxPackWords c) (s.packWordRuns c)).finish (countBits (16 * (n / 6))) 0#64 0#64 0#64

/-- Word `j` that PX_UNPACK_WORDS produces: luma position `j mod 6` of group `j / 6` (R223). -/
def State.unpackedWord (s : State) (j : Nat) : Sample :=
  lumaOf (fun k => s.read32 (s.arg 0 + 16 * (j / 6) + 4 * k)) (j % 6)

/-- The runs of PX_UNPACK_WORDS: one per word (R223). -/
def State.unpackWordRuns (s : State) : List Run :=
  (List.range (s.arg 1)).map fun j => (s.arg 2 + 2 * j, sampleBytes (s.unpackedWord j))

/-- PX_UNPACK_WORDS (R223). -/
def execPxUnpackWords (s : State) : Host.Outcome State Fault Refusal :=
  let n := s.arg 1
  if !isCount n then s.raise .badArg
  else if n % 6 ≠ 0 then s.raise .badArg
  else if !(inRange s.params (s.arg 0) (16 * (n / 6)) && inRange s.params (s.arg 2) (2 * n)) then
    s.raise .dmemFault
  else (s.storeRuns .pxUnpackWords s.unpackWordRuns).finish (countBits n) 0#64 0#64 0#64

/-! ### Picture planes -/

/-- The address of sample `x` of row `r` of the luma plane (R224). -/
def lumaAddr (p : Picture) (r x : Nat) : Nat := p.luma + r * p.lumaPitch + 2 * x

/-- The address of sample `x` of row `r` of the `Cb` plane (R224). -/
def cbAddr (p : Picture) (r x : Nat) : Nat := p.cb + r * p.chromaPitch + 2 * x

/-- The address of sample `x` of row `r` of the `Cr` plane (R224). -/
def crAddr (p : Picture) (r x : Nat) : Nat := p.cr + r * p.chromaPitch + 2 * x

/-- The address of group `g` of row `r` of the packed rows (R224). -/
def groupAddr (p : Picture) (r g : Nat) : Nat := p.packed + r * p.stride + 16 * g

/-- The luma sample at position `x` of row `r`, clipped; 0 past the row's width (R224). -/
def State.lumaSample (s : State) (p : Picture) (r x : Nat) : Sample :=
  if x < p.width then clip (s.read16 (lumaAddr p r x)) else 0#10

/-- The `Cb` sample at position `x` of row `r`, clipped; 0 past the row's width (R224). -/
def State.cbSample (s : State) (p : Picture) (r x : Nat) : Sample :=
  if x < p.width / 2 then clip (s.read16 (cbAddr p r x)) else 0#10

/-- The `Cr` sample at position `x` of row `r`, clipped; 0 past the row's width (R224). -/
def State.crSample (s : State) (p : Picture) (r x : Nat) : Sample :=
  if x < p.width / 2 then clip (s.read16 (crAddr p r x)) else 0#10

/-- The packed words of group `g` of row `r` (R224). -/
def State.packedGroup (s : State) (p : Picture) (r g : Nat) : List Word :=
  packGroup (fun t => s.lumaSample p r (6 * g + t)) (fun t => s.cbSample p r (3 * g + t))
    fun t => s.crSample p r (3 * g + t)

/-- The runs of PX_PACK_PLANE: one per group (R224). -/
def State.packRuns (s : State) (p : Picture) : List Run :=
  (List.range p.height).flatMap fun r =>
    (List.range (pictureGroups p)).map fun g =>
      (groupAddr p r g, groupBytes (s.packedGroup p r g))

/-- PX_PACK_PLANE (R224). -/
def execPxPackPlane (s : State) : Host.Outcome State Fault Refusal :=
  let p := packPicture s.args
  if !pictureOk p then s.raise .badArg
  else if !pictureInRange s.params p then s.raise .dmemFault
  else
    (s.storeRuns .pxPackPlane (s.packRuns p)).finish (countBits (16 * pictureGroups p))
      (countBits p.height) 0#64 0#64

/-- The runs of PX_UNPACK_PLANE for group `g` of row `r`: the luma samples, then `Cb` and `Cr` sample by
sample, each only inside the row's width (R226). -/
def State.unpackGroupRuns (s : State) (p : Picture) (r g : Nat) : List Run :=
  let w := fun k => s.read32 (groupAddr p r g + 4 * k)
  (List.range 6).filterMap (fun t =>
      if 6 * g + t < p.width then some (lumaAddr p r (6 * g + t), sampleBytes (lumaOf w t))
      else none) ++
    (List.range 3).flatMap fun t =>
      if 3 * g + t < p.width / 2 then
        [(cbAddr p r (3 * g + t), sampleBytes (cbOf w t)),
          (crAddr p r (3 * g + t), sampleBytes (crOf w t))]
      else []

/-- The runs of PX_UNPACK_PLANE (R226). -/
def State.unpackRuns (s : State) (p : Picture) : List Run :=
  (List.range p.height).flatMap fun r =>
    (List.range (pictureGroups p)).flatMap fun g => s.unpackGroupRuns p r g

/-- PX_UNPACK_PLANE (R226). -/
def execPxUnpackPlane (s : State) : Host.Outcome State Fault Refusal :=
  let p := unpackPicture s.args
  if !pictureOk p then s.raise .badArg
  else if !pictureInRange s.params p then s.raise .dmemFault
  else
    (s.storeRuns .pxUnpackPlane (s.unpackRuns p)).finish
      (countBits (16 * pictureGroups p)) (countBits p.height) 0#64 0#64

end Sys2Proof.Machine
end

