-- ==== Sys2Proof/Machine/RingBuffer.lean ====
section
/-! DEFINITION. The per-source audio ring buffer commands (41_ring_buffer.md). -/

namespace Sys2Proof.Machine

/-- The context after RB_PUSH of the bytes `bs`, which are `f` frames from time `pts` (R103). -/
def Source.push (c : Source) (pts : DWord) (f : Nat) (bs : List Byte) : Source :=
  { c with chunks := c.chunks ++ [⟨pts, f⟩], data := c.data ++ bs }

/-- RB_PUSH (R103). -/
def execRbPush (src : Nat) (s : State) : Host.Outcome State Fault Refusal :=
  let P := s.params
  let c := s.source src
  let addr := s.arg 0
  let len := s.arg 1
  let pts := s.sarg 2
  let f := len / c.frameBytes P
  if !s.sourceOpen src then s.raise .badSource
  else if !isCount len then s.raise .badArg
  else if !isValidTime pts then s.raise .badArg
  else if len % c.frameBytes P ≠ 0 then s.raise .badArg
  else if pts + framesToTicks P f > int64Max then s.raise .badArg
  else if !inRange P addr len then s.raise .dmemFault
  else if len = 0 then s.finish 0#64 0#64 0#64 0#64
  else if c.data.length + len > P.ringBytes then s.raise .noResource
  else if c.chunks.length = P.chunkSlots then s.raise .noResource
  else
    (s.setSource src (c.push (s.argBits 2) f (s.readBytes addr len))).finish
      (countBits f) 0#64 0#64 0#64

/-- RB_BUFFER_START (R104). -/
def execRbBufferStart (src : Nat) (s : State) : Host.Outcome State Fault Refusal :=
  if !s.sourceOpen src then s.raise .badSource
  else s.finish (timeBits ((s.source src).bufferStart s.params)) 0#64 0#64 0#64

/-- RB_AVAILABLE (R105). -/
def execRbAvailable (src : Nat) (s : State) : Host.Outcome State Fault Refusal :=
  if !s.sourceOpen src then s.raise .badSource
  else s.finish (countBits ((s.source src).avail s.params (s.sarg 0))) 0#64 0#64 0#64

/-- RB_READ (R106). -/
def execRbRead (src : Nat) (s : State) : Host.Outcome State Fault Refusal :=
  let P := s.params
  let c := s.source src
  let dst := s.arg 0
  let count := s.arg 1
  let chan := s.arg 3
  let slot := s.arg 4
  let width := s.arg 5
  if !s.sourceOpen src then s.raise .badSource
  else if !isCount count then s.raise .badArg
  else if !isValidTime (s.sarg 2) then s.raise .badArg
  else if width < 1 ∨ width > 8 then s.raise .badArg
  else if chan ≥ c.nsub then s.raise .badArg
  else if slot ≥ 2 * width then s.raise .badArg
  else if !inRange P dst (count * 2 * width * P.subframeBytes) then s.raise .dmemFault
  else
    (s.storeRuns (.rbRead src) (c.readRuns P dst count (s.sarg 2) chan slot width)).finish
      (countBits (c.readRuns P dst count (s.sarg 2) chan slot width).length) 0#64 0#64 0#64

/-- RB_FLUSH_CONSUMED (R107). -/
def execRbFlushConsumed (src : Nat) (s : State) : Host.Outcome State Fault Refusal :=
  let c := s.source src
  if !s.sourceOpen src then s.raise .badSource
  else (s.setSource src (c.flush s.params)).finish (countBits c.tagged) 0#64 0#64 0#64

/-- RB_TAG_VIRTUAL_CONSUMED (R108). -/
def execRbTagVirtualConsumed (src : Nat) (s : State) : Host.Outcome State Fault Refusal :=
  let c := s.source src
  let n := s.arg 1
  if !s.sourceOpen src then s.raise .badSource
  else if !isValidTime (s.sarg 0) then s.raise .badArg
  else if !isCount n then s.raise .badArg
  else
    (s.setSource src (c.tag s.params (s.sarg 0) n)).finish
      (timeBits ((c.taggedAfter s.params (s.sarg 0) n : Int) - (c.tagged : Int))) 0#64 0#64 0#64

/-- RB_FORWARD_TO (R109). -/
def execRbForwardTo (src : Nat) (s : State) : Host.Outcome State Fault Refusal :=
  let c := s.source src
  if !s.sourceOpen src then s.raise .badSource
  else if !isValidTime (s.sarg 0) then s.raise .badArg
  else
    (s.setSource src (c.forward s.params (s.sarg 0))).finish
      (countBits (c.forwardCount s.params (s.sarg 0))) 0#64 0#64 0#64

/-- RES3 of RB_INFO (R110). -/
def Source.infoWord (c : Source) : DWord :=
  1#64 ||| (countBits c.nsub <<< 8) ||| (countBits c.pcm.toNat <<< 16) |||
    (countBits c.slots.length <<< 24)

/-- RB_INFO (R110). -/
def execRbInfo (src : Nat) (s : State) : Host.Outcome State Fault Refusal :=
  let c := s.source src
  if ¬ src < s.params.maxSources then s.raise .badSource
  else if !c.isOpen then s.finish 0#64 0#64 0#64 0#64
  else
    s.finish (countBits c.total) (countBits c.tagged) (countBits c.chunks.length) c.infoWord

end Sys2Proof.Machine
end

