-- ==== Sys2Proof/Machine/Dispatch.lean ====
section
/-! DEFINITION. What each command does, for the port that the executor serves. -/

namespace Sys2Proof.Machine

def exec (i : Instr) (s : State) : Host.Outcome State Fault Refusal :=
  match i with
  | .nop => Sys2Proof.Machine.execNop s
  | .rbPush src => Sys2Proof.Machine.execRbPush src s
  | .rbBufferStart src => Sys2Proof.Machine.execRbBufferStart src s
  | .rbAvailable src => Sys2Proof.Machine.execRbAvailable src s
  | .rbRead src => Sys2Proof.Machine.execRbRead src s
  | .rbFlushConsumed src => Sys2Proof.Machine.execRbFlushConsumed src s
  | .rbTagVirtualConsumed src => Sys2Proof.Machine.execRbTagVirtualConsumed src s
  | .rbForwardTo src => Sys2Proof.Machine.execRbForwardTo src s
  | .rbInfo src => Sys2Proof.Machine.execRbInfo src s
  | .mxSetAudioConfig d => Sys2Proof.Machine.execMxSetAudioConfig d s
  | .mxAddMapping src x a m => Sys2Proof.Machine.execMxAddMapping src x a m s
  | .mxRemoveMapping src => Sys2Proof.Machine.execMxRemoveMapping src s
  | .mxBufferStart => Sys2Proof.Machine.execMxBufferStart s
  | .mxAvailableVirtual => Sys2Proof.Machine.execMxAvailableVirtual s
  | .mxAlignedInterleave => Sys2Proof.Machine.execMxAlignedInterleave s
  | .mxExtract => Sys2Proof.Machine.execMxExtract s
  | .mxSlotMap => Sys2Proof.Machine.execMxSlotMap s
  | .ancData10 p => Sys2Proof.Machine.execAncData10 p s
  | .ancPad => Sys2Proof.Machine.execAncPad s
  | .ancAfd p => Sys2Proof.Machine.execAncAfd p s
  | .ancCaptions p => Sys2Proof.Machine.execAncCaptions p s
  | .ancParse => Sys2Proof.Machine.execAncParse s
  | .cdpParse => Sys2Proof.Machine.execCdpParse s
  | .pxPackPlane => Sys2Proof.Machine.execPxPackPlane s
  | .pxPackWords c => Sys2Proof.Machine.execPxPackWords c s
  | .pxUnpackPlane => Sys2Proof.Machine.execPxUnpackPlane s
  | .pxUnpackWords => Sys2Proof.Machine.execPxUnpackWords s

end Sys2Proof.Machine
end

