-- ==== Sys2Proof/Machine/Serve.lean ====
section
/-! DEFINITION. The executor's step: it takes a port's pending command and performs it (20_memory.md rules
R70, R71; 60_exceptions.md rule R261). -/

namespace Sys2Proof.Machine

/-- A step is taken: the next one has the next free choice and draw. -/
def State.tick (s : State) : State := { s with steps := s.steps + 1, draws := s.draws + 1 }

/-- The executor takes port `p`'s command (R70, R71). -/
def State.serve (s : State) (p : Fin 15) : State := { s.tick with serving := p }

/-- The executor performs the command word `w` of the port it serves: BAD_OPCODE where `w` is no valid
encoding, checked before any rule of the command (R261), and the command's rule otherwise. -/
def State.perform (s : State) (w : Word) : Host.Outcome State Fault Refusal :=
  match decode w with
  | .ok i => exec i s
  | .error _ => s.raise .badOpcode

/-- The executor's step for port `p` (R70). -/
def State.execStep (s : State) (p : Fin 15) : Host.Outcome State Fault Refusal :=
  match s.ports[p].pending with
  | some c => (s.serve p).perform c.word
  | none => .next s

end Sys2Proof.Machine
end

