-- ==== Sys2Proof/Machine/Agents.lean ====
section
/-! DEFINITION. The agents of the block (00_scope.md rule R13) and what one step of each does: the executor
performing a pending command, or a host making its next access (10_state.md rule R21; 20_memory.md rules R70 to
R73), but for what a host reads of the data memory, which Races.lean adds. -/

namespace Sys2Proof.Machine

/-! ### What pending commands remember of the hosts (R73) -/

/-- A host has written byte `a`: every pending command remembers it (R73). -/
def Port.noteHostWrite (p : Port) (a : Nat) : Port :=
  { p with pending := p.pending.map fun c => { c with hostWrote := a :: c.hostWrote } }

/-- A host has read byte `a`: every pending command remembers it (R73). -/
def Port.noteHostRead (p : Port) (a : Nat) : Port :=
  { p with pending := p.pending.map fun c => { c with hostRead := a :: c.hostRead } }

/-! ### Steps of a host -/

/-- Host `p` has made its first action, and its last read returned `v`. -/
def State.hostDone (s : State) (p : Fin 15) (v : Word) : State :=
  s.setHost p ⟨s.hosts[p].actions.tail, v⟩

/-- Host `p`'s first action, `x` (R21, R72); a WAIT ends here, with a read of STATUS (R91). A read of the data
memory returns the memory's byte. -/
def State.hostAct (s : State) (p : Fin 15) (x : HostAction) : Host.Outcome State Fault Refusal :=
  let v := s.hosts[p].lastRead
  match x with
  | .regRead off width =>
    if isHostAccess off width then
      .next (s.hostDone p (s.readReg (hostReg s.params.nports off)))
    else .refused .badHostAccess
  | .regWrite off width w =>
    if isHostAccess off width then
      .next ((s.writeReg (hostReg s.params.nports off) w).hostDone p v)
    else .refused .badHostAccess
  | .dmemRead a =>
    if a < s.params.dmemSize then
      .next (({ s with ports := Vector.ofFn fun q => s.ports[q].noteHostRead a }).hostDone p
        ((Memory.read s.dmem a).setWidth 32))
    else .fault .hostDmemRange
  | .dmemWrite a b =>
    if a < s.params.dmemSize then
      .next ({ s with
        dmem := Memory.write s.dmem a b,
        ports := Vector.ofFn fun q => s.ports[q].noteHostWrite a }.hostDone p v)
    else .fault .hostDmemRange
  | .wait => .next (s.hostDone p s.ports[p].statusWord)

/-- Host `p` waits, and its port is BUSY (R91). -/
def State.hostWaits (s : State) (p : Fin 15) : Bool :=
  decide (s.hosts[p].actions.head? = some .wait) && s.ports[p].busy

/-- Host `p` reads STATUS once more, and will again (R91). -/
def State.readsBusy (s : State) (p : Fin 15) : State :=
  { s with steps := s.steps + 1 }.setHost p ⟨s.hosts[p].actions, s.ports[p].statusWord⟩

/-- Host `p`'s step, where nothing races with what it reads. -/
def State.hostMove (s : State) (p : Fin 15) : Host.Outcome State Fault Refusal :=
  if s.hostWaits p then .next (s.readsBusy p)
  else
    match s.hosts[p].actions with
    | x :: _ => s.tick.hostAct p x
    | [] => .next s

/-! ### Agents -/

/-- The agents of R13: the executor at each port it can serve, and each port's host. -/
inductive Agent where
  | exec (p : Fin 15)
  | host (p : Fin 15)
deriving DecidableEq, Repr

/-- The number by which a schedule names an agent. -/
def Agent.number : Agent → Nat
  | .exec p => p.val
  | .host p => 15 + p.val

/-- All agents. -/
def agents : List Agent := (List.finRange 15).map .exec ++ (List.finRange 15).map .host

/-- The agent can move: its port exists, and it has a pending command, or a next access. -/
def State.canMove (s : State) : Agent → Bool
  | .exec p => decide (p.val < s.params.nports) && s.ports[p].busy
  | .host p => decide (p.val < s.params.nports) && !s.hosts[p].actions.isEmpty

end Sys2Proof.Machine
end

