-- ==== Sys2Proof/Machine/Races.lean ====
section
/-! DEFINITION. What a host reads while commands are pending (20_memory.md rules R72, R73;
70_reset_and_hazards.md rule R301): the states in which a pending command may be performed (20_memory.md rule
R71), its buffers in each of them, and the draws of the reads that race with them. -/

namespace Sys2Proof.Machine

/-! ### The states in which a pending command may be performed (R71) -/

/-- One step of agent `x`, where nothing races with what a host reads. -/
def State.agentMove (s : State) : Agent → Host.Outcome State Fault Refusal
  | .exec p => s.execStep p
  | .host p => s.hostMove p

/-- A step of `x` changes nothing that a later step depends on: a WAIT reads BUSY again. -/
def State.idles (s : State) : Agent → Bool
  | .exec _ => false
  | .host p => s.hostWaits p

/-- The states to which one step of an agent leads and in which port `p`'s command is still pending. -/
def State.nexts (s : State) (p : Fin 15) : List State :=
  (agents.filter fun x => s.canMove x && !s.idles x && decide (x ≠ .exec p)).filterMap fun x =>
    match s.agentMove x with
    | .next t => if t.ports[p].busy then some t else none
    | .fault _ => none
    | .refused _ => none

/-- The states to which at most `n` steps lead, port `p`'s command being pending in each. -/
def futuresWithin : Nat → State → Fin 15 → List State
  | 0, s, _ => [s]
  | n + 1, s, p => s :: (s.nexts p).flatMap fun t => futuresWithin n t p

/-- No run takes more steps than this before nothing but a WAIT can move: a host's access may issue a command,
which the executor performs in one step. -/
def State.stepsToCome (s : State) : Nat :=
  ((List.finRange 15).map fun q =>
    2 * s.hosts[q].actions.length + if s.ports[q].busy then 1 else 0).sum

/-- The states in which port `p`'s pending command may be performed: in every order of what the other ports
have pending and what the hosts will still do (R71). They are what they will be but for what hosts read of the
data memory, on which nothing depends. -/
def State.futures (s : State) (p : Fin 15) : List State := futuresWithin s.stepsToCome s p

/-! ### The buffers of a pending command -/

/-- Port `p`'s command would complete with OK if it were performed next. -/
def State.wouldSucceed (s : State) (p : Fin 15) : Bool :=
  match s.execStep p with
  | .next t => decide (t.ports[p].code = .ok)
  | .fault _ => false
  | .refused _ => false

/-- The checks of the command ask for the block's state, and come before it reads or writes a byte. -/
def asksBlock (i : Instr) : Bool := decide (i = .mxExtract) || i.source?.isSome

/-- The buffers of port `p`'s pending command if it were performed next (R301): none where a check of its
arguments or of the block's state fails, or where its word is no valid encoding (R261). -/
def State.buffersAt (s : State) (p : Fin 15) : Buffers :=
  match (s.serve p).performed with
  | some i => if asksBlock i && !s.wouldSucceed p then ⟨[], []⟩ else (s.serve p).buffers i
  | none => ⟨[], []⟩

/-! ### What a host reads -/

/-- A host's read of byte `a`, which is the last access that the pending commands remember, races with port
`p`'s (R73): in some state in which that may be performed, the byte lies in a range of its that hosts have by
now raced with. -/
def State.readRaces (s : State) (p : Fin 15) (a : Nat) : Bool :=
  match s.ports[p].pending with
  | some c =>
    (s.futures p).any fun u =>
      (u.buffersAt p).raced ((u.buffersAt p).violations c.hostWrote c.hostRead) a
  | none => false

/-- What a host that has made a read of DMEM address `a` got: the memory's byte, or a draw where the read
races with a pending command (R72, R73). -/
def State.hostReadByte (s : State) (a : Nat) : Byte :=
  if (List.finRange 15).any fun p => s.readRaces p a then Config.raceByte .hostRead s.draws a
  else Memory.read s.dmem a

end Sys2Proof.Machine
end

