-- ==== Sys2Proof/Machine/Executor.lean ====
section
/-! DEFINITION. One step of an agent of the block, which of them moves, and runs under a schedule (00_scope.md
rule R13; 20_memory.md rules R70 to R73; 70_reset_and_hazards.md rule R305). -/

namespace Sys2Proof.Machine

/-! ### Steps of an agent -/

/-- Host `p`'s step. What it reads of the data memory is a draw where the read races (R73). -/
def State.hostStep (s : State) (p : Fin 15) : Host.Outcome State Fault Refusal :=
  match s.hosts[p].actions.head?, s.hostMove p with
  | some (.dmemRead a), .next t => .next (t.setHost p ⟨t.hosts[p].actions, (t.hostReadByte a).setWidth 32⟩)
  | _, r => r

/-- One step of agent `x`. -/
def State.agentStep (s : State) : Agent → Host.Outcome State Fault Refusal
  | .exec p => s.execStep p
  | .host p => s.hostStep p

/-! ### The choice among the agents -/

/-- The agents that can move. -/
def State.movers (s : State) : List Agent := agents.filter s.canMove

/-- The agent that moves under the schedule `f`: the one `f` names, where it can move, else the first
that can. Any agent that can move is the one some schedule picks (R71). -/
def State.pick (s : State) (f : Nat → Nat) : Option Agent :=
  match s.movers with
  | [] => none
  | [x] => some x
  | x :: y :: rest =>
    some (((x :: y :: rest).find? fun z => decide (z.number = f s.steps)).getD x)

/-- One step under the schedule `f`. Where no agent can move, nothing changes (R306). -/
def stepBy (f : Nat → Nat) (s : State) : Host.Outcome State Fault Refusal :=
  match s.pick f with
  | some x => s.agentStep x
  | none => .next s

/-- `k` steps under the schedule `f`, stopping at the first fault or refusal. -/
def runBy (f : Nat → Nat) : Nat → State → Host.Outcome State Fault Refusal
  | 0, s => .next s
  | k + 1, s =>
    match stepBy f s with
    | .next t => runBy f k t
    | .fault r => .fault r
    | .refused r => .refused r

/-- A schedule that names every agent again and again: the weak fairness of R305. -/
def isFair (f : Nat → Nat) : Prop := ∀ n x : Nat, ∃ m, n ≤ m ∧ f m = x

/-- `s` with the word `w` accepted at port 0, as by a host's write to its CMD register (R24), as the only
thing any agent can do next: no other command pends and no host has an access to make. -/
def State.presentWord (s : State) (w : Word) : State :=
  { s with
    ports := Vector.ofFn fun p : Fin 15 =>
      if p = 0 then { s.ports[p] with pending := none }.writeCmd w
      else { s.ports[p] with pending := none }
    hosts := Vector.ofFn fun p : Fin 15 => ⟨[], s.hosts[p].lastRead⟩ }

end Sys2Proof.Machine
end

