-- ==== Sys2Proof/Machine/Assembler.lean ====
section
/-! DEFINITION. The assembler lines and pseudo-instructions of 30_encoding.md rules R90 to R92, as the host
accesses they expand to. The lines are structured data: the spec's text form is `render`. -/

namespace Sys2Proof.Machine

/-- An operand of a line (R90): a number, `INVALID`, a bracketed slot list (ARG1 and ARG2 of
MX_ADD_MAPPING), or `W, H` (ARG7 of the plane commands). -/
inductive AsmOperand where
  | number (v : Int)
  | invalid
  | slots (list : List Nat)
  | size (w h : Nat)
deriving DecidableEq, Repr

/-- The argument values of an operand, in order (R86, R87, R90). What a number stands for that does not fit
its register, or a width or height that does not fit 32 bits, R90 does not say: the model takes the low bits.
DESIGN CHOICE (log entry 15). -/
def AsmOperand.values : AsmOperand → List DWord
  | .number v => [BitVec.ofInt 64 v]
  | .invalid => [invalidBits]
  | .slots list => [BitVec.ofNat 64 (packSlots list), BitVec.ofNat 64 list.length]
  | .size w h => [BitVec.ofNat 32 h ++ BitVec.ofNat 32 w]

/-- The offset of port `p`'s registers: `B(p) = 0x100 × (p + 1)` (R20). -/
def portBase (p : Nat) : Nat := 0x100 * (p + 1)

/-- `SETARG n, v`: write ARGn_LO, then ARGn_HI (R91). -/
def setArg (p n : Nat) (v : DWord) : List HostAction :=
  [.regWrite (portBase p + 0x10 + 8 * n) 4 (half v false),
    .regWrite (portBase p + 0x14 + 8 * n) 4 (half v true)]

/-- The argument writes of a line, from argument `n` on (R91). -/
def setArgs (p : Nat) : Nat → List DWord → List HostAction
  | _, [] => []
  | n, v :: vs => setArg p n v ++ setArgs p (n + 1) vs

/-- `CLRST`: clear DONE, ERR and OVR (R91). -/
def clrst (p : Nat) : List HostAction := [.regWrite (portBase p + 0x04) 4 0x0000000E#32]

/-- `RESET`: write 1 to CTRL (R91). -/
def resetLine : List HostAction := [.regWrite 0x004 4 0x00000001#32]

/-- One line on port `p`: its arguments, then its command word (R91, R92). What a line stands for that gives
more than eight arguments, or a source that does not fit the SRC field, R90 does not say: the model writes on
past the argument registers, where the window ignores writes (R20), and takes the source's low eight bits.
DESIGN CHOICE (log entry 15). -/
def asmLine (p : Nat) (i : Instr) (operands : List AsmOperand) : List HostAction :=
  setArgs p 0 (operands.flatMap AsmOperand.values) ++ [.regWrite (portBase p) 4 (encode i)]

/-- The mnemonic of a command (R83). -/
def mnemonic : Instr → String
  | .nop => "NOP"
  | .rbPush _ => "RB_PUSH"
  | .rbBufferStart _ => "RB_BUFFER_START"
  | .rbAvailable _ => "RB_AVAILABLE"
  | .rbRead _ => "RB_READ"
  | .rbFlushConsumed _ => "RB_FLUSH_CONSUMED"
  | .rbTagVirtualConsumed _ => "RB_TAG_VIRTUAL_CONSUMED"
  | .rbForwardTo _ => "RB_FORWARD_TO"
  | .rbInfo _ => "RB_INFO"
  | .mxSetAudioConfig _ => "MX_SET_AUDIO_CONFIG"
  | .mxAddMapping _ _ _ _ => "MX_ADD_MAPPING"
  | .mxRemoveMapping _ => "MX_REMOVE_MAPPING"
  | .mxBufferStart => "MX_BUFFER_START"
  | .mxAvailableVirtual => "MX_AVAILABLE_VIRTUAL"
  | .mxAlignedInterleave => "MX_ALIGNED_INTERLEAVE"
  | .mxExtract => "MX_EXTRACT"
  | .mxSlotMap => "MX_SLOT_MAP"
  | .ancData10 _ => "ANC_DATA10"
  | .ancPad => "ANC_PAD"
  | .ancAfd _ => "ANC_AFD"
  | .ancCaptions _ => "ANC_CAPTIONS"
  | .ancParse => "ANC_PARSE"
  | .cdpParse => "CDP_PARSE"
  | .pxPackPlane => "PX_PACK_PLANE"
  | .pxPackWords _ => "PX_PACK_WORDS"
  | .pxUnpackPlane => "PX_UNPACK_PLANE"
  | .pxUnpackWords => "PX_UNPACK_WORDS"

/-- A flag's letter where it is 1 (R90). -/
def flagLetter (b : Bool) (letter : String) : String := if b then letter else ""

/-- The flag letters of a command that are 1 (R84, R90). -/
def flagLetters : Instr → String
  | .nop => ""
  | .rbPush _ => ""
  | .rbBufferStart _ => ""
  | .rbAvailable _ => ""
  | .rbRead _ => ""
  | .rbFlushConsumed _ => ""
  | .rbTagVirtualConsumed _ => ""
  | .rbForwardTo _ => ""
  | .rbInfo _ => ""
  | .mxSetAudioConfig d => flagLetter d "D"
  | .mxAddMapping _ x a m => flagLetter x "X" ++ flagLetter a "A" ++ flagLetter m "M"
  | .mxRemoveMapping _ => ""
  | .mxBufferStart => ""
  | .mxAvailableVirtual => ""
  | .mxAlignedInterleave => ""
  | .mxExtract => ""
  | .mxSlotMap => ""
  | .ancData10 p => flagLetter p "P"
  | .ancPad => ""
  | .ancAfd p => flagLetter p "P"
  | .ancCaptions p => flagLetter p "P"
  | .ancParse => ""
  | .cdpParse => ""
  | .pxPackPlane => ""
  | .pxPackWords c => flagLetter c "C"
  | .pxUnpackPlane => ""
  | .pxUnpackWords => ""

/-- An operand's text (R90). -/
def AsmOperand.text : AsmOperand → String
  | .number v => toString v
  | .invalid => "INVALID"
  | .slots list => "[" ++ String.intercalate "," (list.map toString) ++ "]"
  | .size w h => toString w ++ ", " ++ toString h

/-- The texts after a line's mnemonic: `sN` where the command takes a source, then the operands (R90). -/
def operandTexts (i : Instr) (operands : List AsmOperand) : List String :=
  (match i.source? with
    | some src => ["s" ++ toString src]
    | none => []) ++ operands.map AsmOperand.text

/-- A command's line: `MNEMONIC[.FLAGS] [sN,] a0, a1, ...` (R90). -/
def render (i : Instr) (operands : List AsmOperand) : String :=
  mnemonic i ++ (if flagLetters i = "" then "" else "." ++ flagLetters i) ++
    if (operandTexts i operands).isEmpty then ""
    else " " ++ String.intercalate ", " (operandTexts i operands)

end Sys2Proof.Machine
end

