-- ==== Sys2Proof/Safety.lean ====
section
/-! DEFINITION. What a safe state and a safe run are, in the terms the statements use: the invariants of
10_state.md rules R32, R34, R37 and 20_memory.md rule R60, what a completed command leaves unchanged
(R29, R264), and which host accesses the interface has (R21). -/

namespace Sys2Proof.Safety

open Sys2Proof.Config (Params)
open Sys2Proof.Machine

/-! ### Invariants -/

/-- The frames already discarded lie inside the oldest chunk; there are none where there is no chunk
(R32). -/
abbrev headOffInside (chunks : List Chunk) (headOff : Nat) : Prop :=
  headOff < (chunks.head?.map Chunk.frames).getD 1

/-- A pushed chunk: at least one frame, a valid time, and an end that is a TimePoint (R30, R32). -/
abbrev ChunkOk (P : Params) (k : Chunk) : Prop :=
  1 ≤ k.frames ∧ k.pts ≠ invalidBits ∧ k.pts.toInt + framesToTicks P k.frames ≤ int64Max

/-- The invariants of an open source context (R30, R32). -/
abbrev OpenOk (P : Params) (c : Source) : Prop :=
  (1 ≤ c.nsub ∧ c.nsub ≤ 16) ∧ (1 ≤ c.slots.length ∧ c.slots.length ≤ c.nsub) ∧
    (∀ k ∈ c.chunks, ChunkOk P k) ∧ headOffInside c.chunks c.headOff ∧
    c.data.length = c.total * c.frameBytes P ∧ c.chunks.length ≤ P.chunkSlots ∧
    c.data.length ≤ P.ringBytes ∧ c.tagged ≤ c.total

/-- A closed context holds nothing (R32). -/
abbrev ClosedOk (c : Source) : Prop :=
  c.slots = [] ∧ c.chunks = [] ∧ c.headOff = 0 ∧ c.data = [] ∧ c.tagged = 0

/-- The invariants of a source context (R32). -/
abbrev SourceOk (P : Params) (c : Source) : Prop :=
  if c.isOpen then OpenOk P c else ClosedOk c

/-- The parameters are legal and every source context keeps the invariants of R32. -/
abbrev RingsOk (s : State) : Prop :=
  s.params.legal = true ∧ ∀ i : Fin 16, SourceOk s.params s.sources[i]

/-- The slot owner table agrees with the slot lists of the open sources, every owned slot is below
`AUDIO_CH`, and only existing contexts are open (R30, R34). -/
abbrev SlotsOk (s : State) : Prop :=
  (∀ k : Fin 16, ∀ i : Fin 16, ∀ ch : Fin 16,
    s.owner[k] = some ⟨i.val, ch.val⟩ ↔
      s.sources[i].isOpen = true ∧ s.sources[i].slots[ch.val]? = some k.val) ∧
  (∀ k : Fin 16, ∀ o ∈ s.owner[k], o.source < 16 ∧ o.chan < 16 ∧ k.val < s.audioCh) ∧
  (∀ i : Fin 16, s.sources[i].isOpen = true →
    i.val < s.params.maxSources ∧ s.sources[i].slots.length ≤ 16 ∧
      ∀ k ∈ s.sources[i].slots, k < s.audioCh) ∧
  (∀ i : Fin 16, s.sources[i].isOpen = false → s.sources[i].slots = [])

/-- `AUDIO_CH` is one of 0, 2, 8, 16 (R37). -/
abbrev ChannelsOk (s : State) : Prop :=
  s.audioCh = 0 ∨ s.audioCh = 2 ∨ s.audioCh = 8 ∨ s.audioCh = 16

/-- The data memory has its canonical form. -/
abbrev MemoryOk (s : State) : Prop := Memory.wf s.dmem = true

/-- Only addresses below `DMEM_SIZE` are listed: no other byte exists (R60). -/
abbrev InsideDmem (s : State) : Prop := ∀ c ∈ s.dmem, c.1 < s.params.dmemSize

/-! ### What a completion leaves -/

/-- Port `s.serving` has completed its command in `t` (R29), and no other port has changed. -/
abbrev Completed (s t : State) (code : Code) (r0 r1 r2 r3 : DWord) : Prop :=
  t.ports[s.serving] =
    { s.ports[s.serving] with
      res := #v[r0, r1, r2, r3]
      code := code
      done := true
      err := s.ports[s.serving].err || decide (code ≠ .ok ∧ code ≠ .malformed)
      pending := none } ∧
  ∀ q : Fin 15, q ≠ s.serving → t.ports[q] = s.ports[q]

/-- The hosts, the executor's port, the numbers of the step and of the draw, and the parameters are
unchanged. -/
abbrev SameOutside (s t : State) : Prop :=
  t.hosts = s.hosts ∧ t.serving = s.serving ∧ t.steps = s.steps ∧ t.draws = s.draws ∧
    t.params = s.params

/-- The multiplexer's configuration is unchanged. -/
abbrev SameConfig (s t : State) : Prop :=
  t.audioCh = s.audioCh ∧ t.declaredOnly = s.declaredOnly

/-- Every source context and the slot owner table are unchanged. -/
abbrev SameSources (s t : State) : Prop := t.sources = s.sources ∧ t.owner = s.owner

/-- Every source context but `i`, and the slot owner table, are unchanged. -/
abbrev SameOtherSources (s t : State) (i : Nat) : Prop :=
  (∀ j : Nat, j ≠ i → t.source j = s.source j) ∧ t.owner = s.owner

/-- Every byte of the data memory reads as before. -/
abbrev SameDmem (s t : State) : Prop := ∀ a : Nat, Memory.read t.dmem a = Memory.read s.dmem a

/-- The multiplexer's `head` and the caption counter are unchanged. -/
abbrev SameHead (s t : State) : Prop := t.head = s.head ∧ t.cdpCounter = s.cdpCounter

/-- All block state but the ports, and the data memory, are unchanged (R264). -/
abbrev SameBlock (s t : State) : Prop :=
  SameOutside s t ∧ SameConfig s t ∧ SameSources s t ∧ SameHead s t ∧ SameDmem s t

/-- `i` answers a next state in which its command has completed with `code` and all results 0, and in which
nothing else has changed (R264). -/
abbrev Raises (s : State) (i : Instr) (code : Code) : Prop :=
  ∃ t, exec i s = .next t ∧ Completed s t code 0#64 0#64 0#64 0#64 ∧ SameBlock s t

/-- The checks of a command's pseudocode, in order: the first that fails ends the command with its code
(R262, R264); where none fails, `ok` holds. -/
def Checked (s : State) (i : Instr) : List (Prop × Code) → Prop → Prop
  | [], ok => ok
  | (bad, code) :: rest, ok => (bad → Raises s i code) ∧ (¬ bad → Checked s i rest ok)

/-- `i` answers a next state `t` in which its command has completed with OK and the four results, in which
nothing outside the block has changed, and of which `frame t` holds. -/
abbrev Succeeds (s : State) (i : Instr) (r0 r1 r2 r3 : DWord) (frame : State → Prop) : Prop :=
  ∃ t, exec i s = .next t ∧ Completed s t .ok r0 r1 r2 r3 ∧ SameOutside s t ∧ frame t

/-- `i` completes with OK and the four results and changes nothing else. -/
abbrev Reports (s : State) (i : Instr) (r0 r1 r2 r3 : DWord) : Prop :=
  Succeeds s i r0 r1 r2 r3 (SameBlock s)

/-- A source command's BAD_SOURCE test: `src >= MAX_SOURCES or not ctx[s].open`. -/
abbrev NotOpen (s : State) (src : Nat) : Prop :=
  s.params.maxSources ≤ src ∨ (s.source src).isOpen = false

/-- A non-empty range of the data memory that does not fit it (R63). -/
abbrev OutOfRange (P : Params) (addr n : Nat) : Prop := n ≠ 0 ∧ P.dmemSize < addr + n

/-- Source `i` is active (R150). -/
abbrev Active (s : State) (i : Nat) : Prop :=
  i < s.params.maxSources ∧ (s.source i).isOpen = true ∧ 0 < (s.source i).total

/-- Every byte of the data memory outside the `n` bytes at `a` reads as before. -/
abbrev SameDmemOutside (s t : State) (a n : Nat) : Prop :=
  ∀ b : Nat, ¬(a ≤ b ∧ b < a + n) → Memory.read t.dmem b = Memory.read s.dmem b

/-! ### The opcode table and the parsers' tests, as the rules write them -/

/-- The opcode map of R83 and R84: the opcode, whether it takes SRC, and its defined FLAGS bits. -/
def opcodeMap : List (BitVec 8 × Bool × BitVec 8) :=
  [(0x00#8, false, 0#8), (0x10#8, true, 0#8), (0x11#8, true, 0#8), (0x12#8, true, 0#8),
    (0x13#8, true, 0#8), (0x14#8, true, 0#8), (0x15#8, true, 0#8), (0x16#8, true, 0#8),
    (0x17#8, true, 0#8), (0x20#8, false, 1#8), (0x21#8, true, 7#8), (0x22#8, true, 0#8),
    (0x23#8, false, 0#8), (0x24#8, false, 0#8), (0x25#8, false, 0#8), (0x26#8, false, 0#8),
    (0x27#8, false, 0#8), (0x30#8, false, 1#8), (0x31#8, false, 0#8), (0x32#8, false, 1#8),
    (0x33#8, false, 1#8), (0x34#8, false, 0#8), (0x35#8, false, 0#8), (0x40#8, false, 0#8),
    (0x41#8, false, 1#8), (0x42#8, false, 0#8), (0x43#8, false, 0#8)]

/-- The validity test of R82. -/
abbrev ValidWord (w : Word) : Prop :=
  rsvdOf w = 0#8 ∧ ∃ row ∈ opcodeMap, opcOf w = row.1 ∧ flagsOf w &&& ~~~row.2.2 = 0#8 ∧
    (row.2.1 = false → srcOf w = 0#8)

/-- The tests of ANC_PARSE on an array of `m` words with LEN byte `n`, in the order of R197. -/
abbrev PacketOk (w : Nat → HalfWord) (m n : Nat) : Prop :=
  7 ≤ m ∧ (w 0 = 0x000#16 ∧ w 1 = 0x3FF#16 ∧ w 2 = 0x3FF#16) ∧ 7 + n ≤ m ∧
    (∀ j : Nat, 3 ≤ j → j ≤ 5 + n →
      w j >>> 10 = 0#16 ∧ w j = (par ((w j).setWidth 8)).setWidth 16) ∧
    w (6 + n) = (checksum ((List.range (3 + n)).map fun j => (w (3 + j)).setWidth 10)).setWidth 16

/-- The tests of CDP_PARSE on `m` bytes with triplet count `q`, in the order of R199. -/
abbrev CdpOk (b : Nat → Byte) (m q : Nat) : Prop :=
  13 ≤ m ∧ (b 0 = 0x96#8 ∧ b 1 = 0x69#8) ∧ (13 ≤ (b 2).toNat ∧ (b 2).toNat ≤ m) ∧
    b 3 &&& 0x0F#8 = 0x0F#8 ∧ (1 ≤ (b 3).toNat / 16 ∧ (b 3).toNat / 16 ≤ 8) ∧
    (b 7 = 0x72#8 ∧ b 8 &&& 0xE0#8 = 0xE0#8) ∧ (b 2).toNat = 13 + 3 * q ∧ b (9 + 3 * q) = 0x74#8 ∧
    (b (10 + 3 * q) = b 5 ∧ b (11 + 3 * q) = b 6) ∧
    ((List.range (b 2).toNat).map fun j => (b j).toNat).sum % 256 = 0

/-! ### The input and the output of a command, as the rules name them -/

/-- Byte `a` is one that command `i`, performed in state `s`, reads where its checks pass. -/
def InputOf (s : State) (i : Instr) (a : Nat) : Prop :=
  let W := s.arg 7 % 2 ^ 32
  let H := s.arg 7 / 2 ^ 32
  let within := fun base n : Nat => base ≤ a ∧ a < base + n
  match i with
  | .nop => False
  | .rbPush _ => within (s.arg 0) (s.arg 1)
  | .rbBufferStart _ => False
  | .rbAvailable _ => False
  | .rbRead _ => False
  | .rbFlushConsumed _ => False
  | .rbTagVirtualConsumed _ => False
  | .rbForwardTo _ => False
  | .rbInfo _ => False
  | .mxSetAudioConfig _ => False
  | .mxAddMapping _ _ _ _ => False
  | .mxRemoveMapping _ => False
  | .mxBufferStart => False
  | .mxAvailableVirtual => False
  | .mxAlignedInterleave => False
  | .mxExtract => False
  | .mxSlotMap => False
  | .ancData10 _ => within (s.arg 2) (s.arg 3)
  | .ancPad => False
  | .ancAfd _ => False
  | .ancCaptions _ => within (s.arg 2) (3 * s.arg 3)
  | .ancParse => within (s.arg 0) (2 * s.arg 1)
  | .cdpParse => within (s.arg 0) (s.arg 1)
  | .pxPackPlane =>
    ∃ r < H, within (s.arg 0 + r * s.arg 4) (2 * W) ∨ within (s.arg 1 + r * s.arg 5) W ∨
      within (s.arg 2 + r * s.arg 5) W
  | .pxPackWords _ => within (s.arg 0) (2 * s.arg 1)
  | .pxUnpackPlane => ∃ r < H, within (s.arg 0 + r * s.arg 4) (16 * ((W + 5) / 6))
  | .pxUnpackWords => within (s.arg 0) (16 * (s.arg 1 / 6))

/-- Byte `a` is one that command `i`, performed in state `s`, writes where its checks pass: frame by frame,
word by word, row by row as its rule says. -/
def OutputOf (s : State) (i : Instr) (a : Nat) : Prop :=
  let SB := s.params.subframeBytes
  let W := s.arg 7 % 2 ^ 32
  let H := s.arg 7 / 2 ^ 32
  let within := fun base n : Nat => base ≤ a ∧ a < base + n
  let padded := fun (p : Bool) (m : Nat) => m + if p then (6 - m % 6) % 6 else 0
  match i with
  | .nop => False
  | .rbPush _ => False
  | .rbBufferStart _ => False
  | .rbAvailable _ => False
  | .rbRead src =>
    ∃ i j : Nat, i < s.arg 1 ∧ (i : Int) - (s.source src).offset s.params (s.sarg 2) = j ∧
      j < (s.source src).total ∧ within (s.arg 0 + (i * 2 * s.arg 5 + s.arg 4) * SB) SB
  | .rbFlushConsumed _ => False
  | .rbTagVirtualConsumed _ => False
  | .rbForwardTo _ => False
  | .rbInfo _ => False
  | .mxSetAudioConfig _ => False
  | .mxAddMapping _ _ _ _ => False
  | .mxRemoveMapping _ => False
  | .mxBufferStart => False
  | .mxAvailableVirtual => False
  | .mxAlignedInterleave => False
  | .mxExtract => within (s.arg 1) (s.arg 0 * 2 * (s.audioCh / 2) * SB)
  | .mxSlotMap => False
  | .ancData10 p => within (s.arg 4) (2 * padded p (7 + s.arg 3))
  | .ancPad => within (s.arg 0 + 2 * s.arg 1) (2 * ((6 - s.arg 1 % 6) % 6))
  | .ancAfd p => within (s.arg 2) (2 * padded p 15)
  | .ancCaptions p => within (s.arg 4) (2 * padded p (20 + 3 * s.arg 3))
  | .ancParse => within (s.arg 2) ((s.read16 (s.arg 0 + 10)).toNat % 256)
  | .cdpParse => within (s.arg 2) (3 * ((s.readByte (s.arg 0 + 8)).toNat % 32))
  | .pxPackPlane => ∃ r < H, within (s.arg 3 + r * s.arg 6) (16 * ((W + 5) / 6))
  | .pxPackWords _ => within (s.arg 2) (16 * (s.arg 1 / 6))
  | .pxUnpackPlane =>
    ∃ r < H, within (s.arg 1 + r * s.arg 5) (2 * W) ∨ within (s.arg 2 + r * s.arg 6) W ∨
      within (s.arg 3 + r * s.arg 6) W
  | .pxUnpackWords => within (s.arg 2) (2 * s.arg 1)

/-! ### Races with hosts (R73) -/

/-- By the accesses `wrote` and `read` since a command with the buffers `b` was accepted, hosts have broken R73
at byte `a`: they have written it and the command reads it, or touched it and the command writes it. -/
abbrev Violated (b : Buffers) (wrote read : List Nat) (a : Nat) : Prop :=
  (a ∈ wrote ∧ ∃ y ∈ b.reads, y.span.covers a = true) ∨
    ((a ∈ wrote ∨ a ∈ read) ∧ ∃ y ∈ b.writes, y.span.covers a = true)

/-- Hosts have raced with the command on a range of its that holds byte `a`, read or written: they have broken
R73 at a byte of the range. What a range is, is the model's reading (log entry 5). -/
abbrev Races (b : Buffers) (wrote read : List Nat) (a : Nat) : Prop :=
  ∃ r ∈ b.reads ++ b.writes, r.range.holds a = true ∧
    ∃ x : Nat, r.range.holds x = true ∧ Violated b wrote read x

/-- Byte `a` lies in one of the ranges `outputs` to which command `i` writes the bytes `written`, and hosts have
raced with it there: since it was accepted they have written a byte of the range that it reads, or touched one
that it writes (R73). What a range is, is the model's reading (log entry 5). -/
abbrev RacedOutput (s : State) (i : Instr) (outputs : List Range) (written : Nat → Prop) (a : Nat) :
    Prop :=
  ∃ r ∈ outputs, r.holds a = true ∧ ∃ x : Nat, r.holds x = true ∧
    ((x ∈ s.hostWrites ∧ InputOf s i x) ∨ (x ∈ s.touches ∧ written x))

/-- Byte `a` lies in the `n` bytes at `base`, every one of which command `i` writes, and hosts have raced with
it there (R73). -/
abbrev RacedBlock (s : State) (i : Instr) (base n a : Nat) : Prop :=
  RacedOutput s i [⟨base, n⟩] (fun _ => True) a

/-- Byte `a` lies in one of the blocks at `ARG2` of the sizes `found`, those that fit the data memory, that
the parser `i` has found to write, and hosts have raced with it there (R73). -/
abbrev RacedParse (s : State) (i : Instr) (found : List Nat) (a : Nat) : Prop :=
  RacedOutput s i ((found.filter (inRange s.params (s.arg 2))).map fun n => ⟨s.arg 2, n⟩)
    (fun _ => True) a

/-- Byte `a` ends as `v`, or as a draw where it was raced with (R73). -/
abbrev EndsAs (s t : State) (raced : Nat → Prop) (a : Nat) (v : Byte) : Prop :=
  (raced a → Memory.read t.dmem a = Config.raceByte .commandWrite s.draws a) ∧
    (¬ raced a → Memory.read t.dmem a = v)

/-- The 10-bit word `w` lies in the two bytes at `a`, low byte first, bits 15 to 10 zero (R62, R183), up to
the draws of R73. -/
abbrev HoldsWord (s t : State) (raced : Nat → Prop) (a : Nat) (w : Sample) : Prop :=
  EndsAs s t raced a (w.setWidth 8) ∧ EndsAs s t raced (a + 1) ((w >>> 8).setWidth 8)

/-- The 32-bit word `w` lies in the four bytes at `a`, low byte first (R62), up to the draws of R73. -/
abbrev HoldsPacked (s t : State) (raced : Nat → Prop) (a : Nat) (w : Word) : Prop :=
  ∀ b : Nat, b < 4 → EndsAs s t raced (a + b) ((w >>> (8 * b)).setWidth 8)

/-- Command `i` has stored the words `ws` at `a` as a word array (R183), up to the draws of R73, and no other
byte of the data memory has changed. -/
abbrev StoresWords (s t : State) (i : Instr) (a : Nat) (ws : List Sample) : Prop :=
  (MemoryOk s → ∀ j : Nat, j < ws.length →
    HoldsWord s t (RacedBlock s i a (2 * ws.length)) (a + 2 * j) (ws.getD j 0#10)) ∧
    SameDmemOutside s t a (2 * ws.length)

/-- A parser has stored the bytes `bs` at `a`, up to the draws of R73, and every byte outside them and outside
the ranges `raced` with is unchanged. -/
abbrev StoresBytes (s t : State) (raced : Nat → Prop) (a : Nat) (bs : List Byte) : Prop :=
  (MemoryOk s →
    (∀ j : Nat, j < bs.length → EndsAs s t raced (a + j) (bs.getD j 0#8)) ∧
      ∀ b : Nat, ¬(a ≤ b ∧ b < a + bs.length) → EndsAs s t raced b (Memory.read s.dmem b)) ∧
    ∀ b : Nat, ¬(a ≤ b ∧ b < a + bs.length) → ¬ raced b →
      Memory.read t.dmem b = Memory.read s.dmem b

/-- No host has raced with the command `i` being performed: it reads the memory's bytes, and hosts have written
none that it reads and touched none that it writes (R73, R301). -/
abbrev Unraced (s : State) (i : Instr) : Prop :=
  (∀ a : Nat, s.readByte a = Memory.read s.dmem a) ∧ (∀ x ∈ s.hostWrites, ¬ InputOf s i x) ∧
    ∀ x ∈ s.touches, ¬ OutputOf s i x

/-! ### Host accesses -/

/-- The access is one the interface has (R21), at an address that exists (R60). -/
def actionOk (P : Params) : HostAction → Bool
  | .regRead off width => isHostAccess off width
  | .regWrite off width _ => isHostAccess off width
  | .dmemRead a => decide (a < P.dmemSize)
  | .dmemWrite a _ => decide (a < P.dmemSize)
  | .wait => true

/-- Every access every host will make is one the interface has. -/
abbrev HostsOk (s : State) : Prop :=
  ∀ p : Fin 15, ∀ x ∈ s.hosts[p].actions, actionOk s.params x = true

end Sys2Proof.Safety
end

