-- ==== Sys2Proof/Certificates/Slice0/Obligations.lean ====
section
/-! DEFINITION. The statements for the provers. -/

open Sys2Proof
open Sys2Proof.Config (Params)
open Sys2Proof.Machine
open Sys2Proof.Safety

/-! ### Encoding -/

/-- Decoding the word of a well-formed command gives the command back (R80, R81, R83, R84, R92). -/
def Obligations.DecodeOfEncode : Prop :=
  ∀ i : Instr, i.wellFormed = true →
    decode (encode i) = .ok i ∧ decodeTableWord 32 (encode i).toNat = some i

/-- A command has one word only, and every word that decodes is the word of a well-formed command
(R82, R89, R92). -/
def Obligations.EncodeOfDecode : Prop :=
  ∀ (w : Word) (i : Instr), decode w = .ok i → encode i = w ∧ i.wellFormed = true

/-- R82: exactly the words that pass its validity test decode; the executor completes any other with
BAD_OPCODE and nothing else changes; a valid word whose SRC is at or above MAX_SOURCES completes with
BAD_SOURCE. -/
def Obligations.ValidWordsAreTheOpcodeMaps : Prop :=
  (∀ w : Word, (∃ i : Instr, decode w = .ok i) ↔ ValidWord w) ∧
  (∀ (f : Nat → Nat) (s : State) (p : Fin 15) (c : Pending),
    s.pick f = some (.exec p) → s.ports[p].pending = some c → ¬ ValidWord c.word →
      ∃ t, stepBy f s = .next t ∧
        Completed (s.serve p) t .badOpcode 0#64 0#64 0#64 0#64 ∧ SameBlock (s.serve p) t) ∧
  (∀ (s : State) (i : Instr) (src : Nat),
    i.source? = some src → s.params.maxSources ≤ src → Raises s i .badSource)

/-- The example words of R92, NOP's word (R250), and an unassigned opcode (R83, R88). -/
def Obligations.SampleWordsDecode : Prop :=
  decode 0x00000110#32 = .ok (.rbPush 1) ∧
  decode 0x00050321#32 = .ok (.mxAddMapping 3 true false true) ∧
  decode 0x00010033#32 = .ok (.ancCaptions true) ∧
  decode 0x00000041#32 = .ok (.pxPackWords false) ∧
  decode 0x00000026#32 = .ok .mxExtract ∧
  decode 0x00000000#32 = .ok .nop ∧
  decode 0x00000018#32 = .error .unassignedOpcode

/-! ### Steps -/

/-- A step runs the decoded command. Where the executor at port `p` moves, and the word pending there decodes
to `i`, the step is `exec i` at the state in which the executor serves `p`, and the arguments `exec` reads are
those snapshotted with the word. The model's own are the schedule, with `step` the step under the free one
(log entry 4), the numbers of the step and of the draw, counted up by one (log entry 12), and `withFetchWord`,
the harness that makes `step` run the word given (log entry 7). -/
def Obligations.StepRunsTheDecodedCommand : Prop :=
  (∀ (f : Nat → Nat) (s : State) (p : Fin 15) (c : Pending) (i : Instr),
    s.pick f = some (.exec p) → s.ports[p].pending = some c → decode c.word = .ok i →
      stepBy f s =
          exec i { s with serving := p, steps := s.steps + 1, draws := s.draws + 1 } ∧
        ∀ n : Fin 8, (s.serve p).argBits n = c.args[n]) ∧
  (∀ s : State, step s = stepBy Config.schedule s) ∧
  (∀ (s : State) (i : Instr), i.wellFormed = true → 1 ≤ s.params.nports →
    step (s.withFetchWord 32 (encode i).toNat) =
      exec i ((s.withFetchWord 32 (encode i).toNat).serve 0))

/-- Whichever ports have pending commands, any of them can be the next served: some schedule picks it
(R71). The schedule is the model's form of the free choice (log entry 4). -/
def Obligations.AnyPendingCommandCanBeNext : Prop :=
  ∀ (s : State) (p : Fin 15), p.val < s.params.nports → s.ports[p].busy = true →
    ∃ f : Nat → Nat, s.pick f = some (.exec p)

/-- Forward progress (R305): under a fair schedule, a port that has a pending command is not BUSY after some
number of steps. The schedule and its fairness are the model's form of the free choice (log entry 4). -/
def Obligations.PendingCommandsAreServed : Prop :=
  ∀ (f : Nat → Nat) (s : State) (p : Fin 15), isFair f → HostsOk s → p.val < s.params.nports →
    s.ports[p].busy = true →
      ∃ (k : Nat) (u : State), runBy f k s = .next u ∧ u.ports[p].busy = false

/-- Performing a command always completes it, as R29 says, whatever the command, its operands and the state;
it never touches the hosts, the parameters or another port (R29, R264, R275, R305). -/
def Obligations.EveryCommandCompletes : Prop :=
  ∀ (i : Instr) (s : State), ∃ (t : State) (code : Code) (r0 r1 r2 r3 : DWord),
    exec i s = .next t ∧ Completed s t code r0 r1 r2 r3 ∧ SameOutside s t

/-- R264: a command that completes with a code other than OK has written no byte, changed no block state and
reads 0 in every result; but for MX_EXTRACT's NOT_READY after a forward, which keeps the forwards. -/
def Obligations.FailureChangesNothing : Prop :=
  ∀ (i : Instr) (s t : State), exec i s = .next t → t.ports[s.serving].code ≠ .ok →
    Completed s t t.ports[s.serving].code 0#64 0#64 0#64 0#64 ∧ t.ports[s.serving].busy = false ∧
      (SameBlock s t ∨
        (i = .mxExtract ∧ t.ports[s.serving].code = .notReady ∧ s.head ≠ invalidBits ∧
          s.muxStart < s.head.toInt ∧ SameBlock (s.forwardAll s.head.toInt) t))

/-! ### Host registers -/

/-- R24: a CMD write is dropped with OVR set while the port is BUSY, and else accepted with a snapshot of
the argument registers, whatever the word; a later argument write does not reach the snapshot. -/
def Obligations.CmdWriteAcceptsOrOverruns : Prop :=
  ∀ (s : State) (p : Fin 15) (w : Word), p.val < s.params.nports →
    hostReg s.params.nports (0x100 * (p.val + 1)) = .cmd p ∧
    (s.ports[p].busy = true →
      s.writeReg (.cmd p) w = s.setPort p { s.ports[p] with ovr := true }) ∧
    (s.ports[p].busy = false →
      s.writeReg (.cmd p) w = s.setPort p
        { s.ports[p] with cmd := w, done := false, pending := some ⟨w, s.ports[p].args, [], []⟩ } ∧
      (s.writeReg (.cmd p) w).ports[p].busy = true) ∧
    ∀ (n : Fin 8) (hi : Bool) (v : Word),
      (s.writeReg (.arg p n hi) v).ports[p].pending = s.ports[p].pending

/-- The numbers of the status codes (R260), the fields of STATUS as a host reads them, and its
write-1-to-clear bits (R25). -/
def Obligations.StatusFieldsAndClears : Prop :=
  ([Code.ok, .badOpcode, .badSource, .badArg, .rejected, .noResource, .dmemFault, .notReady, .malformed,
      .badState].map Code.toByte =
    [0x00#8, 0x01#8, 0x02#8, 0x03#8, 0x04#8, 0x05#8, 0x06#8, 0x07#8, 0x08#8, 0x09#8]) ∧
  ∀ (s : State) (p : Fin 15) (v : Word), p.val < s.params.nports →
    hostReg s.params.nports (0x100 * (p.val + 1) + 4) = .status p ∧
    (let r := s.readReg (.status p)
     r.getLsbD 0 = s.ports[p].pending.isSome ∧ r.getLsbD 1 = s.ports[p].done ∧
      r.getLsbD 2 = s.ports[p].err ∧ r.getLsbD 3 = s.ports[p].ovr ∧ r.extractLsb' 4 4 = 0#4 ∧
      r.extractLsb' 8 8 = s.ports[p].code.toByte ∧ r.extractLsb' 16 16 = 0#16) ∧
    s.writeReg (.status p) v = s.setPort p
      { s.ports[p] with
        done := s.ports[p].done && !v.getLsbD 1
        err := s.ports[p].err && !v.getLsbD 2
        ovr := s.ports[p].ovr && !v.getLsbD 3 }

/-- R270: a port's interrupt request, the block's one interrupt output, and IRQ_STATUS. -/
def Obligations.InterruptRequests : Prop :=
  ∀ s : State,
    (∀ p : Fin 15, s.ports[p].irq = true ↔
      (s.ports[p].done = true ∧ s.ports[p].ie.done = true) ∨
      (s.ports[p].err = true ∧ s.ports[p].ie.err = true) ∨
      (s.ports[p].ovr = true ∧ s.ports[p].ie.ovr = true)) ∧
    (s.irqOutput = true ↔ ∃ p : Fin 15, p.val < s.params.nports ∧ s.ports[p].irq = true) ∧
    ∀ n : Nat, (s.readReg (hostReg s.params.nports 0x018)).getLsbD n = true ↔
      ∃ p : Fin 15, p.val = n ∧ n < s.params.nports ∧ s.ports[p].irq = true

/-- R20: where the registers lie in the window, and that every other offset reads as zero and ignores
writes. -/
def Obligations.RegisterWindow : Prop :=
  ∀ (nports : Nat), nports ≤ 15 →
    ([0x000, 0x004, 0x008, 0x00C, 0x010, 0x014, 0x018, 0x01C].map (hostReg nports) =
      [.id, .ctrl, .audioCfg, .cdpCounter, .head false, .head true, .irqStatus, .params]) ∧
    (∀ p : Fin 15, p.val < nports →
      [0x00, 0x04, 0x08].map (fun off => hostReg nports (0x100 * (p.val + 1) + off)) =
        [.cmd p, .status p, .ie p] ∧
      (∀ n : Fin 8, hostReg nports (0x100 * (p.val + 1) + (0x10 + 8 * n.val)) = .arg p n false ∧
        hostReg nports (0x100 * (p.val + 1) + (0x14 + 8 * n.val)) = .arg p n true) ∧
      (∀ n : Fin 4, hostReg nports (0x100 * (p.val + 1) + (0x50 + 8 * n.val)) = .res p n false ∧
        hostReg nports (0x100 * (p.val + 1) + (0x54 + 8 * n.val)) = .res p n true)) ∧
    (∀ off : Nat, off % 4 = 0 →
      (0x020 ≤ off ∧ off < 0x100) ∨ 0x100 * (nports + 1) ≤ off ∨
        (0x100 ≤ off ∧ (off % 0x100 = 0x0C ∨ 0x70 ≤ off % 0x100)) →
      hostReg nports off = .hole) ∧
    ∀ (s : State) (w : Word), s.readReg .hole = 0#32 ∧ s.writeReg .hole w = s

/-- What a host's register accesses do. A read changes nothing but what its host has seen; a write does
`writeReg` of the register at its offset and nothing else (R21, R252); WAIT reads STATUS and is repeated while
BUSY (R91). A write to a read-only register or a hole is ignored; a write of IE, of an argument half or of
CDP_COUNTER changes that register, or that half, only. The host's list of accesses and the numbers of the step
and of the draw are the model's (log entries 6 and 12). -/
def Obligations.HostRegisterAccesses : Prop :=
  (∀ (s : State) (p : Fin 15) (off : Nat) (rest : List HostAction),
    off % 4 = 0 → off < 4096 →
      (s.hosts[p].actions = .regRead off 4 :: rest →
        s.hostStep p = .next { s with
          steps := s.steps + 1
          draws := s.draws + 1
          hosts := s.hosts.set p ⟨rest, s.readReg (hostReg s.params.nports off)⟩ }) ∧
      ∀ w : Word, s.hosts[p].actions = .regWrite off 4 w :: rest →
        s.hostStep p = .next { s.writeReg (hostReg s.params.nports off) w with
          steps := s.steps + 1
          draws := s.draws + 1
          hosts := s.hosts.set p ⟨rest, s.hosts[p].lastRead⟩ }) ∧
  (∀ (s : State) (p : Fin 15) (rest : List HostAction), s.hosts[p].actions = .wait :: rest →
    s.hostStep p = .next { s with
      steps := s.steps + 1
      draws := if s.ports[p].busy then s.draws else s.draws + 1
      hosts := s.hosts.set p
        ⟨if s.ports[p].busy then .wait :: rest else rest, s.readReg (.status p)⟩ }) ∧
  ∀ (s : State) (w : Word),
    (s.writeReg .id w = s ∧ s.writeReg .audioCfg w = s ∧ s.writeReg .irqStatus w = s ∧
      s.writeReg .params w = s ∧ s.writeReg .hole w = s) ∧
    (∀ hi : Bool, s.writeReg (.head hi) w = s) ∧
    (∀ (p : Fin 15) (n : Fin 4) (hi : Bool), s.writeReg (.res p n hi) w = s) ∧
    (∀ p : Fin 15, s.writeReg (.ie p) w = s.setPort p
      { s.ports[p] with ie := ⟨w.getLsbD 0, w.getLsbD 1, w.getLsbD 2⟩ }) ∧
    (∀ (p : Fin 15) (n : Fin 8) (hi : Bool),
      let v := s.ports[p].args[n]
      s.writeReg (.arg p n hi) w = s.setPort p
        { s.ports[p] with
          args := s.ports[p].args.set n
            (if hi then w ++ v.extractLsb' 0 32 else v.extractLsb' 32 32 ++ w) }) ∧
    s.writeReg .cdpCounter w = { s with cdpCounter := w.setWidth 16 }

/-- R43, R251, R290: what power-on and a write of 1 to CTRL bit 0 leave. A write with bit 0 = 0 does
nothing, the data memory is not touched, and CTRL reads as 0. -/
def Obligations.ResetLeavesTheResetValues : Prop :=
  (∀ (s u : State) (w : Word), u = State.reset ∨ (w.getLsbD 0 = true ∧ u = s.writeReg .ctrl w) →
    (∀ p : Fin 15, u.ports[p].pending = none ∧ u.ports[p].cmd = 0#32 ∧
      (u.ports[p].busy = false ∧ u.ports[p].done = false ∧ u.ports[p].err = false ∧
        u.ports[p].ovr = false ∧ u.ports[p].code.toByte = 0x00#8) ∧
      (u.ports[p].ie.done = false ∧ u.ports[p].ie.err = false ∧ u.ports[p].ie.ovr = false) ∧
      (∀ n : Fin 8, u.ports[p].args[n] = 0#64) ∧ (∀ n : Fin 4, u.ports[p].res[n] = 0#64)) ∧
    (u.audioCh = 0 ∧ u.declaredOnly = false) ∧ u.head = 0x8000000000000000#64 ∧
    u.cdpCounter = 0#16 ∧
    (∀ i : Fin 16, u.sources[i].isOpen = false ∧ u.sources[i].slots = [] ∧
      u.sources[i].chunks = [] ∧ u.sources[i].headOff = 0 ∧ u.sources[i].data = [] ∧
      u.sources[i].tagged = 0) ∧
    (∀ k : Fin 16, u.owner[k] = none) ∧ u.irqOutput = false) ∧
  ∀ (s : State) (w : Word),
    (s.writeReg .ctrl w).dmem = s.dmem ∧ (w.getLsbD 0 = false → s.writeReg .ctrl w = s) ∧
      s.readReg .ctrl = 0#32

/-- What the registers read. AUDIO_CFG, CDP_COUNTER, PARAMS, CMD and IE hold their fields, and 0 in their
other bits (R22, R23, R26, R37, R38, R254); ID reads the free constant of log entry 2; the two halves of an
argument, a result or `head` give the register. Writing the two halves of an argument register sets it whole
(R27, R91). -/
def Obligations.RegisterContents : Prop :=
  (∀ (s : State) (p : Fin 15) (n : Fin 8) (v : DWord),
    (s.writeReg (.arg p n false) (v.extractLsb' 0 32)).writeReg (.arg p n true)
        (v.extractLsb' 32 32) =
      s.setPort p { s.ports[p] with args := s.ports[p].args.set n v }) ∧
  ∀ s : State,
    (∀ (p : Fin 15) (n : Fin 8),
      s.readReg (.arg p n true) ++ s.readReg (.arg p n false) = s.ports[p].args[n]) ∧
    (∀ (p : Fin 15) (n : Fin 4),
      s.readReg (.res p n true) ++ s.readReg (.res p n false) = s.ports[p].res[n]) ∧
    s.readReg (.head true) ++ s.readReg (.head false) = s.head ∧
    s.readReg .id = Config.blockId ∧
    (∀ p : Fin 15, s.readReg (.cmd p) = s.ports[p].cmd) ∧
    (∀ p : Fin 15,
      let r := s.readReg (.ie p)
      r.getLsbD 0 = s.ports[p].ie.done ∧ r.getLsbD 1 = s.ports[p].ie.err ∧
        r.getLsbD 2 = s.ports[p].ie.ovr ∧ r.extractLsb' 3 29 = 0#29) ∧
    (let r := s.readReg .cdpCounter
     r.extractLsb' 0 16 = s.cdpCounter ∧ r.extractLsb' 16 16 = 0#16) ∧
    (let r := s.readReg .audioCfg
     (ChannelsOk s → (r.extractLsb' 0 5).toNat = s.audioCh) ∧ r.extractLsb' 5 3 = 0#3 ∧
        r.getLsbD 8 = s.declaredOnly ∧ r.extractLsb' 9 23 = 0#23) ∧
    (let r := s.readReg .params
     (s.params.legal = true → (r.extractLsb' 0 4).toNat = s.params.nports ∧
          (r.extractLsb' 4 5).toNat = s.params.maxSources ∧
          (r.extractLsb' 12 4).toNat = s.params.subframeBytes) ∧
        r.extractLsb' 9 3 = 0#3 ∧ r.extractLsb' 16 16 = 0#16)

/-- What a host's data-memory accesses do (R72, R73). A write stores its byte and no other; a read gives the
memory's byte, and changes nothing, unless it races with a pending command: then it is arbitrary. A read races
where the byte lies in a range on which hosts have by now raced with the command, as its buffers are in some
state in which it may be performed. A command accepted afterwards meets the memory as it is. A command already
pending reads arbitrary bytes from every range of its own, read or written, on which hosts have raced with it,
and every byte of such an output range ends arbitrary. Which arbitrary value is the model's draw, and which bytes
are a range is its reading (log entry 5). -/
def Obligations.HostMemoryAccesses : Prop :=
  ∀ (s : State) (p : Fin 15) (a : Nat) (rest : List HostAction), a < s.params.dmemSize →
    let alike := fun u : State =>
      SameConfig s u ∧ SameSources s u ∧ SameHead s u ∧ u.serving = s.serving ∧
        u.params = s.params ∧ u.steps = s.steps + 1 ∧ u.draws = s.draws + 1
    let meets := fun t : State => ∀ (q : Fin 15) (c : Pending) (i : Instr),
      t.ports[q].pending = some c → decode c.word = .ok i →
        let b := (t.serve q).buffers i
        (∀ x : Nat,
          (Races b c.hostWrote c.hostRead x →
            (t.serve q).readByte x = Config.raceByte .commandRead (t.draws + 1) x) ∧
          (¬ Races b c.hostWrote c.hostRead x → (t.serve q).readByte x = Memory.read t.dmem x)) ∧
        ∀ (runs : List Run) (r : Range) (y : Nat), MemoryOk t → r ∈ b.writes.map Buffer.range →
          r.holds y = true → Violated b c.hostWrote c.hostRead y → ∀ x : Nat, r.holds x = true →
            Memory.read ((t.serve q).storeRuns i runs).dmem x =
              Config.raceByte .commandWrite (t.draws + 1) x
    (∀ b : Byte, MemoryOk s → s.hosts[p].actions = .dmemWrite a b :: rest →
      ∃ t, s.hostStep p = .next t ∧ alike t ∧
        t.hosts = s.hosts.set p ⟨rest, s.hosts[p].lastRead⟩ ∧ Memory.read t.dmem a = b ∧
        (∀ x : Nat, x ≠ a → Memory.read t.dmem x = Memory.read s.dmem x) ∧
        (∀ q : Fin 15, t.ports[q] = { s.ports[q] with
          pending := s.ports[q].pending.map fun c => { c with hostWrote := a :: c.hostWrote } }) ∧
        (∀ w : Word, s.ports[p].busy = false →
          ((t.writeReg (.cmd p) w).serve p).touches = [] ∧
            ∀ x : Nat, ((t.writeReg (.cmd p) w).serve p).readByte x = Memory.read t.dmem x) ∧
        meets t) ∧
    (s.hosts[p].actions = .dmemRead a :: rest →
      ∃ (t : State) (v : Byte), s.hostStep p = .next t ∧ alike t ∧ t.dmem = s.dmem ∧
        t.hosts = s.hosts.set p ⟨rest, v.setWidth 32⟩ ∧
        (∀ q : Fin 15, t.ports[q] = { s.ports[q] with
          pending := s.ports[q].pending.map fun c => { c with hostRead := a :: c.hostRead } }) ∧
        (let races := fun q : Fin 15 => ∃ c, t.ports[q].pending = some c ∧
          ∃ u ∈ t.futures q, Races (u.buffersAt q) c.hostWrote c.hostRead a
         ((∃ q, races q) → v = Config.raceByte .hostRead (s.draws + 1) a) ∧
            ((∀ q, ¬ races q) → v = Memory.read s.dmem a)) ∧
        meets t)

/-- A step stops only where the host that moves makes an access the interface does not have. A register access
that is not 32 bits wide, not aligned or outside the window is refused, as R21 asks. A data-memory access at
an address at or above `DMEM_SIZE` faults: that stop is the model's choice, since the spec gives a host no
such address (log entry 8). Every other step answers a next state; where every host's accesses are the
interface's, so they are after the step. -/
def Obligations.StepStopsOnlyOnBadHostAccess : Prop :=
  ∀ (f : Nat → Nat) (s : State),
    (∀ p : Fin 15, s.pick f = some (.exec p) → ∃ t, stepBy f s = .next t) ∧
    (s.pick f = none → stepBy f s = .next s) ∧
    (∀ p : Fin 15, s.pick f = some (.host p) → ∃ (x : HostAction) (rest : List HostAction),
      s.hosts[p].actions = x :: rest ∧
      (∀ off width : Nat, (x = .regRead off width ∨ ∃ w, x = .regWrite off width w) →
        (width = 4 ∧ off % 4 = 0 ∧ off < 4096 → ∃ t, stepBy f s = .next t) ∧
        (¬(width = 4 ∧ off % 4 = 0 ∧ off < 4096) → stepBy f s = .refused .badHostAccess)) ∧
      (∀ a : Nat, (x = .dmemRead a ∨ ∃ b, x = .dmemWrite a b) →
        (a < s.params.dmemSize → ∃ t, stepBy f s = .next t) ∧
        (s.params.dmemSize ≤ a → stepBy f s = .fault .hostDmemRange)) ∧
      (x = .wait → ∃ t, stepBy f s = .next t)) ∧
    (HostsOk s → ∃ t, stepBy f s = .next t ∧ HostsOk t ∧ t.params = s.params)

/-- What works, and what does not, while audio is disabled and no source is open, as after reset: the law R291
derives from R290 and the commands' rules. Of the ANC_ and PX_ commands it says that they fail for no want of
configuration, in any state; what they do is said of each of them. -/
def Obligations.CommandsBeforeConfiguration : Prop :=
  (∀ (s : State), s.audioCh = 0 → (∀ i : Nat, (s.source i).isOpen = false) →
    (∀ (src : Nat) (x a m : Bool), src < s.params.maxSources →
      Raises s (.mxAddMapping src x a m) .badState) ∧
    Raises s .mxBufferStart .badState ∧ Raises s .mxAvailableVirtual .badState ∧
    Raises s .mxAlignedInterleave .badState ∧ Raises s .mxExtract .badState ∧
    (∀ src : Nat, Raises s (.mxRemoveMapping src) .badSource ∧ Raises s (.rbPush src) .badSource ∧
      Raises s (.rbBufferStart src) .badSource ∧ Raises s (.rbAvailable src) .badSource ∧
      Raises s (.rbRead src) .badSource ∧ Raises s (.rbFlushConsumed src) .badSource ∧
      Raises s (.rbTagVirtualConsumed src) .badSource ∧ Raises s (.rbForwardTo src) .badSource) ∧
    (∀ src : Nat, src < s.params.maxSources → Reports s (.rbInfo src) 0#64 0#64 0#64 0#64) ∧
    (∀ d : Bool, s.arg 0 ∈ [0, 2, 8, 16] →
      Succeeds s (.mxSetAudioConfig d) 0#64 0#64 0#64 0#64 fun t =>
        t.audioCh = s.arg 0 ∧ t.declaredOnly = d) ∧
    (∃ r0 r1 r2 : DWord, Reports s .mxSlotMap r0 r1 r2 (countBits s.declaredOnly.toNat <<< 8)) ∧
    Reports s .nop 0#64 0#64 0#64 0#64) ∧
  ∀ (s t : State) (i : Instr),
    ((∃ p : Bool, i ∈ [Instr.ancData10 p, .ancAfd p, .ancCaptions p, .pxPackWords p]) ∨
      i ∈ [Instr.ancPad, .ancParse, .cdpParse, .pxPackPlane, .pxUnpackPlane, .pxUnpackWords]) →
    exec i s = .next t → t.ports[s.serving].code ∈ [Code.ok, .badArg, .dmemFault, .malformed]

/-! ### Control -/

/-- R250: NOP completes with OK and changes nothing; no other word with its opcode is valid. -/
def Obligations.NopCompletes : Prop :=
  decode 0x00000000#32 = .ok .nop ∧
  (∀ w : Word, opcOf w = 0x00#8 → w ≠ 0#32 → ∀ i : Instr, decode w ≠ .ok i) ∧
  ∀ s : State, Reports s .nop 0#64 0#64 0#64 0#64

/-! ### Ring buffer -/

/-- R103, RB_PUSH: the checks in order; a push appends the chunk and the bytes, and changes nothing else; an
empty push changes nothing. -/
def Obligations.RbPushOutcome : Prop :=
  (∀ n : BitVec 8, decode (commandWord 0#8 n 0x10#8) = .ok (.rbPush n.toNat)) ∧
  ∀ (s : State) (src : Nat),
    let c := s.source src
    let len := s.arg 1
    let f := len / (c.nsub * s.params.subframeBytes)
    Checked s (.rbPush src)
      [(NotOpen s src, .badSource),
        (u32Max < len, .badArg),
        (s.argBits 2 = invalidBits, .badArg),
        (len % (c.nsub * s.params.subframeBytes) ≠ 0, .badArg),
        (s.sarg 2 + framesToTicks s.params f > int64Max, .badArg),
        (OutOfRange s.params (s.arg 0) len, .dmemFault),
        (len ≠ 0 ∧ s.params.ringBytes < c.data.length + len, .noResource),
        (len ≠ 0 ∧ c.chunks.length = s.params.chunkSlots, .noResource)]
      (Succeeds s (.rbPush src) (countBits f) 0#64 0#64 0#64 fun t =>
        SameConfig s t ∧ SameHead s t ∧ SameDmem s t ∧ SameOtherSources s t src ∧
        t.source src =
          if len = 0 then c
          else
            { c with
              chunks := c.chunks ++ [⟨s.argBits 2, f⟩]
              data := c.data ++ (List.range len).map fun j => s.readByte (s.arg 0 + j) })

/-- R104 with R100, RB_BUFFER_START: the TimePoint of the oldest unconsumed frame, INVALID where the ring is
empty; where the rings keep their invariants it neither overflows nor is INVALID. -/
def Obligations.RbBufferStartOutcome : Prop :=
  (∀ n : BitVec 8, decode (commandWord 0#8 n 0x11#8) = .ok (.rbBufferStart n.toNat)) ∧
  ∀ (s : State) (src : Nat),
    let c := s.source src
    Checked s (.rbBufferStart src) [(NotOpen s src, .badSource)]
      ((c.total = 0 → Reports s (.rbBufferStart src) invalidBits 0#64 0#64 0#64) ∧
        ∀ (k : Chunk) (ks : List Chunk), c.total ≠ 0 → c.chunks = k :: ks →
          Reports s (.rbBufferStart src)
            (BitVec.ofInt 64 (k.pts.toInt + framesToTicks s.params c.headOff)) 0#64 0#64 0#64 ∧
          (RingsOk s →
            (BitVec.ofInt 64 (k.pts.toInt + framesToTicks s.params c.headOff)).toInt =
                k.pts.toInt + framesToTicks s.params c.headOff ∧
              BitVec.ofInt 64 (k.pts.toInt + framesToTicks s.params c.headOff) ≠ invalidBits))

/-- R105 with R101, RB_AVAILABLE: the frames available as of a time; the signed frame offset truncates
toward zero in both directions. -/
def Obligations.RbAvailableOutcome : Prop :=
  (∀ n : BitVec 8, decode (commandWord 0#8 n 0x12#8) = .ok (.rbAvailable n.toNat)) ∧
  (∀ (c : Source) (P : Params) (t : Int), c.offset P t =
    if t ≤ c.bufferStart P then (c.bufferStart P - t) * P.sampleRate / P.tickHz
    else -((t - c.bufferStart P) * P.sampleRate / P.tickHz)) ∧
  ∀ (s : State) (src : Nat),
    let c := s.source src
    Checked s (.rbAvailable src) [(NotOpen s src, .badSource)]
      (Reports s (.rbAvailable src)
        (countBits
          (if c.total = 0 then 0
          else if s.argBits 0 = invalidBits then c.total
          else (min (max ((c.total : Int) + c.offset s.params (s.sarg 0)) 0) u32Max).toNat))
        0#64 0#64 0#64)

/-- R106, RB_READ: the checks in order; the frames of the channel land in the slot, frame by frame, each
byte as pushed; every other byte of the data memory keeps its value, and nothing is consumed. Where hosts have
touched a byte it writes, every byte of the destination block ends arbitrary (R73): that the range is the block
R63 checks, its gaps among it, is the model's reading (log entry 5, DEDUCED). -/
def Obligations.RbReadOutcome : Prop :=
  (∀ n : BitVec 8, decode (commandWord 0#8 n 0x13#8) = .ok (.rbRead n.toNat)) ∧
  ∀ (s : State) (src : Nat),
    let c := s.source src
    let dst := s.arg 0
    let count := s.arg 1
    let ch := s.arg 3
    let k := s.arg 4
    let dw := s.arg 5
    let SB := s.params.subframeBytes
    let o := c.offset s.params (s.sarg 2)
    let copies := fun a : Nat => ∃ i j : Nat, i < count ∧ (i : Int) - o = j ∧ j < c.total ∧
      dst + (i * 2 * dw + k) * SB ≤ a ∧ a < dst + (i * 2 * dw + k) * SB + SB
    let raced := RacedOutput s (.rbRead src) [⟨dst, count * 2 * dw * SB⟩] copies
    Checked s (.rbRead src)
      [(NotOpen s src, .badSource),
        (u32Max < count, .badArg),
        (s.argBits 2 = invalidBits, .badArg),
        (dw < 1 ∨ 8 < dw, .badArg),
        (c.nsub ≤ ch, .badArg),
        (2 * dw ≤ k, .badArg),
        (OutOfRange s.params dst (count * 2 * dw * SB), .dmemFault)]
      (Succeeds s (.rbRead src)
        (countBits ((List.range count).countP fun i : Nat =>
          decide (0 ≤ (i : Int) - o ∧ (i : Int) - o < c.total))) 0#64 0#64 0#64 fun t =>
        SameConfig s t ∧ SameHead s t ∧ SameSources s t ∧
        (MemoryOk s → RingsOk s →
          (∀ i j b : Nat, i < count → (i : Int) - o = j → j < c.total → b < SB →
            EndsAs s t raced (dst + (i * 2 * dw + k) * SB + b)
              (c.data.getD ((j * c.nsub + ch) * SB + b) 0#8)) ∧
          ∀ a : Nat, ¬ copies a → EndsAs s t raced a (Memory.read s.dmem a)) ∧
        SameDmemOutside s t dst (count * 2 * dw * SB))

/-- R107, RB_FLUSH_CONSUMED: the tagged frames are discarded, oldest first, and no tag is left. What a discard
leaves is R102's: the bytes of the frames after them, the chunks that are not wholly discarded, and in the
oldest of those the frames of it that are. -/
def Obligations.RbFlushConsumedOutcome : Prop :=
  (∀ n : BitVec 8, decode (commandWord 0#8 n 0x14#8) = .ok (.rbFlushConsumed n.toNat)) ∧
  (∀ (s : State) (src k j : Nat), RingsOk s →
    let c := s.source src
    let before := ((c.chunks.take j).map Chunk.frames).sum
    k ≤ c.total →
      (c.discard s.params k).total = c.total - k ∧
      (c.discard s.params k).data = c.data.drop (k * (c.nsub * s.params.subframeBytes)) ∧
      (before ≤ c.headOff + k → j ≤ c.chunks.length →
        (∀ x : Chunk, c.chunks[j]? = some x → c.headOff + k < before + x.frames) →
          (c.discard s.params k).chunks = c.chunks.drop j ∧
          (c.discard s.params k).headOff = c.headOff + k - before) ∧
      (c.discard s.params k).isOpen = c.isOpen ∧ (c.discard s.params k).nsub = c.nsub ∧
      (c.discard s.params k).pcm = c.pcm ∧ (c.discard s.params k).slots = c.slots ∧
      (c.discard s.params k).tagged = c.tagged) ∧
  ∀ (s : State) (src : Nat),
    let c := s.source src
    Checked s (.rbFlushConsumed src) [(NotOpen s src, .badSource)]
      (Succeeds s (.rbFlushConsumed src) (countBits c.tagged) 0#64 0#64 0#64 fun t =>
        SameConfig s t ∧ SameHead s t ∧ SameDmem s t ∧ SameOtherSources s t src ∧
        t.source src = { c.discard s.params c.tagged with tagged := 0 })

/-- R108, RB_TAG_VIRTUAL_CONSUMED: the frames of the window are tagged, capped at what the ring holds; the
ring itself does not change. -/
def Obligations.RbTagVirtualConsumedOutcome : Prop :=
  (∀ n : BitVec 8, decode (commandWord 0#8 n 0x15#8) = .ok (.rbTagVirtualConsumed n.toNat)) ∧
  ∀ (s : State) (src : Nat),
    let c := s.source src
    let o := c.offset s.params (s.sarg 0)
    let after :=
      if c.total = 0 then c.tagged
      else min c.total (c.tagged + (max 0 ((s.arg 1 : Int) - o)).toNat)
    Checked s (.rbTagVirtualConsumed src)
      [(NotOpen s src, .badSource), (s.argBits 0 = invalidBits, .badArg),
        (u32Max < s.arg 1, .badArg)]
      (Succeeds s (.rbTagVirtualConsumed src)
        (BitVec.ofInt 64 ((after : Int) - (c.tagged : Int))) 0#64 0#64 0#64 fun t =>
        SameConfig s t ∧ SameHead s t ∧ SameDmem s t ∧ SameOtherSources s t src ∧
        t.source src = { c with tagged := after })

/-- R109, RB_FORWARD_TO: nothing where the ring is empty or starts at or after `t`; else the frames before
`t` are discarded, and the tag falls by as many. -/
def Obligations.RbForwardToOutcome : Prop :=
  (∀ n : BitVec 8, decode (commandWord 0#8 n 0x16#8) = .ok (.rbForwardTo n.toNat)) ∧
  ∀ (s : State) (src : Nat),
    let c := s.source src
    let t := s.sarg 0
    let k :=
      if c.total = 0 ∨ t ≤ c.bufferStart s.params then 0
      else min c.total ((t - c.bufferStart s.params) * s.params.sampleRate / s.params.tickHz).toNat
    Checked s (.rbForwardTo src)
      [(NotOpen s src, .badSource), (s.argBits 0 = invalidBits, .badArg)]
      (Succeeds s (.rbForwardTo src) (countBits k) 0#64 0#64 0#64 fun u =>
        SameConfig s u ∧ SameHead s u ∧ SameDmem s u ∧ SameOtherSources s u src ∧
        u.source src =
          if c.total = 0 ∨ t ≤ c.bufferStart s.params then c
          else { c.discard s.params k with tagged := c.tagged - k })

/-- R110, RB_INFO: the fill of a ring; a closed source reads 0 everywhere; nothing changes. -/
def Obligations.RbInfoOutcome : Prop :=
  (∀ n : BitVec 8, decode (commandWord 0#8 n 0x17#8) = .ok (.rbInfo n.toNat)) ∧
  ∀ (s : State) (src : Nat),
    let c := s.source src
    Checked s (.rbInfo src) [(s.params.maxSources ≤ src, .badSource)]
      ((c.isOpen = false → Reports s (.rbInfo src) 0#64 0#64 0#64 0#64) ∧
        (c.isOpen = true → Reports s (.rbInfo src) (countBits c.total) (countBits c.tagged)
          (countBits c.chunks.length)
          (1#64 ||| (countBits c.nsub <<< 8) ||| (countBits c.pcm.toNat <<< 16) |||
            (countBits c.slots.length <<< 24))))

/-- Conservation, the law R112 derives from R103, R107 and R109: among the ring commands only a push adds
frames to a source, by exactly its RES0, and only a flush or a forward takes frames away, by exactly its
RES0. -/
def Obligations.RingFramesAreConserved : Prop :=
  ∀ (s t : State) (src : Nat) (i : Instr),
    RingsOk s → s.params.ringBytes < 2 ^ 64 →
    i ∈ [Instr.rbPush src, .rbBufferStart src, .rbAvailable src, .rbRead src, .rbFlushConsumed src,
      .rbTagVirtualConsumed src, .rbForwardTo src, .rbInfo src] →
    exec i s = .next t →
      (i = .rbPush src →
        (t.source src).total = (s.source src).total + t.ports[s.serving].res[0].toNat) ∧
      (i = .rbFlushConsumed src ∨ i = .rbForwardTo src →
        (t.source src).total + t.ports[s.serving].res[0].toNat = (s.source src).total) ∧
      (i ≠ .rbPush src → i ≠ .rbFlushConsumed src → i ≠ .rbForwardTo src →
        (t.source src).total = (s.source src).total)

/-! ### Multiplexer -/

/-- R140, MX_SET_AUDIO_CONFIG: refused while a mapping exists; sets the channel count and the mode, and
makes `head` INVALID. -/
def Obligations.MxSetAudioConfigOutcome : Prop :=
  (∀ d : Bool, decode (commandWord (if d then 1#8 else 0#8) 0#8 0x20#8) =
    .ok (.mxSetAudioConfig d)) ∧
  ∀ (s : State) (d : Bool),
    Checked s (.mxSetAudioConfig d)
      [(∃ i, i < s.params.maxSources ∧ (s.source i).isOpen = true, .badState),
        (¬(s.arg 0 = 0 ∨ s.arg 0 = 2 ∨ s.arg 0 = 8 ∨ s.arg 0 = 16), .badArg)]
      (Succeeds s (.mxSetAudioConfig d) 0#64 0#64 0#64 0#64 fun t =>
        SameSources s t ∧ SameDmem s t ∧ t.cdpCounter = s.cdpCounter ∧ t.audioCh = s.arg 0 ∧
        t.declaredOnly = d ∧ t.head = invalidBits)

/-- MX_ADD_MAPPING with an explicit slot list (R145 with X = 1, R86): the checks in order; the source opens
on the listed slots, entry by entry, and nothing else changes. -/
def Obligations.MxAddMappingExplicit : Prop :=
  (∀ (n : BitVec 8) (a m : Bool),
    decode (commandWord (1#8 ||| (if a then 2#8 else 0#8) ||| (if m then 4#8 else 0#8)) n 0x21#8) =
      .ok (.mxAddMapping n.toNat true a m)) ∧
  ∀ (s : State) (src : Nat) (a m : Bool), s.params.maxSources ≤ 16 →
    let c := s.arg 0
    let N := s.arg 2
    let L := (List.range N).map fun i => s.arg 1 / 2 ^ (4 * i) % 16
    Checked s (.mxAddMapping src true a m)
      [(s.params.maxSources ≤ src, .badSource),
        (s.audioCh = 0, .badState),
        (c < 1 ∨ 16 < c, .badArg),
        (a = true, .badArg),
        (N < 1 ∨ c < N, .badArg),
        (N < 16 ∧ s.arg 1 / 2 ^ (4 * N) ≠ 0, .badArg),
        (∃ k ∈ L, s.audioCh ≤ k, .badArg),
        (¬ L.Nodup, .badArg),
        ((s.source src).isOpen = true, .rejected),
        (∃ k ∈ L, s.ownerAt k ≠ none, .rejected)]
      (Succeeds s (.mxAddMapping src true a m) (countBits (L.map fun k => 2 ^ k).sum) 0#64 0#64 0#64
        fun t =>
        SameConfig s t ∧ SameHead s t ∧ SameDmem s t ∧
        (∀ j : Nat, j ≠ src → t.source j = s.source j) ∧
        t.source src = ⟨true, c, m, L, [], 0, [], 0⟩ ∧
        (∀ i : Nat, i < N → t.ownerAt (L.getD i 16) = some ⟨src, i⟩) ∧
        ∀ k : Nat, k ∉ L → t.ownerAt k = s.ownerAt k)

/-- MX_ADD_MAPPING by channel count (R145 with X = 0, R146, R147): the checks in order; the source opens on
the lowest free slots, or slot-pairs, in ascending order, and nothing else changes. -/
def Obligations.MxAddMappingByCount : Prop :=
  (∀ (n : BitVec 8) (a m : Bool),
    decode (commandWord ((if a then 2#8 else 0#8) ||| (if m then 4#8 else 0#8)) n 0x21#8) =
      .ok (.mxAddMapping n.toNat false a m)) ∧
  ∀ (s : State) (src : Nat) (a m : Bool), s.params.maxSources ≤ 16 → ChannelsOk s →
    let c := s.arg 0
    let free := fun k : Nat => k < s.audioCh ∧ s.ownerAt k = none
    let freePair := fun p : Nat => p < s.audioCh / 2 ∧ free (2 * p) ∧ free (2 * p + 1)
    Checked s (.mxAddMapping src false a m)
      [(s.params.maxSources ≤ src, .badSource),
        (s.audioCh = 0, .badState),
        (c < 1 ∨ 16 < c, .badArg),
        (s.arg 1 ≠ 0 ∨ s.arg 2 ≠ 0, .badArg),
        (a = true ∧ c % 2 = 1, .badArg),
        ((s.source src).isOpen = true, .rejected),
        (s.declaredOnly = true, .rejected),
        (a = false ∧ ¬ ∃ l : List Nat, l.Nodup ∧ l.length = c ∧ ∀ k ∈ l, free k, .noResource),
        (a = true ∧ ¬ ∃ l : List Nat, l.Nodup ∧ l.length = c / 2 ∧ ∀ p ∈ l, freePair p,
          .noResource)]
      (∃ L : List Nat,
        (a = false → L.length = c ∧ L.Pairwise (· < ·) ∧ (∀ k ∈ L, free k) ∧
          ∀ k : Nat, free k → k ∉ L → ∀ l ∈ L, l < k) ∧
        (a = true → ∃ ps : List Nat, L = ps.flatMap (fun p => [2 * p, 2 * p + 1]) ∧
          ps.length = c / 2 ∧ ps.Pairwise (· < ·) ∧ (∀ p ∈ ps, freePair p) ∧
          ∀ p : Nat, freePair p → p ∉ ps → ∀ q ∈ ps, q < p) ∧
        Succeeds s (.mxAddMapping src false a m) (countBits (L.map fun k => 2 ^ k).sum) 0#64 0#64 0#64
          fun t =>
          SameConfig s t ∧ SameHead s t ∧ SameDmem s t ∧
          (∀ j : Nat, j ≠ src → t.source j = s.source j) ∧
          t.source src = ⟨true, c, m, L, [], 0, [], 0⟩ ∧
          (∀ i : Nat, i < c → t.ownerAt (L.getD i 16) = some ⟨src, i⟩) ∧
          ∀ k : Nat, k ∉ L → t.ownerAt k = s.ownerAt k)

/-- R148, MX_REMOVE_MAPPING: the source closes, its slots are free, and nothing else changes. -/
def Obligations.MxRemoveMappingOutcome : Prop :=
  (∀ n : BitVec 8, decode (commandWord 0#8 n 0x22#8) = .ok (.mxRemoveMapping n.toNat)) ∧
  ∀ (s : State) (src : Nat),
    Checked s (.mxRemoveMapping src) [(NotOpen s src, .badSource)]
      (Succeeds s (.mxRemoveMapping src) (countBits ((s.source src).slots.map fun k => 2 ^ k).sum)
        0#64 0#64 0#64 fun t =>
        SameConfig s t ∧ SameHead s t ∧ SameDmem s t ∧
        (∀ j : Nat, j ≠ src → t.source j = s.source j) ∧
        ((t.source src).isOpen = false ∧ (t.source src).slots = [] ∧ (t.source src).chunks = [] ∧
          (t.source src).headOff = 0 ∧ (t.source src).data = [] ∧ (t.source src).tagged = 0) ∧
        ∀ k : Nat,
          (∀ o : Owner, s.ownerAt k = some o → o.source = src → t.ownerAt k = none) ∧
          ((∀ o : Owner, s.ownerAt k = some o → o.source ≠ src) → t.ownerAt k = s.ownerAt k))

/-- R152 and R153 with R150 and R151: MX_BUFFER_START reports the least buffer start of the active sources,
INVALID where there is none; MX_AVAILABLE_VIRTUAL the least availability over the slots that an active
source owns, 0 where there is none; both change nothing. -/
def Obligations.MxStartAndAvailability : Prop :=
  decode (commandWord 0#8 0#8 0x23#8) = .ok .mxBufferStart ∧
  decode (commandWord 0#8 0#8 0x24#8) = .ok .mxAvailableVirtual ∧
  ∀ s : State,
    let counted := fun o : Owner =>
      ∃ k : Nat, k < 2 * (s.audioCh / 2) ∧ s.ownerAt k = some o ∧ Active s o.source
    Checked s .mxBufferStart [(s.audioCh = 0, .badState)]
      (((∀ i : Nat, ¬ Active s i) → Reports s .mxBufferStart invalidBits 0#64 0#64 0#64) ∧
        ∀ i : Nat, Active s i →
          (∀ j : Nat, Active s j →
            (s.source i).bufferStart s.params ≤ (s.source j).bufferStart s.params) →
          Reports s .mxBufferStart (BitVec.ofInt 64 ((s.source i).bufferStart s.params))
            0#64 0#64 0#64) ∧
    Checked s .mxAvailableVirtual [(s.audioCh = 0, .badState)]
      (((∀ o : Owner, ¬ counted o) → Reports s .mxAvailableVirtual 0#64 0#64 0#64 0#64) ∧
        ∀ o : Owner, counted o →
          (∀ o' : Owner, counted o' →
            (s.source o.source).avail s.params (s.sarg 0) ≤
              (s.source o'.source).avail s.params (s.sarg 0)) →
          Reports s .mxAvailableVirtual
            (countBits ((s.source o.source).avail s.params (s.sarg 0))) 0#64 0#64 0#64)

/-- R155, MX_ALIGNED_INTERLEAVE: the greatest cut up to `wanted` that falls, for every active non-PCM
source, at 0, before its first frame, or at the end of one of its pushed chunks; it changes nothing. -/
def Obligations.MxAlignedInterleaveOutcome : Prop :=
  decode (commandWord 0#8 0#8 0x25#8) = .ok .mxAlignedInterleave ∧
  ∀ s : State, RingsOk s →
    let isEnd := fun (c : Source) (e : Int) =>
      ∃ j : Nat, j < c.chunks.length ∧
        e = (((c.chunks.take (j + 1)).map Chunk.frames).sum : Int) - c.headOff
    let legal := fun n : Nat =>
      ∀ i : Nat, Active s i → (s.source i).pcm = false →
        n = 0 ∨ (n : Int) ≤ (s.source i).offset s.params (s.sarg 0) ∨
          isEnd (s.source i) ((n : Int) - (s.source i).offset s.params (s.sarg 0))
    Checked s .mxAlignedInterleave
      [(s.audioCh = 0, .badState), (s.argBits 0 = invalidBits, .badArg), (u32Max < s.arg 1, .badArg)]
      (∃ n : Nat, Reports s .mxAlignedInterleave (countBits n) 0#64 0#64 0#64 ∧
        n ≤ s.arg 1 ∧ legal n ∧ ∀ m : Nat, m ≤ s.arg 1 → legal m → m ≤ n)

/-- R160, MX_EXTRACT: a forward of all sources does to each open one what RB_FORWARD_TO does (R109), and nothing
else; the checks in order; the forwards that a regressing start causes are kept on NOT_READY; else the block's
bytes are written, every active source is tagged and flushed, and `head` moves to the block's end. -/
def Obligations.MxExtractOutcome : Prop :=
  decode (commandWord 0#8 0#8 0x26#8) = .ok .mxExtract ∧
  (∀ (s : State) (h : Int) (j : Nat),
    let u := s.forwardAll h
    let c := s.source j
    let k := min c.total ((h - c.bufferStart s.params) * s.params.sampleRate / s.params.tickHz).toNat
    u.ports = s.ports ∧ SameOutside s u ∧ SameConfig s u ∧ SameHead s u ∧ u.owner = s.owner ∧
      u.dmem = s.dmem ∧
      u.source j =
        if NotOpen s j ∨ c.total = 0 ∨ h ≤ c.bufferStart s.params then c
        else { c.discard s.params k with tagged := c.tagged - k }) ∧
  ∀ s : State,
    let n := s.arg 0
    let bytes := n * 2 * (s.audioCh / 2) * s.params.subframeBytes
    let regress := s.head ≠ invalidBits ∧ s.muxStart < s.head.toInt
    let start := if regress then s.head.toInt else s.muxStart
    let stop := start + framesToTicks s.params n
    let f := if regress then s.forwardAll s.head.toInt else s
    let short := (∀ i : Nat, ¬ Active f i) ∨ f.virtualAvail start < n
    Checked s .mxExtract
      [(s.audioCh = 0, .badState),
        (n < 1 ∨ u32Max < n, .badArg),
        (OutOfRange s.params (s.arg 1) bytes, .dmemFault),
        (∀ i : Nat, ¬ Active s i, .notReady),
        (stop > int64Max, .badArg)]
      ((short → ∃ t, exec .mxExtract s = .next t ∧
          Completed s t .notReady 0#64 0#64 0#64 0#64 ∧ SameBlock f t) ∧
        (¬ short →
          Succeeds s .mxExtract (BitVec.ofInt 64 start) (countBits n) (countBits bytes) 0#64 fun t =>
            SameConfig s t ∧ t.owner = s.owner ∧ t.cdpCounter = s.cdpCounter ∧
            t.head = BitVec.ofInt 64 stop ∧ SameDmemOutside s t (s.arg 1) bytes ∧
            ∀ i : Nat, t.source i =
              if Active f i then ((f.source i).tag s.params start n).flush s.params
              else f.source i))

/-- R161 with R141: every byte of an extracted block. Slot `k` of frame `i` holds the bytes of the owner's
channel at that time where an active owner has the frame, and zeros elsewhere. -/
def Obligations.ExtractedBlockLayout : Prop :=
  ∀ s t : State, MemoryOk s → exec .mxExtract s = .next t → t.ports[s.serving].code = .ok →
    let SB := s.params.subframeBytes
    let f := if s.head ≠ invalidBits ∧ s.muxStart < s.head.toInt then s.forwardAll s.head.toInt else s
    let start := if s.head ≠ invalidBits ∧ s.muxStart < s.head.toInt then s.head.toInt else s.muxStart
    let raced := RacedBlock s .mxExtract (s.arg 1) (s.arg 0 * 2 * (s.audioCh / 2) * SB)
    ∀ i k b : Nat, i < s.arg 0 → k < 2 * (s.audioCh / 2) → b < SB →
      let a := s.arg 1 + (i * 2 * (s.audioCh / 2) + k) * SB + b
      (∀ (o : Owner) (j : Nat), s.ownerAt k = some o → Active f o.source →
        (i : Int) - (f.source o.source).offset s.params start = j → j < (f.source o.source).total →
        EndsAs s t raced a
          ((f.source o.source).data.getD ((j * (f.source o.source).nsub + o.chan) * SB + b) 0#8)) ∧
      ((∀ (o : Owner) (j : Nat), s.ownerAt k = some o → Active f o.source →
          (i : Int) - (f.source o.source).offset s.params start = j →
          (f.source o.source).total ≤ j) →
        EndsAs s t raced a 0#8)

/-- The consumption law, which R162 derives from R160, R107 and R108: from a contributing source without
an unflushed tag, MX_EXTRACT removes exactly the frames with index below `samples - o`, and keeps every
later one. -/
def Obligations.ExtractConsumesTheBlock : Prop :=
  ∀ (s t : State) (i : Nat), RingsOk s → exec .mxExtract s = .next t →
    t.ports[s.serving].code = .ok →
    let f := if s.head ≠ invalidBits ∧ s.muxStart < s.head.toInt then s.forwardAll s.head.toInt else s
    let start := if s.head ≠ invalidBits ∧ s.muxStart < s.head.toInt then s.head.toInt else s.muxStart
    let o := (f.source i).offset s.params start
    let gone := min (f.source i).total (max 0 ((s.arg 0 : Int) - o)).toNat
    Active f i → (s.source i).tagged = 0 →
      (t.source i).total = (f.source i).total - gone ∧ (t.source i).tagged = 0 ∧
      ∀ j ch : Nat,
        (t.source i).subframe s.params j ch = (f.source i).subframe s.params (gone + j) ch

/-- The law R163 derives from R160 and R40: `head` moves by a successful MX_EXTRACT, to the end of its block,
which starts at or after the `head` before it; and by a successful MX_SET_AUDIO_CONFIG or a host's reset, to
INVALID; and by nothing else. -/
def Obligations.BlockStartsNeverRegress : Prop :=
  (∀ (s t : State) (i : Instr), RingsOk s → exec i s = .next t →
    (i = .mxExtract → t.ports[s.serving].code = .ok →
      (t.head.toInt = t.ports[s.serving].res[0].toInt + framesToTicks s.params (s.arg 0)) ∧
      (s.head ≠ invalidBits → s.head.toInt ≤ t.ports[s.serving].res[0].toInt) ∧
      t.head ≠ invalidBits) ∧
    ((∀ d : Bool, i = .mxSetAudioConfig d → t.ports[s.serving].code = .ok → t.head = invalidBits)) ∧
    (t.head ≠ s.head → t.ports[s.serving].code = .ok ∧
      (i = .mxExtract ∨ ∃ d : Bool, i = .mxSetAudioConfig d))) ∧
  ∀ (s t : State) (p : Fin 15), s.hostStep p = .next t → t.head ≠ s.head →
    t.head = invalidBits ∧ ∃ (w : Word) (rest : List HostAction),
      s.hosts[p].actions = .regWrite 0x004 4 w :: rest ∧ w.getLsbD 0 = true

/-- Irreversibility, the law R149 derives from R145, R148 and R251: no command changes the shape or the
slots of an open source but MX_REMOVE_MAPPING of that source, and a host changes a source or the slot
table by a reset only. -/
def Obligations.MappingsAreIrreversible : Prop :=
  (∀ (i : Instr) (s t : State) (src : Nat), exec i s = .next t → (s.source src).isOpen = true →
    i ≠ .mxRemoveMapping src →
      (t.source src).isOpen = true ∧ (t.source src).nsub = (s.source src).nsub ∧
      (t.source src).pcm = (s.source src).pcm ∧ (t.source src).slots = (s.source src).slots ∧
      ∀ k ch : Nat, s.ownerAt k = some ⟨src, ch⟩ → t.ownerAt k = some ⟨src, ch⟩) ∧
  ∀ (s t : State) (p : Fin 15), s.hostStep p = .next t → ¬ SameSources s t →
    ∃ (w : Word) (rest : List HostAction),
      s.hosts[p].actions = .regWrite 0x004 4 w :: rest ∧ w.getLsbD 0 = true

/-- R165, MX_SLOT_MAP: the slot table and the configuration; it changes nothing and never fails. -/
def Obligations.MxSlotMapOutcome : Prop :=
  decode (commandWord 0#8 0#8 0x27#8) = .ok .mxSlotMap ∧
  ∀ s : State,
    Reports s .mxSlotMap
      (countBits ((List.range 16).map fun k => if s.ownerAt k = none then 0 else 2 ^ k).sum)
      (countBits ((List.range 16).map fun k =>
        ((s.ownerAt k).map fun o => o.source * 2 ^ (4 * k)).getD 0).sum)
      (countBits ((List.range 16).map fun k =>
        ((s.ownerAt k).map fun o => o.chan * 2 ^ (4 * k)).getD 0).sum)
      (countBits s.audioCh ||| (countBits s.declaredOnly.toNat <<< 8))

/-! ### Ancillary packets -/

/-- R185 with R184, ANC_DATA10: the checks in order; the packet's words, padded where P is set, land at
`dst`, and nothing else changes. -/
def Obligations.AncData10Outcome : Prop :=
  (∀ p : Bool, decode (commandWord (if p then 1#8 else 0#8) 0#8 0x30#8) = .ok (.ancData10 p)) ∧
  ∀ (s : State) (p : Bool),
    let n := s.arg 3
    let pad := if p then (6 - (7 + n) % 6) % 6 else 0
    let ws := build (BitVec.ofNat 8 (s.arg 0)) (BitVec.ofNat 8 (s.arg 1))
      ((List.range n).map fun j => s.readByte (s.arg 2 + j))
    Checked s (.ancData10 p)
      [(0xFF < s.arg 0 ∨ 0xFF < s.arg 1, .badArg),
        (255 < n, .badArg),
        (OutOfRange s.params (s.arg 2) n, .dmemFault),
        (OutOfRange s.params (s.arg 4) (2 * (7 + n + pad)), .dmemFault)]
      (Succeeds s (.ancData10 p) (countBits (7 + n + pad)) (countBits (7 + n))
        ((ws.getD (6 + n) 0#10).setWidth 64) 0#64 fun t =>
        SameConfig s t ∧ SameSources s t ∧ SameHead s t ∧
        StoresWords s t (.ancData10 p) (s.arg 4) (ws ++ List.replicate pad s.params.padWord))

/-- R187 with R186, ANC_PAD: filler words up to the next multiple of 6 are written after the array, and
nothing else changes. -/
def Obligations.AncPadOutcome : Prop :=
  decode (commandWord 0#8 0#8 0x31#8) = .ok .ancPad ∧
  ∀ s : State,
    let m := s.arg 1
    let f := (6 - m % 6) % 6
    (m + f) % 6 = 0 ∧
    Checked s .ancPad
      [(u32Max < m, .badArg), (OutOfRange s.params (s.arg 0 + 2 * m) (2 * f), .dmemFault)]
      (Succeeds s .ancPad (countBits (m + f)) (countBits f) 0#64 0#64 fun t =>
        SameConfig s t ∧ SameSources s t ∧ SameHead s t ∧
        StoresWords s t .ancPad (s.arg 0 + 2 * m) (List.replicate f s.params.padWord))

/-- R189 with R188, ANC_AFD: the packet of the eight-byte AFD body lands at `dst`, and nothing else
changes. The bits of the body are a convention that R188 marks as general knowledge (log entry 9). -/
def Obligations.AncAfdOutcome : Prop :=
  (∀ p : Bool, decode (commandWord (if p then 1#8 else 0#8) 0#8 0x32#8) = .ok (.ancAfd p)) ∧
  ∀ (s : State) (p : Bool),
    let pad := if p then 3 else 0
    let ws := build s.params.afdDid s.params.afdSdid
      [(BitVec.ofNat 8 (s.arg 0) <<< 3) ||| (BitVec.ofNat 8 (s.arg 1) <<< 2), 0#8, 0#8, 0#8, 0#8,
        0#8, 0#8, 0#8]
    Checked s (.ancAfd p)
      [(15 < s.arg 0 ∨ 1 < s.arg 1, .badArg),
        (OutOfRange s.params (s.arg 2) (2 * (15 + pad)), .dmemFault)]
      (Succeeds s (.ancAfd p) (countBits (15 + pad)) (countBits 15)
        ((ws.getD 14 0#10).setWidth 64) 0#64 fun t =>
        SameConfig s t ∧ SameSources s t ∧ SameHead s t ∧
        StoresWords s t (.ancAfd p) (s.arg 2) (ws ++ List.replicate pad s.params.padWord))

/-- R194 with R190, ANC_CAPTIONS: the packet of the CDP with the counter's value lands at `dst`, the counter
advances by one and wraps, and nothing else changes. -/
def Obligations.AncCaptionsOutcome : Prop :=
  (∀ p : Bool, decode (commandWord (if p then 1#8 else 0#8) 0#8 0x33#8) = .ok (.ancCaptions p)) ∧
  ∀ (s : State) (p : Bool),
    let q := s.arg 3
    let n := 13 + 3 * q
    let pad := if p then (6 - (7 + n) % 6) % 6 else 0
    let rc := rateCode (s.arg 0) (s.arg 1)
    let ws := build 0x61#8 0x01#8
      (cdp rc s.cdpCounter ((List.range (3 * q)).map fun j => s.readByte (s.arg 2 + j)))
    Checked s (.ancCaptions p)
      [(u32Max < s.arg 0 ∨ u32Max < s.arg 1, .badArg),
        (31 < q, .badArg),
        (OutOfRange s.params (s.arg 2) (3 * q), .dmemFault),
        (OutOfRange s.params (s.arg 4) (2 * (7 + n + pad)), .dmemFault)]
      (Succeeds s (.ancCaptions p) (countBits (7 + n + pad)) (s.cdpCounter.setWidth 64)
        (countBits rc) (countBits n) fun t =>
        SameConfig s t ∧ SameSources s t ∧ t.head = s.head ∧
        t.cdpCounter.toNat = (s.cdpCounter.toNat + 1) % 65536 ∧
        StoresWords s t (.ancCaptions p) (s.arg 4) (ws ++ List.replicate pad s.params.padWord))

/-- R197, ANC_PARSE: the checks in order; a packet that passes them gives its identifiers, its length and
its payload; nothing else changes, up to the draws of R73. Where the command works in place a race on its output
may change what it finds: that both findings are then its output ranges is the model's reading (log entry 5,
DEDUCED). -/
def Obligations.AncParseOutcome : Prop :=
  decode (commandWord 0#8 0#8 0x34#8) = .ok .ancParse ∧
  ∀ s : State,
    let m := s.arg 1
    let w := fun j : Nat => s.read16 (s.arg 0 + 2 * j)
    let n := (w 5).toNat % 256
    Checked s .ancParse
      [(u32Max < m, .badArg),
        (OutOfRange s.params (s.arg 0) (2 * m), .dmemFault),
        (¬ PacketOk w m n, .malformed),
        (OutOfRange s.params (s.arg 2) n, .dmemFault)]
      (Succeeds s .ancParse (countBits ((w 3).toNat % 256)) (countBits ((w 4).toNat % 256))
        (countBits n) (countBits (7 + n)) fun t =>
        SameConfig s t ∧ SameSources s t ∧ SameHead s t ∧
        StoresBytes s t (RacedParse s .ancParse ((s.findings .ancParse).map Extent.payload)) (s.arg 2)
          ((List.range n).map fun j => (w (6 + j)).setWidth 8))

/-- R199, CDP_PARSE: the checks in order; a CDP that passes them gives its triplet count, its counter, its
rate code and its triplets; nothing else changes, up to the draws of R73, with both findings as ANC_PARSE has
them (log entry 5, DEDUCED). -/
def Obligations.CdpParseOutcome : Prop :=
  decode (commandWord 0#8 0#8 0x35#8) = .ok .cdpParse ∧
  ∀ s : State,
    let m := s.arg 1
    let b := fun j : Nat => s.readByte (s.arg 0 + j)
    let q := (b 8).toNat % 32
    Checked s .cdpParse
      [(u32Max < m, .badArg),
        (OutOfRange s.params (s.arg 0) m, .dmemFault),
        (¬ CdpOk b m q, .malformed),
        (OutOfRange s.params (s.arg 2) (3 * q), .dmemFault)]
      (Succeeds s .cdpParse (countBits q) (countBits ((b 5).toNat * 256 + (b 6).toNat))
        (countBits ((b 3).toNat / 16)) 0#64 fun t =>
        SameConfig s t ∧ SameSources s t ∧ SameHead s t ∧
        StoresBytes s t (RacedParse s .cdpParse ((s.findings .cdpParse).map Extent.triplets)) (s.arg 2)
          ((List.range (3 * q)).map fun j => b (9 + j)))

/-- R180, R181, R182: the parity bits of a word, the checksum word, and the words of a packet. The bit
layouts are conventions that R180 and R181 mark as general knowledge (log entry 9). -/
def Obligations.PacketWords : Prop :=
  (∀ v : Byte,
    let p := ((List.range 8).map fun k => (v.getLsbD k).toNat).sum % 2
    (par v).toNat = v.toNat + p * 256 + (1 - p) * 512) ∧
  (∀ ws : List Sample,
    let S := (ws.map fun w => w.toNat % 512).sum % 512
    (checksum ws).toNat = S + (1 - S / 256 % 2) * 512) ∧
  ∀ (did sdid : Byte) (b : List Byte), b.length ≤ 255 →
    let w := build did sdid b
    w.length = 7 + b.length ∧ w.take 3 = [0x000#10, 0x3FF#10, 0x3FF#10] ∧
    (w.getD 3 0#10 = par did ∧ w.getD 4 0#10 = par sdid ∧
      w.getD 5 0#10 = par (BitVec.ofNat 8 b.length)) ∧
    (∀ j : Nat, j < b.length → w.getD (6 + j) 0#10 = par (b.getD j 0#8)) ∧
    w.getD (6 + b.length) 0#10 = checksum ((w.drop 3).take (3 + b.length))

/-- The checksum law, which R195 derives from R182, R184 and R197: ANC_PARSE of a packet the block builds,
wherever it lies, succeeds and gives back its identifiers, its length and its payload. -/
def Obligations.BuiltPacketsParse : Prop :=
  ∀ (s : State) (did sdid : Byte) (b : List Byte), b.length ≤ 255 →
    (∀ j : Nat, j < 7 + b.length →
      s.read16 (s.arg 0 + 2 * j) = ((build did sdid b).getD j 0#10).setWidth 16) →
    7 + b.length ≤ s.arg 1 → s.arg 1 ≤ u32Max → ¬ OutOfRange s.params (s.arg 0) (2 * s.arg 1) →
    ¬ OutOfRange s.params (s.arg 2) b.length →
      Succeeds s .ancParse (did.setWidth 64) (sdid.setWidth 64) (countBits b.length)
        (countBits (7 + b.length)) fun t =>
          StoresBytes s t (RacedParse s .ancParse ((s.findings .ancParse).map Extent.payload)) (s.arg 2) b

/-- R191, R193 and the CDP law, which R196 derives from them and R199: the bytes of a CDP, which sum to zero;
CDP_PARSE of it succeeds and gives back its triplets, its counter and its rate code. That the length byte
counts the whole CDP is a convention that R191 marks as general knowledge (log entry 9). -/
def Obligations.BuiltCdpsParse : Prop :=
  ∀ (rc q : Nat) (c : BitVec 16) (t : List Byte), 1 ≤ rc → rc ≤ 8 → q ≤ 31 → t.length = 3 * q →
    (∃ k : Byte, cdp rc c t =
      [0x96#8, 0x69#8, BitVec.ofNat 8 (13 + 3 * q), BitVec.ofNat 8 (16 * rc + 15), 0x43#8,
        BitVec.ofNat 8 (c.toNat / 256), BitVec.ofNat 8 c.toNat, 0x72#8,
        BitVec.ofNat 8 (0xE0 + q)] ++ t ++
        [0x74#8, BitVec.ofNat 8 (c.toNat / 256), BitVec.ofNat 8 c.toNat, k]) ∧
    ((cdp rc c t).map BitVec.toNat).sum % 256 = 0 ∧
    ∀ s : State, (∀ j : Nat, j < 13 + 3 * q → s.readByte (s.arg 0 + j) = (cdp rc c t).getD j 0#8) →
      13 + 3 * q ≤ s.arg 1 → s.arg 1 ≤ u32Max → ¬ OutOfRange s.params (s.arg 0) (s.arg 1) →
      ¬ OutOfRange s.params (s.arg 2) (3 * q) →
        Succeeds s .cdpParse (countBits q) (c.setWidth 64) (countBits rc) 0#64 fun u =>
          StoresBytes s u (RacedParse s .cdpParse ((s.findings .cdpParse).map Extent.triplets)) (s.arg 2) t

/-- R192: the rate codes. A rate has the code of the table exactly where it equals the table's rate as a
fraction; any other, and any with denominator 0, has code 1. -/
def Obligations.RateCodes : Prop :=
  ∀ num den : Nat, rateCode num den =
    if den = 0 then 1
    else if num * 1001 = 24000 * den then 1
    else if num = 24 * den then 2
    else if num = 25 * den then 3
    else if num * 1001 = 30000 * den then 4
    else if num = 30 * den then 5
    else if num = 50 * den then 6
    else if num * 1001 = 60000 * den then 7
    else if num = 60 * den then 8
    else 1

/-! ### Pixel codec -/

/-- R222 with R221, PX_PACK_WORDS: six words to a group of four packed words, each clipped where C is set;
no byte outside the groups changes. -/
def Obligations.PxPackWordsOutcome : Prop :=
  (∀ c : Bool, decode (commandWord (if c then 1#8 else 0#8) 0#8 0x41#8) = .ok (.pxPackWords c)) ∧
  ∀ (s : State) (c : Bool),
    let n := s.arg 1
    let a := fun g t : Nat =>
      let v := (s.read16 (s.arg 0 + 2 * (6 * g + t))).setWidth 32
      if c then BitVec.ofNat 32 (min (max v.toNat 4) 1019) else v &&& 0x3FF#32
    let raced := RacedBlock s (.pxPackWords c) (s.arg 2) (16 * (n / 6))
    Checked s (.pxPackWords c)
      [(u32Max < n ∨ n % 6 ≠ 0, .badArg),
        (OutOfRange s.params (s.arg 0) (2 * n), .dmemFault),
        (OutOfRange s.params (s.arg 2) (16 * (n / 6)), .dmemFault)]
      (Succeeds s (.pxPackWords c) (countBits (16 * (n / 6))) 0#64 0#64 0#64 fun t =>
        SameConfig s t ∧ SameSources s t ∧ SameHead s t ∧
        (MemoryOk s → ∀ g : Nat, g < n / 6 →
          HoldsPacked s t raced (s.arg 2 + 16 * g) (a g 0 <<< 10) ∧
          HoldsPacked s t raced (s.arg 2 + 16 * g + 4) (a g 1 ||| (a g 2 <<< 20)) ∧
          HoldsPacked s t raced (s.arg 2 + 16 * g + 8) (a g 3 <<< 10) ∧
          HoldsPacked s t raced (s.arg 2 + 16 * g + 12) (a g 4 ||| (a g 5 <<< 20))) ∧
        SameDmemOutside s t (s.arg 2) (16 * (n / 6)))

/-- R223, PX_UNPACK_WORDS: the six luma positions of each group, unclipped; no byte outside the words
changes. -/
def Obligations.PxUnpackWordsOutcome : Prop :=
  decode (commandWord 0#8 0#8 0x43#8) = .ok .pxUnpackWords ∧
  ∀ s : State,
    let n := s.arg 1
    let w := fun g k : Nat => s.read32 (s.arg 0 + 16 * g + 4 * k)
    let a := fun g : Nat =>
      [(w g 0).extractLsb' 10 10, (w g 1).extractLsb' 0 10, (w g 1).extractLsb' 20 10,
        (w g 2).extractLsb' 10 10, (w g 3).extractLsb' 0 10, (w g 3).extractLsb' 20 10]
    Checked s .pxUnpackWords
      [(u32Max < n ∨ n % 6 ≠ 0, .badArg),
        (OutOfRange s.params (s.arg 0) (16 * (n / 6)), .dmemFault),
        (OutOfRange s.params (s.arg 2) (2 * n), .dmemFault)]
      (Succeeds s .pxUnpackWords (countBits n) 0#64 0#64 0#64 fun t =>
        SameConfig s t ∧ SameSources s t ∧ SameHead s t ∧
        (MemoryOk s → ∀ g j : Nat, g < n / 6 → j < 6 →
          HoldsWord s t (RacedBlock s .pxUnpackWords (s.arg 2) (2 * n)) (s.arg 2 + 2 * (6 * g + j))
            ((a g).getD j 0#10)) ∧
        SameDmemOutside s t (s.arg 2) (2 * n))

/-- R224 with R87, R220 and R221, PX_PACK_PLANE: the checks in order; every group of every row, clipped,
and 0 past the row's width; no byte outside the groups changes, the rows' padding among them, unless hosts have
raced with the packed rows' range: then every byte from the first row to the last ends arbitrary (R73). That the
range is the one R63 checks, the rows' padding among it, is the model's reading (log entry 5, DEDUCED). The group
layout and the planes' format are conventions that R220 and R224 mark as general knowledge (log entry 9). -/
def Obligations.PxPackPlaneOutcome : Prop :=
  decode (commandWord 0#8 0#8 0x40#8) = .ok .pxPackPlane ∧
  ∀ s : State,
    let W := s.arg 7 % 2 ^ 32
    let H := s.arg 7 / 2 ^ 32
    let G := (W + 5) / 6
    let sample := fun (base pitch width r x : Nat) =>
      if x < width then
        BitVec.ofNat 32 (min (max (s.read16 (base + r * pitch + 2 * x)).toNat 4) 1019)
      else 0#32
    let y := fun r g t => sample (s.arg 0) (s.arg 4) W r (6 * g + t)
    let u := fun r g t => sample (s.arg 1) (s.arg 5) (W / 2) r (3 * g + t)
    let v := fun r g t => sample (s.arg 2) (s.arg 5) (W / 2) r (3 * g + t)
    let bytes := (H - 1) * s.arg 6 + 16 * G
    let packs := fun a : Nat => ∃ r < H, s.arg 3 + r * s.arg 6 ≤ a ∧ a < s.arg 3 + r * s.arg 6 + 16 * G
    let raced := RacedOutput s .pxPackPlane [⟨s.arg 3, bytes⟩] packs
    Checked s .pxPackPlane
      [(W < 2 ∨ W % 2 ≠ 0 ∨ H < 1, .badArg),
        (u32Max < s.arg 4 ∨ u32Max < s.arg 5 ∨ u32Max < s.arg 6, .badArg),
        (s.arg 4 < 2 * W ∨ s.arg 5 < W ∨ s.arg 6 < 16 * G, .badArg),
        (OutOfRange s.params (s.arg 0) ((H - 1) * s.arg 4 + 2 * W), .dmemFault),
        (OutOfRange s.params (s.arg 1) ((H - 1) * s.arg 5 + W), .dmemFault),
        (OutOfRange s.params (s.arg 2) ((H - 1) * s.arg 5 + W), .dmemFault),
        (OutOfRange s.params (s.arg 3) bytes, .dmemFault)]
      (Succeeds s .pxPackPlane (countBits (16 * G)) (countBits H) 0#64 0#64 fun t =>
        SameConfig s t ∧ SameSources s t ∧ SameHead s t ∧
        (MemoryOk s →
          (∀ r g : Nat, r < H → g < G →
            let d := s.arg 3 + r * s.arg 6 + 16 * g
            HoldsPacked s t raced d (u r g 0 ||| (y r g 0 <<< 10) ||| (v r g 0 <<< 20)) ∧
            HoldsPacked s t raced (d + 4) (y r g 1 ||| (u r g 1 <<< 10) ||| (y r g 2 <<< 20)) ∧
            HoldsPacked s t raced (d + 8) (v r g 1 ||| (y r g 3 <<< 10) ||| (u r g 2 <<< 20)) ∧
            HoldsPacked s t raced (d + 12) (y r g 4 ||| (v r g 2 <<< 10) ||| (y r g 5 <<< 20))) ∧
          ∀ a : Nat, ¬ packs a → EndsAs s t raced a (Memory.read s.dmem a)) ∧
        SameDmemOutside s t (s.arg 3) bytes)

/-- R226 with R220, PX_UNPACK_PLANE: the checks in order; every sample of the three planes inside the row's
width, where the planes lie apart (where they overlap the order of the writes matters: log entry 17); no
byte outside the planes' rows changes, but for a plane on which hosts have raced with it: every byte of that
plane, from its first row to its last, ends arbitrary (R73). That each plane is a range of its own, the one R63
checks, its padding among it, is the model's reading (log entry 5, DEDUCED). The group layout and the planes'
format are conventions that R220 and R224 mark as general knowledge (log entry 9). -/
def Obligations.PxUnpackPlaneOutcome : Prop :=
  decode (commandWord 0#8 0#8 0x42#8) = .ok .pxUnpackPlane ∧
  ∀ s : State,
    let W := s.arg 7 % 2 ^ 32
    let H := s.arg 7 / 2 ^ 32
    let G := (W + 5) / 6
    let w := fun r g k : Nat => s.read32 (s.arg 0 + r * s.arg 4 + 16 * g + 4 * k)
    let y := fun r g : Nat =>
      [(w r g 0).extractLsb' 10 10, (w r g 1).extractLsb' 0 10, (w r g 1).extractLsb' 20 10,
        (w r g 2).extractLsb' 10 10, (w r g 3).extractLsb' 0 10, (w r g 3).extractLsb' 20 10]
    let u := fun r g : Nat =>
      [(w r g 0).extractLsb' 0 10, (w r g 1).extractLsb' 10 10, (w r g 2).extractLsb' 20 10]
    let v := fun r g : Nat =>
      [(w r g 0).extractLsb' 20 10, (w r g 2).extractLsb' 0 10, (w r g 3).extractLsb' 10 10]
    let lumaBytes := (H - 1) * s.arg 5 + 2 * W
    let chromaBytes := (H - 1) * s.arg 6 + W
    let apart := fun (a n b m : Nat) => a + n ≤ b ∨ b + m ≤ a
    let unpacks := fun a : Nat => ∃ r < H,
      (s.arg 1 + r * s.arg 5 ≤ a ∧ a < s.arg 1 + r * s.arg 5 + 2 * W) ∨
        (s.arg 2 + r * s.arg 6 ≤ a ∧ a < s.arg 2 + r * s.arg 6 + W) ∨
        (s.arg 3 + r * s.arg 6 ≤ a ∧ a < s.arg 3 + r * s.arg 6 + W)
    let planes : List Range :=
      [⟨s.arg 1, lumaBytes⟩, ⟨s.arg 2, chromaBytes⟩, ⟨s.arg 3, chromaBytes⟩]
    let raced := RacedOutput s .pxUnpackPlane planes unpacks
    Checked s .pxUnpackPlane
      [(W < 2 ∨ W % 2 ≠ 0 ∨ H < 1, .badArg),
        (u32Max < s.arg 5 ∨ u32Max < s.arg 6 ∨ u32Max < s.arg 4, .badArg),
        (s.arg 5 < 2 * W ∨ s.arg 6 < W ∨ s.arg 4 < 16 * G, .badArg),
        (OutOfRange s.params (s.arg 0) ((H - 1) * s.arg 4 + 16 * G), .dmemFault),
        (OutOfRange s.params (s.arg 1) lumaBytes, .dmemFault),
        (OutOfRange s.params (s.arg 2) chromaBytes, .dmemFault),
        (OutOfRange s.params (s.arg 3) chromaBytes, .dmemFault)]
      (Succeeds s .pxUnpackPlane (countBits (16 * G)) (countBits H) 0#64 0#64 fun t =>
        SameConfig s t ∧ SameSources s t ∧ SameHead s t ∧
        (MemoryOk s → apart (s.arg 1) lumaBytes (s.arg 2) chromaBytes →
          apart (s.arg 1) lumaBytes (s.arg 3) chromaBytes →
          apart (s.arg 2) chromaBytes (s.arg 3) chromaBytes →
          (∀ r g j : Nat, r < H → j < 6 → 6 * g + j < W →
            HoldsWord s t raced (s.arg 1 + r * s.arg 5 + 2 * (6 * g + j)) ((y r g).getD j 0#10)) ∧
          ∀ r g j : Nat, r < H → j < 3 → 3 * g + j < W / 2 →
            HoldsWord s t raced (s.arg 2 + r * s.arg 6 + 2 * (3 * g + j)) ((u r g).getD j 0#10) ∧
            HoldsWord s t raced (s.arg 3 + r * s.arg 6 + 2 * (3 * g + j)) ((v r g).getD j 0#10)) ∧
        (MemoryOk s → ∀ a : Nat, ¬ unpacks a → EndsAs s t raced a (Memory.read s.dmem a)) ∧
        ∀ a : Nat, (∀ r ∈ planes, r.holds a = false) → Memory.read t.dmem a = Memory.read s.dmem a)

/-- The round-trip law, which R227 derives from R221 to R226. Of the words (a, b): PX_UNPACK_WORDS of what
PX_PACK_WORDS wrote gives each input clipped to [4, 1019] with C, and its low ten bits without; where the
input lies in [4, 1019] both are the input. Of the planes (c): PX_UNPACK_PLANE of what PX_PACK_PLANE wrote,
with the same size and pitches, into planes that lie apart, gives every sample clipped. -/
def Obligations.PackingRoundTrip : Prop :=
  (∀ (s t u v : State) (c : Bool), MemoryOk s →
    Unraced s (.pxPackWords c) → Unraced u .pxUnpackWords →
    exec (.pxPackWords c) s = .next t → t.ports[s.serving].code = .ok →
    u.dmem = t.dmem → u.arg 0 = s.arg 2 → u.arg 1 = s.arg 1 →
    exec .pxUnpackWords u = .next v → v.ports[u.serving].code = .ok →
      ∀ j : Nat, j < s.arg 1 →
        let x := (s.read16 (s.arg 0 + 2 * j)).toNat
        let z := (Memory.read v.dmem (u.arg 2 + 2 * j)).toNat +
          256 * (Memory.read v.dmem (u.arg 2 + 2 * j + 1)).toNat
        (c = true → z = min (max x 4) 1019) ∧ (c = false → z = x % 1024) ∧
          (4 ≤ x → x ≤ 1019 → z = x)) ∧
  ∀ (s t u v : State), MemoryOk s → Unraced s .pxPackPlane → Unraced u .pxUnpackPlane →
    exec .pxPackPlane s = .next t → t.ports[s.serving].code = .ok →
    u.dmem = t.dmem → u.argBits 7 = s.argBits 7 →
    (u.arg 0 = s.arg 3 ∧ u.arg 4 = s.arg 6 ∧ u.arg 5 = s.arg 4 ∧ u.arg 6 = s.arg 5) →
    exec .pxUnpackPlane u = .next v → v.ports[u.serving].code = .ok →
      let W := s.arg 7 % 2 ^ 32
      let H := s.arg 7 / 2 ^ 32
      let lumaBytes := (H - 1) * s.arg 4 + 2 * W
      let chromaBytes := (H - 1) * s.arg 5 + W
      let apart := fun (a n b m : Nat) => a + n ≤ b ∨ b + m ≤ a
      let word := fun a : Nat =>
        (Memory.read v.dmem a).toNat + 256 * (Memory.read v.dmem (a + 1)).toNat
      let kept := fun x z : Nat => z = min (max x 4) 1019 ∧ (4 ≤ x → x ≤ 1019 → z = x)
      apart (u.arg 1) lumaBytes (u.arg 2) chromaBytes →
      apart (u.arg 1) lumaBytes (u.arg 3) chromaBytes →
      apart (u.arg 2) chromaBytes (u.arg 3) chromaBytes →
        (∀ r x : Nat, r < H → x < W →
          kept (s.read16 (s.arg 0 + r * s.arg 4 + 2 * x)).toNat
            (word (u.arg 1 + r * s.arg 4 + 2 * x))) ∧
        ∀ r x : Nat, r < H → x < W / 2 →
          kept (s.read16 (s.arg 1 + r * s.arg 5 + 2 * x)).toNat
              (word (u.arg 2 + r * s.arg 5 + 2 * x)) ∧
            kept (s.read16 (s.arg 2 + r * s.arg 5 + 2 * x)).toNat
              (word (u.arg 3 + r * s.arg 5 + 2 * x))

/-! ### Invariants -/

/-- R32, every command preserves the rings' invariants: and so does every step of every agent, under every
schedule. -/
def Obligations.StepKeepsTheRings : Prop :=
  ∀ (f : Nat → Nat) (s t : State), RingsOk s → stepBy f s = .next t → RingsOk t

/-- R34 and R164: every step keeps the slot owner table in agreement with the open sources' slot lists, so
that no slot has two owners, and keeps the channel count one of 0, 2, 8, 16 (R37). -/
def Obligations.StepKeepsTheSlots : Prop :=
  ∀ (f : Nat → Nat) (s t : State), s.params.legal = true → SlotsOk s → ChannelsOk s →
    stepBy f s = .next t → SlotsOk t ∧ ChannelsOk t

/-- Every step keeps the data memory in its canonical form, and within its size: no step writes a byte at or
above `DMEM_SIZE` (R60, R63). The rest is about the buffers by which the model judges races (log entry 5). A
command changes no byte outside its output ranges. Where no host has raced with it, the bytes it reads and writes
are those its rule names, and it writes none where it fails. The states in which the model looks for the buffers
of a pending command are those in which it may be performed, and no others: no step adds to the buffers it may
have, and each of them some schedule brings about. -/
def Obligations.StepKeepsTheDataMemory : Prop :=
  (∀ (f : Nat → Nat) (s t : State), MemoryOk s → InsideDmem s → stepBy f s = .next t →
    MemoryOk t ∧ InsideDmem t ∧ t.params = s.params) ∧
  (∀ (s t : State) (p : Fin 15), RingsOk s → s.execStep p = .next t → ∀ a : Nat,
    (∀ r ∈ (s.buffersAt p).writes, r.range.holds a = false) →
      Memory.read t.dmem a = Memory.read s.dmem a) ∧
  (∀ (s : State) (p : Fin 15) (c : Pending) (i : Instr), RingsOk s → s.ports[p].pending = some c →
    decode c.word = .ok i → (s.serve p).violations i = [] →
      let ok := ∃ t, s.execStep p = .next t ∧ t.ports[p].code = .ok
      ∀ a : Nat,
        ((∃ r ∈ (s.buffersAt p).writes, r.span.covers a = true) ↔ OutputOf (s.serve p) i a ∧ ok) ∧
        ((∃ r ∈ (s.buffersAt p).reads, r.span.covers a = true) → InputOf (s.serve p) i a) ∧
        (ok → InputOf (s.serve p) i a → ∃ r ∈ (s.buffersAt p).reads, r.span.covers a = true)) ∧
  (∀ (f : Nat → Nat) (s t : State) (p : Fin 15), s.ports[p].busy = true → stepBy f s = .next t →
    t.ports[p].busy = true → ∀ u ∈ t.futures p, ∃ v ∈ s.futures p, v.buffersAt p = u.buffersAt p) ∧
  ∀ (s v : State) (p : Fin 15), s.ports[p].busy = true → v ∈ s.futures p →
    ∃ (f : Nat → Nat) (k : Nat) (u : State), runBy f k s = .next u ∧ u.ports[p].busy = true ∧
      u.buffersAt p = v.buffersAt p

/-- The machine after reset has all the invariants. -/
def Obligations.ResetHasTheInvariants : Prop :=
  RingsOk State.reset ∧ SlotsOk State.reset ∧ ChannelsOk State.reset ∧ MemoryOk State.reset ∧
    InsideDmem State.reset ∧ HostsOk State.reset
end

