-- ==== Sys2Proof/Laws/State.lean ====
section
/-! SUPPORT. What each update of the state leaves alone, field by field, and what the updates of ports and
source contexts put in place, so that no proof unfolds a record update. -/

namespace Sys2Proof.Laws

open Sys2Proof.Config (Params)
open Sys2Proof.Machine

/-! ### `State.setPort` -/

@[simp] theorem setPort_audioCh (s : State) (p : Fin 15) (x : Port) :
    (s.setPort p x).audioCh = s.audioCh := rfl
@[simp] theorem setPort_declaredOnly (s : State) (p : Fin 15) (x : Port) :
    (s.setPort p x).declaredOnly = s.declaredOnly := rfl
@[simp] theorem setPort_head (s : State) (p : Fin 15) (x : Port) :
    (s.setPort p x).head = s.head := rfl
@[simp] theorem setPort_cdpCounter (s : State) (p : Fin 15) (x : Port) :
    (s.setPort p x).cdpCounter = s.cdpCounter := rfl
@[simp] theorem setPort_sources (s : State) (p : Fin 15) (x : Port) :
    (s.setPort p x).sources = s.sources := rfl
@[simp] theorem setPort_owner (s : State) (p : Fin 15) (x : Port) :
    (s.setPort p x).owner = s.owner := rfl
@[simp] theorem setPort_dmem (s : State) (p : Fin 15) (x : Port) :
    (s.setPort p x).dmem = s.dmem := rfl
@[simp] theorem setPort_hosts (s : State) (p : Fin 15) (x : Port) :
    (s.setPort p x).hosts = s.hosts := rfl
@[simp] theorem setPort_serving (s : State) (p : Fin 15) (x : Port) :
    (s.setPort p x).serving = s.serving := rfl
@[simp] theorem setPort_steps (s : State) (p : Fin 15) (x : Port) :
    (s.setPort p x).steps = s.steps := rfl
@[simp] theorem setPort_draws (s : State) (p : Fin 15) (x : Port) :
    (s.setPort p x).draws = s.draws := rfl
@[simp] theorem setPort_params (s : State) (p : Fin 15) (x : Port) :
    (s.setPort p x).params = s.params := rfl

/-! ### `State.setHost` -/

@[simp] theorem setHost_ports (s : State) (p : Fin 15) (h : HostAgent) :
    (s.setHost p h).ports = s.ports := rfl
@[simp] theorem setHost_audioCh (s : State) (p : Fin 15) (h : HostAgent) :
    (s.setHost p h).audioCh = s.audioCh := rfl
@[simp] theorem setHost_declaredOnly (s : State) (p : Fin 15) (h : HostAgent) :
    (s.setHost p h).declaredOnly = s.declaredOnly := rfl
@[simp] theorem setHost_head (s : State) (p : Fin 15) (h : HostAgent) :
    (s.setHost p h).head = s.head := rfl
@[simp] theorem setHost_cdpCounter (s : State) (p : Fin 15) (h : HostAgent) :
    (s.setHost p h).cdpCounter = s.cdpCounter := rfl
@[simp] theorem setHost_sources (s : State) (p : Fin 15) (h : HostAgent) :
    (s.setHost p h).sources = s.sources := rfl
@[simp] theorem setHost_owner (s : State) (p : Fin 15) (h : HostAgent) :
    (s.setHost p h).owner = s.owner := rfl
@[simp] theorem setHost_dmem (s : State) (p : Fin 15) (h : HostAgent) :
    (s.setHost p h).dmem = s.dmem := rfl
@[simp] theorem setHost_serving (s : State) (p : Fin 15) (h : HostAgent) :
    (s.setHost p h).serving = s.serving := rfl
@[simp] theorem setHost_steps (s : State) (p : Fin 15) (h : HostAgent) :
    (s.setHost p h).steps = s.steps := rfl
@[simp] theorem setHost_draws (s : State) (p : Fin 15) (h : HostAgent) :
    (s.setHost p h).draws = s.draws := rfl
@[simp] theorem setHost_params (s : State) (p : Fin 15) (h : HostAgent) :
    (s.setHost p h).params = s.params := rfl

/-! ### `State.setSource` -/

@[simp] theorem setSource_ports (s : State) (i : Nat) (c : Source) :
    (s.setSource i c).ports = s.ports := rfl
@[simp] theorem setSource_audioCh (s : State) (i : Nat) (c : Source) :
    (s.setSource i c).audioCh = s.audioCh := rfl
@[simp] theorem setSource_declaredOnly (s : State) (i : Nat) (c : Source) :
    (s.setSource i c).declaredOnly = s.declaredOnly := rfl
@[simp] theorem setSource_head (s : State) (i : Nat) (c : Source) :
    (s.setSource i c).head = s.head := rfl
@[simp] theorem setSource_cdpCounter (s : State) (i : Nat) (c : Source) :
    (s.setSource i c).cdpCounter = s.cdpCounter := rfl
@[simp] theorem setSource_owner (s : State) (i : Nat) (c : Source) :
    (s.setSource i c).owner = s.owner := rfl
@[simp] theorem setSource_dmem (s : State) (i : Nat) (c : Source) :
    (s.setSource i c).dmem = s.dmem := rfl
@[simp] theorem setSource_hosts (s : State) (i : Nat) (c : Source) :
    (s.setSource i c).hosts = s.hosts := rfl
@[simp] theorem setSource_serving (s : State) (i : Nat) (c : Source) :
    (s.setSource i c).serving = s.serving := rfl
@[simp] theorem setSource_steps (s : State) (i : Nat) (c : Source) :
    (s.setSource i c).steps = s.steps := rfl
@[simp] theorem setSource_draws (s : State) (i : Nat) (c : Source) :
    (s.setSource i c).draws = s.draws := rfl
@[simp] theorem setSource_params (s : State) (i : Nat) (c : Source) :
    (s.setSource i c).params = s.params := rfl

/-! ### `State.mapSources` -/

@[simp] theorem mapSources_ports (s : State) (p : Nat → Bool) (f : Source → Source) :
    (s.mapSources p f).ports = s.ports := by dsimp only [State.mapSources]
@[simp] theorem mapSources_audioCh (s : State) (p : Nat → Bool) (f : Source → Source) :
    (s.mapSources p f).audioCh = s.audioCh := by dsimp only [State.mapSources]
@[simp] theorem mapSources_declaredOnly (s : State) (p : Nat → Bool) (f : Source → Source) :
    (s.mapSources p f).declaredOnly = s.declaredOnly := by dsimp only [State.mapSources]
@[simp] theorem mapSources_head (s : State) (p : Nat → Bool) (f : Source → Source) :
    (s.mapSources p f).head = s.head := by dsimp only [State.mapSources]
@[simp] theorem mapSources_cdpCounter (s : State) (p : Nat → Bool) (f : Source → Source) :
    (s.mapSources p f).cdpCounter = s.cdpCounter := by dsimp only [State.mapSources]
@[simp] theorem mapSources_owner (s : State) (p : Nat → Bool) (f : Source → Source) :
    (s.mapSources p f).owner = s.owner := by dsimp only [State.mapSources]
@[simp] theorem mapSources_dmem (s : State) (p : Nat → Bool) (f : Source → Source) :
    (s.mapSources p f).dmem = s.dmem := by dsimp only [State.mapSources]
@[simp] theorem mapSources_hosts (s : State) (p : Nat → Bool) (f : Source → Source) :
    (s.mapSources p f).hosts = s.hosts := by dsimp only [State.mapSources]
@[simp] theorem mapSources_serving (s : State) (p : Nat → Bool) (f : Source → Source) :
    (s.mapSources p f).serving = s.serving := by dsimp only [State.mapSources]
@[simp] theorem mapSources_steps (s : State) (p : Nat → Bool) (f : Source → Source) :
    (s.mapSources p f).steps = s.steps := by dsimp only [State.mapSources]
@[simp] theorem mapSources_draws (s : State) (p : Nat → Bool) (f : Source → Source) :
    (s.mapSources p f).draws = s.draws := by dsimp only [State.mapSources]
@[simp] theorem mapSources_params (s : State) (p : Nat → Bool) (f : Source → Source) :
    (s.mapSources p f).params = s.params := by dsimp only [State.mapSources]

/-! ### `State.claimSlots` -/

@[simp] theorem claimSlots_ports (s : State) (src : Nat) (slots : List Nat) :
    (s.claimSlots src slots).ports = s.ports := by dsimp only [State.claimSlots]
@[simp] theorem claimSlots_audioCh (s : State) (src : Nat) (slots : List Nat) :
    (s.claimSlots src slots).audioCh = s.audioCh := by dsimp only [State.claimSlots]
@[simp] theorem claimSlots_declaredOnly (s : State) (src : Nat) (slots : List Nat) :
    (s.claimSlots src slots).declaredOnly = s.declaredOnly := by dsimp only [State.claimSlots]
@[simp] theorem claimSlots_head (s : State) (src : Nat) (slots : List Nat) :
    (s.claimSlots src slots).head = s.head := by dsimp only [State.claimSlots]
@[simp] theorem claimSlots_cdpCounter (s : State) (src : Nat) (slots : List Nat) :
    (s.claimSlots src slots).cdpCounter = s.cdpCounter := by dsimp only [State.claimSlots]
@[simp] theorem claimSlots_sources (s : State) (src : Nat) (slots : List Nat) :
    (s.claimSlots src slots).sources = s.sources := by dsimp only [State.claimSlots]
@[simp] theorem claimSlots_dmem (s : State) (src : Nat) (slots : List Nat) :
    (s.claimSlots src slots).dmem = s.dmem := by dsimp only [State.claimSlots]
@[simp] theorem claimSlots_hosts (s : State) (src : Nat) (slots : List Nat) :
    (s.claimSlots src slots).hosts = s.hosts := by dsimp only [State.claimSlots]
@[simp] theorem claimSlots_serving (s : State) (src : Nat) (slots : List Nat) :
    (s.claimSlots src slots).serving = s.serving := by dsimp only [State.claimSlots]
@[simp] theorem claimSlots_steps (s : State) (src : Nat) (slots : List Nat) :
    (s.claimSlots src slots).steps = s.steps := by dsimp only [State.claimSlots]
@[simp] theorem claimSlots_draws (s : State) (src : Nat) (slots : List Nat) :
    (s.claimSlots src slots).draws = s.draws := by dsimp only [State.claimSlots]
@[simp] theorem claimSlots_params (s : State) (src : Nat) (slots : List Nat) :
    (s.claimSlots src slots).params = s.params := by dsimp only [State.claimSlots]

/-! ### `State.freeSlotsOf` -/

@[simp] theorem freeSlotsOf_ports (s : State) (src : Nat) :
    (s.freeSlotsOf src).ports = s.ports := by dsimp only [State.freeSlotsOf]
@[simp] theorem freeSlotsOf_audioCh (s : State) (src : Nat) :
    (s.freeSlotsOf src).audioCh = s.audioCh := by dsimp only [State.freeSlotsOf]
@[simp] theorem freeSlotsOf_declaredOnly (s : State) (src : Nat) :
    (s.freeSlotsOf src).declaredOnly = s.declaredOnly := by dsimp only [State.freeSlotsOf]
@[simp] theorem freeSlotsOf_head (s : State) (src : Nat) :
    (s.freeSlotsOf src).head = s.head := by dsimp only [State.freeSlotsOf]
@[simp] theorem freeSlotsOf_cdpCounter (s : State) (src : Nat) :
    (s.freeSlotsOf src).cdpCounter = s.cdpCounter := by dsimp only [State.freeSlotsOf]
@[simp] theorem freeSlotsOf_sources (s : State) (src : Nat) :
    (s.freeSlotsOf src).sources = s.sources := by dsimp only [State.freeSlotsOf]
@[simp] theorem freeSlotsOf_dmem (s : State) (src : Nat) :
    (s.freeSlotsOf src).dmem = s.dmem := by dsimp only [State.freeSlotsOf]
@[simp] theorem freeSlotsOf_hosts (s : State) (src : Nat) :
    (s.freeSlotsOf src).hosts = s.hosts := by dsimp only [State.freeSlotsOf]
@[simp] theorem freeSlotsOf_serving (s : State) (src : Nat) :
    (s.freeSlotsOf src).serving = s.serving := by dsimp only [State.freeSlotsOf]
@[simp] theorem freeSlotsOf_steps (s : State) (src : Nat) :
    (s.freeSlotsOf src).steps = s.steps := by dsimp only [State.freeSlotsOf]
@[simp] theorem freeSlotsOf_draws (s : State) (src : Nat) :
    (s.freeSlotsOf src).draws = s.draws := by dsimp only [State.freeSlotsOf]
@[simp] theorem freeSlotsOf_params (s : State) (src : Nat) :
    (s.freeSlotsOf src).params = s.params := by dsimp only [State.freeSlotsOf]

/-! ### `State.storeRuns` -/

@[simp] theorem storeRuns_ports (s : State) (i : Instr) (r : List Run) :
    (s.storeRuns i r).ports = s.ports := rfl
@[simp] theorem storeRuns_audioCh (s : State) (i : Instr) (r : List Run) :
    (s.storeRuns i r).audioCh = s.audioCh := rfl
@[simp] theorem storeRuns_declaredOnly (s : State) (i : Instr) (r : List Run) :
    (s.storeRuns i r).declaredOnly = s.declaredOnly := rfl
@[simp] theorem storeRuns_head (s : State) (i : Instr) (r : List Run) :
    (s.storeRuns i r).head = s.head := rfl
@[simp] theorem storeRuns_cdpCounter (s : State) (i : Instr) (r : List Run) :
    (s.storeRuns i r).cdpCounter = s.cdpCounter := rfl
@[simp] theorem storeRuns_sources (s : State) (i : Instr) (r : List Run) :
    (s.storeRuns i r).sources = s.sources := rfl
@[simp] theorem storeRuns_owner (s : State) (i : Instr) (r : List Run) :
    (s.storeRuns i r).owner = s.owner := rfl
@[simp] theorem storeRuns_hosts (s : State) (i : Instr) (r : List Run) :
    (s.storeRuns i r).hosts = s.hosts := rfl
@[simp] theorem storeRuns_serving (s : State) (i : Instr) (r : List Run) :
    (s.storeRuns i r).serving = s.serving := rfl
@[simp] theorem storeRuns_steps (s : State) (i : Instr) (r : List Run) :
    (s.storeRuns i r).steps = s.steps := rfl
@[simp] theorem storeRuns_draws (s : State) (i : Instr) (r : List Run) :
    (s.storeRuns i r).draws = s.draws := rfl
@[simp] theorem storeRuns_params (s : State) (i : Instr) (r : List Run) :
    (s.storeRuns i r).params = s.params := rfl
@[simp] theorem storeRuns_dmem (s : State) (i : Instr) (r : List Run) :
    (s.storeRuns i r).dmem =
      Memory.writeRuns s.dmem (r ++ (s.racedOutputs i).map s.drawn) := rfl

/-! ### `State.complete` -/

@[simp] theorem complete_audioCh (s : State) (c : Code) (r : Results) :
    (s.complete c r).audioCh = s.audioCh := rfl
@[simp] theorem complete_declaredOnly (s : State) (c : Code) (r : Results) :
    (s.complete c r).declaredOnly = s.declaredOnly := rfl
@[simp] theorem complete_head (s : State) (c : Code) (r : Results) :
    (s.complete c r).head = s.head := rfl
@[simp] theorem complete_cdpCounter (s : State) (c : Code) (r : Results) :
    (s.complete c r).cdpCounter = s.cdpCounter := rfl
@[simp] theorem complete_sources (s : State) (c : Code) (r : Results) :
    (s.complete c r).sources = s.sources := rfl
@[simp] theorem complete_owner (s : State) (c : Code) (r : Results) :
    (s.complete c r).owner = s.owner := rfl
@[simp] theorem complete_dmem (s : State) (c : Code) (r : Results) :
    (s.complete c r).dmem = s.dmem := rfl
@[simp] theorem complete_hosts (s : State) (c : Code) (r : Results) :
    (s.complete c r).hosts = s.hosts := rfl
@[simp] theorem complete_serving (s : State) (c : Code) (r : Results) :
    (s.complete c r).serving = s.serving := rfl
@[simp] theorem complete_steps (s : State) (c : Code) (r : Results) :
    (s.complete c r).steps = s.steps := rfl
@[simp] theorem complete_draws (s : State) (c : Code) (r : Results) :
    (s.complete c r).draws = s.draws := rfl
@[simp] theorem complete_params (s : State) (c : Code) (r : Results) :
    (s.complete c r).params = s.params := rfl

/-! ### `State.forwardAll` -/

@[simp] theorem forwardAll_ports (s : State) (u : Int) :
    (s.forwardAll u).ports = s.ports := by simp [State.forwardAll]
@[simp] theorem forwardAll_audioCh (s : State) (u : Int) :
    (s.forwardAll u).audioCh = s.audioCh := by simp [State.forwardAll]
@[simp] theorem forwardAll_declaredOnly (s : State) (u : Int) :
    (s.forwardAll u).declaredOnly = s.declaredOnly := by simp [State.forwardAll]
@[simp] theorem forwardAll_head (s : State) (u : Int) :
    (s.forwardAll u).head = s.head := by simp [State.forwardAll]
@[simp] theorem forwardAll_cdpCounter (s : State) (u : Int) :
    (s.forwardAll u).cdpCounter = s.cdpCounter := by simp [State.forwardAll]
@[simp] theorem forwardAll_owner (s : State) (u : Int) :
    (s.forwardAll u).owner = s.owner := by simp [State.forwardAll]
@[simp] theorem forwardAll_dmem (s : State) (u : Int) :
    (s.forwardAll u).dmem = s.dmem := by simp [State.forwardAll]
@[simp] theorem forwardAll_hosts (s : State) (u : Int) :
    (s.forwardAll u).hosts = s.hosts := by simp [State.forwardAll]
@[simp] theorem forwardAll_serving (s : State) (u : Int) :
    (s.forwardAll u).serving = s.serving := by simp [State.forwardAll]
@[simp] theorem forwardAll_steps (s : State) (u : Int) :
    (s.forwardAll u).steps = s.steps := by simp [State.forwardAll]
@[simp] theorem forwardAll_draws (s : State) (u : Int) :
    (s.forwardAll u).draws = s.draws := by simp [State.forwardAll]
@[simp] theorem forwardAll_params (s : State) (u : Int) :
    (s.forwardAll u).params = s.params := by simp [State.forwardAll]

/-! ### `State.consume` -/

@[simp] theorem consume_ports (s : State) (u : Int) (n : Nat) :
    (s.consume u n).ports = s.ports := by simp [State.consume]
@[simp] theorem consume_audioCh (s : State) (u : Int) (n : Nat) :
    (s.consume u n).audioCh = s.audioCh := by simp [State.consume]
@[simp] theorem consume_declaredOnly (s : State) (u : Int) (n : Nat) :
    (s.consume u n).declaredOnly = s.declaredOnly := by simp [State.consume]
@[simp] theorem consume_head (s : State) (u : Int) (n : Nat) :
    (s.consume u n).head = s.head := by simp [State.consume]
@[simp] theorem consume_cdpCounter (s : State) (u : Int) (n : Nat) :
    (s.consume u n).cdpCounter = s.cdpCounter := by simp [State.consume]
@[simp] theorem consume_owner (s : State) (u : Int) (n : Nat) :
    (s.consume u n).owner = s.owner := by simp [State.consume]
@[simp] theorem consume_dmem (s : State) (u : Int) (n : Nat) :
    (s.consume u n).dmem = s.dmem := by simp [State.consume]
@[simp] theorem consume_hosts (s : State) (u : Int) (n : Nat) :
    (s.consume u n).hosts = s.hosts := by simp [State.consume]
@[simp] theorem consume_serving (s : State) (u : Int) (n : Nat) :
    (s.consume u n).serving = s.serving := by simp [State.consume]
@[simp] theorem consume_steps (s : State) (u : Int) (n : Nat) :
    (s.consume u n).steps = s.steps := by simp [State.consume]
@[simp] theorem consume_draws (s : State) (u : Int) (n : Nat) :
    (s.consume u n).draws = s.draws := by simp [State.consume]
@[simp] theorem consume_params (s : State) (u : Int) (n : Nat) :
    (s.consume u n).params = s.params := by simp [State.consume]

/-! ### `State.tick` -/

@[simp] theorem tick_ports (s : State) : (s.tick).ports = s.ports := rfl
@[simp] theorem tick_audioCh (s : State) : (s.tick).audioCh = s.audioCh := rfl
@[simp] theorem tick_declaredOnly (s : State) : (s.tick).declaredOnly = s.declaredOnly := rfl
@[simp] theorem tick_head (s : State) : (s.tick).head = s.head := rfl
@[simp] theorem tick_cdpCounter (s : State) : (s.tick).cdpCounter = s.cdpCounter := rfl
@[simp] theorem tick_sources (s : State) : (s.tick).sources = s.sources := rfl
@[simp] theorem tick_owner (s : State) : (s.tick).owner = s.owner := rfl
@[simp] theorem tick_dmem (s : State) : (s.tick).dmem = s.dmem := rfl
@[simp] theorem tick_hosts (s : State) : (s.tick).hosts = s.hosts := rfl
@[simp] theorem tick_serving (s : State) : (s.tick).serving = s.serving := rfl
@[simp] theorem tick_steps (s : State) : (s.tick).steps = s.steps + 1 := rfl
@[simp] theorem tick_draws (s : State) : (s.tick).draws = s.draws + 1 := rfl
@[simp] theorem tick_params (s : State) : (s.tick).params = s.params := rfl

/-! ### `State.hostDone` -/

@[simp] theorem hostDone_ports (s : State) (p : Fin 15) (v : Word) :
    (s.hostDone p v).ports = s.ports := rfl
@[simp] theorem hostDone_audioCh (s : State) (p : Fin 15) (v : Word) :
    (s.hostDone p v).audioCh = s.audioCh := rfl
@[simp] theorem hostDone_declaredOnly (s : State) (p : Fin 15) (v : Word) :
    (s.hostDone p v).declaredOnly = s.declaredOnly := rfl
@[simp] theorem hostDone_head (s : State) (p : Fin 15) (v : Word) :
    (s.hostDone p v).head = s.head := rfl
@[simp] theorem hostDone_cdpCounter (s : State) (p : Fin 15) (v : Word) :
    (s.hostDone p v).cdpCounter = s.cdpCounter := rfl
@[simp] theorem hostDone_sources (s : State) (p : Fin 15) (v : Word) :
    (s.hostDone p v).sources = s.sources := rfl
@[simp] theorem hostDone_owner (s : State) (p : Fin 15) (v : Word) :
    (s.hostDone p v).owner = s.owner := rfl
@[simp] theorem hostDone_dmem (s : State) (p : Fin 15) (v : Word) :
    (s.hostDone p v).dmem = s.dmem := rfl
@[simp] theorem hostDone_serving (s : State) (p : Fin 15) (v : Word) :
    (s.hostDone p v).serving = s.serving := rfl
@[simp] theorem hostDone_steps (s : State) (p : Fin 15) (v : Word) :
    (s.hostDone p v).steps = s.steps := rfl
@[simp] theorem hostDone_draws (s : State) (p : Fin 15) (v : Word) :
    (s.hostDone p v).draws = s.draws := rfl
@[simp] theorem hostDone_params (s : State) (p : Fin 15) (v : Word) :
    (s.hostDone p v).params = s.params := rfl

/-! ### `State.readsBusy` -/

@[simp] theorem readsBusy_ports (s : State) (p : Fin 15) : (s.readsBusy p).ports = s.ports := rfl
@[simp] theorem readsBusy_audioCh (s : State) (p : Fin 15) : (s.readsBusy p).audioCh = s.audioCh := rfl
@[simp] theorem readsBusy_declaredOnly (s : State) (p : Fin 15) : (s.readsBusy p).declaredOnly = s.declaredOnly := rfl
@[simp] theorem readsBusy_head (s : State) (p : Fin 15) : (s.readsBusy p).head = s.head := rfl
@[simp] theorem readsBusy_cdpCounter (s : State) (p : Fin 15) : (s.readsBusy p).cdpCounter = s.cdpCounter := rfl
@[simp] theorem readsBusy_sources (s : State) (p : Fin 15) : (s.readsBusy p).sources = s.sources := rfl
@[simp] theorem readsBusy_owner (s : State) (p : Fin 15) : (s.readsBusy p).owner = s.owner := rfl
@[simp] theorem readsBusy_dmem (s : State) (p : Fin 15) : (s.readsBusy p).dmem = s.dmem := rfl
@[simp] theorem readsBusy_serving (s : State) (p : Fin 15) : (s.readsBusy p).serving = s.serving := rfl
@[simp] theorem readsBusy_steps (s : State) (p : Fin 15) : (s.readsBusy p).steps = s.steps + 1 := rfl
@[simp] theorem readsBusy_draws (s : State) (p : Fin 15) : (s.readsBusy p).draws = s.draws := rfl
@[simp] theorem readsBusy_params (s : State) (p : Fin 15) : (s.readsBusy p).params = s.params := rfl

/-! ### `State.serve` -/

@[simp] theorem serve_ports (s : State) (p : Fin 15) : (s.serve p).ports = s.ports := rfl
@[simp] theorem serve_audioCh (s : State) (p : Fin 15) : (s.serve p).audioCh = s.audioCh := rfl
@[simp] theorem serve_declaredOnly (s : State) (p : Fin 15) :
    (s.serve p).declaredOnly = s.declaredOnly := rfl
@[simp] theorem serve_head (s : State) (p : Fin 15) : (s.serve p).head = s.head := rfl
@[simp] theorem serve_cdpCounter (s : State) (p : Fin 15) :
    (s.serve p).cdpCounter = s.cdpCounter := rfl
@[simp] theorem serve_sources (s : State) (p : Fin 15) : (s.serve p).sources = s.sources := rfl
@[simp] theorem serve_owner (s : State) (p : Fin 15) : (s.serve p).owner = s.owner := rfl
@[simp] theorem serve_dmem (s : State) (p : Fin 15) : (s.serve p).dmem = s.dmem := rfl
@[simp] theorem serve_hosts (s : State) (p : Fin 15) : (s.serve p).hosts = s.hosts := rfl
@[simp] theorem serve_serving (s : State) (p : Fin 15) : (s.serve p).serving = p := rfl
@[simp] theorem serve_steps (s : State) (p : Fin 15) : (s.serve p).steps = s.steps + 1 := rfl
@[simp] theorem serve_draws (s : State) (p : Fin 15) : (s.serve p).draws = s.draws + 1 := rfl
@[simp] theorem serve_params (s : State) (p : Fin 15) : (s.serve p).params = s.params := rfl

/-! ### `State.blockReset` -/

@[simp] theorem blockReset_dmem (s : State) : (s.blockReset).dmem = s.dmem := rfl
@[simp] theorem blockReset_hosts (s : State) : (s.blockReset).hosts = s.hosts := rfl
@[simp] theorem blockReset_steps (s : State) : (s.blockReset).steps = s.steps := rfl
@[simp] theorem blockReset_draws (s : State) : (s.blockReset).draws = s.draws := rfl
@[simp] theorem blockReset_params (s : State) : (s.blockReset).params = s.params := rfl

/-! ### Ports -/

@[simp] theorem setPort_port_self (s : State) (p : Fin 15) (x : Port) :
    (s.setPort p x).ports[p] = x := by
  simp [State.setPort]

theorem setPort_port_ne (s : State) {p q : Fin 15} (x : Port) (h : q ≠ p) :
    (s.setPort p x).ports[q] = s.ports[q] := by
  have : p.val ≠ q.val := fun e => h (Fin.ext e.symm)
  simp [State.setPort, this]

@[simp] theorem complete_port_self (s : State) (c : Code) (r : Results) :
    (s.complete c r).ports[s.serving] = s.ports[s.serving].complete c r :=
  setPort_port_self s s.serving _

theorem complete_port_ne (s : State) {q : Fin 15} (c : Code) (r : Results) (h : q ≠ s.serving) :
    (s.complete c r).ports[q] = s.ports[q] := by
  simp [State.complete, setPort_port_ne _ _ h]

@[simp] theorem complete_command (s : State) (c : Code) (r : Results) :
    (s.complete c r).command = none :=
  congrArg Port.pending (complete_port_self s c r)

@[simp] theorem setHost_host_self (s : State) (p : Fin 15) (h : HostAgent) :
    (s.setHost p h).hosts[p] = h := by
  simp [State.setHost]

theorem setHost_host_ne (s : State) {p q : Fin 15} (x : HostAgent) (h : q ≠ p) :
    (s.setHost p x).hosts[q] = s.hosts[q] := by
  have : p.val ≠ q.val := fun e => h (Fin.ext e.symm)
  simp [State.setHost, this]

/-! ### What a command sees: its command and arguments depend on the ports and `serving` alone -/

theorem command_congr {s t : State} (hp : t.ports = s.ports) (hs : t.serving = s.serving) :
    t.command = s.command := by
  simp [State.command, hp, hs]

theorem arg_congr {s t : State} (hp : t.ports = s.ports) (hs : t.serving = s.serving) (n : Fin 8) :
    t.arg n = s.arg n := by
  simp [State.arg, State.argBits, State.args, command_congr hp hs]

theorem hostWrites_congr {s t : State} (hp : t.ports = s.ports) (hs : t.serving = s.serving) :
    t.hostWrites = s.hostWrites := by
  simp [State.hostWrites, command_congr hp hs]

theorem hostReads_congr {s t : State} (hp : t.ports = s.ports) (hs : t.serving = s.serving) :
    t.hostReads = s.hostReads := by
  simp [State.hostReads, command_congr hp hs]

theorem touches_congr {s t : State} (hp : t.ports = s.ports) (hs : t.serving = s.serving) :
    t.touches = s.touches := by
  simp [State.touches, hostWrites_congr hp hs, hostReads_congr hp hs]

/-! ### Source contexts -/

theorem source_eq_getElem (s : State) {i : Nat} (h : i < 16) : s.source i = s.sources[i] := by
  simp [State.source, h]

theorem source_of_ge (s : State) {i : Nat} (h : 16 ≤ i) : s.source i = Source.closed := by
  simp [State.source, Nat.not_lt.mpr h]

theorem source_fin (s : State) (i : Fin 16) : s.source i.val = s.sources[i] :=
  source_eq_getElem s i.isLt

theorem lt_of_isOpen {s : State} {i : Nat} (h : (s.source i).isOpen = true) : i < 16 := by
  rcases Nat.lt_or_ge i 16 with h' | h'
  · exact h'
  · simp [source_of_ge s h', Source.closed] at h

theorem source_congr {s t : State} (h : t.sources = s.sources) (i : Nat) : t.source i = s.source i := by
  simp [State.source, h]

@[simp] theorem setSource_source_self (s : State) {i : Nat} (c : Source) (h : i < 16) :
    (s.setSource i c).source i = c := by
  simp [State.setSource, State.source, h]

theorem setSource_source_ne (s : State) {i j : Nat} (c : Source) (h : j ≠ i) :
    (s.setSource i c).source j = s.source j := by
  simp [State.setSource, State.source, h.symm]

theorem mapSources_source (s : State) (p : Nat → Bool) (f : Source → Source) {i : Nat} (h : i < 16) :
    (s.mapSources p f).source i = if p i then f (s.source i) else s.source i := by
  simp [source_eq_getElem _ h, State.mapSources]

theorem mapSources_source_of_ge (s : State) (p : Nat → Bool) (f : Source → Source) {i : Nat}
    (h : 16 ≤ i) : (s.mapSources p f).source i = Source.closed := source_of_ge _ h

theorem sourceOpen_iff (s : State) (i : Nat) :
    s.sourceOpen i = true ↔ i < s.params.maxSources ∧ (s.source i).isOpen = true := by
  simp [State.sourceOpen]

theorem isActive_iff (s : State) (i : Nat) :
    s.isActive i = true ↔ s.sourceOpen i = true ∧ 0 < (s.source i).total := by
  simp [State.isActive]

theorem mem_active (s : State) (i : Nat) : i ∈ s.active ↔ s.isActive i = true := by
  simp only [State.active, List.mem_filter, List.mem_range, and_iff_right_iff_imp]
  intro h
  exact ((sourceOpen_iff s i).mp ((isActive_iff s i).mp h).1).1

/-! ### Slot owners -/

theorem ownerAt_eq_getElem (s : State) {k : Nat} (h : k < 16) : s.ownerAt k = s.owner[k] := by
  simp [State.ownerAt, h]

theorem ownerAt_of_ge (s : State) {k : Nat} (h : 16 ≤ k) : s.ownerAt k = none := by
  simp [State.ownerAt, Nat.not_lt.mpr h]

theorem claimSlots_ownerAt (s : State) (src : Nat) (slots : List Nat) {k : Nat} (h : k < 16) :
    (s.claimSlots src slots).ownerAt k = (ownerIn src slots k).or (s.ownerAt k) := by
  simp [ownerAt_eq_getElem _ h, State.claimSlots]

theorem freeSlotsOf_ownerAt (s : State) (src : Nat) {k : Nat} (h : k < 16) :
    (s.freeSlotsOf src).ownerAt k =
      (s.ownerAt k).bind fun o => if o.source = src then none else some o := by
  simp [ownerAt_eq_getElem _ h, State.freeSlotsOf]

end Sys2Proof.Laws
end

