-- ==== Sys2Proof/Laws/Agents.lean ====
section
/-! SUPPORT. What one step of a host can do: nothing, a WAIT that reads BUSY again, or its next access. -/

namespace Sys2Proof.Laws

open Sys2Proof.Machine

theorem hostWaits_iff {s : State} {p : Fin 15} :
    s.hostWaits p = true ↔ s.hosts[p].actions.head? = some .wait ∧ s.ports[p].busy = true := by
  simp [State.hostWaits]

theorem hostMove_of_waits {s : State} {p : Fin 15} (h : s.hostWaits p = true) :
    s.hostMove p = .next (s.readsBusy p) := if_pos h

theorem hostMove_of_nil {s : State} {p : Fin 15} (h : s.hosts[p].actions = []) : s.hostMove p = .next s := by
  have hw : s.hostWaits p = false := by
    simp only [State.hostWaits, h]
    rfl
  simp only [State.hostMove, hw, h]
  rfl

theorem hostMove_of_cons {s : State} {p : Fin 15} {x : HostAction} {rest : List HostAction}
    (h : s.hosts[p].actions = x :: rest) (hw : s.hostWaits p = false) :
    s.hostMove p = s.tick.hostAct p x := by
  simp only [State.hostMove, hw, h]
  rfl

/-- A host whose first access is no read of the data memory moves as where nothing races with it. -/
theorem hostStep_of_not_read {s : State} {p : Fin 15} (h : ∀ a, s.hosts[p].actions.head? ≠ some (.dmemRead a)) :
    s.hostStep p = s.hostMove p := by
  unfold State.hostStep
  split
  · exact absurd ‹_› (h _)
  · rfl

/-- A host that reads the data memory gets a draw where the read races. -/
theorem hostStep_of_read {s u : State} {p : Fin 15} {a : Nat} {rest : List HostAction}
    (h : s.hosts[p].actions = .dmemRead a :: rest) (hu : s.hostMove p = .next u) :
    s.hostStep p = .next (u.setHost p ⟨u.hosts[p].actions, (u.hostReadByte a).setWidth 32⟩) := by
  simp only [State.hostStep, h, hu]
  rfl

/-- A host's access that faults where nothing races faults. -/
theorem hostStep_of_fault {s : State} {p : Fin 15} {r : Fault} (h : s.hostMove p = .fault r) :
    s.hostStep p = .fault r := by
  unfold State.hostStep
  rw [h]
  cases s.hosts[p].actions.head? with
  | none => rfl
  | some x => cases x <;> rfl

/-- What a host's step can do, where it answers a next state. -/
theorem hostMove_cases {s t : State} {p : Fin 15} (h : s.hostMove p = .next t) :
    (s.hosts[p].actions = [] ∧ t = s) ∨ (s.hostWaits p = true ∧ t = s.readsBusy p) ∨
      ∃ x rest, s.hosts[p].actions = x :: rest ∧ s.hostWaits p = false ∧ s.tick.hostAct p x = .next t := by
  by_cases hw : s.hostWaits p = true
  · exact .inr (.inl ⟨hw, (Host.Outcome.next.inj ((hostMove_of_waits hw).symm.trans h)).symm⟩)
  · rw [Bool.not_eq_true] at hw
    cases hx : s.hosts[p].actions with
    | nil => exact .inl ⟨rfl, (Host.Outcome.next.inj ((hostMove_of_nil hx).symm.trans h)).symm⟩
    | cons x rest => exact .inr (.inr ⟨x, rest, rfl, hw, (hostMove_of_cons hx hw).symm.trans h⟩)

/-- What a host reads decides nothing but its `lastRead`. -/
theorem hostStep_cases {s t : State} {p : Fin 15} (h : s.hostStep p = .next t) :
    ∃ u, s.hostMove p = .next u ∧ (t = u ∨ ∃ v : Word, t = u.setHost p ⟨u.hosts[p].actions, v⟩) := by
  unfold State.hostStep at h
  split at h
  · exact ⟨_, ‹_›, .inr ⟨_, (Host.Outcome.next.inj h).symm⟩⟩
  · exact ⟨t, h, .inl rfl⟩

end Sys2Proof.Laws
end

