-- ==== Sys2Proof/Laws/Memory.lean ====
section
/-! SUPPORT. The laws of the data memory: what a read gives after a store, and that every operation keeps
the canonical form. -/

namespace Sys2Proof.Laws

open Sys2Proof.Config (Params)
open Sys2Proof.Machine
open Sys2Proof.Safety

/-! ### Canonical form -/

theorem wfFrom_cons {lo : Nat} {c : Host.Cell} {m : Memory} :
    Memory.wfFrom lo (c :: m) = true ↔
      lo ≤ c.1 ∧ c.2 ≠ Config.unlistedByte ∧ Memory.wfFrom (c.1 + 1) m = true := by
  simp [Memory.wfFrom, and_assoc]

theorem wfFrom_mono {lo lo' : Nat} {m : Memory} (h : Memory.wfFrom lo m = true) (hle : lo' ≤ lo) :
    Memory.wfFrom lo' m = true := by
  cases m with
  | nil => rfl
  | cons c m =>
    obtain ⟨h1, h2, h3⟩ := wfFrom_cons.mp h
    exact wfFrom_cons.mpr ⟨hle.trans h1, h2, h3⟩

theorem wf_of_wfFrom {lo : Nat} {m : Memory} (h : Memory.wfFrom lo m = true) : Memory.wf m = true :=
  wfFrom_mono h (Nat.zero_le lo)

theorem wfFrom_listed {lo : Nat} {c : Host.Cell} {m : Memory} (hlo : lo ≤ c.1)
    (h : Memory.wfFrom (c.1 + 1) m = true) : Memory.wfFrom lo (Memory.listed c m) = true := by
  unfold Memory.listed
  split
  · exact wfFrom_mono h (by omega)
  · exact wfFrom_cons.mpr ⟨hlo, ‹_›, h⟩

theorem wfFrom_write {lo : Nat} {m : Memory} (h : Memory.wfFrom lo m = true) {a : Nat} (ha : lo ≤ a)
    (v : Byte) : Memory.wfFrom lo (Memory.write m a v) = true := by
  induction m generalizing lo with
  | nil => exact wfFrom_listed ha rfl
  | cons c m ih =>
    obtain ⟨h1, h2, h3⟩ := wfFrom_cons.mp h
    unfold Memory.write
    split
    · exact wfFrom_listed ha (wfFrom_cons.mpr ⟨‹a < c.1›, h2, h3⟩)
    · split
      · rename_i e
        exact wfFrom_listed ha (by rw [e]; exact h3)
      · exact wfFrom_cons.mpr ⟨h1, h2, ih h3 (by omega)⟩

/-- A store keeps the canonical form. -/
theorem wf_write {m : Memory} (h : Memory.wf m = true) (a : Nat) (v : Byte) :
    Memory.wf (Memory.write m a v) = true :=
  wfFrom_write h (Nat.zero_le a) v

/-- A run of stores keeps the canonical form. -/
theorem wf_writeBytes {m : Memory} (h : Memory.wf m = true) (a : Nat) (bs : List Byte) :
    Memory.wf (Memory.writeBytes m a bs) = true := by
  induction bs generalizing m a with
  | nil => exact h
  | cons b bs ih => exact ih (wf_write h a b) (a + 1)

/-! ### Reads after stores -/

theorem read_of_wfFrom {lo : Nat} {m : Memory} (h : Memory.wfFrom lo m = true) {a : Nat} (ha : a < lo) :
    Memory.read m a = Config.unlistedByte := by
  induction m generalizing lo with
  | nil => rfl
  | cons c m ih =>
    obtain ⟨h1, -, h3⟩ := wfFrom_cons.mp h
    have : c.1 ≠ a := by omega
    simp only [Memory.read, if_neg this]
    exact ih h3 (by omega)

theorem read_listed_ne {c : Host.Cell} {m : Memory} {b : Nat} (h : b ≠ c.1) :
    Memory.read (Memory.listed c m) b = Memory.read m b := by
  unfold Memory.listed
  split
  · rfl
  · simp [Memory.read, h.symm]

theorem read_listed_self {c : Host.Cell} {m : Memory} (h : Memory.wfFrom (c.1 + 1) m = true) :
    Memory.read (Memory.listed c m) c.1 = c.2 := by
  unfold Memory.listed
  split
  · rename_i e
    rw [e]
    exact read_of_wfFrom h (by omega)
  · simp [Memory.read]

/-- A store leaves every other address alone. -/
theorem read_write_ne (m : Memory) {a b : Nat} (v : Byte) (h : b ≠ a) :
    Memory.read (Memory.write m a v) b = Memory.read m b := by
  induction m with
  | nil => exact read_listed_ne h
  | cons c m ih =>
    unfold Memory.write
    split
    · exact read_listed_ne h
    · split
      · rename_i e
        rw [read_listed_ne (c := (a, v)) h]
        have : c.1 ≠ b := fun e' => h (e' ▸ e.symm)
        simp [Memory.read, this]
      · simp only [Memory.read, ih]

theorem read_wfFrom_write_self {lo : Nat} {m : Memory} (h : Memory.wfFrom lo m = true) (a : Nat)
    (v : Byte) : Memory.read (Memory.write m a v) a = v := by
  induction m generalizing lo with
  | nil => exact read_listed_self (c := (a, v)) rfl
  | cons c m ih =>
    obtain ⟨-, h2, h3⟩ := wfFrom_cons.mp h
    unfold Memory.write
    split
    · exact read_listed_self (c := (a, v)) (wfFrom_cons.mpr ⟨‹a < c.1›, h2, h3⟩)
    · split
      · rename_i e
        exact read_listed_self (c := (a, v)) (by rw [e]; exact h3)
      · rename_i e
        have : c.1 ≠ a := fun e' => e e'.symm
        simp only [Memory.read, if_neg this]
        exact ih h3

/-- A read after a store to the same address gives the value stored. -/
theorem read_write_self {m : Memory} (h : Memory.wf m = true) (a : Nat) (v : Byte) :
    Memory.read (Memory.write m a v) a = v :=
  read_wfFrom_write_self h a v

theorem read_write {m : Memory} (h : Memory.wf m = true) (a b : Nat) (v : Byte) :
    Memory.read (Memory.write m a v) b = if b = a then v else Memory.read m b := by
  split
  · rename_i e
    rw [e, read_write_self h]
  · exact read_write_ne m v ‹_›

/-- A run of stores leaves every address outside the run alone. -/
theorem read_writeBytes_out (m : Memory) {a b : Nat} {bs : List Byte}
    (h : ¬(a ≤ b ∧ b < a + bs.length)) :
    Memory.read (Memory.writeBytes m a bs) b = Memory.read m b := by
  induction bs generalizing m a with
  | nil => rfl
  | cons v bs ih =>
    simp only [List.length_cons] at h
    rw [Memory.writeBytes, ih _ (by omega), read_write_ne _ _ (by omega)]

/-- A read inside a run of stores gives the byte stored there. -/
theorem read_writeBytes_in {m : Memory} (h : Memory.wf m = true) {a b : Nat} {bs : List Byte}
    (hb : a ≤ b ∧ b < a + bs.length) :
    Memory.read (Memory.writeBytes m a bs) b = bs.getD (b - a) 0#8 := by
  induction bs generalizing m a with
  | nil => simp at hb; omega
  | cons v bs ih =>
    simp only [List.length_cons] at hb
    rw [Memory.writeBytes]
    by_cases e : b = a
    · subst e
      rw [read_writeBytes_out _ (by omega), read_write_self h]
      simp
    · rw [ih (wf_write h a v) (by omega)]
      have : b - a = (b - (a + 1)) + 1 := by omega
      rw [this]
      simp

/-! ### Equal reads make equal memories -/

theorem wfFrom_ext {lo : Nat} {m n : Memory} (hm : Memory.wfFrom lo m = true)
    (hn : Memory.wfFrom lo n = true) (h : ∀ a, Memory.read m a = Memory.read n a) : m = n := by
  induction m generalizing lo n with
  | nil =>
    cases n with
    | nil => rfl
    | cons d n =>
      obtain ⟨-, h2, -⟩ := wfFrom_cons.mp hn
      have := h d.1
      simp [Memory.read] at this
      exact absurd this.symm h2
  | cons c m ih =>
    obtain ⟨-, hc, hm'⟩ := wfFrom_cons.mp hm
    cases n with
    | nil =>
      have := h c.1
      simp [Memory.read] at this
      exact absurd this hc
    | cons d n =>
      obtain ⟨-, hd, hn'⟩ := wfFrom_cons.mp hn
      have key : c.1 = d.1 := by
        rcases Nat.lt_trichotomy c.1 d.1 with hlt | he | hgt
        · have := h c.1
          simp only [Memory.read, if_true, if_neg (show ¬d.1 = c.1 by omega)] at this
          rw [read_of_wfFrom hn' (by omega)] at this
          exact absurd this hc
        · exact he
        · have := h d.1
          simp only [Memory.read, if_true, if_neg (show ¬c.1 = d.1 by omega)] at this
          rw [read_of_wfFrom hm' (by omega)] at this
          exact absurd this.symm hd
      have hv : c.2 = d.2 := by
        have := h c.1
        simpa [Memory.read, key] using this
      have hcd : c = d := Prod.ext key hv
      subst hcd
      congr 1
      apply ih hm' hn'
      intro a
      by_cases e : c.1 = a
      · subst e
        rw [read_of_wfFrom hm' (by omega), read_of_wfFrom hn' (by omega)]
      · have := h a
        simpa [Memory.read, e] using this

/-- Memories in canonical form that read alike are equal. -/
theorem wf_ext {m n : Memory} (hm : Memory.wf m = true) (hn : Memory.wf n = true)
    (h : ∀ a, Memory.read m a = Memory.read n a) : m = n :=
  wfFrom_ext hm hn h

/-! ### Listed addresses -/

theorem mem_listed {c d : Host.Cell} {m : Memory} (h : d ∈ Memory.listed c m) : d = c ∨ d ∈ m := by
  unfold Memory.listed at h
  split at h
  · exact .inr h
  · simpa using h

theorem mem_write {m : Memory} {a : Nat} {v : Byte} {d : Host.Cell} (h : d ∈ Memory.write m a v) :
    d.1 = a ∨ d ∈ m := by
  induction m with
  | nil =>
    rcases mem_listed h with rfl | h
    · exact .inl rfl
    · exact .inr h
  | cons c m ih =>
    unfold Memory.write at h
    split at h
    · rcases mem_listed h with rfl | h
      · exact .inl rfl
      · exact .inr h
    · split at h
      · rcases mem_listed h with rfl | h
        · exact .inl rfl
        · exact .inr (List.mem_cons_of_mem _ h)
      · rcases List.mem_cons.mp h with rfl | h
        · exact .inr List.mem_cons_self
        · exact (ih h).imp id (List.mem_cons_of_mem _)

/-- A run of stores lists no address but those of the run and those listed before. -/
theorem mem_writeBytes {m : Memory} {a : Nat} {bs : List Byte} {d : Host.Cell}
    (h : d ∈ Memory.writeBytes m a bs) : (a ≤ d.1 ∧ d.1 < a + bs.length) ∨ d ∈ m := by
  induction bs generalizing m a with
  | nil => exact .inr h
  | cons b bs ih =>
    rcases ih h with h | h
    · exact .inl (by simp only [List.length_cons]; omega)
    · exact (mem_write h).imp (fun e => by simp only [List.length_cons]; omega) id

/-! ### Runs -/

@[simp] theorem writeRuns_nil (m : Memory) : Memory.writeRuns m [] = m := rfl

@[simp] theorem writeRuns_cons (m : Memory) (r : Run) (runs : List Run) :
    Memory.writeRuns m (r :: runs) = Memory.writeRuns (Memory.writeBytes m r.1 r.2) runs := rfl

theorem covers_iff (r : Run) (a : Nat) : Run.covers r a = true ↔ r.1 ≤ a ∧ a < r.1 + r.2.length :=
  decide_eq_true_iff

/-- Storing runs keeps the canonical form. -/
theorem wf_writeRuns {m : Memory} (h : Memory.wf m = true) (runs : List Run) :
    Memory.wf (Memory.writeRuns m runs) = true := by
  induction runs generalizing m with
  | nil => exact h
  | cons r runs ih => exact ih (wf_writeBytes h _ _)

/-- Storing runs leaves every byte that no run covers. -/
theorem read_writeRuns_out (m : Memory) {runs : List Run} {b : Nat}
    (h : ∀ r ∈ runs, Run.covers r b = false) :
    Memory.read (Memory.writeRuns m runs) b = Memory.read m b := by
  induction runs generalizing m with
  | nil => rfl
  | cons r runs ih =>
    rw [writeRuns_cons, ih _ fun r' h' => h r' (List.mem_cons_of_mem _ h')]
    exact read_writeBytes_out m (by simpa [Run.covers] using h r List.mem_cons_self)

/-- Where the runs that cover a byte agree on it, it ends as they say. -/
theorem read_writeRuns_agree {m : Memory} (hw : Memory.wf m = true) {runs : List Run} {b : Nat}
    {v : Byte} (hex : ∃ r ∈ runs, Run.covers r b = true)
    (hall : ∀ r ∈ runs, Run.covers r b = true → r.2.getD (b - r.1) 0#8 = v) :
    Memory.read (Memory.writeRuns m runs) b = v := by
  induction runs generalizing m with
  | nil => simp at hex
  | cons r runs ih =>
    by_cases hlater : ∃ r' ∈ runs, Run.covers r' b = true
    · exact ih (wf_writeBytes hw _ _) hlater fun r' h' => hall r' (List.mem_cons_of_mem _ h')
    · have hr : Run.covers r b = true := by
        obtain ⟨r', hm, hc⟩ := hex
        rcases List.mem_cons.mp hm with rfl | hm
        · exact hc
        · exact absurd ⟨r', hm, hc⟩ hlater
      rw [writeRuns_cons, read_writeRuns_out _ fun r' h' => by simpa using fun hc => hlater ⟨r', h', hc⟩,
        read_writeBytes_in hw ((covers_iff r b).mp hr)]
      exact hall r List.mem_cons_self hr

/-- Of runs written one after another, the last that covers a byte decides it. -/
theorem read_writeRuns_last {m : Memory} (hw : Memory.wf m = true) {before after : List Run} {r : Run}
    {b : Nat} (hb : r.1 ≤ b ∧ b < r.1 + r.2.length) (h : ∀ r' ∈ after, Run.covers r' b = false) :
    Memory.read (Memory.writeRuns m (before ++ r :: after)) b = r.2.getD (b - r.1) 0#8 := by
  rw [show Memory.writeRuns m (before ++ r :: after) =
      Memory.writeRuns (Memory.writeBytes (Memory.writeRuns m before) r.1 r.2) after by
    simp [Memory.writeRuns], read_writeRuns_out _ h, read_writeBytes_in (wf_writeRuns hw before) hb]

/-- Storing runs lists no address but those the runs cover and those listed before. -/
theorem mem_writeRuns {m : Memory} {runs : List Run} {d : Host.Cell}
    (h : d ∈ Memory.writeRuns m runs) : (∃ r ∈ runs, Run.covers r d.1 = true) ∨ d ∈ m := by
  induction runs generalizing m with
  | nil => exact .inr h
  | cons r runs ih =>
    rcases ih h with ⟨r', hm, hc⟩ | h
    · exact .inl ⟨r', List.mem_cons_of_mem _ hm, hc⟩
    · exact (mem_writeBytes h).imp (fun hc => ⟨r, List.mem_cons_self, (covers_iff r d.1).mpr hc⟩) id

/-! ### Ranges -/

@[simp] theorem holds_iff (r : Range) (a : Nat) :
    r.holds a = true ↔ r.base ≤ a ∧ a < r.base + r.size := by
  simp [Range.holds]

@[simp] theorem whole_holds (a n b : Nat) : (whole a n).range.holds b = true ↔ a ≤ b ∧ b < a + n :=
  holds_iff ⟨a, n⟩ b

@[simp] theorem whole_covers (a n b : Nat) : (whole a n).span.covers b = true ↔ a ≤ b ∧ b < a + n := by
  rw [whole, Span.covers, decide_eq_true_iff]
  show a ≤ b ∧ (b - a) / n < 1 ∧ (b - a) % n < n ↔ a ≤ b ∧ b < a + n
  rcases Nat.eq_zero_or_pos n with rfl | hn
  · simp
  · constructor
    · rintro ⟨h1, h2, -⟩
      have := (Nat.div_lt_iff_lt_mul hn).mp h2
      omega
    · rintro ⟨h1, h2⟩
      exact ⟨h1, (Nat.div_lt_iff_lt_mul hn).mpr (by omega), Nat.mod_lt _ hn⟩

/-- A byte is one of a span's exactly where it lies in one of its rows. -/
theorem span_covers {r : Span} (h : r.bytes ≤ r.pitch) (b : Nat) :
    r.covers b = true ↔
      ∃ k < r.rows, r.base + k * r.pitch ≤ b ∧ b < r.base + k * r.pitch + r.bytes := by
  rw [Span.covers, decide_eq_true_iff]
  constructor
  · rintro ⟨h1, h2, h3⟩
    have := Nat.div_add_mod (b - r.base) r.pitch
    rw [Nat.mul_comm] at this
    exact ⟨_, h2, by omega, by omega⟩
  · rintro ⟨k, hk, h1, h2⟩
    have hp : 0 < r.pitch := by omega
    have e : b - r.base = (b - r.base - k * r.pitch) + k * r.pitch := by omega
    refine ⟨by omega, ?_, ?_⟩
    · rw [e, Nat.add_mul_div_right _ _ hp, Nat.div_eq_of_lt (by omega)]
      omega
    · rw [e, Nat.add_mul_mod_self_right, Nat.mod_eq_of_lt (by omega)]
      omega

/-! ### Races -/

theorem mem_buffers_violations {b : Buffers} {wrote read : List Nat} {a : Nat} :
    a ∈ b.violations wrote read ↔ Violated b wrote read a := by
  simp only [Buffers.violations, Violated, List.mem_append, List.mem_filter, List.any_eq_true]

/-- What racing with a command on a range that holds a byte says. -/
theorem raced_iff {b : Buffers} {wrote read : List Nat} {a : Nat} :
    b.raced (b.violations wrote read) a = true ↔ Races b wrote read a := by
  simp only [Buffers.raced, List.any_eq_true, Bool.and_eq_true, mem_buffers_violations, Races]
  constructor
  · rintro ⟨x, hx, r, hr, ha, hrx⟩
    exact ⟨r, hr, ha, x, hrx, hx⟩
  · rintro ⟨r, hr, ha, x, hrx, hx⟩
    exact ⟨x, hx, r, hr, ha, hrx⟩

@[simp] theorem raced_nil (b : Buffers) (a : Nat) : b.raced [] a = false := rfl

theorem mem_violations {s : State} {i : Instr} {a : Nat} :
    a ∈ s.violations i ↔
      (a ∈ s.hostWrites ∧ ∃ y ∈ (s.buffers i).reads, y.span.covers a = true) ∨
        (a ∈ s.touches ∧ ∃ y ∈ (s.buffers i).writes, y.span.covers a = true) := by
  rw [State.violations, State.violated, mem_buffers_violations, State.touches, List.mem_append]

/-- A command whose bytes no host has touched since its acceptance has not been raced with. -/
theorem violations_of_untouched {s : State} (h : s.touches = []) (i : Instr) : s.violations i = [] := by
  refine List.eq_nil_iff_forall_not_mem.mpr fun a ha => ?_
  have hw : s.hostWrites = [] := (List.append_eq_nil_iff.mp h).1
  rcases mem_violations.mp ha with ⟨hm, -⟩ | ⟨hm, -⟩
  · simp [hw] at hm
  · simp [h] at hm

/-! ### The state's reads and stores -/

/-- What a command reads: a draw from every range of its that hosts have raced with, else the memory's byte. -/
theorem readByte_of_performed {s : State} {i : Instr} (h : s.performed = some i) (a : Nat) :
    s.readByte a =
      if (s.buffers i).raced (s.violations i) a then Config.raceByte .commandRead s.draws a
      else Memory.read s.dmem a := by
  simp only [State.readByte, h, State.byteWith, State.violations]
  rfl

/-- A command that no host has raced with reads the memory. -/
theorem readByte_of_unraced {s : State} (h : ∀ i, s.performed = some i → s.violations i = []) (a : Nat) :
    s.readByte a = Memory.read s.dmem a := by
  cases hp : s.performed with
  | none => simp only [State.readByte, hp]
  | some i => rw [readByte_of_performed hp, h i hp, raced_nil, if_neg Bool.false_ne_true]

@[simp] theorem length_readBytes (s : State) (a n : Nat) : (s.readBytes a n).length = n := by
  simp [State.readBytes]

theorem getD_readBytes (s : State) {a n i : Nat} (h : i < n) :
    (s.readBytes a n).getD i 0#8 = s.readByte (a + i) := by
  simp [State.readBytes, h]

/-- Everything storing runs can do: only the data memory changes. -/
theorem storeRuns_eq (s : State) (i : Instr) (runs : List Run) :
    s.storeRuns i runs = { s with dmem := (s.storeRuns i runs).dmem } := rfl

/-- Storing runs keeps the canonical form. -/
theorem storeRuns_wf {s : State} (h : Memory.wf s.dmem = true) (i : Instr) (runs : List Run) :
    Memory.wf (s.storeRuns i runs).dmem = true :=
  wf_writeRuns h _

theorem mem_racedOutputs {s : State} {i : Instr} {r : Range} :
    r ∈ s.racedOutputs i ↔
      (∃ y ∈ (s.buffers i).writes, y.range = r) ∧ ∃ x ∈ s.violations i, r.holds x = true := by
  simp only [State.racedOutputs, List.mem_filter, List.mem_map, List.any_eq_true]

theorem drawn_covers (s : State) (r : Range) (a : Nat) : Run.covers (s.drawn r) a = r.holds a := by
  simp [State.drawn, Run.covers, Range.holds]

theorem drawn_getD (s : State) {r : Range} {a : Nat} (h : Run.covers (s.drawn r) a = true) :
    (s.drawn r).2.getD (a - (s.drawn r).1) 0#8 = Config.raceByte .commandWrite s.draws a := by
  rw [drawn_covers, holds_iff] at h
  have h1 : a - r.base < r.size := by omega
  have h2 : r.base + (a - r.base) = a := by omega
  simp [State.drawn, List.getD, List.getElem?_range h1, h2]

theorem storeRuns_dmem_draws (s : State) (i : Instr) (runs : List Run) :
    (s.storeRuns i runs).dmem =
      Memory.writeRuns (Memory.writeRuns s.dmem runs) ((s.racedOutputs i).map s.drawn) := by
  simp [Memory.writeRuns]

/-- A byte of an output range that was raced with ends as a draw. -/
theorem storeRuns_read_raced {s : State} (hw : Memory.wf s.dmem = true) {i : Instr} {runs : List Run}
    {b : Nat} (h : ∃ r ∈ s.racedOutputs i, r.holds b = true) :
    Memory.read (s.storeRuns i runs).dmem b = Config.raceByte .commandWrite s.draws b := by
  rw [storeRuns_dmem_draws]
  refine read_writeRuns_agree (wf_writeRuns hw _) ?_ fun run hr hc => ?_
  · obtain ⟨r, hr, hb⟩ := h
    exact ⟨_, List.mem_map_of_mem hr, (drawn_covers s r b).trans hb⟩
  · obtain ⟨r, -, rfl⟩ := List.mem_map.mp hr
    exact drawn_getD s hc

/-- Every other byte ends as the runs say. -/
theorem storeRuns_read_unraced (s : State) {i : Instr} {runs : List Run} {b : Nat}
    (h : ∀ r ∈ s.racedOutputs i, r.holds b = false) :
    Memory.read (s.storeRuns i runs).dmem b = Memory.read (Memory.writeRuns s.dmem runs) b := by
  rw [storeRuns_dmem_draws]
  refine read_writeRuns_out _ fun run hr => ?_
  obtain ⟨r, hm, rfl⟩ := List.mem_map.mp hr
  rw [drawn_covers]
  exact h r hm

/-- Command `i` performed in `s` reads the bytes that its rule names, and writes the bytes `written` to the
ranges `outputs`. -/
structure HasBuffers (s : State) (i : Instr) (outputs : List Range) (written : Nat → Prop) : Prop where
  reads : ∀ x : Nat, (∃ y ∈ (s.buffers i).reads, y.span.covers x = true) ↔ InputOf s i x
  ranges : ∀ r : Range, r ∈ outputs ↔ ∃ y ∈ (s.buffers i).writes, y.range = r
  writes : ∀ r ∈ outputs, ∀ x : Nat, r.holds x = true →
    ((∃ y ∈ (s.buffers i).writes, y.span.covers x = true) ↔ written x)

/-- The output ranges that hosts have raced with hold the bytes that the statements say. -/
theorem racedOutput_iff {s : State} {i : Instr} {outputs : List Range} {written : Nat → Prop}
    (h : HasBuffers s i outputs written) (a : Nat) :
    (∃ r ∈ s.racedOutputs i, r.holds a = true) ↔ RacedOutput s i outputs written a := by
  constructor
  · rintro ⟨r, hr, ha⟩
    obtain ⟨hy, x, hx, hrx⟩ := mem_racedOutputs.mp hr
    have ho := (h.ranges r).mpr hy
    refine ⟨r, ho, ha, x, hrx, ?_⟩
    rcases mem_violations.mp hx with ⟨hm, hs⟩ | ⟨hm, hs⟩
    · exact .inl ⟨hm, (h.reads x).mp hs⟩
    · exact .inr ⟨hm, (h.writes r ho x hrx).mp hs⟩
  · rintro ⟨r, ho, ha, x, hrx, hx⟩
    refine ⟨r, mem_racedOutputs.mpr ⟨(h.ranges r).mp ho, x, mem_violations.mpr ?_, hrx⟩, ha⟩
    rcases hx with ⟨hm, hs⟩ | ⟨hm, hs⟩
    · exact .inl ⟨hm, (h.reads x).mpr hs⟩
    · exact .inr ⟨hm, (h.writes r ho x hrx).mpr hs⟩

/-- Everything storing runs can do to a byte. -/
theorem storeRuns_endsAs {s t : State} (hw : Memory.wf s.dmem = true) {i : Instr} {outputs : List Range}
    {written : Nat → Prop} (h : HasBuffers s i outputs written) {runs : List Run}
    (ht : t.dmem = (s.storeRuns i runs).dmem) {b : Nat} {v : Byte}
    (hv : Memory.read (Memory.writeRuns s.dmem runs) b = v) :
    EndsAs s t (RacedOutput s i outputs written) b v := by
  refine ⟨fun hr => ?_, fun hn => ?_⟩
  · rw [ht]
    exact storeRuns_read_raced hw ((racedOutput_iff h b).mpr hr)
  · rw [ht, storeRuns_read_unraced, hv]
    exact fun r hr => Bool.eq_false_iff.mpr fun hb => hn ((racedOutput_iff h b).mp ⟨r, hr, hb⟩)

/-- Storing runs leaves every byte that no run covers and no output range holds. -/
theorem storeRuns_read_out (s : State) {i : Instr} {runs : List Run} {b : Nat}
    (ho : ∀ y ∈ (s.buffers i).writes, y.range.holds b = false) (h : ∀ r ∈ runs, Run.covers r b = false) :
    Memory.read (s.storeRuns i runs).dmem b = Memory.read s.dmem b := by
  rw [storeRuns_read_unraced, read_writeRuns_out _ h]
  intro r hr
  obtain ⟨⟨y, hy, rfl⟩, -⟩ := mem_racedOutputs.mp hr
  exact ho y hy

/-- Storing runs lists no address but those the runs cover, those the output ranges hold, and those listed
before. -/
theorem mem_storeRuns {s : State} {i : Instr} {runs : List Run} {d : Host.Cell}
    (h : d ∈ (s.storeRuns i runs).dmem) :
    (∃ r ∈ runs, Run.covers r d.1 = true) ∨
      (∃ y ∈ (s.buffers i).writes, y.range.holds d.1 = true) ∨ d ∈ s.dmem := by
  rcases mem_writeRuns h with ⟨run, hr, hc⟩ | h
  · rcases List.mem_append.mp hr with hr | hr
    · exact .inl ⟨run, hr, hc⟩
    · obtain ⟨r, hm, rfl⟩ := List.mem_map.mp hr
      obtain ⟨⟨y, hy, rfl⟩, -⟩ := mem_racedOutputs.mp hm
      exact .inr (.inl ⟨y, hy, (drawn_covers s _ d.1).symm.trans hc⟩)
  · exact .inr (.inr h)

/-- The memory after reset has the canonical form. -/
theorem reset_memory_wf : Memory.wf State.reset.dmem = true := rfl

end Sys2Proof.Laws
end

