-- ==== Sys2Proof/Laws/Ops.lean ====
section
/-! SUPPORT. What ending a command can do: one law for completing it, one for failing, one for succeeding
after a change of the state. -/

namespace Sys2Proof.Laws

open Sys2Proof.Config (Params)
open Sys2Proof.Machine
open Sys2Proof.Safety

/-! ### Completion -/

theorem setsErr_eq (c : Code) : c.setsErr = decide (c ≠ .ok ∧ c ≠ .malformed) := by
  cases c <;> rfl

/-- A completion sets its port as R29 says and no other port. -/
theorem complete_completed (s : State) (c : Code) (r0 r1 r2 r3 : DWord) :
    Completed s (s.complete c (results r0 r1 r2 r3)) c r0 r1 r2 r3 := by
  refine ⟨?_, fun q h => complete_port_ne s c _ h⟩
  rw [complete_port_self, Port.complete, setsErr_eq]
  rfl

/-- A completion after changes that leave the ports alone. -/
theorem complete_completed_of_ports {s u : State} (hp : u.ports = s.ports) (hs : u.serving = s.serving)
    (c : Code) (r0 r1 r2 r3 : DWord) :
    Completed s (u.complete c (results r0 r1 r2 r3)) c r0 r1 r2 r3 := by
  have h := complete_completed u c r0 r1 r2 r3
  simpa only [Completed, hp, hs] using h

theorem sameBlock_refl (s : State) : SameBlock s s :=
  ⟨⟨rfl, rfl, rfl, rfl, rfl⟩, ⟨rfl, rfl⟩, ⟨rfl, rfl⟩, ⟨rfl, rfl⟩, fun _ => rfl⟩

theorem complete_sameBlock (s : State) (c : Code) (r : Results) : SameBlock s (s.complete c r) := by
  simp [SameBlock, SameOutside, SameConfig, SameSources, SameHead, SameDmem]

/-- Everything failing can do (R264). -/
theorem raise_spec (s : State) (c : Code) :
    ∃ t, s.raise c = .next t ∧ Completed s t c 0#64 0#64 0#64 0#64 ∧ SameBlock s t :=
  ⟨_, rfl, complete_completed s c _ _ _ _, complete_sameBlock s c _⟩

/-- A command whose meaning is to fail with `c` does so. -/
theorem raises_of_exec {s : State} {i : Instr} {c : Code} (h : exec i s = s.raise c) : Raises s i c := by
  obtain ⟨t, ht, h1, h2⟩ := raise_spec s c
  exact ⟨t, h.trans ht, h1, h2⟩

/-- Everything succeeding can do, after changes that leave the ports alone: `t` is the changed state but for
the completion of the served port. -/
theorem finish_spec {s u : State} (hp : u.ports = s.ports) (hs : u.serving = s.serving)
    (r0 r1 r2 r3 : DWord) :
    ∃ t, u.finish r0 r1 r2 r3 = .next t ∧ Completed s t .ok r0 r1 r2 r3 ∧ SameBlock u t :=
  ⟨_, rfl, complete_completed_of_ports hp hs _ _ _ _ _, complete_sameBlock u _ _⟩

/-- A command that changes nothing but its results. -/
theorem finish_query_spec (s : State) (r0 r1 r2 r3 : DWord) :
    ∃ t, s.finish r0 r1 r2 r3 = .next t ∧ Completed s t .ok r0 r1 r2 r3 ∧ SameBlock s t :=
  finish_spec rfl rfl r0 r1 r2 r3

/-- A command that only stores runs. -/
theorem finish_storeRuns_spec (s : State) (i : Instr) (runs : List Run) (r0 r1 r2 r3 : DWord) :
    ∃ t, (s.storeRuns i runs).finish r0 r1 r2 r3 = .next t ∧ Completed s t .ok r0 r1 r2 r3 ∧
      SameOutside s t ∧ SameConfig s t ∧ SameSources s t ∧ SameHead s t ∧
      t.dmem = (s.storeRuns i runs).dmem := by
  obtain ⟨t, h, hc, -⟩ := finish_spec (storeRuns_ports s i runs) (storeRuns_serving s i runs) r0 r1 r2 r3
  refine ⟨t, h, hc, ?_⟩
  obtain rfl := Host.Outcome.next.inj h
  simp [SameOutside, SameConfig, SameSources, SameHead]

/-- The completed port has no pending command, so it can accept one (R264). -/
theorem not_busy_of_completed {s t : State} {c : Code} {r0 r1 r2 r3 : DWord}
    (h : Completed s t c r0 r1 r2 r3) : t.ports[s.serving].busy = false := by
  rw [h.1]
  rfl

/-- The completed port reads the code. -/
theorem code_of_completed {s t : State} {c : Code} {r0 r1 r2 r3 : DWord}
    (h : Completed s t c r0 r1 r2 r3) : t.ports[s.serving].code = c := by
  rw [h.1]

end Sys2Proof.Laws
end

