-- ==== Sys2Proof/Laws/Codec.lean ====
section
/-! SUPPORT. The words of the packetizer and of the pixel codec: their lengths, their bits, and that taking a
word apart undoes putting it together. -/

namespace Sys2Proof.Laws

open Sys2Proof.Config (Params)
open Sys2Proof.Machine

/-! ### Packets -/

@[simp] theorem length_packetBody (did sdid : Byte) (b : List Byte) :
    (packetBody did sdid b).length = 3 + b.length := by
  simp [packetBody]
  omega

@[simp] theorem length_build (did sdid : Byte) (b : List Byte) :
    (build did sdid b).length = 7 + b.length := by
  simp [build]
  omega

@[simp] theorem length_fillers (P : Params) (m : Nat) : (fillers P m).length = padCount m := by
  simp [fillers]

@[simp] theorem length_emitted (P : Params) (p : Bool) (ws : List Sample) :
    (emitted P p ws).length = emittedCount p ws.length := by
  cases p <;> simp [emitted, emittedCount]

@[simp] theorem length_wordBytes (ws : List Sample) : (wordBytes ws).length = 2 * ws.length := by
  induction ws with
  | nil => rfl
  | cons w ws ih =>
    have : wordBytes (w :: ws) = le16 (w.setWidth 16) ++ wordBytes ws := rfl
    rw [this, List.length_append, ih]
    simp [le16]
    omega

/-- A padded word count is a multiple of 6 (R186). -/
theorem padCount_spec (m : Nat) : (m + padCount m) % 6 = 0 ∧ padCount m < 6 := by
  unfold padCount
  omega

@[simp] theorem length_cdpBody (rc : Nat) (c : BitVec 16) (t : List Byte) :
    (cdpBody rc c t).length = 12 + t.length := by
  simp [cdpBody]
  omega

@[simp] theorem length_cdp (rc : Nat) (c : BitVec 16) (t : List Byte) :
    (cdp rc c t).length = 13 + t.length := by
  simp [cdp]
  omega

/-- A parity-stamped word carries its byte in bits 7 to 0 (R180). -/
theorem setWidth_par (v : Byte) : ((par v).setWidth 16 : HalfWord).setWidth 8 = v := by
  revert v
  decide

/-- The sum of a CDP's bytes wraps to zero (R193). -/
theorem byteSum_cdp (rc : Nat) (c : BitVec 16) (t : List Byte) : byteSum (cdp rc c t) % 256 = 0 := by
  have h : byteSum (cdp rc c t) =
      byteSum (cdpBody rc c t) + (256 - byteSum (cdpBody rc c t) % 256) % 256 := by
    simp [byteSum, cdp, cdpChecksum]
  rw [h]
  omega

/-! ### Packed groups -/

theorem field3_pack3 (p0 p1 p2 : Sample) :
    field3 (pack3 p0 p1 p2) 0 = p0 ∧ field3 (pack3 p0 p1 p2) 1 = p1 ∧ field3 (pack3 p0 p1 p2) 2 = p2 := by
  have bits : ∀ k, (pack3 p0 p1 p2).getLsbD k =
      if k < 10 then p0.getLsbD k
      else if k < 20 then p1.getLsbD (k - 10)
      else if k < 30 then p2.getLsbD (k - 20) else false := by
    intro k
    have h1 : (pack3 p0 p1 p2).getLsbD k =
        if k < 10 then p0.getLsbD k else (0#2 ++ p2 ++ p1).getLsbD (k - 10) := BitVec.getLsbD_append
    have h2 : (0#2 ++ p2 ++ p1).getLsbD (k - 10) =
        if k - 10 < 10 then p1.getLsbD (k - 10) else (0#2 ++ p2).getLsbD (k - 10 - 10) :=
      BitVec.getLsbD_append
    have h3 : (0#2 ++ p2).getLsbD (k - 10 - 10) =
        if k - 10 - 10 < 10 then p2.getLsbD (k - 10 - 10) else (0#2).getLsbD (k - 10 - 10 - 10) :=
      BitVec.getLsbD_append
    have e1 : k - 10 - 10 = k - 20 := by omega
    rw [h1, h2, h3, e1]
    split
    · rfl
    · have e2 : (k - 10 < 10) = (k < 20) := by apply propext; omega
      have e3 : (k - 20 < 10) = (k < 30) := by apply propext; omega
      simp only [e2, e3, BitVec.getLsbD_zero]
  refine ⟨?_, ?_, ?_⟩ <;> apply BitVec.eq_of_getLsbD_eq <;> intro k hk
  · simp [field3, bits, hk]
  · have h1 : ¬ 10 + k < 10 := by omega
    have h2 : 10 + k < 20 := by omega
    simp [field3, bits, h2, hk]
  · have h1 : ¬ 20 + k < 10 := by omega
    have h2 : ¬ 20 + k < 20 := by omega
    have h3 : 20 + k < 30 := by omega
    simp [field3, bits, h1, h2, h3, hk]

/-- The word `k` of a group (R220). -/
def groupWord (y u v : Nat → Sample) (k : Nat) : Word := (packGroup y u v).getD k 0#32

/-- Taking a group's luma positions gives what was packed there (R220). -/
theorem lumaOf_packGroup (y u v : Nat → Sample) {t : Nat} (h : t < 6) :
    lumaOf (groupWord y u v) t = y t := by
  have f := field3_pack3
  interval_cases t <;> simp [lumaOf, groupWord, packGroup, f]

/-- Taking a group's `Cb` positions gives what was packed there (R220). -/
theorem cbOf_packGroup (y u v : Nat → Sample) {t : Nat} (h : t < 3) :
    cbOf (groupWord y u v) t = u t := by
  have f := field3_pack3
  interval_cases t <;> simp [cbOf, groupWord, packGroup, f]

/-- Taking a group's `Cr` positions gives what was packed there (R220). -/
theorem crOf_packGroup (y u v : Nat → Sample) {t : Nat} (h : t < 3) :
    crOf (groupWord y u v) t = v t := by
  have f := field3_pack3
  interval_cases t <;> simp [crOf, groupWord, packGroup, f]

/-- A clipped sample lies in `[4, 1019]`, and a sample there is not changed (R221). -/
theorem toNat_clip (v : HalfWord) : (clip v).toNat = min (max v.toNat 4) 1019 := by
  unfold clip
  rw [BitVec.toNat_ofNat]
  omega

theorem toNat_append_byte {n : Nat} (x : BitVec n) (y : Byte) :
    (x ++ y).toNat = x.toNat * 256 + y.toNat := by
  rw [BitVec.toNat_append, ← Nat.shiftLeft_add_eq_or_of_lt y.isLt, Nat.shiftLeft_eq]

/-- A word's four bytes put together again are the word (R62). -/
theorem le32_append (v : Word) :
    v.extractLsb' 24 8 ++ v.extractLsb' 16 8 ++ v.extractLsb' 8 8 ++ v.extractLsb' 0 8 = v := by
  apply BitVec.eq_of_toNat_eq
  have hv := v.isLt
  simp only [toNat_append_byte, BitVec.extractLsb'_toNat, Nat.shiftRight_eq_div_pow]
  omega

/-- A half-word's two bytes put together again are the half-word (R62). -/
theorem le16_append (v : HalfWord) : v.extractLsb' 8 8 ++ v.extractLsb' 0 8 = v := by
  apply BitVec.eq_of_toNat_eq
  have hv := v.isLt
  simp only [toNat_append_byte, BitVec.extractLsb'_toNat, Nat.shiftRight_eq_div_pow]
  omega

end Sys2Proof.Laws
end

