-- ==== Sys2Proof/Laws/Decode.lean ====
section
/-! SUPPORT. The fields of a command word put together from its fields, and what a word is made of. -/

namespace Sys2Proof.Laws

open Sys2Proof

/-- The bits of a command word (R80). -/
theorem getLsbD_commandWord (f s o : BitVec 8) (k : Nat) :
    (commandWord f s o).getLsbD k =
      if k < 8 then o.getLsbD k
      else if k < 16 then s.getLsbD (k - 8)
      else if k < 24 then f.getLsbD (k - 16) else false := by
  have h1 : (commandWord f s o).getLsbD k =
      if k < 8 then o.getLsbD k else (0#8 ++ f ++ s).getLsbD (k - 8) := BitVec.getLsbD_append
  have h2 : (0#8 ++ f ++ s).getLsbD (k - 8) =
      if k - 8 < 8 then s.getLsbD (k - 8) else (0#8 ++ f).getLsbD (k - 8 - 8) :=
    BitVec.getLsbD_append
  have h3 : (0#8 ++ f).getLsbD (k - 8 - 8) =
      if k - 8 - 8 < 8 then f.getLsbD (k - 8 - 8) else (0#8).getLsbD (k - 8 - 8 - 8) :=
    BitVec.getLsbD_append
  have e1 : k - 8 - 8 = k - 16 := by omega
  rw [h1, h2, h3, e1]
  split
  · rfl
  · have e2 : (k - 8 < 8) = (k < 16) := by apply propext; omega
    have e3 : (k - 16 < 8) = (k < 24) := by apply propext; omega
    simp only [e2, e3, BitVec.getLsbD_zero]

@[simp] theorem opcOf_commandWord (f s o : BitVec 8) : opcOf (commandWord f s o) = o := by
  apply BitVec.eq_of_getLsbD_eq
  intro k hk
  simp [opcOf, getLsbD_commandWord, hk]

@[simp] theorem srcOf_commandWord (f s o : BitVec 8) : srcOf (commandWord f s o) = s := by
  apply BitVec.eq_of_getLsbD_eq
  intro k hk
  have h2 : 8 + k < 16 := by omega
  simp [srcOf, getLsbD_commandWord, h2, hk]

@[simp] theorem flagsOf_commandWord (f s o : BitVec 8) : flagsOf (commandWord f s o) = f := by
  apply BitVec.eq_of_getLsbD_eq
  intro k hk
  have h1 : ¬ 16 + k < 8 := by omega
  have h2 : 16 + k < 24 := by omega
  simp [flagsOf, getLsbD_commandWord, h1, h2, hk]

@[simp] theorem rsvdOf_commandWord (f s o : BitVec 8) : rsvdOf (commandWord f s o) = 0#8 := by
  apply BitVec.eq_of_getLsbD_eq
  intro k hk
  have h1 : ¬ 24 + k < 8 := by omega
  have h2 : ¬ 24 + k < 16 := by omega
  simp [rsvdOf, getLsbD_commandWord, h1, h2]

/-- A flag is a bit of FLAGS (R81). -/
theorem flagOf_eq (w : Word) {k : Nat} (hk : k < 8) : flagOf w k = (flagsOf w).getLsbD k := by
  simp [flagOf, flagsOf, hk]

/-- A word is its four fields (R80, R81). -/
theorem eq_of_fields {v w : Word} (ho : opcOf v = opcOf w) (hs : srcOf v = srcOf w)
    (hf : flagsOf v = flagsOf w) (hr : rsvdOf v = rsvdOf w) : v = w := by
  ext k hk
  have bit : ∀ (start : Nat) (_ : start ≤ k) (_ : k < start + 8),
      v.extractLsb' start 8 = w.extractLsb' start 8 → v[k] = w[k] := by
    intro start h1 h2 h
    have := congrArg (fun x => x.getLsbD (k - start)) h
    have h3 : k - start < 8 := by omega
    have h4 : start + (k - start) = k := by omega
    simpa [h3, h4, BitVec.getLsbD_eq_getElem hk] using this
  rcases Nat.lt_or_ge k 8 with h8 | h8
  · exact bit 0 (by omega) (by omega) ho
  · rcases Nat.lt_or_ge k 16 with h16 | h16
    · exact bit 8 (by omega) (by omega) hs
    · rcases Nat.lt_or_ge k 24 with h24 | h24
      · exact bit 16 (by omega) (by omega) hf
      · exact bit 24 (by omega) (by omega) hr

/-- A word with RSVD = 0 is the word of its other fields. -/
theorem commandWord_of_fields {w : Word} (h : rsvdOf w = 0#8) :
    commandWord (flagsOf w) (srcOf w) (opcOf w) = w :=
  eq_of_fields (by simp) (by simp) (by simp) (by simp [h])

end Sys2Proof.Laws
end

