-- ==== Sys2Proof/Laws/Ring.lean ====
section
/-! SUPPORT. The ring operations, each said once: what discarding, forwarding, tagging, flushing and pushing
do to a source context, and that each keeps the invariants of R32. -/

namespace Sys2Proof.Laws

open Sys2Proof.Config (Params)
open Sys2Proof.Machine
open Sys2Proof.Safety

/-! ### Parameters -/

theorem legal_iff (P : Params) : P.legal = true ↔
    (1 ≤ P.nports ∧ P.nports ≤ 15) ∧ (1 ≤ P.maxSources ∧ P.maxSources ≤ 16) ∧
      (1 ≤ P.subframeBytes ∧ P.subframeBytes ≤ 8) ∧ 1 ≤ P.tickHz ∧ 1 ≤ P.sampleRate ∧
      1 ≤ P.ringBytes ∧ 1 ≤ P.chunkSlots ∧ (1 ≤ P.dmemSize ∧ P.dmemSize ≤ 2 ^ 64) := by
  simp [Params.legal, and_assoc]

theorem frameBytes_pos {P : Params} (hP : P.legal = true) {c : Source} (h : 1 ≤ c.nsub) :
    0 < c.frameBytes P :=
  Nat.mul_pos h ((legal_iff P).mp hP).2.2.1.1

theorem framesToTicks_mono (P : Params) {f g : Nat} (h : f ≤ g) :
    framesToTicks P f ≤ framesToTicks P g :=
  Nat.div_le_div_right (Nat.mul_le_mul_right _ h)

/-! ### Dropping frames -/

/-- The frames of a list of chunks. -/
def chunkFrames (cs : List Chunk) : Nat := (cs.map Chunk.frames).sum

@[simp] theorem chunkFrames_nil : chunkFrames [] = 0 := rfl

@[simp] theorem chunkFrames_cons (c : Chunk) (cs : List Chunk) :
    chunkFrames (c :: cs) = c.frames + chunkFrames cs := by
  simp [chunkFrames]

@[simp] theorem chunkFrames_append (cs ds : List Chunk) :
    chunkFrames (cs ++ ds) = chunkFrames cs + chunkFrames ds := by
  simp [chunkFrames]

theorem total_eq (c : Source) : c.total = chunkFrames c.chunks - c.headOff := rfl

theorem headOff_le {cs : List Chunk} {h : Nat} (hin : headOffInside cs h) : h ≤ chunkFrames cs := by
  cases cs with
  | nil => exact Nat.le_of_lt_succ hin
  | cons c cs =>
    have : h < c.frames := hin
    rw [chunkFrames_cons]
    omega

theorem headOffInside_zero {cs : List Chunk} (hf : ∀ c ∈ cs, 1 ≤ c.frames) : headOffInside cs 0 := by
  cases cs with
  | nil => exact Nat.one_pos
  | cons c cs => exact hf c List.mem_cons_self

/-- Everything the chunk loop of `Discard` does (R102): exactly `k` frames go, the oldest first, and the
head offset stays inside the oldest chunk left. -/
theorem dropFrames_spec {cs : List Chunk} {h k : Nat} (hf : ∀ c ∈ cs, 1 ≤ c.frames)
    (hin : headOffInside cs h) (hk : k ≤ chunkFrames cs - h) :
    headOffInside (dropFrames cs h k).1 (dropFrames cs h k).2 ∧
      chunkFrames (dropFrames cs h k).1 - (dropFrames cs h k).2 = chunkFrames cs - h - k ∧
      (dropFrames cs h k).1 <:+ cs := by
  induction cs generalizing h k with
  | nil =>
    have : h = 0 := Nat.lt_one_iff.mp hin
    subst this
    simp [dropFrames, headOffInside]
  | cons c cs ih =>
    have hlt : h < c.frames := hin
    have hf' : ∀ d ∈ cs, 1 ≤ d.frames := fun d hd => hf d (List.mem_cons_of_mem _ hd)
    rw [chunkFrames_cons] at hk
    unfold dropFrames
    split
    · rename_i hk0
      subst hk0
      exact ⟨hin, rfl, List.suffix_refl _⟩
    · split
      · have hk' : k - (c.frames - h) ≤ chunkFrames cs - 0 := by omega
        obtain ⟨h1, h2, h3⟩ := ih hf' (headOffInside_zero hf') hk'
        refine ⟨h1, ?_, h3.trans (List.suffix_cons _ _)⟩
        rw [h2, chunkFrames_cons]
        omega
      · refine ⟨?_, ?_, List.suffix_refl _⟩
        · show h + k < c.frames
          omega
        · rw [chunkFrames_cons]
          omega

/-! ### Discard -/

@[simp] theorem discard_isOpen (c : Source) (P : Params) (k : Nat) :
    (c.discard P k).isOpen = c.isOpen := rfl
@[simp] theorem discard_nsub (c : Source) (P : Params) (k : Nat) :
    (c.discard P k).nsub = c.nsub := rfl
@[simp] theorem discard_pcm (c : Source) (P : Params) (k : Nat) : (c.discard P k).pcm = c.pcm := rfl
@[simp] theorem discard_slots (c : Source) (P : Params) (k : Nat) :
    (c.discard P k).slots = c.slots := rfl
@[simp] theorem discard_tagged (c : Source) (P : Params) (k : Nat) :
    (c.discard P k).tagged = c.tagged := rfl
@[simp] theorem discard_data (c : Source) (P : Params) (k : Nat) :
    (c.discard P k).data = c.data.drop (k * c.frameBytes P) := rfl

theorem frames_pos {P : Params} {c : Source} (h : OpenOk P c) : ∀ k ∈ c.chunks, 1 ≤ k.frames :=
  fun k hk => (h.2.2.1 k hk).1

/-- `Discard` removes exactly `k` frames (R102). -/
theorem discard_total {P : Params} {c : Source} (h : OpenOk P c) {k : Nat} (hk : k ≤ c.total) :
    (c.discard P k).total = c.total - k :=
  (dropFrames_spec (frames_pos h) h.2.2.2.1 hk).2.1

/-- Frame `j` of the ring after a discard of `k` frames is frame `k + j` of the ring before (R31, R102). -/
theorem discard_subframe (c : Source) (P : Params) (k j chan : Nat) :
    (c.discard P k).subframe P j chan = c.subframe P (k + j) chan := by
  simp only [Source.subframe, discard_data, discard_nsub, List.drop_drop, Source.frameBytes]
  congr 2
  ring

/-- A context whose frames were discarded keeps every invariant of R32, where its tag fits what is left. -/
theorem discard_openOk {P : Params} {c : Source} (h : OpenOk P c) {k t : Nat} (hk : k ≤ c.total)
    (ht : t ≤ c.total - k) : OpenOk P { c.discard P k with tagged := t } := by
  have htot := discard_total h hk
  obtain ⟨h1, h2, h3, h4, h5, h6, h7, -⟩ := h
  obtain ⟨d1, -, d3⟩ := dropFrames_spec (fun x hx => (h3 x hx).1) h4 hk
  refine ⟨h1, h2, fun x hx => h3 x (d3.subset hx), d1, ?_, (d3.length_le).trans h6, ?_, ?_⟩
  · show (c.data.drop (k * c.frameBytes P)).length = (c.discard P k).total * c.frameBytes P
    rw [List.length_drop, h5, htot, Nat.sub_mul]
  · show (c.data.drop (k * c.frameBytes P)).length ≤ P.ringBytes
    rw [List.length_drop]
    omega
  · show t ≤ (c.discard P k).total
    rw [htot]
    exact ht

/-! ### Flush, forward and tag -/

theorem flush_total {P : Params} {c : Source} (h : OpenOk P c) :
    (c.flush P).total = c.total - c.tagged :=
  discard_total h h.2.2.2.2.2.2.2

theorem flush_openOk {P : Params} {c : Source} (h : OpenOk P c) : OpenOk P (c.flush P) :=
  discard_openOk h h.2.2.2.2.2.2.2 (Nat.zero_le _)

theorem forwardCount_le (c : Source) (P : Params) (t : Int) : c.forwardCount P t ≤ c.total := by
  unfold Source.forwardCount
  split
  · exact Nat.zero_le _
  · exact Nat.min_le_left _ _

theorem forward_total {P : Params} {c : Source} (h : OpenOk P c) (t : Int) :
    (c.forward P t).total = c.total - c.forwardCount P t := by
  unfold Source.forward
  split
  · simp [Source.forwardCount, *]
  · exact discard_total h (forwardCount_le c P t)

theorem forward_openOk {P : Params} {c : Source} (h : OpenOk P c) (t : Int) :
    OpenOk P (c.forward P t) := by
  unfold Source.forward
  split
  · exact h
  · have := h.2.2.2.2.2.2.2
    exact discard_openOk h (forwardCount_le c P t) (by omega)

theorem taggedAfter_le {P : Params} {c : Source} (h : OpenOk P c) (t : Int) (n : Nat) :
    c.taggedAfter P t n ≤ c.total := by
  unfold Source.taggedAfter
  split
  · exact h.2.2.2.2.2.2.2
  · exact Nat.min_le_left _ _

theorem taggedAfter_ge {P : Params} {c : Source} (h : OpenOk P c) (t : Int) (n : Nat) :
    c.tagged ≤ c.taggedAfter P t n := by
  have := h.2.2.2.2.2.2.2
  unfold Source.taggedAfter
  split
  · exact le_refl _
  · exact Nat.le_min.mpr ⟨this, Nat.le_add_right _ _⟩

theorem tag_openOk {P : Params} {c : Source} (h : OpenOk P c) (t : Int) (n : Nat) :
    OpenOk P (c.tag P t n) := by
  have ht := taggedAfter_le h t n
  obtain ⟨h1, h2, h3, h4, h5, h6, h7, -⟩ := h
  exact ⟨h1, h2, h3, h4, h5, h6, h7, ht⟩

@[simp] theorem forward_isOpen (c : Source) (P : Params) (t : Int) :
    (c.forward P t).isOpen = c.isOpen := by
  unfold Source.forward; split <;> rfl
@[simp] theorem forward_nsub (c : Source) (P : Params) (t : Int) :
    (c.forward P t).nsub = c.nsub := by
  unfold Source.forward; split <;> rfl
@[simp] theorem forward_pcm (c : Source) (P : Params) (t : Int) : (c.forward P t).pcm = c.pcm := by
  unfold Source.forward; split <;> rfl
@[simp] theorem forward_slots (c : Source) (P : Params) (t : Int) :
    (c.forward P t).slots = c.slots := by
  unfold Source.forward; split <;> rfl
@[simp] theorem tag_isOpen (c : Source) (P : Params) (t : Int) (n : Nat) :
    (c.tag P t n).isOpen = c.isOpen := rfl
@[simp] theorem tag_nsub (c : Source) (P : Params) (t : Int) (n : Nat) :
    (c.tag P t n).nsub = c.nsub := rfl
@[simp] theorem tag_pcm (c : Source) (P : Params) (t : Int) (n : Nat) : (c.tag P t n).pcm = c.pcm := rfl
@[simp] theorem tag_slots (c : Source) (P : Params) (t : Int) (n : Nat) :
    (c.tag P t n).slots = c.slots := rfl
@[simp] theorem flush_isOpen (c : Source) (P : Params) : (c.flush P).isOpen = c.isOpen := rfl
@[simp] theorem flush_nsub (c : Source) (P : Params) : (c.flush P).nsub = c.nsub := rfl
@[simp] theorem flush_pcm (c : Source) (P : Params) : (c.flush P).pcm = c.pcm := rfl
@[simp] theorem flush_slots (c : Source) (P : Params) : (c.flush P).slots = c.slots := rfl

/-- A source context of either kind keeps its invariants under a change that keeps them when it is open,
keeps it open or closed, and leaves a closed one as it is. -/
theorem sourceOk_of {P : Params} {c d : Source} (ho : d.isOpen = c.isOpen) (h : SourceOk P c)
    (h1 : OpenOk P c → OpenOk P d) (h2 : c.isOpen = false → d = c) : SourceOk P d := by
  unfold SourceOk at h ⊢
  rw [ho]
  split
  · rename_i e
    rw [if_pos e] at h
    exact h1 h
  · rename_i e
    rw [if_neg e] at h
    rw [h2 (by simpa using e)]
    exact h

/-! ### Push -/

/-- The context after a push that RB_PUSH accepts keeps every invariant of R32. -/
theorem push_openOk {P : Params} (hP : P.legal = true) {c : Source} (h : OpenOk P c) {pts : DWord}
    {bs : List Byte} (hne : bs.length ≠ 0) (hmod : bs.length % c.frameBytes P = 0)
    (hpts : pts ≠ invalidBits)
    (hend : pts.toInt + framesToTicks P (bs.length / c.frameBytes P) ≤ int64Max)
    (hring : c.data.length + bs.length ≤ P.ringBytes) (hslots : c.chunks.length < P.chunkSlots) :
    OpenOk P (c.push pts (bs.length / c.frameBytes P) bs) := by
  have hFB := frameBytes_pos hP h.1.1
  obtain ⟨h1, h2, h3, h4, h5, h6, h7, h8⟩ := h
  have hle := headOff_le h4
  have hdiv : bs.length / c.frameBytes P * c.frameBytes P = bs.length :=
    Nat.div_mul_cancel (Nat.dvd_of_mod_eq_zero hmod)
  have hpos : 1 ≤ bs.length / c.frameBytes P := by
    rcases Nat.eq_zero_or_pos (bs.length / c.frameBytes P) with h0 | h0
    · rw [h0] at hdiv
      omega
    · exact h0
  have htot : (c.push pts (bs.length / c.frameBytes P) bs).total =
      c.total + bs.length / c.frameBytes P := by
    rw [total_eq, total_eq]
    simp only [Source.push, chunkFrames_append, chunkFrames_cons, chunkFrames_nil]
    omega
  refine ⟨h1, h2, ?_, ?_, ?_, ?_, ?_, ?_⟩
  · intro x hx
    rcases List.mem_append.mp hx with hx | hx
    · exact h3 x hx
    · rw [List.mem_singleton.mp hx]
      exact ⟨hpos, hpts, hend⟩
  · show headOffInside (c.chunks ++ [⟨pts, _⟩]) c.headOff
    cases hc : c.chunks with
    | nil =>
      rw [hc] at h4
      have h0 : c.headOff = 0 := Nat.lt_one_iff.mp h4
      rw [h0]
      exact hpos
    | cons x xs =>
      rw [hc] at h4
      exact h4
  · rw [htot]
    show (c.data ++ bs).length = (c.total + _) * c.frameBytes P
    rw [List.length_append, h5, Nat.add_mul, hdiv]
  · show (c.chunks ++ [_]).length ≤ _
    rw [List.length_append, List.length_singleton]
    omega
  · show (c.data ++ bs).length ≤ _
    rw [List.length_append]
    exact hring
  · show c.tagged ≤ (c.push pts (bs.length / c.frameBytes P) bs).total
    rw [htot]
    exact h8.trans (Nat.le_add_right _ _)

/-! ### The buffer start -/

theorem chunks_of_total_pos {c : Source} (h : 0 < c.total) : c.chunks ≠ [] := by
  intro e
  simp [Source.total, e] at h

theorem total_pos_of_chunks {P : Params} {c : Source} (h : OpenOk P c) (hc : c.chunks ≠ []) :
    0 < c.total := by
  have h4 := h.2.2.2.1
  rw [total_eq]
  cases hcs : c.chunks with
  | nil => exact absurd hcs hc
  | cons x xs =>
    rw [hcs] at h4
    have : c.headOff < x.frames := h4
    rw [chunkFrames_cons]
    omega

/-- The buffer start of a ring that holds a frame is a valid TimePoint: it does not overflow (R100). -/
theorem bufferStart_valid {P : Params} {c : Source} (h : OpenOk P c) (ht : 0 < c.total) :
    int64Min < c.bufferStart P ∧ c.bufferStart P ≤ int64Max := by
  have hne : ¬ c.total = 0 := by omega
  obtain ⟨-, -, h3, h4, -⟩ := h
  unfold Source.bufferStart
  rw [if_neg hne]
  cases hc : c.chunks with
  | nil => exact absurd hc (chunks_of_total_pos ht)
  | cons x xs =>
    rw [hc] at h3 h4
    obtain ⟨-, hv, hend⟩ := h3 x List.mem_cons_self
    have hlt : c.headOff < x.frames := h4
    have hm := framesToTicks_mono P hlt.le
    have hmin : int64Min < x.pts.toInt := by
      have hge : int64Min ≤ x.pts.toInt := by
        have := BitVec.le_toInt x.pts
        simpa using this
      rcases hge.lt_or_eq with hlt | heq
      · exact hlt
      · exact absurd (BitVec.eq_of_toInt_eq (heq.symm.trans (by decide))) hv
    refine ⟨?_, ?_⟩ <;> simp only [] <;> omega

/-- A TimePoint's register bits read back as the TimePoint (R28). -/
theorem toInt_timeBits {t : Int} (h1 : int64Min ≤ t) (h2 : t ≤ int64Max) : (timeBits t).toInt = t := by
  unfold timeBits
  rw [BitVec.toInt_ofInt]
  apply Int.bmod_eq_of_le <;> simp only [int64Min, int64Max] at * <;> omega

end Sys2Proof.Laws
end

