-- ==== Sys2Proof/Laws/Mux.lean ====
section
/-! SUPPORT. The multiplexer's operations, each said once: the aligned cut is the greatest legal one (R155),
forwarding and consuming keep the rings' invariants, and slots are claimed and freed as R34 says. -/

namespace Sys2Proof.Laws

open Sys2Proof.Config (Params)
open Sys2Proof.Machine
open Sys2Proof.Safety

/-! ### The aligned cut -/

theorem le_foldl_max (l : List Nat) (a : Nat) : a ≤ l.foldl max a ∧ ∀ x ∈ l, x ≤ l.foldl max a := by
  induction l generalizing a with
  | nil => simp
  | cons b l ih =>
    obtain ⟨h1, h2⟩ := ih (max a b)
    refine ⟨(le_max_left a b).trans h1, fun x hx => ?_⟩
    rcases List.mem_cons.mp hx with rfl | hx
    · exact (le_max_right a x).trans h1
    · exact h2 x hx

theorem foldl_max_mem (l : List Nat) (a : Nat) : l.foldl max a = a ∨ l.foldl max a ∈ l := by
  induction l generalizing a with
  | nil => simp
  | cons b l ih =>
    rcases ih (max a b) with h | h
    · rcases max_choice a b with e | e <;> rw [List.foldl_cons, h, e] <;> simp
    · exact .inr (List.mem_cons_of_mem _ h)

theorem source_legalCut_iff (c : Source) (P : Params) (t : Int) (n : Nat) :
    c.legalCut P t n = true ↔ n = 0 ∨ (n : Int) ≤ c.offset P t ∨
      ∃ e ∈ c.ends, (n : Int) - c.offset P t = (e : Int) := by
  simp [Source.legalCut, or_assoc]

theorem legalCut_iff (s : State) (t : Int) (n : Nat) :
    s.legalCut t n = true ↔ ∀ i ∈ s.passthrough, (s.source i).legalCut s.params t n = true := by
  simp [State.legalCut]

theorem legalCut_zero (s : State) (t : Int) : s.legalCut t 0 = true := by
  simp [legalCut_iff, source_legalCut_iff]

/-- A cut before every source's first frame is legal. -/
theorem legalCut_of_le {s : State} {t : Int} {n : Nat}
    (h : ∀ i ∈ s.passthrough, (n : Int) ≤ (s.source i).offset s.params t) : s.legalCut t n = true :=
  (legalCut_iff s t n).mpr fun i hi => (source_legalCut_iff _ _ _ _).mpr (.inr (.inl (h i hi)))

theorem exists_least_offset (s : State) (t : Int) {l : List Nat} (hl : l ≠ []) :
    ∃ i ∈ l, ∀ j ∈ l, (s.source i).offset s.params t ≤ (s.source j).offset s.params t := by
  have := Finset.exists_min_image l.toFinset (fun i => (s.source i).offset s.params t)
    (by simpa using hl)
  simpa using this

/-- A legal cut has a candidate of `alignedCut` at or above it that is legal too. -/
theorem exists_cut_ge {s : State} {t : Int} {wanted m : Nat} (hm : m ≤ wanted)
    (hl : s.legalCut t m = true) :
    m = 0 ∨ ∃ c ∈ wanted :: s.passthrough.flatMap (fun i => (s.source i).cuts s.params t),
      m ≤ c ∧ c ≤ wanted ∧ s.legalCut t c = true := by
  rcases Nat.eq_zero_or_pos m with h0 | hpos
  · exact .inl h0
  refine .inr ?_
  by_cases hend : ∃ i ∈ s.passthrough, ∃ e ∈ (s.source i).ends,
      (m : Int) - (s.source i).offset s.params t = (e : Int)
  · obtain ⟨i, hi, e, he, heq⟩ := hend
    refine ⟨m, List.mem_cons_of_mem _ (List.mem_flatMap.mpr ⟨i, hi, ?_⟩), le_refl _, hm, hl⟩
    refine List.mem_cons_of_mem _ (List.mem_map.mpr ⟨e, he, ?_⟩)
    show ((e : Int) + (s.source i).offset s.params t).toNat = m
    omega
  · have hle : ∀ i ∈ s.passthrough, (m : Int) ≤ (s.source i).offset s.params t := by
      intro i hi
      rcases (source_legalCut_iff _ _ _ _).mp ((legalCut_iff s t m).mp hl i hi) with h | h | ⟨e, he, h⟩
      · omega
      · exact h
      · exact absurd ⟨i, hi, e, he, h⟩ hend
    by_cases hw : ∀ i ∈ s.passthrough, (wanted : Int) ≤ (s.source i).offset s.params t
    · exact ⟨wanted, List.mem_cons_self, hm, le_refl _, legalCut_of_le hw⟩
    · have hne : s.passthrough ≠ [] := by
        intro e
        simp [e] at hw
      obtain ⟨i, hi, hmin⟩ := exists_least_offset s t hne
      have hmi := hle i hi
      have hlt : (s.source i).offset s.params t < (wanted : Int) := by
        by_contra hcon
        exact hw fun j hj => (not_lt.mp hcon).trans (hmin j hj)
      refine ⟨((s.source i).offset s.params t).toNat,
        List.mem_cons_of_mem _ (List.mem_flatMap.mpr ⟨i, hi, List.mem_cons_self⟩), by omega, by omega,
        legalCut_of_le fun j hj => ?_⟩
      have := hmin j hj
      omega

/-- The aligned cut is the greatest cut in `[0, wanted]` that is legal for every active non-PCM source
(R155). -/
theorem alignedCut_spec (s : State) (t : Int) (wanted : Nat) :
    s.alignedCut t wanted ≤ wanted ∧ s.legalCut t (s.alignedCut t wanted) = true ∧
      ∀ m, m ≤ wanted → s.legalCut t m = true → m ≤ s.alignedCut t wanted := by
  have key : s.alignedCut t wanted ≤ wanted ∧ s.legalCut t (s.alignedCut t wanted) = true := by
    rcases foldl_max_mem ((wanted :: s.passthrough.flatMap fun i =>
        (s.source i).cuts s.params t).filter fun n => decide (n ≤ wanted) && s.legalCut t n) 0 with h | h
    · rw [State.alignedCut, h]
      exact ⟨Nat.zero_le _, legalCut_zero s t⟩
    · have := (List.mem_filter.mp h).2
      simpa [State.alignedCut] using this
  refine ⟨key.1, key.2, fun m hm hl => ?_⟩
  rcases exists_cut_ge hm hl with rfl | ⟨c, hc, hmc, hcw, hcl⟩
  · exact Nat.zero_le _
  · refine hmc.trans ((le_foldl_max _ 0).2 c (List.mem_filter.mpr ⟨hc, ?_⟩))
    simp [hcw, hcl]

/-! ### Changes of many source contexts -/

/-- The rings keep their invariants under a change of the picked source contexts that keeps them. -/
theorem mapSources_ringsOk {s : State} (h : RingsOk s) (p : Nat → Bool) (f : Source → Source)
    (hf : ∀ i : Fin 16, p i.val = true → SourceOk s.params s.sources[i] →
      SourceOk s.params (f s.sources[i])) : RingsOk (s.mapSources p f) := by
  refine ⟨by simpa using h.1, fun i => ?_⟩
  rw [← source_fin, mapSources_source _ _ _ i.isLt, mapSources_params, source_fin]
  split
  · exact hf i ‹_› (h.2 i)
  · exact h.2 i

theorem isOpen_of_sourceOpen {s : State} {i : Fin 16} (h : s.sourceOpen i.val = true) :
    s.sources[i].isOpen = true := by
  have := ((sourceOpen_iff s i.val).mp h).2
  rwa [source_fin] at this

/-- Forwarding every open source keeps the rings' invariants. -/
theorem forwardAll_ringsOk {s : State} (h : RingsOk s) (t : Int) : RingsOk (s.forwardAll t) := by
  refine mapSources_ringsOk h _ _ fun i hi hs => ?_
  have ho := isOpen_of_sourceOpen hi
  exact sourceOk_of (forward_isOpen _ _ _) hs (fun h' => forward_openOk h' t)
    fun e => absurd (ho.symm.trans e) (by decide)

/-- Tagging and flushing every active source keeps the rings' invariants. -/
theorem consume_ringsOk {s : State} (h : RingsOk s) (t : Int) (n : Nat) : RingsOk (s.consume t n) := by
  refine mapSources_ringsOk h _ _ fun i hi hs => ?_
  have ho := isOpen_of_sourceOpen ((isActive_iff s i.val).mp hi).1
  exact sourceOk_of (c := s.sources[i]) rfl hs (fun h' => flush_openOk (tag_openOk h' t n))
    fun e => absurd (ho.symm.trans e) (by decide)

/-- Replacing one source context keeps the rings' invariants where the new one has them. -/
theorem setSource_ringsOk {s : State} (h : RingsOk s) {i : Nat} {c : Source}
    (hc : SourceOk s.params c) : RingsOk (s.setSource i c) := by
  refine ⟨by simpa using h.1, fun j => ?_⟩
  rw [← source_fin, setSource_params]
  by_cases e : j.val = i
  · subst e
    rw [setSource_source_self _ _ j.isLt]
    exact hc
  · rw [setSource_source_ne _ _ e, source_fin]
    exact h.2 j

/-- The rings' invariants depend on the source contexts and the parameters alone. -/
theorem ringsOk_congr {s t : State} (hs : t.sources = s.sources) (hp : t.params = s.params)
    (h : RingsOk s) : RingsOk t := by
  unfold RingsOk
  rw [hs, hp]
  exact h

/-! ### Slots -/

theorem ownerIn_eq_some {src : Nat} {slots : List Nat} (hn : slots.Nodup) {k : Nat} {o : Owner} :
    ownerIn src slots k = some o ↔ o.source = src ∧ slots[o.chan]? = some k := by
  unfold ownerIn
  split
  · rename_i hk
    have hk' : k ∈ slots := by simpa using hk
    have hlt := List.idxOf_lt_length_of_mem hk'
    constructor
    · intro h
      obtain rfl := Option.some.inj h
      exact ⟨rfl, by rw [List.getElem?_eq_getElem hlt, List.getElem_idxOf hlt]⟩
    · rintro ⟨h1, h2⟩
      obtain ⟨hc, he⟩ := List.getElem?_eq_some_iff.mp h2
      have : slots.idxOf k = o.chan :=
        hn.getElem_inj_iff.mp ((List.getElem_idxOf hlt).trans he.symm)
      rw [this, ← h1]
  · rename_i hk
    have hk' : k ∉ slots := by simpa using hk
    constructor
    · intro h
      simp at h
    · rintro ⟨-, h2⟩
      exact absurd (List.mem_of_getElem? h2) hk'

/-- What a choice of slots must be to be claimed (R145). -/
abbrev SlotChoice (s : State) (slots : List Nat) : Prop :=
  slots.Nodup ∧ (∀ k ∈ slots, k < s.audioCh) ∧ (∀ k ∈ slots, s.ownerAt k = none) ∧ slots.length ≤ 16

/-- Opening a closed source context on free slots keeps the slot table's invariant (R34, R145). -/
theorem claim_slotsOk {s : State} (h : SlotsOk s) {src c : Nat} {m : Bool} {slots : List Nat}
    (hsrc : src < 16) (hlt : src < s.params.maxSources) (hclosed : (s.source src).isOpen = false)
    (hs : SlotChoice s slots) :
    SlotsOk ((s.setSource src (Source.opened c m slots)).claimSlots src slots) := by
  obtain ⟨h1, h2, h3, h4⟩ := h
  obtain ⟨hn, hch, hfree, hlen⟩ := hs
  have hsource : ∀ i : Fin 16,
      ((s.setSource src (Source.opened c m slots)).claimSlots src slots).sources[i] =
        if i.val = src then Source.opened c m slots else s.sources[i] := by
    intro i
    rw [claimSlots_sources, ← source_fin]
    split
    · rename_i e
      rw [e, setSource_source_self _ _ hsrc]
    · rename_i e
      rw [setSource_source_ne _ _ e, source_fin]
  have howner : ∀ k : Fin 16,
      ((s.setSource src (Source.opened c m slots)).claimSlots src slots).owner[k] =
        (ownerIn src slots k.val).or s.owner[k] := by
    intro k
    have := claimSlots_ownerAt (s.setSource src (Source.opened c m slots)) src slots k.isLt
    rw [ownerAt_eq_getElem _ k.isLt, ownerAt_eq_getElem _ k.isLt] at this
    exact this
  have hnone : ∀ k : Fin 16, k.val ∈ slots → s.owner[k] = none := by
    intro k hk
    have := hfree k.val hk
    rwa [ownerAt_eq_getElem _ k.isLt] at this
  have hsrcClosed : s.sources[(⟨src, hsrc⟩ : Fin 16)].isOpen = false := by
    rw [← source_fin]
    exact hclosed
  refine ⟨?_, ?_, ?_, ?_⟩
  · intro k i ch
    rw [howner, hsource]
    cases ho : ownerIn src slots k.val with
    | some o =>
      obtain ⟨e1, e2⟩ := (ownerIn_eq_some hn).mp ho
      have hk : k.val ∈ slots := List.mem_of_getElem? e2
      rw [Option.some_or]
      constructor
      · intro e
        obtain rfl := Option.some.inj e
        rw [if_pos e1]
        exact ⟨rfl, e2⟩
      · intro hh
        by_cases e : i.val = src
        · rw [if_pos e] at hh
          have := (ownerIn_eq_some hn (o := ⟨i.val, ch.val⟩)).mpr ⟨e, hh.2⟩
          rw [← ho, this]
        · rw [if_neg e] at hh
          have := (h1 k i ch).mpr hh
          rw [hnone k hk] at this
          simp at this
    | none =>
      rw [Option.none_or]
      by_cases e : i.val = src
      · rw [if_pos e]
        constructor
        · intro hh
          have := ((h1 k i ch).mp hh).1
          rw [show i = (⟨src, hsrc⟩ : Fin 16) from Fin.ext e, hsrcClosed] at this
          simp at this
        · intro hh
          have := (ownerIn_eq_some hn (o := ⟨i.val, ch.val⟩)).mpr ⟨e, hh.2⟩
          rw [ho] at this
          simp at this
      · rw [if_neg e]
        exact h1 k i ch
  · intro k o hk
    rw [howner] at hk
    cases ho : ownerIn src slots k.val with
    | some o' =>
      rw [ho, Option.some_or] at hk
      obtain rfl := Option.some.inj hk
      obtain ⟨e1, e2⟩ := (ownerIn_eq_some hn).mp ho
      obtain ⟨hc, -⟩ := List.getElem?_eq_some_iff.mp e2
      refine ⟨e1 ▸ hsrc, lt_of_lt_of_le hc hlen, ?_⟩
      have := hch k.val (List.mem_of_getElem? e2)
      simpa using this
    | none =>
      rw [ho, Option.none_or] at hk
      simpa using h2 k o hk
  · intro i hi
    rw [hsource] at hi ⊢
    by_cases e : i.val = src
    · rw [if_pos e]
      refine ⟨by rw [e]; simpa using hlt, hlen, fun k hk => ?_⟩
      simpa using hch k hk
    · rw [if_neg e] at hi ⊢
      simpa using h3 i hi
  · intro i hi
    rw [hsource] at hi ⊢
    by_cases e : i.val = src
    · rw [if_pos e] at hi
      exact absurd hi (by simp [Source.opened])
    · rw [if_neg e] at hi ⊢
      exact h4 i hi

/-- Closing a source context and freeing its slots keeps the slot table's invariant (R34, R148). -/
theorem free_slotsOk {s : State} (h : SlotsOk s) {src : Nat} (hsrc : src < 16) :
    SlotsOk ((s.setSource src Source.closed).freeSlotsOf src) := by
  obtain ⟨h1, h2, h3, h4⟩ := h
  have hsource : ∀ i : Fin 16, ((s.setSource src Source.closed).freeSlotsOf src).sources[i] =
      if i.val = src then Source.closed else s.sources[i] := by
    intro i
    rw [freeSlotsOf_sources, ← source_fin]
    split
    · rename_i e
      rw [e, setSource_source_self _ _ hsrc]
    · rename_i e
      rw [setSource_source_ne _ _ e, source_fin]
  have howner : ∀ (k : Fin 16) (o : Owner),
      ((s.setSource src Source.closed).freeSlotsOf src).owner[k] = some o ↔
        o.source ≠ src ∧ s.owner[k] = some o := by
    intro k o
    have := freeSlotsOf_ownerAt (s.setSource src Source.closed) src k.isLt
    rw [ownerAt_eq_getElem _ k.isLt, ownerAt_eq_getElem _ k.isLt] at this
    show ((s.setSource src Source.closed).freeSlotsOf src).owner[k.val] = some o ↔ _
    rw [this]
    show (s.owner[k].bind fun o => if o.source = src then none else some o) = some o ↔ _
    cases hk : s.owner[k] with
    | none => simp
    | some o' =>
      rw [Option.bind_some]
      constructor
      · intro e
        split at e
        · simp at e
        · obtain rfl := Option.some.inj e
          exact ⟨‹_›, rfl⟩
      · rintro ⟨e1, e2⟩
        obtain rfl := Option.some.inj e2
        rw [if_neg e1]
  refine ⟨?_, ?_, ?_, ?_⟩
  · intro k i ch
    rw [howner, hsource]
    by_cases e : i.val = src
    · simp [e, Source.closed]
    · rw [if_neg e]
      exact ⟨fun hh => (h1 k i ch).mp hh.2, fun hh => ⟨e, (h1 k i ch).mpr hh⟩⟩
  · intro k o hk
    simpa using h2 k o ((howner k o).mp hk).2
  · intro i hi
    rw [hsource] at hi ⊢
    by_cases e : i.val = src
    · rw [if_pos e] at hi
      exact absurd hi (by simp [Source.closed])
    · rw [if_neg e] at hi ⊢
      simpa using h3 i hi
  · intro i hi
    rw [hsource] at hi ⊢
    by_cases e : i.val = src
    · rw [if_pos e]
      rfl
    · rw [if_neg e] at hi ⊢
      exact h4 i hi

/-- The slot table's invariant depends on the owners, on which contexts are open on which slots, on the
channel count and on the parameters alone. -/
theorem slotsOk_congr {s t : State} (ho : t.owner = s.owner) (ha : t.audioCh = s.audioCh)
    (hp : t.params = s.params)
    (hs : ∀ i : Fin 16, t.sources[i].isOpen = s.sources[i].isOpen ∧ t.sources[i].slots = s.sources[i].slots)
    (h : SlotsOk s) : SlotsOk t := by
  unfold SlotsOk
  simp only [ho, ha, hp, (hs _).1, (hs _).2]
  exact h

theorem firstFit_spec {s : State} {c : Nat} {slots : List Nat} (h : s.firstFit c = some slots) :
    slots.length = c ∧ slots.Nodup ∧ ∀ k ∈ slots, k < s.audioCh ∧ s.ownerAt k = none := by
  unfold State.firstFit at h
  split at h
  · simp at h
  · rename_i hlen
    obtain rfl := Option.some.inj h
    refine ⟨by rw [List.length_take]; omega,
      (List.nodup_range.filter _).sublist (List.take_sublist _ _), fun k hk => ?_⟩
    have := List.mem_filter.mp (List.mem_of_mem_take hk)
    simpa using this

theorem pairSlots_nodup {l : List Nat} (h : l.Nodup) :
    (l.flatMap fun p => [2 * p, 2 * p + 1]).Nodup := by
  induction l with
  | nil => simp
  | cons p l ih =>
    obtain ⟨hp, hl⟩ := List.nodup_cons.mp h
    rw [List.flatMap_cons, List.nodup_append]
    refine ⟨by simp, ih hl, ?_⟩
    intro a ha b hb e
    obtain ⟨q, hq, hqb⟩ := List.mem_flatMap.mp hb
    have : q = p := by
      simp at ha hqb
      omega
    exact hp (this ▸ hq)

theorem pairSlots_length (l : List Nat) : (l.flatMap fun p => [2 * p, 2 * p + 1]).length = 2 * l.length := by
  induction l with
  | nil => rfl
  | cons p l ih =>
    rw [List.flatMap_cons, List.length_append, ih]
    simp
    omega

theorem firstFitPairs_spec {s : State} {q : Nat} {slots : List Nat} (h : s.firstFitPairs q = some slots) :
    slots.length = 2 * q ∧ slots.Nodup ∧ ∀ k ∈ slots, k < s.audioCh ∧ s.ownerAt k = none := by
  unfold State.firstFitPairs at h
  split at h
  · simp at h
  · rename_i hlen
    obtain rfl := Option.some.inj h
    refine ⟨by rw [pairSlots_length, List.length_take]; omega,
      pairSlots_nodup ((List.nodup_range.filter _).sublist (List.take_sublist _ _)), fun k hk => ?_⟩
    obtain ⟨p, hp, hpk⟩ := List.mem_flatMap.mp hk
    obtain ⟨hlt, hfree⟩ := List.mem_filter.mp (List.mem_of_mem_take hp)
    have hlt' := List.mem_range.mp hlt
    simp only [State.frameWidth] at hlt'
    simp only [Bool.and_eq_true, Option.isNone_iff_eq_none] at hfree
    simp only [List.mem_cons, List.not_mem_nil, or_false] at hpk
    rcases hpk with rfl | rfl
    · exact ⟨by omega, hfree.1⟩
    · exact ⟨by omega, hfree.2⟩

/-- What MX_ADD_MAPPING gives a source is a choice of free slots, one for each of its first channels
(R145 to R147). -/
theorem chooseSlots_spec {s : State} {x a : Bool} {c : Nat} {slots : List Nat} (hc : 1 ≤ c ∧ c ≤ 16)
    (hok : (if x then s.listOk c else s.countOk a c) = true) (h : s.chooseSlots x a c = .ok slots) :
    SlotChoice s slots ∧ 1 ≤ slots.length ∧ slots.length ≤ c := by
  unfold State.chooseSlots at h
  cases x with
  | true =>
    simp only [if_true] at h hok
    split at h
    · simp at h
    · rename_i hany
      obtain rfl := Except.ok.inj h
      simp only [State.listOk, Bool.and_eq_true, decide_eq_true_eq] at hok
      obtain ⟨⟨⟨hN, -⟩, hlt⟩, hn⟩ := hok
      have hlen : (slotList (s.argBits 1) (s.arg 2)).length = s.arg 2 := by simp [slotList]
      refine ⟨⟨hn, hlt, fun k hk => ?_, by omega⟩, by omega, by omega⟩
      by_contra hne
      refine hany (List.any_eq_true.mpr ⟨k, hk, ?_⟩)
      simpa [Option.isSome_iff_ne_none] using hne
  | false =>
    simp only [Bool.false_eq_true, if_false] at h hok
    split at h
    · simp at h
    · split at h
      · rename_i hopt
        obtain rfl := Except.ok.inj h
        cases a with
        | false =>
          simp only [Bool.false_eq_true, if_false] at hopt
          obtain ⟨h1, h2, h3⟩ := firstFit_spec hopt
          exact ⟨⟨h2, fun k hk => (h3 k hk).1, fun k hk => (h3 k hk).2, by omega⟩, by omega, by omega⟩
        | true =>
          simp only [if_true] at hopt
          obtain ⟨h1, h2, h3⟩ := firstFitPairs_spec hopt
          simp only [State.countOk, Bool.true_and, Bool.and_eq_true, decide_eq_true_eq,
            Bool.not_eq_true', decide_eq_false_iff_not] at hok
          exact ⟨⟨h2, fun k hk => (h3 k hk).1, fun k hk => (h3 k hk).2, by omega⟩, by omega, by omega⟩
      · simp at h

end Sys2Proof.Laws
end

