-- ==== Sys2Proof/Laws/PerInstr.lean ====
section
/-! SUPPORT. Statements about the instruction as syntax, one lemma for each constructor. -/

namespace Sys2Proof.Laws.EncodedFields

open Sys2Proof

/-- The word of a command has RSVD 0 and, in SRC, the source the command names, or 0 (R80, R82, R92). -/
def Statement (i : Instr) : Prop :=
  rsvdOf (encode i) = 0#8 ∧ srcOf (encode i) = BitVec.ofNat 8 (i.source?.getD 0)

theorem nop : Statement .nop := by simp [Statement, encode, Instr.source?]
theorem rbPush (src : Nat) : Statement (.rbPush src) := by simp [Statement, encode, Instr.source?]
theorem rbBufferStart (src : Nat) : Statement (.rbBufferStart src) := by simp [Statement, encode, Instr.source?]
theorem rbAvailable (src : Nat) : Statement (.rbAvailable src) := by simp [Statement, encode, Instr.source?]
theorem rbRead (src : Nat) : Statement (.rbRead src) := by simp [Statement, encode, Instr.source?]
theorem rbFlushConsumed (src : Nat) : Statement (.rbFlushConsumed src) := by simp [Statement, encode, Instr.source?]
theorem rbTagVirtualConsumed (src : Nat) : Statement (.rbTagVirtualConsumed src) := by simp [Statement, encode, Instr.source?]
theorem rbForwardTo (src : Nat) : Statement (.rbForwardTo src) := by simp [Statement, encode, Instr.source?]
theorem rbInfo (src : Nat) : Statement (.rbInfo src) := by simp [Statement, encode, Instr.source?]
theorem mxSetAudioConfig (d : Bool) : Statement (.mxSetAudioConfig d) := by simp [Statement, encode, Instr.source?]
theorem mxAddMapping (src : Nat) (x : Bool) (a : Bool) (m : Bool) : Statement (.mxAddMapping src x a m) := by simp [Statement, encode, Instr.source?]
theorem mxRemoveMapping (src : Nat) : Statement (.mxRemoveMapping src) := by simp [Statement, encode, Instr.source?]
theorem mxBufferStart : Statement .mxBufferStart := by simp [Statement, encode, Instr.source?]
theorem mxAvailableVirtual : Statement .mxAvailableVirtual := by simp [Statement, encode, Instr.source?]
theorem mxAlignedInterleave : Statement .mxAlignedInterleave := by simp [Statement, encode, Instr.source?]
theorem mxExtract : Statement .mxExtract := by simp [Statement, encode, Instr.source?]
theorem mxSlotMap : Statement .mxSlotMap := by simp [Statement, encode, Instr.source?]
theorem ancData10 (p : Bool) : Statement (.ancData10 p) := by simp [Statement, encode, Instr.source?]
theorem ancPad : Statement .ancPad := by simp [Statement, encode, Instr.source?]
theorem ancAfd (p : Bool) : Statement (.ancAfd p) := by simp [Statement, encode, Instr.source?]
theorem ancCaptions (p : Bool) : Statement (.ancCaptions p) := by simp [Statement, encode, Instr.source?]
theorem ancParse : Statement .ancParse := by simp [Statement, encode, Instr.source?]
theorem cdpParse : Statement .cdpParse := by simp [Statement, encode, Instr.source?]
theorem pxPackPlane : Statement .pxPackPlane := by simp [Statement, encode, Instr.source?]
theorem pxPackWords (c : Bool) : Statement (.pxPackWords c) := by simp [Statement, encode, Instr.source?]
theorem pxUnpackPlane : Statement .pxUnpackPlane := by simp [Statement, encode, Instr.source?]
theorem pxUnpackWords : Statement .pxUnpackWords := by simp [Statement, encode, Instr.source?]

end Sys2Proof.Laws.EncodedFields
end

