-- ==== Sys2Proof/Laws/Races.lean ====
section
/-! SUPPORT. What each term of the races of 20_memory.md rule R73 says, as a proposition: the states in which a
pending command may be performed, its buffers in them, and the reads of hosts that race with it. -/

namespace Sys2Proof.Laws

open Sys2Proof.Config (Params)
open Sys2Proof.Machine
open Sys2Proof.Safety

theorem mem_buffersIf {ok : Bool} {l : List Buffer} {b : Buffer} :
    b ∈ buffersIf ok l ↔ ok = true ∧ b ∈ l := by
  cases ok <;> simp [buffersIf]

/-! ### The states in which a pending command may be performed -/

/-- A next state is one to which a step of an agent leads, which is not a WAIT that reads BUSY again nor the
performing of the command itself, and in which the command still pends. -/
theorem mem_nexts {s t : State} {p : Fin 15} :
    t ∈ s.nexts p ↔ ∃ x : Agent, x ∈ agents ∧ s.canMove x = true ∧ s.idles x = false ∧ x ≠ .exec p ∧
      s.agentMove x = .next t ∧ t.ports[p].busy = true := by
  simp only [State.nexts, List.mem_filterMap, List.mem_filter, Bool.and_eq_true, Bool.not_eq_true',
    decide_eq_true_eq, and_assoc]
  refine exists_congr fun x => and_congr_right fun _ => and_congr_right fun _ => and_congr_right fun _ =>
    and_congr_right fun _ => ?_
  cases s.agentMove x with
  | next u =>
    simp only [Option.ite_none_right_eq_some, Option.some.injEq, Host.Outcome.next.injEq]
    exact ⟨fun ⟨h, e⟩ => ⟨e, e ▸ h⟩, fun ⟨e, h⟩ => ⟨e ▸ h, e⟩⟩
  | fault r => simp
  | refused r => simp

theorem mem_futuresWithin_succ {n : Nat} {s u : State} {p : Fin 15} :
    u ∈ futuresWithin (n + 1) s p ↔ u = s ∨ ∃ t ∈ s.nexts p, u ∈ futuresWithin n t p := by
  simp [futuresWithin]

theorem self_mem_futuresWithin (n : Nat) (s : State) (p : Fin 15) : s ∈ futuresWithin n s p := by
  cases n <;> simp [futuresWithin]

/-- The command may be performed at once. -/
theorem self_mem_futures (s : State) (p : Fin 15) : s ∈ s.futures p := self_mem_futuresWithin _ s p

/-- More steps lead to more states. -/
theorem futuresWithin_mono {m n : Nat} (h : m ≤ n) {s u : State} {p : Fin 15}
    (hu : u ∈ futuresWithin m s p) : u ∈ futuresWithin n s p := by
  induction m generalizing n s with
  | zero =>
    obtain rfl : u = s := by simpa [futuresWithin] using hu
    exact self_mem_futuresWithin n u p
  | succ m ih =>
    obtain ⟨n, rfl⟩ : ∃ k, n = k + 1 := ⟨n - 1, by omega⟩
    rcases mem_futuresWithin_succ.mp hu with rfl | ⟨t, ht, hu⟩
    · exact self_mem_futuresWithin _ _ _
    · exact mem_futuresWithin_succ.mpr (.inr ⟨t, ht, ih (by omega) hu⟩)

/-- The command still pends in every one of them. -/
theorem busy_of_mem_futuresWithin {n : Nat} {s u : State} {p : Fin 15} (hs : s.ports[p].busy = true)
    (hu : u ∈ futuresWithin n s p) : u.ports[p].busy = true := by
  induction n generalizing s with
  | zero =>
    obtain rfl : u = s := by simpa [futuresWithin] using hu
    exact hs
  | succ n ih =>
    rcases mem_futuresWithin_succ.mp hu with rfl | ⟨t, ht, hu⟩
    · exact hs
    · obtain ⟨-, -, -, -, -, -, hb⟩ := mem_nexts.mp ht
      exact ih hb hu

/-! ### The buffers of a pending command -/

theorem wouldSucceed_iff (s : State) (p : Fin 15) :
    s.wouldSucceed p = true ↔ ∃ t, s.execStep p = .next t ∧ t.ports[p].code = .ok := by
  unfold State.wouldSucceed
  cases s.execStep p <;> simp

theorem serve_command {s : State} {p : Fin 15} {c : Pending} (h : s.ports[p].pending = some c) :
    (s.serve p).command = some c := h

/-- The snapshot that the executor performs a pending command with. -/
theorem serve_args {s : State} {p : Fin 15} {c : Pending} (h : s.ports[p].pending = some c) :
    (s.serve p).args = c.args := by
  simp only [State.args, serve_command h]

theorem serve_performed {s : State} {p : Fin 15} {c : Pending} {i : Instr}
    (h : s.ports[p].pending = some c) (hd : decode c.word = .ok i) : (s.serve p).performed = some i := by
  simp [State.performed, serve_command h, hd, Except.toOption]

/-- The buffers of a pending command: those it is performed with, but for one whose checks of the block's state
fail. -/
theorem buffersAt_of_decoded {s : State} {p : Fin 15} {c : Pending} {i : Instr}
    (h : s.ports[p].pending = some c) (hd : decode c.word = .ok i) :
    s.buffersAt p =
      if asksBlock i && !s.wouldSucceed p then ⟨[], []⟩ else (s.serve p).buffers i := by
  simp only [State.buffersAt, serve_performed h hd]

/-- A port with no command that is an encoding has no buffers. -/
theorem buffersAt_of_not_performed {s : State} {p : Fin 15} (h : (s.serve p).performed = none) :
    s.buffersAt p = ⟨[], []⟩ := by
  simp only [State.buffersAt, h]

/-! ### What a host reads -/

theorem readRaces_iff {s : State} {p : Fin 15} {a : Nat} :
    s.readRaces p a = true ↔ ∃ c, s.ports[p].pending = some c ∧
      ∃ u ∈ s.futures p, Races (u.buffersAt p) c.hostWrote c.hostRead a := by
  unfold State.readRaces
  cases s.ports[p].pending with
  | none => simp
  | some c => simp only [List.any_eq_true, raced_iff, Option.some.injEq, exists_eq_left']

/-- What a host's read gives: a draw where it races with some pending command, else the memory's byte. -/
theorem hostReadByte_eq {s : State} {a : Nat} :
    ((∃ p, s.readRaces p a = true) → s.hostReadByte a = Config.raceByte .hostRead s.draws a) ∧
      ((∀ p, s.readRaces p a = false) → s.hostReadByte a = Memory.read s.dmem a) := by
  unfold State.hostReadByte
  refine ⟨fun ⟨p, hp⟩ => if_pos ?_, fun h => if_neg ?_⟩
  · exact List.any_eq_true.mpr ⟨p, List.mem_finRange p, hp⟩
  · simp [h]

end Sys2Proof.Laws
end

