-- ==== Sys2Proof/Tests/Slice0.lean ====
section
/-! SUPPORT. The model's own tests: ill-formed commands, every command's word written out from
30_encoding.md rules R80 to R84, one-step tests whose expected values are those of 95_test_vectors.md or
hand calculations from the rules, and for every obligation with hypotheses a state that meets them. -/

namespace Sys2Proof.Tests

-- Elaborated one after another: hundreds of kernel evaluations at once would not fit the memory limit.
set_option Elab.async false

open Sys2Proof.Config (Params)
open Sys2Proof.Machine
open Sys2Proof.Safety

/-! ### Well-formedness -/

/-- The one check of `wellFormed`: a source index that does not fit the SRC field, and the last that does. -/
theorem test_source_must_fit :
    (Instr.rbPush 256).wellFormed = false ∧ (Instr.rbPush 255).wellFormed = true ∧
      (Instr.mxAddMapping 256 true false true).wellFormed = false ∧ Instr.nop.wellFormed = true := by
  decide

/-! ### Decoding: words written out bit by bit as `RSVD FLAGS SRC OPC` (R80, R83, R84) -/

theorem test_decode_ring :
    [0b00000000_00000000_00000000_00000000#32, 0b00000000_00000000_00000101_00010000#32,
      0b00000000_00000000_00000101_00010001#32, 0b00000000_00000000_00000101_00010010#32,
      0b00000000_00000000_00000101_00010011#32, 0b00000000_00000000_00000101_00010100#32,
      0b00000000_00000000_00000101_00010101#32, 0b00000000_00000000_00000101_00010110#32,
      0b00000000_00000000_00000101_00010111#32].map (fun w => (decode w).toOption) =
    [some .nop, some (.rbPush 5), some (.rbBufferStart 5), some (.rbAvailable 5), some (.rbRead 5),
      some (.rbFlushConsumed 5), some (.rbTagVirtualConsumed 5), some (.rbForwardTo 5),
      some (.rbInfo 5)] := by
  decide

theorem test_decode_mux :
    [0b00000000_00000001_00000000_00100000#32, 0b00000000_00000001_00000011_00100001#32,
      0b00000000_00000010_00000011_00100001#32, 0b00000000_00000100_00000011_00100001#32,
      0b00000000_00000000_00000011_00100010#32, 0b00000000_00000000_00000000_00100011#32,
      0b00000000_00000000_00000000_00100100#32, 0b00000000_00000000_00000000_00100101#32,
      0b00000000_00000000_00000000_00100110#32, 0b00000000_00000000_00000000_00100111#32].map
        (fun w => (decode w).toOption) =
    [some (.mxSetAudioConfig true), some (.mxAddMapping 3 true false false),
      some (.mxAddMapping 3 false true false), some (.mxAddMapping 3 false false true),
      some (.mxRemoveMapping 3), some .mxBufferStart, some .mxAvailableVirtual,
      some .mxAlignedInterleave, some .mxExtract, some .mxSlotMap] := by
  decide

theorem test_decode_packets_and_pixels :
    [0b00000000_00000001_00000000_00110000#32, 0b00000000_00000000_00000000_00110001#32,
      0b00000000_00000001_00000000_00110010#32, 0b00000000_00000001_00000000_00110011#32,
      0b00000000_00000000_00000000_00110100#32, 0b00000000_00000000_00000000_00110101#32,
      0b00000000_00000000_00000000_01000000#32, 0b00000000_00000001_00000000_01000001#32,
      0b00000000_00000000_00000000_01000010#32, 0b00000000_00000000_00000000_01000011#32].map
        (fun w => (decode w).toOption) =
    [some (.ancData10 true), some .ancPad, some (.ancAfd true), some (.ancCaptions true),
      some .ancParse, some .cdpParse, some .pxPackPlane, some (.pxPackWords true),
      some .pxUnpackPlane, some .pxUnpackWords] := by
  decide

/-- 95_test_vectors.md L2.5, vectors 2 to 6: words that are no encoding. -/
theorem test_decode_refuses :
    [0x00000001#32, 0x01000000#32, 0x00000100#32, 0x00020030#32, 0x00080021#32].map
        (fun w => (decode w).toOption) = [none, none, none, none, none] := by
  decide

/-- `MX_ADD_MAPPING.XM s3, 2, [5,1]` on port 1: ARG0 = 2, ARG1 = 0x15, ARG2 = 2, then CMD (R86, R91, R92). -/
theorem test_asm_line :
    asmLine 1 (.mxAddMapping 3 true false true) [.number 2, .slots [5, 1]] =
      [.regWrite 0x210 4 2#32, .regWrite 0x214 4 0#32, .regWrite 0x218 4 0x15#32, .regWrite 0x21C 4 0#32,
        .regWrite 0x220 4 2#32, .regWrite 0x224 4 0#32, .regWrite 0x200 4 0x00050321#32] := by
  decide

/-- L2.5, vectors 1, 2, 7 and 8: STATUS after a step on the word, from reset. -/
theorem test_status_after_step :
    [0x00000000, 0x00000001, 0x00001F17, 0x00000026].map
        (fun w =>
          match step (State.reset.withFetchWord 32 w) with
          | .next t => some (t.readReg (.status 0))
          | _ => none) =
      [some 0x00000002#32, some 0x00000106#32, some 0x00000206#32, some 0x00000906#32] := by
  decide +kernel

/-! ### Small states -/

/-- The argument registers with these values, the rest 0. -/
def args (l : List Nat) : Args := Vector.ofFn fun n : Fin 8 => BitVec.ofNat 64 (l.getD n.val 0)

/-- `s` with a command with these arguments pending at port 0. -/
def calling (s : State) (l : List Nat) : State :=
  s.setPort 0 { Port.reset with pending := some ⟨0#32, args l, [], []⟩ }

/-- The state after command `i` with these arguments; `s` where it stops, which no test expects. -/
def after (i : Instr) (s : State) (l : List Nat) : State :=
  match exec i (calling s l) with
  | .next t => t
  | _ => s

/-- The status codes that commands report. -/
def codes (calls : List (Instr × State × List Nat)) : List Code :=
  calls.map fun c => (after c.1 c.2.1 c.2.2).ports[(0 : Fin 15)].code

/-- The status code and the results of a command. -/
def report (i : Instr) (s : State) (l : List Nat) : Code × List Nat :=
  ((after i s l).ports[(0 : Fin 15)].code,
    (after i s l).ports[(0 : Fin 15)].res.toList.map BitVec.toNat)

/-- `n` bytes of the data memory. -/
def bytesAt (s : State) (a n : Nat) : List Nat :=
  (List.range n).map fun j => (Memory.read s.dmem (a + j)).toNat

/-- `n` half-words of the data memory. -/
def wordsAt (s : State) (a n : Nat) : List Nat :=
  (List.range n).map fun j =>
    (Memory.read s.dmem (a + 2 * j)).toNat + 256 * (Memory.read s.dmem (a + 2 * j + 1)).toNat

/-- `s` with bytes in its data memory. -/
def withBytes (s : State) (a : Nat) (bs : List Nat) : State :=
  { s with dmem := Memory.writeBytes s.dmem a (bs.map fun b => BitVec.ofNat 8 b) }

/-- `s` with half-words in its data memory. -/
def withWords (s : State) (a : Nat) (ws : List Nat) : State :=
  { s with dmem := Memory.writeBytes s.dmem a (ws.flatMap fun w => le16 (BitVec.ofNat 16 w)) }

/-- The register value of INVALID. -/
def inv : Nat := 0x8000000000000000

/-- `AUDIO_CH = 8`, with nothing mapped. -/
def mux8 : State := { State.reset with audioCh := 8 }

/-- The context of 95_test_vectors.md L2.1: `AUDIO_CH = 8`, source 0 open, stereo PCM, on slots 0 and 1;
holding these chunks of zeros, with these frames tagged. -/
def ring (chunks : List Chunk) (tagged : Nat) : State :=
  { mux8 with
    sources := mux8.sources.set 0
      ⟨true, 2, true, [0, 1], chunks, 0,
        List.replicate (8 * (chunks.map Chunk.frames).sum) 0#8, tagged⟩
    owner := (mux8.owner.set 0 (some ⟨0, 0⟩)).set 1 (some ⟨0, 1⟩) }

/-- L2.1 after vector 1: 1536 frames at time 0. -/
def ring1 : State := ring [⟨0#64, 1536⟩] 0

/-- One byte to a subframe and one tick to a frame, to keep hand calculations short. -/
def tiny : Params := { Params.reference with subframeBytes := 1, tickHz := 1, sampleRate := 1 }

/-- `AUDIO_CH = 8` with `tiny`'s parameters; source 0 a PCM source of one channel on slot 1, whose first
frame is gone, leaving the bytes 7, 8, 9 from time 10; source 1 a non-PCM source of two channels on slots 2
and 3, with chunks of one frame at time 10 and of two at time 11. -/
def pair : State :=
  { mux8 with
    params := tiny
    sources :=
      (mux8.sources.set 0 ⟨true, 1, true, [1], [⟨9#64, 4⟩], 1, [7#8, 8#8, 9#8], 0⟩).set 1
        ⟨true, 2, false, [2, 3], [⟨10#64, 1⟩, ⟨11#64, 2⟩], 0,
          [21#8, 31#8, 22#8, 32#8, 23#8, 33#8], 0⟩
    owner := ((mux8.owner.set 1 (some ⟨0, 0⟩)).set 2 (some ⟨1, 0⟩)).set 3 (some ⟨1, 1⟩) }

/-- `pair` with `head` at time 12. -/
def pairLate : State := { pair with head := 12#64 }

/-! ### Ring buffer: the checks of each command in order, at their boundaries, and a success -/

/-- R103's checks, in order; L2.1 vectors 10, 5, 4, 6, 8 and 9 among them. -/
theorem test_rbPush_checks :
    codes
      [(.rbPush 16, ring1, [0, 8, 0]), (.rbPush 3, ring1, [0, 8, 0]),
        (.rbPush 0, ring1, [0, 0x100000000, 0]), (.rbPush 0, ring1, [0, 8, inv]),
        (.rbPush 0, ring1, [0x10000, 12287, 0]), (.rbPush 0, ring1, [0, 8, 0x7FFFFFFFFFFFFFEC]),
        (.rbPush 0, ring [] 0, [0xFFFFFC, 8, 0]), (.rbPush 0, ring [] 0, [0, 262152, 0]),
        (.rbPush 0, ring (List.replicate 64 ⟨0#64, 1⟩) 0, [0, 8, 0]),
        (.rbPush 0, ring1, [0xFFFFFFFFFFFFFFF8, 0, 0]), (.rbPush 0, ring1, [0xFFFFF8, 8, 0]),
        (.rbPush 0, ring1, [0, 8, 0x7FFFFFFFFFFFFFEB])] =
      [.badSource, .badSource, .badArg, .badArg, .badArg, .badArg, .dmemFault, .noResource,
        .noResource, .ok, .ok, .ok] := by
  decide +kernel

/-- A push of two frames from time -5: the chunk and the bytes are appended. -/
theorem test_rbPush_appends :
    let t := after (.rbPush 0) (withBytes (ring [⟨0#64, 1⟩] 0) 0x20 [1, 2, 3, 4, 5, 6, 7, 8, 9])
      [0x20, 16, 0xFFFFFFFFFFFFFFFB]
    t.ports[(0 : Fin 15)].res[0] = 2#64 ∧
      (t.source 0).chunks = [⟨0#64, 1⟩, ⟨0xFFFFFFFFFFFFFFFB#64, 2⟩] ∧
      (t.source 0).data.map BitVec.toNat =
        [0, 0, 0, 0, 0, 0, 0, 0, 1, 2, 3, 4, 5, 6, 7, 8, 9, 0, 0, 0, 0, 0, 0, 0] := by
  decide +kernel

/-- L2.1 vectors 2 and 3, and a source that is not open; a head offset counts as time (R100). -/
theorem test_rbBufferStart :
    report (.rbBufferStart 0) ring1 [] = (.ok, [0, 0, 0, 0]) ∧
      report (.rbBufferStart 0) (ring [] 0) [] = (.ok, [inv, 0, 0, 0]) ∧
      report (.rbBufferStart 0) pair [] = (.ok, [10, 0, 0, 0]) ∧
      codes [(.rbBufferStart 16, ring1, []), (.rbBufferStart 1, ring1, [])] =
        [.badSource, .badSource] := by
  decide +kernel

/-- L2.1 vectors 12 to 15, an empty ring, a time of which INVALID is not, and a source that is not open. -/
theorem test_rbAvailable :
    report (.rbAvailable 0) ring1 [inv] = (.ok, [1536, 0, 0, 0]) ∧
      report (.rbAvailable 0) ring1 [8000] = (.ok, [1152, 0, 0, 0]) ∧
      report (.rbAvailable 0) ring1 [40000] = (.ok, [0, 0, 0, 0]) ∧
      report (.rbAvailable 0) (ring [⟨5000#64, 1536⟩] 0) [0] = (.ok, [1776, 0, 0, 0]) ∧
      report (.rbAvailable 0) (ring [] 0) [0] = (.ok, [0, 0, 0, 0]) ∧
      report (.rbAvailable 0) ring1 [inv + 1] = (.ok, [0xFFFFFFFF, 0, 0, 0]) ∧
      codes [(.rbAvailable 16, ring1, [0]), (.rbAvailable 1, ring1, [0])] = [.badSource, .badSource] := by
  decide +kernel

/-- R106's checks, in order; L2.1 vectors 22, 21, 19 and 20 among them. -/
theorem test_rbRead_checks :
    codes
      [(.rbRead 16, ring1, [0, 0, 0, 0, 0, 1]), (.rbRead 0, ring1, [0, 0x100000000, 0, 0, 0, 1]),
        (.rbRead 0, ring1, [0x8000, 4, inv, 0, 0, 1]), (.rbRead 0, ring1, [0x8000, 4, 0, 0, 0, 9]),
        (.rbRead 0, ring1, [0x8000, 4, 0, 0, 0, 0]), (.rbRead 0, ring1, [0x8000, 4, 0, 2, 0, 1]),
        (.rbRead 0, ring1, [0x8000, 4, 0, 0, 8, 4]), (.rbRead 0, ring1, [0xFFFFF9, 1, 0, 0, 0, 1]),
        (.rbRead 0, ring [] 0, [0xFFFFF8, 1, 0, 1, 1, 1])] =
      [.badSource, .badArg, .badArg, .badArg, .badArg, .badArg, .badArg, .dmemFault, .ok] := by
  decide +kernel

/-- Channel 1 of source 1 from time 9, four frames into slot 1 of a two-slot block: nothing for time 9, then
the three frames held; the other slot keeps its bytes. -/
theorem test_rbRead_writes_the_slot :
    report (.rbRead 1) pair [0x40, 4, 9, 1, 1, 1] = (.ok, [3, 0, 0, 0]) ∧
      bytesAt (after (.rbRead 1) (withBytes pair 0x40 [1, 1, 1, 1, 1, 1, 1, 1, 1]) [0x40, 4, 9, 1, 1, 1])
        0x40 9 = [1, 1, 1, 31, 1, 32, 1, 33, 1] := by
  decide +kernel

/-- L2.1 vectors 25 and 26: 384 tagged frames go, and the tag with them. -/
theorem test_rbFlushConsumed :
    let s := ring [⟨0#64, 1536⟩] 384
    report (.rbFlushConsumed 0) s [] = (.ok, [384, 0, 0, 0]) ∧
      ((after (.rbFlushConsumed 0) s []).source 0).total = 1152 ∧
      ((after (.rbFlushConsumed 0) s []).source 0).bufferStart Params.reference = 8000 ∧
      ((after (.rbFlushConsumed 0) s []).source 0).tagged = 0 ∧
      report (.rbFlushConsumed 0) ring1 [] = (.ok, [0, 0, 0, 0]) ∧
      codes [(.rbFlushConsumed 16, s, []), (.rbFlushConsumed 1, s, [])] = [.badSource, .badSource] := by
  decide +kernel

/-- A flush across a chunk's end keeps the next chunk and its bytes (R102). -/
theorem test_rbFlushConsumed_crosses_a_chunk :
    let s := { pair with sources := pair.sources.set 1 { pair.sources[(1 : Fin 16)] with tagged := 2 } }
    ((after (.rbFlushConsumed 1) s []).source 1) =
      ⟨true, 2, false, [2, 3], [⟨11#64, 2⟩], 1, [23#8, 33#8], 0⟩ := by
  decide +kernel

/-- L2.1 vectors 23, 27, 29 and 30. -/
theorem test_rbTagVirtualConsumed :
    report (.rbTagVirtualConsumed 0) ring1 [0, 384] = (.ok, [384, 0, 0, 0]) ∧
      report (.rbTagVirtualConsumed 0) ring1 [8000, 384] = (.ok, [768, 0, 0, 0]) ∧
      report (.rbTagVirtualConsumed 0) (ring [⟨5000#64, 1536⟩] 0) [0, 200] = (.ok, [0, 0, 0, 0]) ∧
      report (.rbTagVirtualConsumed 0) (ring [⟨0#64, 1536⟩] 384) [0, 2000] = (.ok, [1152, 0, 0, 0]) ∧
      ((after (.rbTagVirtualConsumed 0) (ring [⟨0#64, 1536⟩] 384) [0, 2000]).source 0).tagged = 1536 := by
  decide +kernel

theorem test_rbTagVirtualConsumed_checks :
    codes
      [(.rbTagVirtualConsumed 16, ring1, [0, 1]), (.rbTagVirtualConsumed 1, ring1, [0, 1]),
        (.rbTagVirtualConsumed 0, ring1, [inv, 1]),
        (.rbTagVirtualConsumed 0, ring1, [0, 0x100000000]), (.rbTagVirtualConsumed 0, ring [] 0, [0, 1])] =
      [.badSource, .badSource, .badArg, .badArg, .ok] := by
  decide +kernel

/-- L2.1 vectors 31, 32, 33 and 34. -/
theorem test_rbForwardTo :
    report (.rbForwardTo 0) ring1 [8000] = (.ok, [384, 0, 0, 0]) ∧
      report (.rbForwardTo 0) ring1 [0] = (.ok, [0, 0, 0, 0]) ∧
      report (.rbForwardTo 0) ring1 [1000000000] = (.ok, [1536, 0, 0, 0]) ∧
      ((after (.rbForwardTo 0) ring1 [1000000000]).source 0).chunks = [] ∧
      report (.rbForwardTo 0) (ring [⟨0#64, 1536⟩] 384) [4000] = (.ok, [192, 0, 0, 0]) ∧
      ((after (.rbForwardTo 0) (ring [⟨0#64, 1536⟩] 384) [4000]).source 0).tagged = 192 := by
  decide +kernel

theorem test_rbForwardTo_checks :
    codes
      [(.rbForwardTo 16, ring1, [0]), (.rbForwardTo 1, ring1, [0]), (.rbForwardTo 0, ring1, [inv]),
        (.rbForwardTo 0, ring [] 0, [0])] =
      [.badSource, .badSource, .badArg, .ok] := by
  decide +kernel

/-- L2.1 vectors 24 and 38, and L2.5 vector 7. -/
theorem test_rbInfo :
    report (.rbInfo 0) (ring [⟨0#64, 1536⟩] 384) [] = (.ok, [1536, 384, 1, 0x02010201]) ∧
      report (.rbInfo 5) ring1 [] = (.ok, [0, 0, 0, 0]) ∧
      report (.rbInfo 31) ring1 [] = (.badSource, [0, 0, 0, 0]) := by
  decide +kernel

/-! ### Multiplexer -/

/-- L2.2 vectors 1 and 6; the channel count and the mode are set and `head` becomes INVALID (R140). -/
theorem test_mxSetAudioConfig :
    codes [(.mxSetAudioConfig false, ring1, [16]), (.mxSetAudioConfig false, State.reset, [6])] =
        [.badState, .badArg] ∧
      (let t := after (.mxSetAudioConfig true) { State.reset with head := 5#64 } [16];
        t.audioCh = 16 ∧ t.declaredOnly = true ∧ t.head = invalidBits) := by
  decide +kernel

/-- R145's checks with X, in order; L2.2 vectors 2, 10, 13, 12, 4 and 3 among them. -/
theorem test_mxAddMapping_explicit_checks :
    codes
      [(.mxAddMapping 16 true false true, mux8, [1, 4, 1]),
        (.mxAddMapping 0 true false true, State.reset, [1, 4, 1]),
        (.mxAddMapping 1 true false true, mux8, [0, 4, 1]),
        (.mxAddMapping 1 true false true, mux8, [17, 4, 1]),
        (.mxAddMapping 0 true true false, mux8, [2, 0x10, 2]),
        (.mxAddMapping 1 true false true, mux8, [1, 0, 0]),
        (.mxAddMapping 1 true false true, mux8, [1, 0x54, 2]),
        (.mxAddMapping 1 true false true, mux8, [2, 0x154, 2]),
        (.mxAddMapping 0 true false false, mux8, [2, 8, 1]),
        (.mxAddMapping 0 true false false, mux8, [2, 0x11, 2]),
        (.mxAddMapping 0 true false true, ring1, [2, 0x54, 2]),
        (.mxAddMapping 2 true false true, ring1, [1, 1, 1]),
        (.mxAddMapping 1 true false true, { State.reset with audioCh := 16 },
          [16, 0xFEDCBA9876543210, 16])] =
      [.badSource, .badState, .badArg, .badArg, .badArg, .badArg, .badArg, .badArg, .badArg, .badArg,
        .rejected, .rejected, .ok] := by
  decide +kernel

/-- R145's checks without X, in order; L2.2 vectors 11, 4, 9 and 8 among them; and L2.2 vector 7's second
mapping, on the lowest free slot-pairs. -/
theorem test_mxAddMapping_by_count :
    codes
      [(.mxAddMapping 1 false false true, mux8, [2, 1, 0]),
        (.mxAddMapping 1 false false true, mux8, [2, 0, 1]),
        (.mxAddMapping 0 false true false, mux8, [3]), (.mxAddMapping 0 false false true, ring1, [2]),
        (.mxAddMapping 0 false false true, { mux8 with declaredOnly := true }, [2]),
        (.mxAddMapping 1 false false true, { ring1 with audioCh := 2 }, [1]),
        (.mxAddMapping 1 false true true, { ring1 with audioCh := 2 }, [2]),
        (.mxAddMapping 1 false false true, ring1, [6])] =
      [.badArg, .badArg, .badArg, .rejected, .rejected, .noResource, .noResource, .ok] ∧
    (let t := after (.mxAddMapping 1 false true false) { ring1 with audioCh := 16 } [4];
      t.ports[(0 : Fin 15)].res[0] = 0x3C#64 ∧
        t.source 1 = ⟨true, 4, false, [2, 3, 4, 5], [], 0, [], 0⟩ ∧
        t.ownerAt 5 = some ⟨1, 3⟩ ∧ t.ownerAt 1 = some ⟨0, 1⟩ ∧ t.ownerAt 6 = none) := by
  decide +kernel

/-- L2.2 vectors 20 (with the slots of `pair`) and 21. -/
theorem test_mxRemoveMapping :
    report (.mxRemoveMapping 1) pair [] = (.ok, [0xC, 0, 0, 0]) ∧
      (let t := after (.mxRemoveMapping 1) pair [];
        (t.source 1).isOpen = false ∧ t.ownerAt 2 = none ∧ t.ownerAt 1 = some ⟨0, 0⟩) ∧
      codes [(.mxRemoveMapping 1, State.reset, []), (.mxRemoveMapping 16, pair, [])] =
        [.badSource, .badSource] := by
  decide +kernel

/-- L2.2 vectors 16 and 17, and audio disabled; the least of two starts. -/
theorem test_mxBufferStart :
    report .mxBufferStart ring1 [] = (.ok, [0, 0, 0, 0]) ∧
      report .mxBufferStart (ring [] 0) [] = (.ok, [inv, 0, 0, 0]) ∧
      report .mxBufferStart pair [] = (.ok, [10, 0, 0, 0]) ∧
      report .mxBufferStart State.reset [] = (.badState, [0, 0, 0, 0]) := by
  decide +kernel

/-- L2.2 vectors 15 (source 0 alone) and 17, and audio disabled. -/
theorem test_mxAvailableVirtual :
    report .mxAvailableVirtual ring1 [8000] = (.ok, [1152, 0, 0, 0]) ∧
      report .mxAvailableVirtual (ring [] 0) [0] = (.ok, [0, 0, 0, 0]) ∧
      report .mxAvailableVirtual pair [12] = (.ok, [1, 0, 0, 0]) ∧
      report .mxAvailableVirtual State.reset [0] = (.badState, [0, 0, 0, 0]) := by
  decide +kernel

/-- R155 by hand: source 1's chunks end one frame and three frames after time 10, and a cut before its first
frame is legal too. -/
theorem test_mxAlignedInterleave :
    report .mxAlignedInterleave pair [10, 2] = (.ok, [1, 0, 0, 0]) ∧
      report .mxAlignedInterleave pair [10, 5] = (.ok, [3, 0, 0, 0]) ∧
      report .mxAlignedInterleave pair [8, 2] = (.ok, [2, 0, 0, 0]) ∧
      report .mxAlignedInterleave pair [10, 0] = (.ok, [0, 0, 0, 0]) := by
  decide +kernel

/-- L2.2 vectors 27 and 29, and the other checks of R155. -/
theorem test_mxAlignedInterleave_checks :
    codes
      [(.mxAlignedInterleave, State.reset, [0, 1]), (.mxAlignedInterleave, pair, [inv, 100]),
        (.mxAlignedInterleave, pair, [0, 0x100000000])] = [.badState, .badArg, .badArg] ∧
      report .mxAlignedInterleave ring1 [0, 777] = (.ok, [777, 0, 0, 0]) := by
  decide +kernel

/-- R160's checks, in order; L2.2 vectors 18, 19 and 17 among them; a start that regresses forwards source 0
to its last frame and then lacks frames, as in vector 32. -/
theorem test_mxExtract_checks :
    codes
      [(.mxExtract, State.reset, [1, 0]), (.mxExtract, ring1, [0, 0x40000]),
        (.mxExtract, ring1, [0x100000000, 0x40000]), (.mxExtract, ring1, [384, 0xFFE000]),
        (.mxExtract, ring [] 0, [384, 0x40000]),
        (.mxExtract, ring [⟨0x7FFFFFFFFFFFFFC7#64, 2⟩] 0, [3, 0]), (.mxExtract, pair, [4, 0]),
        (.mxExtract, pairLate, [2, 0])] =
      [.badState, .badArg, .badArg, .dmemFault, .notReady, .badArg, .notReady, .notReady] ∧
    (after .mxExtract pairLate [2, 0]).source 0 =
      ⟨true, 1, true, [1], [⟨9#64, 4⟩], 3, [9#8], 0⟩ := by
  decide +kernel

/-- R160 and R161 by hand: two frames of eight slots from time 10, over bytes that are all 1. Source 0 is on
slot 1, source 1 on slots 2 and 3; both lose two frames, and `head` is 12. -/
theorem test_mxExtract_block :
    report .mxExtract pair [2, 0x40] = (.ok, [10, 2, 16, 0]) ∧
      (let t := after .mxExtract (withBytes pair 0x40 (List.replicate 17 1)) [2, 0x40];
        bytesAt t 0x40 17 = [0, 7, 21, 31, 0, 0, 0, 0, 0, 8, 22, 32, 0, 0, 0, 0, 1] ∧
          t.head = 12#64 ∧ (t.source 0).data = [9#8] ∧ (t.source 0).total = 1 ∧
          (t.source 1).data = [23#8, 33#8] ∧ (t.source 1).tagged = 0) := by
  decide +kernel

/-- L2.2 vector 5, with the slots of `pair`. -/
theorem test_mxSlotMap :
    report .mxSlotMap pair [] = (.ok, [0xE, 0x1100, 0x1000, 8]) ∧
      report .mxSlotMap { State.reset with audioCh := 16, declaredOnly := true } [] =
        (.ok, [0, 0, 0, 0x110]) := by
  decide +kernel

/-! ### Ancillary packets -/

/-- L2.3 vectors 5 and 6, and R185's ranges at the end of the data memory. -/
theorem test_ancData10_checks :
    codes
      [(.ancData10 false, State.reset, [0x100, 0, 0, 0, 0]), (.ancData10 false, State.reset, [0, 0x100]),
        (.ancData10 false, State.reset, [0x12, 0x34, 0, 256, 0]),
        (.ancData10 false, State.reset, [0, 0, 0xFFFFFF, 2, 0]),
        (.ancData10 false, State.reset, [0, 0, 0, 0, 0xFFFFF3]),
        (.ancData10 false, State.reset, [0, 0, 0xFFFFFF, 1, 0xFFFFF0])] =
      [.badArg, .badArg, .badArg, .dmemFault, .dmemFault, .ok] := by
  decide +kernel

/-- L2.3 vector 3. -/
theorem test_ancData10_padded :
    report (.ancData10 true) (withBytes State.reset 0x10 [1, 2, 3]) [0x50, 1, 0x10, 3, 0x40] =
        (.ok, [12, 10, 0x15A, 0]) ∧
      wordsAt (after (.ancData10 true) (withBytes State.reset 0x10 [1, 2, 3]) [0x50, 1, 0x10, 3, 0x40])
          0x40 13 =
        [0x000, 0x3FF, 0x3FF, 0x250, 0x101, 0x203, 0x101, 0x102, 0x203, 0x15A, 0x040, 0x040, 0] := by
  decide +kernel

/-- L2.3 vectors 18 and 19, and R187's checks. -/
theorem test_ancPad :
    report .ancPad State.reset [0x40, 50] = (.ok, [54, 4, 0, 0]) ∧
      wordsAt (after .ancPad State.reset [0x40, 50]) 0xA2 6 = [0, 0x040, 0x040, 0x040, 0x040, 0] ∧
      report .ancPad State.reset [0x40, 48] = (.ok, [48, 0, 0, 0]) ∧
      codes [(.ancPad, State.reset, [0, 0x100000000]), (.ancPad, State.reset, [0xFFFFFB, 2])] =
        [.badArg, .dmemFault] := by
  decide +kernel

/-- L2.3 vector 13, and R189's other checks. -/
theorem test_ancAfd_checks :
    codes
      [(.ancAfd false, State.reset, [16, 0, 0]), (.ancAfd false, State.reset, [0, 2, 0]),
        (.ancAfd false, State.reset, [8, 0, 0xFFFFE3]), (.ancAfd false, State.reset, [8, 0, 0xFFFFE2]),
        (.ancAfd true, State.reset, [8, 0, 0xFFFFE2])] =
      [.badArg, .badArg, .dmemFault, .ok, .dmemFault] := by
  decide +kernel

/-- L2.3 vector 12. -/
theorem test_ancAfd_padded :
    report (.ancAfd true) State.reset [8, 1, 0x40] = (.ok, [18, 15, 0x192, 0]) ∧
      wordsAt (after (.ancAfd true) State.reset [8, 1, 0x40]) 0x40 19 =
        [0x000, 0x3FF, 0x3FF, 0x241, 0x205, 0x108, 0x244, 0x200, 0x200, 0x200, 0x200, 0x200, 0x200,
          0x200, 0x192, 0x040, 0x040, 0x040, 0] := by
  decide +kernel

/-- L2.3 vector 17, and R194's other checks. -/
theorem test_ancCaptions_checks :
    codes
      [(.ancCaptions false, State.reset, [0x100000000, 1]),
        (.ancCaptions false, State.reset, [30, 0x100000000]),
        (.ancCaptions false, State.reset, [30, 1, 0, 32, 0]),
        (.ancCaptions false, State.reset, [30, 1, 0xFFFFFE, 1, 0]),
        (.ancCaptions false, State.reset, [30, 1, 0, 0, 0xFFFFD9]),
        (.ancCaptions false, State.reset, [30, 1, 0, 0, 0xFFFFD8])] =
      [.badArg, .badArg, .badArg, .dmemFault, .dmemFault, .ok] := by
  decide +kernel

/-- L2.3 vector 14. -/
theorem test_ancCaptions_packet :
    let s := { withBytes State.reset 0x10 [0xFC, 0x94, 0x20] with cdpCounter := 0x1234#16 }
    report (.ancCaptions false) s [30000, 1001, 0x10, 1, 0x40] = (.ok, [23, 0x1234, 4, 16]) ∧
      (after (.ancCaptions false) s [30000, 1001, 0x10, 1, 0x40]).cdpCounter = 0x1235#16 ∧
      wordsAt (after (.ancCaptions false) s [30000, 1001, 0x10, 1, 0x40]) 0x40 24 =
        [0x000, 0x3FF, 0x3FF, 0x161, 0x101, 0x110, 0x296, 0x269, 0x110, 0x14F, 0x143, 0x212, 0x134,
          0x272, 0x2E1, 0x2FC, 0x194, 0x120, 0x274, 0x212, 0x134, 0x25C, 0x272, 0] := by
  decide +kernel

/-- The packet of L2.3 vector 2. -/
def packet : List Nat := [0x000, 0x3FF, 0x3FF, 0x250, 0x101, 0x203, 0x101, 0x102, 0x203, 0x15A]

/-- The CDP of L2.3 vector 14. -/
def cdp14 : List Nat :=
  [0x96, 0x69, 0x10, 0x4F, 0x43, 0x12, 0x34, 0x72, 0xE1, 0xFC, 0x94, 0x20, 0x74, 0x12, 0x34, 0x5C]

/-- L2.3 vectors 22 to 27, and R197's other checks. -/
theorem test_ancParse_checks :
    codes
      ([(packet, 10, 0x10000), (packet.set 6 0x001, 10, 0), (packet.set 9 0x15B, 10, 0),
        (packet.set 1 0x3FE, 10, 0), (packet, 9, 0), (packet.set 3 0x650, 10, 0), (packet, 6, 0),
        (packet, 10, 0xFFFFFE), (packet, 10, 0xFFFFFD)].map fun c =>
          (.ancParse, withWords State.reset 0x40 c.1, [0x40, c.2.1, c.2.2])) =
      [.ok, .malformed, .malformed, .malformed, .malformed, .malformed, .malformed, .dmemFault, .ok] ∧
    codes [(.ancParse, State.reset, [0, 0x100000000, 0]), (.ancParse, State.reset, [0xFFFFFF, 1, 0])] =
      [.badArg, .dmemFault] := by
  decide +kernel

/-- L2.3 vector 20. -/
theorem test_ancParse_payload :
    report .ancParse (withWords State.reset 0x40 packet) [0x40, 10, 0x80] = (.ok, [0x50, 1, 3, 10]) ∧
      bytesAt (after .ancParse (withWords State.reset 0x40 packet) [0x40, 10, 0x80]) 0x80 4 =
        [1, 2, 3, 0] := by
  decide +kernel

/-- L2.3 vectors 29 to 33, and R199's other checks. -/
theorem test_cdpParse_checks :
    codes
      ([(cdp14, 15, 0), (cdp14.set 13 0x35, 16, 0), (cdp14.set 15 0x5D, 16, 0), (cdp14.set 3 0x9F, 16, 0),
        ((cdp14.set 4 0x00).set 15 0x9F, 16, 0), (cdp14, 12, 0), (cdp14.set 0 0x97, 16, 0),
        (cdp14.set 3 0x4E, 16, 0), (cdp14.set 7 0x73, 16, 0), (cdp14.set 8 0xE2, 16, 0),
        (cdp14.set 12 0x75, 16, 0), (cdp14, 16, 0xFFFFFE), (cdp14, 16, 0xFFFFFD)].map fun c =>
          (.cdpParse, withBytes State.reset 0x40 c.1, [0x40, c.2.1, c.2.2])) =
      [.malformed, .malformed, .malformed, .malformed, .ok, .malformed, .malformed, .malformed,
        .malformed, .malformed, .malformed, .dmemFault, .ok] ∧
    codes [(.cdpParse, State.reset, [0, 0x100000000, 0]), (.cdpParse, State.reset, [0xFFFFFF, 2, 0])] =
      [.badArg, .dmemFault] := by
  decide +kernel

/-- L2.3 vector 28. -/
theorem test_cdpParse_triplets :
    report .cdpParse (withBytes State.reset 0x40 cdp14) [0x40, 16, 0x80] = (.ok, [1, 0x1234, 4, 0]) ∧
      bytesAt (after .cdpParse (withBytes State.reset 0x40 cdp14) [0x40, 16, 0x80]) 0x80 4 =
        [0xFC, 0x94, 0x20, 0] := by
  decide +kernel

/-! ### Pixel codec -/

/-- L2.4 vectors 3 and 4, and R222's other checks. -/
theorem test_pxPackWords_checks :
    codes
      [(.pxPackWords false, State.reset, [0, 0x100000002, 0]), (.pxPackWords false, State.reset, [0, 7, 0]),
        (.pxPackWords false, State.reset, [0xFFFFF5, 6, 0]),
        (.pxPackWords false, State.reset, [0, 6, 0xFFFFF1]), (.pxPackWords false, State.reset, [0, 0, 0]),
        (.pxPackWords false, State.reset, [0xFFFFF4, 6, 0xFFFFF0])] =
      [.badArg, .badArg, .dmemFault, .dmemFault, .ok, .ok] := by
  decide +kernel

/-- L2.4 vectors 1 and 2, as half-words. -/
theorem test_pxPackWords :
    let s := withWords State.reset 0x40 [0x000, 0x3FF, 0x3FF, 0x241, 0x205, 0x108]
    wordsAt (after (.pxPackWords false) s [0x40, 6, 0x80]) 0x80 9 =
        [0x0000, 0x0000, 0x03FF, 0x3FF0, 0x0400, 0x0009, 0x0205, 0x1080, 0] ∧
      wordsAt (after (.pxPackWords true) s [0x40, 6, 0x80]) 0x80 9 =
        [0x1000, 0x0000, 0x03FB, 0x3FB0, 0x0400, 0x0009, 0x0205, 0x1080, 0] := by
  decide +kernel

theorem test_pxUnpackWords_checks :
    codes
      [(.pxUnpackWords, State.reset, [0, 0x100000002, 0]), (.pxUnpackWords, State.reset, [0, 7, 0]),
        (.pxUnpackWords, State.reset, [0xFFFFF1, 6, 0]), (.pxUnpackWords, State.reset, [0, 6, 0xFFFFF5]),
        (.pxUnpackWords, State.reset, [0xFFFFF0, 6, 0xFFFFF4])] =
      [.badArg, .badArg, .dmemFault, .dmemFault, .ok] := by
  decide +kernel

/-- L2.4 vector 9. -/
theorem test_pxUnpackWords :
    let s := withWords State.reset 0x40
      [0x1000, 0x0000, 0x03FB, 0x3FB0, 0x0400, 0x0009, 0x0205, 0x1080]
    wordsAt (after .pxUnpackWords s [0x40, 6, 0x80]) 0x80 7 =
      [0x004, 0x3FB, 0x3FB, 0x241, 0x205, 0x108, 0] := by
  decide +kernel

/-- ARG7 of a picture (R87). -/
def size (w h : Nat) : Nat := w + 2 ^ 32 * h

/-- L2.4 vectors 12 and 14, and R224's other checks. -/
theorem test_pxPackPlane_checks :
    codes
      ([[0, 0, 0, 0, 12, 6, 16, size 0 1], [0, 0, 0, 0, 12, 6, 16, size 5 1],
        [0, 0, 0, 0, 12, 6, 16, size 6 0], [0, 0, 0, 0, 0x100000000, 6, 16, size 6 1],
        [0, 0, 0, 0, 12, 0x100000000, 16, size 6 1], [0, 0, 0, 0, 12, 6, 0x100000000, size 6 1],
        [0, 0, 0, 0, 11, 6, 16, size 6 1], [0, 0, 0, 0, 12, 5, 16, size 6 1],
        [0, 0, 0, 0, 12, 6, 15, size 6 1], [0xFFFFF5, 0, 0, 0, 12, 6, 16, size 6 1],
        [0, 0xFFFFFB, 0, 0, 12, 6, 16, size 6 1], [0, 0, 0xFFFFFB, 0, 12, 6, 16, size 6 1],
        [0, 0, 0, 0xFFFFF1, 12, 6, 16, size 6 1],
        [0xFFFFF4, 0xFFFFFA, 0xFFFFFA, 0xFFFFF0, 12, 6, 16, size 6 1]].map fun l =>
          (.pxPackPlane, State.reset, l)) =
      [.badArg, .badArg, .badArg, .badArg, .badArg, .badArg, .badArg, .badArg, .badArg, .dmemFault,
        .dmemFault, .dmemFault, .dmemFault, .ok] := by
  decide +kernel

/-- L2.4 vector 7, as half-words, with a second row at a distance of 20 that reads as zeros and is clipped;
the row's padding keeps its bytes (vector 13). -/
theorem test_pxPackPlane :
    let s := withWords (withWords (withWords State.reset 0x40 [0x000, 0x001, 0x3FF, 0x200]) 0x60
      [0x200, 0x3FF]) 0x70 [0x100, 0x002]
    report .pxPackPlane s [0x40, 0x60, 0x70, 0x80, 8, 4, 20, size 4 2] = (.ok, [16, 2, 0, 0]) ∧
      wordsAt (after .pxPackPlane s [0x40, 0x60, 0x70, 0x80, 8, 4, 20, size 4 2]) 0x80 14 =
        [0x1200, 0x1000, 0xEC04, 0x3FBF, 0x0004, 0x0008, 0x0000, 0x0000, 0, 0,
          0x1004, 0x0040, 0x1004, 0x0040] := by
  decide +kernel

theorem test_pxUnpackPlane_checks :
    codes
      ([[0, 0, 0, 0, 16, 12, 6, size 0 1], [0, 0, 0, 0, 16, 12, 6, size 5 1],
        [0, 0, 0, 0, 16, 12, 6, size 6 0], [0, 0, 0, 0, 16, 0x100000000, 6, size 6 1],
        [0, 0, 0, 0, 16, 12, 0x100000000, size 6 1], [0, 0, 0, 0, 0x100000000, 12, 6, size 6 1],
        [0, 0, 0, 0, 16, 11, 6, size 6 1], [0, 0, 0, 0, 16, 12, 5, size 6 1],
        [0, 0, 0, 0, 15, 12, 6, size 6 1], [0xFFFFF1, 0, 0, 0, 16, 12, 6, size 6 1],
        [0, 0xFFFFF5, 0, 0, 16, 12, 6, size 6 1], [0, 0, 0xFFFFFB, 0, 16, 12, 6, size 6 1],
        [0, 0, 0, 0xFFFFFB, 16, 12, 6, size 6 1],
        [0xFFFFF0, 0xFFFFF4, 0xFFFFFA, 0xFFFFFA, 16, 12, 6, size 6 1]].map fun l =>
          (.pxUnpackPlane, State.reset, l)) =
      [.badArg, .badArg, .badArg, .badArg, .badArg, .badArg, .badArg, .badArg, .badArg, .dmemFault,
        .dmemFault, .dmemFault, .dmemFault, .ok] := by
  decide +kernel

/-- L2.4 vector 11: positions past the row's width are not written. -/
theorem test_pxUnpackPlane :
    let s := withWords State.reset 0x80
      [0x1200, 0x1000, 0xEC04, 0x3FBF, 0x0004, 0x0008, 0x0000, 0x0000]
    let t := after .pxUnpackPlane s [0x80, 0x40, 0x60, 0x70, 16, 8, 4, size 4 1]
    wordsAt t 0x40 5 = [0x004, 0x004, 0x3FB, 0x200, 0] ∧ wordsAt t 0x60 3 = [0x200, 0x3FB, 0] ∧
      wordsAt t 0x70 3 = [0x100, 0x004, 0] := by
  decide +kernel

/-! ### States that meet the hypotheses of the obligations -/

/-- `exec` has answered `after`'s state. -/
theorem exec_after {i : Instr} {s : State} {l : List Nat}
    (h : (match exec i (calling s l) with | .next _ => true | _ => false) = true) :
    exec i (calling s l) = .next (after i s l) := by
  unfold after
  split at h
  · rename_i t ht
    rw [ht]
  · simp at h

theorem calling_dmem (s : State) (l : List Nat) : (calling s l).dmem = s.dmem := rfl

/-- A command that `calling` makes pend has met no host's access. -/
theorem unraced_calling (s : State) (l : List Nat) (i : Instr) (h : s.serving = 0) :
    Unraced (calling s l) i := by
  have pending : (calling s l).command = some ⟨0#32, args l, [], []⟩ := by
    simp [State.command, calling, State.setPort, h]
  have writes : (calling s l).hostWrites = [] := by simp [State.hostWrites, pending]
  have untouched : (calling s l).touches = [] := by simp [State.touches, writes, State.hostReads, pending]
  exact ⟨Laws.readByte_of_unraced fun j _ => Laws.violations_of_untouched untouched j, by simp [writes],
    by simp [untouched]⟩

/-- Commands pending at two ports, over the rings of `pair`. -/
def busyPair : State :=
  { pair with
    ports := (pair.ports.set 0 { Port.reset with pending := some ⟨0x00000001#32, args [], [], []⟩ }).set 1
      { Port.reset with pending := some ⟨0x00000026#32, args [2, 0x40], [], []⟩ } }

/-- `pair` with these accesses to make at port 0's host. -/
def hosting (l : List HostAction) : State := pair.setHost 0 ⟨l, 0#32⟩

theorem witness_decodeOfEncode :
    (Instr.rbPush 0).wellFormed = true ∧ (Instr.mxAddMapping 255 true true true).wellFormed = true := by
  decide

theorem witness_encodeOfDecode : decode 0x0007FF21#32 = .ok (.mxAddMapping 255 true true true) := by
  decide

theorem witness_validWords :
    (busyPair.pick (fun _ => 0) = some (.exec 0) ∧
      busyPair.ports[(0 : Fin 15)].pending = some ⟨0x00000001#32, args [], [], []⟩ ∧
      ¬ ValidWord 0x00000001#32) ∧
    (Instr.rbInfo 16).source? = some 16 ∧ State.reset.params.maxSources ≤ 16 := by
  decide +kernel

theorem witness_stepRuns :
    (busyPair.pick (fun _ => 1) = some (.exec 1) ∧
      busyPair.ports[(1 : Fin 15)].pending = some ⟨0x00000026#32, args [2, 0x40], [], []⟩ ∧
      decode 0x00000026#32 = .ok .mxExtract) ∧
    Instr.mxExtract.wellFormed = true ∧ 1 ≤ pair.params.nports := by
  decide +kernel

theorem witness_anyPending :
    (1 : Fin 15).val < busyPair.params.nports ∧ busyPair.ports[(1 : Fin 15)].busy = true ∧
      busyPair.movers.length = 2 := by
  decide +kernel

/-- A schedule that runs through ever longer beginnings of the numbers is fair. -/
theorem witness_isFair : isFair fun n => n - n.sqrt * n.sqrt := by
  intro n x
  refine ⟨(n + x) * (n + x) + x, by nlinarith, ?_⟩
  show (n + x) * (n + x) + x - ((n + x) * (n + x) + x).sqrt * ((n + x) * (n + x) + x).sqrt = x
  rw [Nat.sqrt_add_eq (n + x) (by omega)]
  omega

theorem witness_pendingServed :
    HostsOk (busyPair.setHost 0 ⟨[.wait, .regRead 0xFFC 4, .dmemRead 0xFFFFFF], 0#32⟩) ∧
      (1 : Fin 15).val < busyPair.params.nports ∧ busyPair.ports[(1 : Fin 15)].busy = true := by
  decide +kernel

/-- Both disjuncts: a check that fails, and MX_EXTRACT's NOT_READY after a forward. -/
theorem witness_failureChangesNothing :
    (exec (.rbPush 3) (calling pair []) = .next (after (.rbPush 3) pair []) ∧
      (after (.rbPush 3) pair []).ports[(calling pair []).serving].code ≠ .ok) ∧
    (exec .mxExtract (calling pairLate [2, 0]) = .next (after .mxExtract pairLate [2, 0]) ∧
      (after .mxExtract pairLate [2, 0]).ports[(calling pairLate [2, 0]).serving].code ≠ .ok) :=
  ⟨⟨exec_after (by decide +kernel), by decide +kernel⟩,
    ⟨exec_after (by decide +kernel), by decide +kernel⟩⟩

theorem witness_cmdWrite :
    (1 : Fin 15).val < busyPair.params.nports ∧ busyPair.ports[(1 : Fin 15)].busy = true ∧
      pair.ports[(1 : Fin 15)].busy = false := by
  decide +kernel

/-- The last port of the widest build; the first and last holes of each kind. -/
theorem witness_registerWindow :
    (15 ≤ 15 ∧ (14 : Fin 15).val < 15) ∧
      [0x020, 0x0FC, 0x300, 0x10C, 0x170, 0x1FC].all (fun off => hostReg 2 off == .hole) = true := by
  decide

/-- The last register, read and written; a wait at a port that is idle, and at one that is busy. -/
theorem witness_hostRegisterAccesses :
    (0xFFC % 4 = 0 ∧ 0xFFC < 4096) ∧
      (hosting [.regRead 0xFFC 4]).hosts[(0 : Fin 15)].actions = [.regRead 0xFFC 4] ∧
      (hosting [.regWrite 0xFFC 4 1#32]).hosts[(0 : Fin 15)].actions = [.regWrite 0xFFC 4 1#32] ∧
      (hosting [.wait]).hosts[(0 : Fin 15)].actions = [.wait] ∧
      (hosting [.wait]).ports[(0 : Fin 15)].busy = false ∧
      (busyPair.setHost 0 ⟨[.wait], 0#32⟩).ports[(0 : Fin 15)].busy = true := by
  decide +kernel

theorem witness_registerContents : ChannelsOk pair ∧ pair.params.legal = true := by decide +kernel

theorem witness_reset : (0x00000001#32).getLsbD 0 = true ∧ (0xFFFFFFFE#32).getLsbD 0 = false := by
  decide

/-- `pair` with an RB_PUSH from the two bytes at 0x10 pending at port 0, an MX_EXTRACT to the sixteen bytes at
0x40 pending at port 1, and these accesses to make at port 2's host. -/
def racing (l : List HostAction) : State :=
  { pair with
    ports :=
      (pair.ports.set 0
        { Port.reset with pending := some ⟨0x00000010#32, args [0x10, 2, 13], [], []⟩ }).set 1
        { Port.reset with pending := some ⟨0x00000026#32, args [2, 0x40], [], []⟩ }
    hosts := pair.hosts.set 2 ⟨l, 0#32⟩ }

/-- `s` with a command pending at port `q`. -/
def pending (s : State) (q : Fin 15) (w : Nat) (l : List Nat) : State :=
  s.setPort q { Port.reset with pending := some ⟨BitVec.ofNat 32 w, args l, [], []⟩ }

/-- The state after port 2's host's access; `s` where it stops, which no test expects. -/
def afterHost (s : State) : State :=
  match s.hostMove 2 with
  | .next t => t
  | _ => s

/-- `s` after a write of 5 at `a` by port 2's host. -/
def afterWrite (s : State) (a : Nat) : State := afterHost (s.setHost 2 ⟨[.dmemWrite a 5#8], 0#32⟩)

/-- `s` after a read at `a` by port 2's host. -/
def afterRead (s : State) (a : Nat) : State := afterHost (s.setHost 2 ⟨[.dmemRead a], 0#32⟩)

/-- For each address of `l`, whether the read of it that port 2's host makes next races with port `q`'s
command. -/
def readsRace (s : State) (q : Fin 15) (l : List Nat) : List Bool :=
  l.map fun a => (afterRead s a).readRaces q a

/-- A host writes the last byte of the range that RB_PUSH reads: the first and last bytes of the range race, the
bytes beside it do not. -/
theorem witness_hostMemoryAccesses_write :
    let t := afterHost (racing [.dmemWrite 0x11 5#8])
    let b := (t.serve 0).buffers (.rbPush 0)
    (MemoryOk (racing [.dmemWrite 0x11 5#8]) ∧ 0x11 < tiny.dmemSize ∧
      (racing [.dmemWrite 0x11 5#8]).hosts[(2 : Fin 15)].actions = [.dmemWrite 0x11 5#8] ∧
      (racing []).ports[(2 : Fin 15)].busy = false) ∧
    (t.ports[(0 : Fin 15)].pending = some ⟨0x00000010#32, args [0x10, 2, 13], [0x11], []⟩ ∧
      decode 0x00000010#32 = .ok (.rbPush 0)) ∧
    b.violations [0x11] [] = [0x11] ∧
    [0x0F, 0x10, 0x11, 0x12].map (b.raced [0x11]) = [false, true, true, false] := by
  decide +kernel

/-- A host writes the last byte of MX_EXTRACT's block, and the byte after it: the first races, the second does
not, and what the command then stores stands beside the host's byte. -/
theorem witness_hostMemoryAccesses_stores :
    let s := fun a => (afterHost (racing [.dmemWrite a 5#8])).serve 1
    MemoryOk (s 0x4F) ∧ decode 0x00000026#32 = .ok .mxExtract ∧
      (s 0x4F).command = some ⟨0x00000026#32, args [2, 0x40], [0x4F], []⟩ ∧
      (⟨0x40, 16⟩ : Range) ∈ ((s 0x4F).buffers .mxExtract).writes.map Buffer.range ∧
      [0x3F, 0x40, 0x4F, 0x50].map (fun a => (s a).violations .mxExtract) = [[], [0x40], [0x4F], []] ∧
      bytesAt ((s 0x50).storeRuns .mxExtract [(0x40, [1#8]), (0x4F, [2#8])]) 0x40 17 =
        [1, 0, 0, 0, 0, 0, 0, 0, 0, 0, 0, 0, 0, 0, 0, 2, 5] := by
  decide +kernel

/-- Reads of the bytes that MX_EXTRACT writes race, and of those that RB_PUSH reads once a host has written one
of them; the bytes beside the ranges race with nothing. -/
theorem witness_hostMemoryAccesses_read :
    (racing [.dmemRead 0x4F]).hosts[(2 : Fin 15)].actions = [.dmemRead 0x4F] ∧
      readsRace (racing []) 1 [0x3F, 0x40, 0x4F, 0x50] = [false, true, true, false] ∧
      readsRace (racing []) 0 [0x10, 0x11] = [false, false] ∧
      readsRace (afterWrite (racing []) 0x11) 0 [0x0F, 0x10, 0x11, 0x12] = [false, true, true, false] ∧
      ((List.finRange 15).map fun q => (afterRead (racing []) 0x50).readRaces q 0x50) =
        List.replicate 15 false := by
  decide +kernel

/-- R72 (b): the byte just after an ANC_AFD without padding, 30 bytes long, is the memory's, while the command
is pending; and that after the same command with padding, 36 bytes long, is. -/
theorem test_hostRead_beside_a_pending_buffer :
    let s := fun p : Nat =>
      pending (withBytes State.reset 0x5E [1, 2, 3, 4, 5, 6, 7]) 0 (0x32 + p * 2 ^ 16) [8, 0, 0x40]
    (match ((s 0).setHost 2 ⟨[.dmemRead 0x5E], 0#32⟩).hostStep 2 with
      | .next t => t.hosts[(2 : Fin 15)].lastRead
      | _ => 0#32) = 1#32 ∧
    readsRace (s 0) 0 [0x3F, 0x40, 0x5D, 0x5E] = [false, true, true, false] ∧
      readsRace (s 1) 0 [0x5E, 0x63, 0x64] = [true, true, false] := by
  decide +kernel

/-- R106, R301: of the block at 0x40 that RB_READ fills from time 9, frame 0 and slot 0 of every frame are no
bytes it writes. A host that writes 0x41, in frame 0, and 0x44, in slot 0, does not race, and reads both
back; one that writes 0x43 races, and then every byte of the range is a draw. -/
theorem test_rbRead_leaves_its_gaps_to_hosts :
    let s := fun a : Nat => afterWrite (pending pair 0 0x113 [0x40, 4, 9, 1, 1, 1]) a
    let ends := fun a : Nat =>
      match (s a).execStep 0 with
      | .next t => bytesAt t 0x40 8
      | _ => []
    readsRace (s 0x41) 0 [0x40, 0x41, 0x42, 0x43, 0x44, 0x47, 0x48] =
        [false, false, false, true, false, true, false] ∧
      readsRace (s 0x43) 0 [0x3F, 0x40, 0x41, 0x47, 0x48] = [false, true, true, true, false] ∧
      ends 0x41 = [0, 5, 0, 31, 0, 32, 0, 33] ∧ ends 0x44 = [0, 0, 0, 31, 5, 32, 0, 33] := by
  decide +kernel

/-- R71, R73: RB_READ of eight frames from time 9 writes frames 1 to 3 of its block; where an RB_PUSH of the
frame at time 13 pends beside it, or a host may yet issue one, frame 4 too, and no other. -/
theorem test_hostRead_beside_a_push :
    let s := pending pair 0 0x113 [0x40, 8, 9, 1, 1, 1]
    let frames := [0x41, 0x43, 0x47, 0x49, 0x4B, 0x4F]
    let issues := (s.setPort 1 { Port.reset with args := args [0x10, 2, 13] }).setHost 1
      ⟨[.regWrite 0x200 4 0x110#32], 0#32⟩
    readsRace s 0 frames = [false, true, true, false, false, false] ∧
      readsRace (pending s 1 0x110 [0x10, 2, 13]) 0 frames = [false, true, true, true, false, false] ∧
      readsRace issues 0 frames = [false, true, true, true, false, false] := by
  decide +kernel

/-- R71, R73: MX_EXTRACT of four frames writes nothing while `pair` holds three; nor where a push to one of the
two sources pends beside it; where pushes to both do, it may write its 32 bytes. -/
theorem test_hostRead_where_an_extract_may_succeed :
    let s := pending { pair with params := { tiny with nports := 3 } } 0 0x26 [4, 0x40]
    let one := pending s 1 0x010 [0x10, 1, 13]
    readsRace s 0 [0x40, 0x5F] = [false, false] ∧ readsRace one 0 [0x40, 0x5F] = [false, false] ∧
      readsRace (pending one 2 0x110 [0x10, 2, 13]) 0 [0x3F, 0x40, 0x5F, 0x60] =
        [false, true, true, false] := by
  decide +kernel

/-- R71, R73, R197: ANC_PARSE of eight words writes nothing while they hold no packet; where an ANC_DATA10
pends beside it that builds one of a single byte there, it may write one byte. -/
theorem test_hostRead_where_a_packet_may_come :
    let s := pending State.reset 0 0x34 [0x40, 8, 0x80]
    readsRace s 0 [0x80] = [false] ∧
      readsRace (pending s 1 0x30 [0x50, 1, 0x20, 1, 0x40]) 0 [0x7F, 0x80, 0x81] =
        [false, true, false] := by
  decide +kernel

/-- R73: the picture has two rows of two pixels, and its `Cb` rows, 0x48 and 0x58, lie in the padding of the
luma range, which is 0x40 to 0x53. A host that writes the first `Cb` byte races on both ranges, and its
reads of every byte of them are draws; those of the `Cr` range beside its bytes are not. -/
theorem test_planes_in_each_others_padding :
    let s := afterWrite (pending State.reset 0 0x42 [0x90, 0x40, 0x48, 0x70, 16, 16, 16, 2 + 2 ^ 32 * 2]) 0x48
    ((s.serve 0).racedOutputs .pxUnpackPlane).dedup = [⟨0x40, 20⟩, ⟨0x48, 18⟩] ∧
      readsRace s 0 [0x3F, 0x40, 0x44, 0x53, 0x59, 0x5A, 0x72] =
        [false, true, true, true, true, false, false] := by
  decide +kernel

/-- The words of a packet the block builds from three bytes, at address 0x40. -/
def builtPacket : State :=
  { State.reset with
    dmem := Memory.writeBytes [] 0x40
      ((build 0x50#8 0x01#8 [1#8, 2#8, 3#8]).flatMap fun w => le16 (w.setWidth 16)) }

/-- R73, in place: ANC_PARSE of the packet at 0x40 writes its payload over the packet. Where a host reads 0x41,
a byte the command reads and writes, every word it reads is of draws; where one writes 0x3F, which it only
writes, the bytes it reads of the output range are. -/
theorem test_parse_in_place :
    let inPlace := (afterRead (pending builtPacket 0 0x34 [0x40, 10, 0x40]) 0x41).serve 0
    let beside := (afterWrite (pending builtPacket 0 0x34 [0x40, 10, 0x3F]) 0x3F).serve 0
    let raced := fun s : State => (s.buffers .ancParse).raced (s.violations .ancParse)
    [0x40, 0x41, 0x50, 0x53].all (raced inPlace) = true ∧
      [0x3F, 0x40, 0x41].all (raced beside) = true ∧
      [0x40, 0x53].any (raced ((afterRead (pending builtPacket 0 0x34 [0x40, 10, 0x80]) 0x41).serve 0)) =
        false := by
  decide +kernel

/-- The accesses that stop a step: past the window, not aligned, not 32 bits wide, past the data memory; and
the last of each kind that does not. -/
theorem witness_badHostAccesses :
    [HostAction.regRead 0x1000 4, .regWrite 0x102 4 0#32, .regRead 0x100 2, .dmemRead 0x1000000,
      .dmemWrite 0x1000000 0#8].all (fun x =>
        (hosting [x]).pick (fun _ => 0) == some (.host 0) && !actionOk pair.params x) = true ∧
    [HostAction.regRead 0xFFC 4, .regWrite 0xFFC 4 0#32, .dmemRead 0xFFFFFF, .dmemWrite 0xFFFFFF 0#8,
      .wait].all (fun x =>
        (hosting [x]).pick (fun _ => 0) == some (.host 0) && actionOk pair.params x) = true ∧
    (busyPair.pick (fun _ => 1) = some (.exec 1) ∧ State.reset.pick (fun _ => 0) = none) ∧
    HostsOk (hosting [.regRead 0xFFC 4, .dmemWrite 0xFFFFFF 0#8]) := by
  decide +kernel

theorem witness_beforeConfiguration :
    State.reset.audioCh = 0 ∧ (∀ i : Nat, (State.reset.source i).isOpen = false) ∧
      15 < State.reset.params.maxSources ∧ (calling State.reset [16]).arg 0 ∈ [0, 2, 8, 16] := by
  refine ⟨rfl, fun i => ?_, by decide, by decide +kernel⟩
  by_cases h : i < 16
  · simp [State.source, State.reset, Source.closed, h]
  · simp [State.source, Nat.not_lt.mp h, Source.closed]

/-- An ANC_ command that succeeds and one that fails. -/
theorem witness_beforeConfiguration_packets :
    exec .ancPad (calling State.reset [0x40, 50]) = .next (after .ancPad State.reset [0x40, 50]) ∧
      exec (.ancAfd false) (calling State.reset [16]) = .next (after (.ancAfd false) State.reset [16]) ∧
      codes [(.ancPad, State.reset, [0x40, 50]), (.ancAfd false, State.reset, [16])] = [.ok, .badArg] :=
  ⟨exec_after (by decide +kernel), exec_after (by decide +kernel), by decide +kernel⟩

/-- The rings and the slots of `pair` keep their invariants: so the statements that assume them, or that a
source is active, are met by its commands. -/
theorem witness_invariants :
    (RingsOk (calling pair [2, 0x40]) ∧ RingsOk pairLate ∧ RingsOk busyPair) ∧ ChannelsOk pair ∧
      pair.params.ringBytes < 2 ^ 64 ∧ pair.params.maxSources ≤ 16 :=
  ⟨⟨by decide +kernel, by decide +kernel, by decide +kernel⟩, by decide +kernel⟩

theorem witness_memoryOk :
    MemoryOk (withBytes pair 0xFFFFFD [1, 0, 2]) ∧ InsideDmem (withBytes pair 0xFFFFFD [1, 0, 2]) ∧
      (withBytes pair 0xFFFFFD [1, 0, 2]).dmem = [(0xFFFFFD, 1#8), (0xFFFFFF, 2#8)] := by
  decide +kernel

theorem witness_slotsOk : SlotsOk pair := by decide +kernel

/-- The steps whose invariants are kept: of the executor and of a host. -/
theorem witness_steps :
    (∃ t, stepBy (fun _ => 1) busyPair = .next t ∧ t.head = 12#64) ∧
      ∃ t, stepBy (fun _ => 0) (hosting [.dmemWrite 0xFFFFFF 5#8]) = .next t ∧
        bytesAt t 0xFFFFFF 1 = [5] := by
  have h : ∀ (o : Host.Outcome State Fault Refusal) (p : State → Bool),
      (match o with | .next t => p t | _ => false) = true → ∃ t, o = .next t ∧ p t = true := by
    intro o p ho
    cases o with
    | next t => exact ⟨t, rfl, ho⟩
    | fault r => simp at ho
    | refused r => simp at ho
  obtain ⟨t, h1, h2⟩ := h (stepBy (fun _ => 1) busyPair) (fun t => t.head == 12#64) (by decide +kernel)
  obtain ⟨u, h3, h4⟩ := h (stepBy (fun _ => 0) (hosting [.dmemWrite 0xFFFFFF 5#8]))
    (fun t => bytesAt t 0xFFFFFF 1 == [5]) (by decide +kernel)
  exact ⟨⟨t, h1, by simpa using h2⟩, ⟨u, h3, by simpa using h4⟩⟩

theorem witness_rbBufferStart :
    RingsOk (calling pair []) ∧ ¬ NotOpen pair 0 ∧ (pair.source 0).total ≠ 0 ∧
      (pair.source 0).chunks = [⟨9#64, 4⟩] ∧ (ring [] 0).sourceOpen 0 = true ∧
      ((ring [] 0).source 0).total = 0 := by
  decide +kernel

/-- The first and the last frame that R106 copies from source 1 at time 9. -/
theorem witness_rbRead :
    MemoryOk (calling pair [0x40, 4, 9, 1, 1, 1]) ∧ RingsOk (calling pair [0x40, 4, 9, 1, 1, 1]) ∧
      (pair.source 1).offset tiny 9 = 1 ∧ ((1 : Nat) : Int) - 1 = (0 : Nat) ∧
      ((3 : Nat) : Int) - 1 = (2 : Nat) ∧ 2 < (pair.source 1).total ∧ 0 < tiny.subframeBytes := by
  decide +kernel

/-- Discards that end inside the head chunk, whose first frame is gone; exactly at its end; nowhere; and with
the last frame of the ring. -/
theorem witness_rbFlushConsumed :
    RingsOk pair ∧ [(0, 2, 0), (1, 1, 1), (1, 0, 0), (1, 3, 2)].all (fun c =>
      let x := pair.source c.1
      let before := ((x.chunks.take c.2.2).map Chunk.frames).sum
      decide (c.2.1 ≤ x.total) && decide (before ≤ x.headOff + c.2.1) && decide (c.2.2 ≤ x.chunks.length) &&
        (x.chunks[c.2.2]?.all fun k => decide (x.headOff + c.2.1 < before + k.frames))) = true := by
  decide +kernel

theorem witness_ringFramesAreConserved :
    RingsOk (calling pair [0, 1, 13]) ∧
      exec (.rbPush 0) (calling pair [0, 1, 13]) = .next (after (.rbPush 0) pair [0, 1, 13]) ∧
      exec (.rbForwardTo 0) (calling pair [12]) = .next (after (.rbForwardTo 0) pair [12]) ∧
      exec (.rbFlushConsumed 0) (calling pair []) = .next (after (.rbFlushConsumed 0) pair []) ∧
      exec (.rbInfo 0) (calling pair []) = .next (after (.rbInfo 0) pair []) ∧
      codes [(.rbPush 0, pair, [0, 1, 13]), (.rbForwardTo 0, pair, [12])] = [.ok, .ok] :=
  ⟨by decide +kernel, exec_after (by decide +kernel), exec_after (by decide +kernel),
    exec_after (by decide +kernel), exec_after (by decide +kernel), by decide +kernel⟩

/-- `pair`'s least buffer start is source 1's and its least availability source 0's; `ring [] 0` has no
active source. -/
theorem witness_mxStartAndAvailability :
    (∀ i : Nat, ¬ Active (calling (ring [] 0) []) i) ∧
    (Active (calling pair [12]) 1 ∧ ∀ j : Nat, Active (calling pair [12]) j →
      ((calling pair [12]).source 1).bufferStart tiny ≤ ((calling pair [12]).source j).bufferStart tiny) ∧
    (pair.ownerAt 1 = some ⟨0, 0⟩ ∧ Active pair 0) ∧
    ∀ k : Fin 8, ∀ o ∈ pair.ownerAt k.val, Active pair o.source →
      (pair.source 0).avail tiny 12 ≤ (pair.source o.source).avail tiny 12 := by
  have h1 : ∀ i : Fin 16, ¬ Active (calling (ring [] 0) []) i.val := by decide +kernel
  have h2 : ∀ j : Fin 16, Active (calling pair [12]) j.val →
      ((calling pair [12]).source 1).bufferStart tiny ≤
        ((calling pair [12]).source j.val).bufferStart tiny := by
    decide +kernel
  refine ⟨fun i hi => h1 ⟨i, hi.1⟩ hi, ⟨by decide +kernel, fun j hj => h2 ⟨j, hj.1⟩ hj⟩,
    by decide +kernel, by decide +kernel⟩

/-- A block of two frames from `pair`: slot 1 has source 0's frames, slot 0 no owner. -/
theorem witness_extractedBlockLayout :
    MemoryOk (calling pair [2, 0x40]) ∧
      exec .mxExtract (calling pair [2, 0x40]) = .next (after .mxExtract pair [2, 0x40]) ∧
      (after .mxExtract pair [2, 0x40]).ports[(calling pair [2, 0x40]).serving].code = .ok ∧
      (1 < 2 * (pair.audioCh / 2) ∧ 0 < tiny.subframeBytes) ∧
      (pair.ownerAt 1 = some ⟨0, 0⟩ ∧ Active pair 0 ∧ ((1 : Nat) : Int) - (pair.source 0).offset tiny 10 = 1 ∧
        1 < (pair.source 0).total) ∧
      pair.ownerAt 0 = none :=
  ⟨by decide +kernel, exec_after (by decide +kernel), by decide +kernel, by decide +kernel,
    by decide +kernel, by decide +kernel⟩

/-- A start that regresses, with enough frames after the forward; source 0 has no tag. -/
theorem witness_extractConsumesTheBlock :
    RingsOk (calling pairLate [1, 0x40]) ∧
      exec .mxExtract (calling pairLate [1, 0x40]) = .next (after .mxExtract pairLate [1, 0x40]) ∧
      (after .mxExtract pairLate [1, 0x40]).ports[(calling pairLate [1, 0x40]).serving].code = .ok ∧
      (pairLate.head ≠ invalidBits ∧ pairLate.muxStart < pairLate.head.toInt) ∧
      Active (pairLate.forwardAll 12) 0 ∧ (pairLate.source 0).tagged = 0 :=
  ⟨by decide +kernel, exec_after (by decide +kernel), by decide +kernel, by decide +kernel,
    by decide +kernel, by decide +kernel⟩

theorem witness_blockStartsNeverRegress :
    RingsOk (calling { pair with head := 10#64 } [2, 0x40]) ∧
      exec .mxExtract (calling { pair with head := 10#64 } [2, 0x40]) =
        .next (after .mxExtract { pair with head := 10#64 } [2, 0x40]) ∧
      report .mxExtract { pair with head := 10#64 } [2, 0x40] = (.ok, [10, 2, 16, 0]) ∧
      exec (.mxSetAudioConfig true) (calling { mux8 with head := 5#64 } [2]) =
        .next (after (.mxSetAudioConfig true) { mux8 with head := 5#64 } [2]) ∧
      codes [(.mxSetAudioConfig true, { mux8 with head := 5#64 }, [2])] = [.ok] :=
  ⟨by decide +kernel, exec_after (by decide +kernel), by decide +kernel, exec_after (by decide +kernel),
    by decide +kernel⟩

/-- A host's CTRL write, the one host access that moves `head`. -/
theorem witness_blockStartsNeverRegress_host :
    ∃ t, (pairLate.setHost 0 ⟨[.regWrite 0x004 4 1#32], 0#32⟩).hostStep 0 = .next t ∧
      t.head ≠ (pairLate.setHost 0 ⟨[.regWrite 0x004 4 1#32], 0#32⟩).head :=
  ⟨_, rfl, by decide +kernel⟩

/-- A host's CTRL write, the one host access that changes a source. -/
theorem witness_mappingsAreIrreversible_host :
    ∃ t, (hosting [.regWrite 0x004 4 1#32]).hostStep 0 = .next t ∧
      ¬ SameSources (hosting [.regWrite 0x004 4 1#32]) t :=
  ⟨_, rfl, by decide +kernel⟩

theorem witness_mappingsAreIrreversible :
    exec (.mxRemoveMapping 1) (calling pair []) = .next (after (.mxRemoveMapping 1) pair []) ∧
      (pair.source 0).isOpen = true ∧ Instr.mxRemoveMapping 1 ≠ .mxRemoveMapping 0 ∧
      pair.ownerAt 1 = some ⟨0, 0⟩ :=
  ⟨exec_after (by decide +kernel), by decide +kernel, by decide, by decide +kernel⟩

theorem witness_builtPacketsParse :
    let s := calling builtPacket [0x40, 10, 0xFFFFFD]
    [1#8, 2#8, 3#8].length ≤ 255 ∧
      (∀ j : Nat, j < 7 + 3 → s.read16 (s.arg 0 + 2 * j) =
        ((build 0x50#8 0x01#8 [1#8, 2#8, 3#8]).getD j 0#10).setWidth 16) ∧
      7 + 3 ≤ s.arg 1 ∧ s.arg 1 ≤ u32Max ∧ ¬ OutOfRange s.params (s.arg 0) (2 * s.arg 1) ∧
      ¬ OutOfRange s.params (s.arg 2) 3 := by
  decide +kernel

/-- A CDP the block builds for one triplet, at address 0x40. -/
def builtCdp : State :=
  { State.reset with dmem := Memory.writeBytes [] 0x40 (cdp 8 0x1234#16 [0xFC#8, 0x94#8, 0x20#8]) }

theorem witness_builtCdpsParse :
    let s := calling builtCdp [0x40, 16, 0xFFFFFD]
    (1 ≤ 8 ∧ 8 ≤ 8 ∧ 1 ≤ 31 ∧ [0xFC#8, 0x94#8, 0x20#8].length = 3 * 1) ∧
      (∀ j : Nat, j < 13 + 3 * 1 → s.readByte (s.arg 0 + j) =
        (cdp 8 0x1234#16 [0xFC#8, 0x94#8, 0x20#8]).getD j 0#8) ∧
      13 + 3 * 1 ≤ s.arg 1 ∧ s.arg 1 ≤ u32Max ∧ ¬ OutOfRange s.params (s.arg 0) (s.arg 1) ∧
      ¬ OutOfRange s.params (s.arg 2) (3 * 1) := by
  decide +kernel

/-- Planes of a picture of two rows that lie apart (R226). -/
theorem witness_pxUnpackPlane :
    let l := [0x80, 0x40, 0x60, 0x70, 16, 8, 4, size 4 2]
    let s := calling State.reset l
    MemoryOk s ∧ codes [(.pxUnpackPlane, State.reset, l)] = [.ok] ∧
      (s.arg 1 + (1 * 8 + 2 * 4) ≤ s.arg 2 ∧ s.arg 2 + (1 * 4 + 4) ≤ s.arg 3) := by
  decide +kernel

/-- Half-words inside and outside [4, 1019] at 0x40. -/
def wordsIn : State := withWords State.reset 0x40 [0x000, 0x3FF, 0x3FF, 0x241, 0x205, 0x108]

/-- `wordsIn` with its words packed at 0x80. -/
def wordsPacked (c : Bool) : State := after (.pxPackWords c) wordsIn [0x40, 6, 0x80]

/-- The hypotheses on the two states between which the bytes travel. -/
theorem witness_wordPackingRoundTrip (c : Bool) :
    MemoryOk (calling wordsIn [0x40, 6, 0x80]) ∧ Unraced (calling wordsIn [0x40, 6, 0x80]) (.pxPackWords c) ∧
      Unraced (calling (wordsPacked c) [0x80, 6, 0xC0]) .pxUnpackWords ∧
      (calling (wordsPacked c) [0x80, 6, 0xC0]).dmem = (wordsPacked c).dmem := by
  have before : wordsIn.serving = 0 := by decide +kernel
  have between : (wordsPacked c).serving = 0 := by revert c; decide +kernel
  have wf : MemoryOk (calling wordsIn [0x40, 6, 0x80]) := by decide +kernel
  exact ⟨wf, unraced_calling wordsIn _ _ before, unraced_calling (wordsPacked c) _ _ between,
    calling_dmem (wordsPacked c) _⟩

theorem witness_wordPackingRoundTrip_packs (c : Bool) :
    exec (.pxPackWords c) (calling wordsIn [0x40, 6, 0x80]) = .next (wordsPacked c) :=
  exec_after (i := .pxPackWords c) (s := wordsIn) (l := [0x40, 6, 0x80])
    (by revert c; decide +kernel)

theorem witness_wordPackingRoundTrip_unpacks (c : Bool) :
    exec .pxUnpackWords (calling (wordsPacked c) [0x80, 6, 0xC0]) =
      .next (after .pxUnpackWords (wordsPacked c) [0x80, 6, 0xC0]) :=
  exec_after (i := .pxUnpackWords) (s := wordsPacked c) (l := [0x80, 6, 0xC0])
    (by revert c; decide +kernel)

/-- The other hypotheses: both commands succeed, and the second reads what the first wrote. -/
theorem witness_wordPackingRoundTrip_codes (c : Bool) :
    codes [(.pxPackWords c, wordsIn, [0x40, 6, 0x80]), (.pxUnpackWords, wordsPacked c, [0x80, 6, 0xC0])] =
      [.ok, .ok] ∧
    (calling (wordsPacked c) [0x80, 6, 0xC0]).arg 0 = (calling wordsIn [0x40, 6, 0x80]).arg 2 ∧
    (calling (wordsPacked c) [0x80, 6, 0xC0]).arg 1 = (calling wordsIn [0x40, 6, 0x80]).arg 1 ∧
    5 < (calling wordsIn [0x40, 6, 0x80]).arg 1 := by
  revert c
  decide +kernel

/-- The planes of a picture of two rows of four pixels, luma at 0x40, `Cb` at 0x60, `Cr` at 0x70. -/
def planesIn : State :=
  withWords (withWords (withWords State.reset 0x40 [0x000, 0x001, 0x3FF, 0x200]) 0x60 [0x200, 0x3FF]) 0x70
    [0x100, 0x002]

/-- The arguments that pack `planesIn` at 0x80, and those that unpack it to 0xC0, 0xE0 and 0xF0. -/
def packArgs : List Nat := [0x40, 0x60, 0x70, 0x80, 8, 4, 20, size 4 2]

def unpackArgs : List Nat := [0x80, 0xC0, 0xE0, 0xF0, 20, 8, 4, size 4 2]

/-- `planesIn` with its planes packed. -/
def planesPacked : State := after .pxPackPlane planesIn packArgs

theorem witness_planePackingRoundTrip :
    MemoryOk (calling planesIn packArgs) ∧ Unraced (calling planesIn packArgs) .pxPackPlane ∧
      Unraced (calling planesPacked unpackArgs) .pxUnpackPlane ∧
      exec .pxPackPlane (calling planesIn packArgs) = .next planesPacked ∧
      (calling planesPacked unpackArgs).dmem = planesPacked.dmem ∧
      exec .pxUnpackPlane (calling planesPacked unpackArgs) =
        .next (after .pxUnpackPlane planesPacked unpackArgs) ∧
      codes [(.pxPackPlane, planesIn, packArgs), (.pxUnpackPlane, planesPacked, unpackArgs)] = [.ok, .ok] := by
  have before : planesIn.serving = 0 := by decide +kernel
  have between : planesPacked.serving = 0 := by decide +kernel
  have wf : MemoryOk (calling planesIn packArgs) := by decide +kernel
  have packs : exec .pxPackPlane (calling planesIn packArgs) = .next planesPacked :=
    exec_after (by decide +kernel)
  have unpacks : exec .pxUnpackPlane (calling planesPacked unpackArgs) =
      .next (after .pxUnpackPlane planesPacked unpackArgs) := exec_after (by decide +kernel)
  exact ⟨wf, unraced_calling planesIn _ _ before, unraced_calling planesPacked _ _ between, packs,
    calling_dmem planesPacked _, unpacks, by decide +kernel⟩

/-- The other hypotheses: the same picture, and planes that lie apart. -/
theorem witness_planePackingRoundTrip_args :
    let s := calling planesIn packArgs
    let u := calling planesPacked unpackArgs
    u.argBits 7 = s.argBits 7 ∧
      (u.arg 0 = s.arg 3 ∧ u.arg 4 = s.arg 6 ∧ u.arg 5 = s.arg 4 ∧ u.arg 6 = s.arg 5) ∧
      (u.arg 1 + (1 * s.arg 4 + 2 * 4) ≤ u.arg 2 ∧ u.arg 2 + (1 * s.arg 5 + 4) ≤ u.arg 3) := by
  decide +kernel

theorem exists_next {o : Host.Outcome State Fault Refusal}
    (h : (match o with | .next _ => true | _ => false) = true) : ∃ t, o = .next t := by
  cases o with
  | next t => exact ⟨t, rfl⟩
  | fault r => simp at h
  | refused r => simp at h

/-- The executor performing MX_EXTRACT: the first and the last byte of its block, and the bytes beside it. -/
theorem witness_storesInsideTheBuffers :
    RingsOk busyPair ∧ (∃ t, busyPair.execStep 1 = .next t) ∧
      [0x3F, 0x40, 0x4F, 0x50].map (fun a =>
        (busyPair.buffersAt 1).writes.any fun r => r.range.holds a) = [false, true, true, false] :=
  ⟨by decide +kernel, exists_next (by decide +kernel), by decide +kernel⟩

/-- Commands that no host has raced with: MX_EXTRACT, which succeeds, with the bytes it writes, and RB_PUSH, with
those it reads. -/
theorem witness_buffersOfTheRules :
    let s := racing []
    RingsOk s ∧ s.ports[(1 : Fin 15)].pending = some ⟨0x00000026#32, args [2, 0x40], [], []⟩ ∧
      decode 0x00000026#32 = .ok .mxExtract ∧ (s.serve 1).violations .mxExtract = [] ∧
      s.wouldSucceed 1 = true ∧
      [0x3F, 0x40, 0x4F, 0x50].map (fun a => (s.buffersAt 1).writes.any fun r => r.span.covers a) =
        [false, true, true, false] ∧
      s.ports[(0 : Fin 15)].pending = some ⟨0x00000010#32, args [0x10, 2, 13], [], []⟩ ∧
      decode 0x00000010#32 = .ok (.rbPush 0) ∧ (s.serve 0).violations (.rbPush 0) = [] ∧
      s.wouldSucceed 0 = true ∧
      [0x0F, 0x10, 0x11, 0x12].map (fun a => (s.buffersAt 0).reads.any fun r => r.span.covers a) =
        [false, true, true, false] := by
  decide +kernel

/-- A step that serves another port leads to one of the states in which MX_EXTRACT may be performed. -/
theorem witness_stepsKeepTheFutures :
    let s := racing []
    s.ports[(1 : Fin 15)].busy = true ∧ (s.futures 1).length = 2 ∧
      (match stepBy (fun _ => 0) s with
        | .next t => t.ports[(1 : Fin 15)].busy && decide ((s.futures 1)[1]? = some t)
        | _ => false) = true := by
  decide +kernel

end Sys2Proof.Tests
end

section
/-! PROOFS. A step runs the decoded command: the word of a command decodes to it, the executor's step performs what
the pending word decodes to, and the word that the harness presents is all that any agent can do next. -/

namespace Sys2Proof.Proofs

open Sys2Proof
open Sys2Proof.Machine
open Sys2Proof.Laws

/-! ### Decoding a word put together from its fields (R80 to R84) -/

theorem decode_commandWord (f s o : BitVec 8) :
    decode (commandWord f s o) = decodeOpcode (commandWord f s o) := by
  rw [decode, if_pos (rsvdOf_commandWord f s o)]

theorem checkFlags_commandWord {f mask : BitVec 8} (h : f &&& ~~~mask = 0#8) (s o : BitVec 8) (i : Instr) :
    checkFlags (commandWord f s o) mask i = .ok i := by
  rw [checkFlags, flagsOf_commandWord, if_pos h]

theorem withSource_commandWord {f mask : BitVec 8} (h : f &&& ~~~mask = 0#8) {src : Nat} (hsrc : src < 256)
    (o : BitVec 8) (g : Nat → Instr) :
    withSource (commandWord f (BitVec.ofNat 8 src) o) mask g = .ok (g src) := by
  rw [withSource, srcOf_commandWord, BitVec.toNat_ofNat, Nat.mod_eq_of_lt hsrc, checkFlags_commandWord h]

theorem withoutSource_commandWord {f mask : BitVec 8} (h : f &&& ~~~mask = 0#8) (o : BitVec 8) (i : Instr) :
    withoutSource (commandWord f 0#8 o) mask i = .ok i := by
  rw [withoutSource, srcOf_commandWord, if_pos rfl, checkFlags_commandWord h]

theorem flagOf_commandWord (f s o : BitVec 8) {k : Nat} (hk : k < 8) :
    flagOf (commandWord f s o) k = f.getLsbD k := by
  rw [flagOf_eq _ hk, flagsOf_commandWord]

/-! ### The flags that commands define (R84) -/

theorem flag0_defined (b : Bool) : flag0 b &&& ~~~1#8 = 0#8 := by
  cases b <;> rfl

theorem flagsXAM_defined (x a m : Bool) : flagsXAM x a m &&& ~~~7#8 = 0#8 := by
  revert x a m
  decide

theorem flagOf_flag0 (b : Bool) (s o : BitVec 8) : flagOf (commandWord (flag0 b) s o) 0 = b := by
  rw [flagOf_commandWord _ _ _ (by decide)]
  cases b <;> rfl

theorem getLsbD_flagsXAM (x a m : Bool) :
    (flagsXAM x a m).getLsbD 0 = x ∧ (flagsXAM x a m).getLsbD 1 = a ∧ (flagsXAM x a m).getLsbD 2 = m := by
  revert x a m
  decide

theorem flagOf_flagsXAM (x a m : Bool) (s o : BitVec 8) :
    flagOf (commandWord (flagsXAM x a m) s o) 0 = x ∧ flagOf (commandWord (flagsXAM x a m) s o) 1 = a ∧
      flagOf (commandWord (flagsXAM x a m) s o) 2 = m := by
  simpa only [flagOf_commandWord _ _ _ (show 0 < 8 by decide), flagOf_commandWord _ _ _ (show 1 < 8 by decide),
    flagOf_commandWord _ _ _ (show 2 < 8 by decide)] using getLsbD_flagsXAM x a m

/-! ### Decoding the word of a command (R92) -/

theorem source_lt_of_wellFormed {i : Instr} {src : Nat} (hi : i.wellFormed = true) (h : i.source? = some src) :
    src < 256 := by
  simpa [Instr.wellFormed, h] using hi

/-- The cases are the shapes of the opcode table's rows: by whether SRC is taken and which flags are defined. -/
theorem decode_encode {i : Instr} (hi : i.wellFormed = true) : decode (encode i) = .ok i := by
  have hsrc : ∀ src, i.source? = some src → src < 256 := fun _ => source_lt_of_wellFormed hi
  cases i with
  | nop | mxBufferStart | mxAvailableVirtual | mxAlignedInterleave | mxExtract | mxSlotMap | ancPad | ancParse
  | cdpParse | pxPackPlane | pxUnpackPlane | pxUnpackWords =>
    simp [encode, decode_commandWord, decodeOpcode, withoutSource_commandWord]
  | rbPush src | rbBufferStart src | rbAvailable src | rbRead src | rbFlushConsumed src
  | rbTagVirtualConsumed src | rbForwardTo src | rbInfo src | mxRemoveMapping src =>
    simp [encode, decode_commandWord, decodeOpcode, withSource_commandWord, hsrc src rfl]
  | mxSetAudioConfig b | ancData10 b | ancAfd b | ancCaptions b | pxPackWords b =>
    simp [encode, decode_commandWord, decodeOpcode, withoutSource_commandWord (flag0_defined b), flagOf_flag0]
  | mxAddMapping src x a m =>
    simp [encode, decode_commandWord, decodeOpcode,
      withSource_commandWord (flagsXAM_defined x a m) (hsrc src rfl), flagOf_flagsXAM]

/-! ### The executor's step (R70) -/

/-- Where the schedule picks the executor at a port, the step performs the word pending there. -/
theorem stepBy_of_pick_exec {f : Nat → Nat} {s : State} {p : Fin 15} {c : Pending}
    (hpick : s.pick f = some (.exec p)) (hc : s.ports[p].pending = some c) :
    stepBy f s = (s.serve p).perform c.word := by
  simp only [stepBy, hpick, State.agentStep, State.execStep, hc]

theorem perform_of_decode {s : State} {w : Word} {i : Instr} (h : decode w = .ok i) :
    s.perform w = exec i s := by
  simp only [State.perform, h]

theorem stepBy_of_decode {f : Nat → Nat} {s : State} {p : Fin 15} {c : Pending} {i : Instr}
    (hpick : s.pick f = some (.exec p)) (hc : s.ports[p].pending = some c) (hd : decode c.word = .ok i) :
    stepBy f s = exec i (s.serve p) := by
  rw [stepBy_of_pick_exec hpick hc, perform_of_decode hd]

theorem serve_argBits {s : State} {p : Fin 15} {c : Pending} (h : s.ports[p].pending = some c) (n : Fin 8) :
    (s.serve p).argBits n = c.args[n] := by
  rw [State.argBits, serve_args h]

/-! ### The word that the harness presents (log entry 7) -/

theorem pick_of_movers_singleton {s : State} {x : Agent} (h : s.movers = [x]) (f : Nat → Nat) :
    s.pick f = some x := by
  simp only [State.pick, h]

theorem withFetchWord_toNat (s : State) (w : Word) : s.withFetchWord 32 w.toNat = s.presentWord w := by
  rw [State.withFetchWord, Nat.mod_eq_of_lt w.isLt, BitVec.ofNat_toNat, BitVec.setWidth_eq]

theorem presentWord_pending_zero (s : State) (w : Word) :
    (s.presentWord w).ports[(0 : Fin 15)].pending = some ⟨w, s.ports[(0 : Fin 15)].args, [], []⟩ := by
  simp [State.presentWord, Port.writeCmd, Port.busy]

theorem presentWord_busy (s : State) (w : Word) (p : Fin 15) :
    (s.presentWord w).ports[p].busy = decide (p = 0) := by
  by_cases hp : p = 0
  · subst hp
    rw [Port.busy, presentWord_pending_zero]
    rfl
  · simp [State.presentWord, Port.busy, hp]

theorem presentWord_actions (s : State) (w : Word) (p : Fin 15) :
    (s.presentWord w).hosts[p].actions = [] := by
  simp [State.presentWord]

theorem presentWord_canMove {s : State} (h : 1 ≤ s.params.nports) (w : Word) (x : Agent) :
    (s.presentWord w).canMove x = decide (x = .exec 0) := by
  cases x with
  | exec p =>
    have hparams : (s.presentWord w).params = s.params := rfl
    simp only [State.canMove, presentWord_busy, hparams, Agent.exec.injEq]
    by_cases hp : p = 0
    · subst hp
      simpa using Nat.lt_of_succ_le h
    · simp [hp]
  | host p =>
    simp only [State.canMove, presentWord_actions]
    simp

theorem presentWord_pick {s : State} (h : 1 ≤ s.params.nports) (w : Word) (f : Nat → Nat) :
    (s.presentWord w).pick f = some (.exec 0) := by
  have hmove : (s.presentWord w).canMove = fun x => decide (x = .exec 0) :=
    funext (presentWord_canMove h w)
  have hmovers : (s.presentWord w).movers = [.exec 0] := by
    rw [State.movers, hmove]
    decide
  exact pick_of_movers_singleton hmovers f

/-! ### The statement -/

/-- Settles O5. The executor's step gives the first part and `step` is `stepBy` by definition; the harness is the
first part at the word presented, which alone can move and decodes to the command it was made from. -/
theorem stepRunsTheDecodedCommand : Obligations.StepRunsTheDecodedCommand := by
  refine ⟨fun f s p c i hpick hc hd => ⟨stepBy_of_decode hpick hc hd, serve_argBits hc⟩, fun s => rfl,
    fun s i hi hports => ?_⟩
  rw [withFetchWord_toNat]
  exact stepBy_of_decode (presentWord_pick hports _ _) (presentWord_pending_zero s _) (decode_encode hi)

end Sys2Proof.Proofs
end

section
/-! PROOFS. What a command can do to the block before it completes, said once for all commands; every command
completes, and every step keeps the rings' and the slots' invariants. -/

namespace Sys2Proof.Proofs

open Sys2Proof
open Sys2Proof.Config (Params)
open Sys2Proof.Machine
open Sys2Proof.Safety
open Sys2Proof.Laws

/-! ### The changes that commands make -/

/-- What the rings' and the slots' invariants speak of is unchanged. -/
structure SameRings (s u : State) : Prop where
  sources : u.sources = s.sources
  owner : u.owner = s.owner
  audioCh : u.audioCh = s.audioCh
  params : u.params = s.params

/-- What a ring buffer command can make of an open source context `c`. -/
inductive RingChange (P : Params) (c : Source) : Source → Prop where
  /-- RB_PUSH of accepted bytes (R103) -/
  | push {pts : DWord} {bs : List Byte} (hne : bs.length ≠ 0) (hmod : bs.length % c.frameBytes P = 0)
      (hpts : pts ≠ invalidBits)
      (hend : pts.toInt + framesToTicks P (bs.length / c.frameBytes P) ≤ int64Max)
      (hring : c.data.length + bs.length ≤ P.ringBytes) (hslots : c.chunks.length ≠ P.chunkSlots) :
      RingChange P c (c.push pts (bs.length / c.frameBytes P) bs)
  | flush : RingChange P c (c.flush P)
  | tag (t : Int) (n : Nat) : RingChange P c (c.tag P t n)
  | forward (t : Int) : RingChange P c (c.forward P t)

/-- What a command can make of the state before it completes: all but its completion. -/
inductive Change : State → State → Prop where
  /-- no change of a source context, of the slot table or of the channel count -/
  | other {s u : State} (hports : u.ports = s.ports) (hout : SameOutside s u) (hsame : SameRings s u) :
      Change s u
  /-- MX_SET_AUDIO_CONFIG (R140) -/
  | configured {s : State} {n : Nat} (d : Bool) (hclosed : s.someOpen = false)
      (hn : isChannelCount n = true) :
      Change s { s with audioCh := n, declaredOnly := d, head := invalidBits }
  | ring {s : State} {src : Nat} {d : Source} (hopen : s.sourceOpen src = true)
      (hd : RingChange s.params (s.source src) d) : Change s (s.setSource src d)
  /-- MX_ADD_MAPPING (R145) -/
  | opened {s : State} {src c : Nat} (m : Bool) {slots : List Nat} (hsrc : src < s.params.maxSources)
      (hclosed : (s.source src).isOpen = false) (hc : 1 ≤ c ∧ c ≤ 16) (hslots : SlotChoice s slots)
      (hlen : 1 ≤ slots.length ∧ slots.length ≤ c) :
      Change s ((s.setSource src (Source.opened c m slots)).claimSlots src slots)
  /-- MX_REMOVE_MAPPING (R148) -/
  | closed {s : State} {src : Nat} (hopen : s.sourceOpen src = true) :
      Change s ((s.setSource src Source.closed).freeSlotsOf src)
  /-- the forwards of MX_EXTRACT (R160) -/
  | forwardAll (s : State) (t : Int) : Change s (s.forwardAll t)
  /-- the consumption of MX_EXTRACT (R160) -/
  | consume (s : State) (t : Int) (n : Nat) : Change s (s.consume t n)
  | trans {s u v : State} (h : Change s u) (h' : Change u v) : Change s v

theorem Change.refl (s : State) : Change s s :=
  .other rfl ⟨rfl, rfl, rfl, rfl, rfl⟩ ⟨rfl, rfl, rfl, rfl⟩

theorem Change.storeRuns (s : State) (i : Instr) (runs : List Run) : Change s (s.storeRuns i runs) :=
  .other rfl ⟨rfl, rfl, rfl, rfl, rfl⟩ ⟨rfl, rfl, rfl, rfl⟩

theorem Change.setHead (s : State) (t : DWord) : Change s { s with head := t } :=
  .other rfl ⟨rfl, rfl, rfl, rfl, rfl⟩ ⟨rfl, rfl, rfl, rfl⟩

theorem Change.setCdpCounter (s : State) (c : BitVec 16) : Change s { s with cdpCounter := c } :=
  .other rfl ⟨rfl, rfl, rfl, rfl, rfl⟩ ⟨rfl, rfl, rfl, rfl⟩

/-- No change reaches the ports or anything outside the block. -/
theorem Change.outside {s u : State} (h : Change s u) : u.ports = s.ports ∧ SameOutside s u := by
  induction h with
  | other hports hout _ => exact ⟨hports, hout⟩
  | configured | ring | opened | closed | forwardAll | consume => simp [SameOutside]
  | trans _ _ ih ih' =>
    obtain ⟨hports, hhosts, hserving, hsteps, hdraws, hparams⟩ := ih
    obtain ⟨hports', hhosts', hserving', hsteps', hdraws', hparams'⟩ := ih'
    exact ⟨hports'.trans hports, hhosts'.trans hhosts, hserving'.trans hserving, hsteps'.trans hsteps,
      hdraws'.trans hdraws, hparams'.trans hparams⟩

theorem Change.params {s u : State} (h : Change s u) : u.params = s.params := by
  obtain ⟨-, -, -, -, -, hparams⟩ := h.outside
  exact hparams

/-! ### Every command completes -/

/-- The outcome is the completion, with some code and results, of a state that a command can make of `s`. -/
def Completes (s : State) (o : Host.Outcome State Fault Refusal) : Prop :=
  ∃ (u : State) (code : Code) (r0 r1 r2 r3 : DWord),
    Change s u ∧ o = .next (u.complete code (results r0 r1 r2 r3))

theorem completes_finish {s u : State} (h : Change s u) (r0 r1 r2 r3 : DWord) :
    Completes s (u.finish r0 r1 r2 r3) :=
  ⟨u, .ok, r0, r1, r2, r3, h, rfl⟩

theorem completes_raise {s u : State} (h : Change s u) (c : Code) : Completes s (u.raise c) :=
  ⟨u, c, 0#64, 0#64, 0#64, 0#64, h, rfl⟩

theorem completes_query (s : State) (r0 r1 r2 r3 : DWord) : Completes s (s.finish r0 r1 r2 r3) :=
  completes_finish (.refl s) r0 r1 r2 r3

theorem completes_storeRuns (s : State) (i : Instr) (runs : List Run) (r0 r1 r2 r3 : DWord) :
    Completes s ((s.storeRuns i runs).finish r0 r1 r2 r3) :=
  completes_finish (.storeRuns s i runs) r0 r1 r2 r3

/-- A check of a command: it fails with a code, or the command goes on. -/
theorem completes_check {s : State} {b : Prop} [Decidable b] {c : Code}
    {o : Host.Outcome State Fault Refusal} (h : ¬ b → Completes s o) :
    Completes s (if b then s.raise c else o) := by
  split
  · exact completes_raise (.refl s) c
  · exact h ‹_›

/-! ### The ring buffer commands -/

theorem toInt_invalidBits : invalidBits.toInt = int64Min := by decide

theorem ne_invalidBits_of_isValidTime {t : DWord} (h : isValidTime t.toInt = true) : t ≠ invalidBits := by
  rintro rfl
  simp [isValidTime, toInt_invalidBits] at h

theorem completes_rbPush (src : Nat) (s : State) : Completes s (execRbPush src s) := by
  refine completes_check fun hopen => completes_check fun _ => completes_check fun htime =>
    completes_check fun hmod => completes_check fun hend => completes_check fun _ => ?_
  split
  · exact completes_query s _ _ _ _
  · rename_i hlen
    refine completes_check fun hring => completes_check fun hslots => completes_finish (.ring ?_ ?_) _ _ _ _
    · simpa using hopen
    · have hvalid : isValidTime (s.sarg 2) = true := by simpa using htime
      have hbs := length_readBytes s (s.arg 0) (s.arg 1)
      have hchange := @RingChange.push s.params (s.source src) (s.argBits 2)
        (s.readBytes (s.arg 0) (s.arg 1))
      rw [hbs] at hchange
      exact hchange hlen (not_not.mp hmod) (ne_invalidBits_of_isValidTime hvalid) (not_lt.mp hend)
        (not_lt.mp hring) hslots

theorem completes_rbBufferStart (src : Nat) (s : State) : Completes s (execRbBufferStart src s) :=
  completes_check fun _ => completes_query s _ _ _ _

theorem completes_rbAvailable (src : Nat) (s : State) : Completes s (execRbAvailable src s) :=
  completes_check fun _ => completes_query s _ _ _ _

theorem completes_rbRead (src : Nat) (s : State) : Completes s (execRbRead src s) :=
  completes_check fun _ => completes_check fun _ => completes_check fun _ => completes_check fun _ =>
    completes_check fun _ => completes_check fun _ => completes_check fun _ =>
      completes_storeRuns s _ _ _ _ _ _

theorem completes_rbFlushConsumed (src : Nat) (s : State) : Completes s (execRbFlushConsumed src s) :=
  completes_check fun hopen => completes_finish (.ring (by simpa using hopen) .flush) _ _ _ _

theorem completes_rbTagVirtualConsumed (src : Nat) (s : State) :
    Completes s (execRbTagVirtualConsumed src s) :=
  completes_check fun hopen => completes_check fun _ => completes_check fun _ =>
    completes_finish (.ring (by simpa using hopen) (.tag _ _)) _ _ _ _

theorem completes_rbForwardTo (src : Nat) (s : State) : Completes s (execRbForwardTo src s) :=
  completes_check fun hopen => completes_check fun _ =>
    completes_finish (.ring (by simpa using hopen) (.forward _)) _ _ _ _

theorem completes_rbInfo (src : Nat) (s : State) : Completes s (execRbInfo src s) := by
  refine completes_check fun _ => ?_
  split
  · exact completes_query s _ _ _ _
  · exact completes_query s _ _ _ _

/-! ### The multiplexer commands -/

theorem completes_mxSetAudioConfig (d : Bool) (s : State) : Completes s (execMxSetAudioConfig d s) :=
  completes_check fun hclosed => completes_check fun hn =>
    completes_finish (.configured d (by simpa using hclosed) (by simpa using hn)) _ _ _ _

theorem completes_mxAddMapping (src : Nat) (x a m : Bool) (s : State) :
    Completes s (execMxAddMapping src x a m s) := by
  refine completes_check fun hsrc => completes_check fun _ => completes_check fun hc =>
    completes_check fun _ => completes_check fun hok => completes_check fun hclosed => ?_
  have hc' : 1 ≤ s.arg 0 ∧ s.arg 0 ≤ 16 := by omega
  split
  · exact completes_raise (.refl s) _
  · rename_i slots hslots
    obtain ⟨hchoice, hlen⟩ := chooseSlots_spec hc' (by simpa using hok) hslots
    exact completes_finish
      (.opened m (not_not.mp hsrc) (by simpa using hclosed) hc' hchoice hlen) _ _ _ _

theorem completes_mxRemoveMapping (src : Nat) (s : State) : Completes s (execMxRemoveMapping src s) :=
  completes_check fun hopen => completes_finish (.closed (by simpa using hopen)) _ _ _ _

theorem completes_mxBufferStart (s : State) : Completes s (execMxBufferStart s) :=
  completes_check fun _ => completes_query s _ _ _ _

theorem completes_mxAvailableVirtual (s : State) : Completes s (execMxAvailableVirtual s) :=
  completes_check fun _ => completes_query s _ _ _ _

theorem completes_mxAlignedInterleave (s : State) : Completes s (execMxAlignedInterleave s) :=
  completes_check fun _ => completes_check fun _ => completes_check fun _ => completes_query s _ _ _ _

/-- MX_EXTRACT may meet the sources forwarded to `head` (R160). -/
theorem Change.forwarded (s : State) : Change s s.forwarded := by
  unfold State.forwarded
  split
  · exact .forwardAll s _
  · exact .refl s

theorem completes_mxExtract (s : State) : Completes s (execMxExtract s) := by
  refine completes_check fun _ => completes_check fun _ => completes_check fun _ =>
    completes_check fun _ => completes_check fun _ => ?_
  split
  · exact completes_raise (.forwarded s) _
  · have hblock : Change s ((s.forwarded.storeRuns .mxExtract
        (s.forwarded.blockRuns (s.arg 1) (s.arg 0) s.extractStart)).consume s.extractStart (s.arg 0)) :=
      ((Change.forwarded s).trans (.storeRuns _ _ _)).trans (.consume _ _ _)
    exact completes_finish (hblock.trans (.setHead _ _)) _ _ _ _

/-! ### The packet and pixel commands -/

theorem completes_ancData10 (p : Bool) (s : State) : Completes s (execAncData10 p s) :=
  completes_check fun _ => completes_check fun _ => completes_check fun _ =>
    completes_storeRuns s _ _ _ _ _ _

theorem completes_ancPad (s : State) : Completes s (execAncPad s) :=
  completes_check fun _ => completes_check fun _ => completes_storeRuns s _ _ _ _ _ _

theorem completes_ancAfd (p : Bool) (s : State) : Completes s (execAncAfd p s) :=
  completes_check fun _ => completes_check fun _ => completes_storeRuns s _ _ _ _ _ _

theorem completes_ancCaptions (p : Bool) (s : State) : Completes s (execAncCaptions p s) := by
  refine completes_check fun _ => completes_check fun _ => completes_check fun _ => ?_
  exact completes_finish ((Change.storeRuns s _ _).trans (.setCdpCounter _ _)) _ _ _ _

theorem completes_ancParse (s : State) : Completes s (execAncParse s) := by
  refine completes_check fun _ => completes_check fun _ => ?_
  split
  · exact completes_raise (.refl s) _
  · exact completes_check fun _ => completes_storeRuns s _ _ _ _ _ _

theorem completes_cdpParse (s : State) : Completes s (execCdpParse s) := by
  refine completes_check fun _ => completes_check fun _ => ?_
  split
  · exact completes_raise (.refl s) _
  · exact completes_check fun _ => completes_storeRuns s _ _ _ _ _ _

theorem completes_pxPackPlane (s : State) : Completes s (execPxPackPlane s) :=
  completes_check fun _ => completes_check fun _ => completes_storeRuns s _ _ _ _ _ _

theorem completes_pxPackWords (c : Bool) (s : State) : Completes s (execPxPackWords c s) :=
  completes_check fun _ => completes_check fun _ => completes_check fun _ =>
    completes_storeRuns s _ _ _ _ _ _

theorem completes_pxUnpackPlane (s : State) : Completes s (execPxUnpackPlane s) :=
  completes_check fun _ => completes_check fun _ => completes_storeRuns s _ _ _ _ _ _

theorem completes_pxUnpackWords (s : State) : Completes s (execPxUnpackWords s) :=
  completes_check fun _ => completes_check fun _ => completes_check fun _ =>
    completes_storeRuns s _ _ _ _ _ _

/-! ### All commands -/

/-- Everything performing a command can do. -/
theorem exec_completes (i : Instr) (s : State) : Completes s (exec i s) := by
  cases i with
  | nop => exact completes_query s _ _ _ _
  | rbPush src => exact completes_rbPush src s
  | rbBufferStart src => exact completes_rbBufferStart src s
  | rbAvailable src => exact completes_rbAvailable src s
  | rbRead src => exact completes_rbRead src s
  | rbFlushConsumed src => exact completes_rbFlushConsumed src s
  | rbTagVirtualConsumed src => exact completes_rbTagVirtualConsumed src s
  | rbForwardTo src => exact completes_rbForwardTo src s
  | rbInfo src => exact completes_rbInfo src s
  | mxSetAudioConfig d => exact completes_mxSetAudioConfig d s
  | mxAddMapping src x a m => exact completes_mxAddMapping src x a m s
  | mxRemoveMapping src => exact completes_mxRemoveMapping src s
  | mxBufferStart => exact completes_mxBufferStart s
  | mxAvailableVirtual => exact completes_mxAvailableVirtual s
  | mxAlignedInterleave => exact completes_mxAlignedInterleave s
  | mxExtract => exact completes_mxExtract s
  | mxSlotMap => exact completes_query s _ _ _ _
  | ancData10 p => exact completes_ancData10 p s
  | ancPad => exact completes_ancPad s
  | ancAfd p => exact completes_ancAfd p s
  | ancCaptions p => exact completes_ancCaptions p s
  | ancParse => exact completes_ancParse s
  | cdpParse => exact completes_cdpParse s
  | pxPackPlane => exact completes_pxPackPlane s
  | pxPackWords c => exact completes_pxPackWords c s
  | pxUnpackPlane => exact completes_pxUnpackPlane s
  | pxUnpackWords => exact completes_pxUnpackWords s

/-- Settles O8: a completion does to the served port what R29 says, and no change before it reaches a port or
anything outside the block. -/
theorem everyCommandCompletes : Obligations.EveryCommandCompletes := by
  intro i s
  obtain ⟨u, code, r0, r1, r2, r3, hchange, hexec⟩ := exec_completes i s
  obtain ⟨hports, hhosts, hserving, hsteps, hdraws, hparams⟩ := hchange.outside
  exact ⟨_, code, r0, r1, r2, r3, hexec, complete_completed_of_ports hports hserving code r0 r1 r2 r3,
    hhosts, hserving, hsteps, hdraws, hparams⟩

end Sys2Proof.Proofs
end

section
/-! PROOFS. What a step of any agent can do to the source contexts, the slot table and the channel count; the steps
keep the invariants of 10_state.md rules R32, R34 and R37, and the reset state has them. -/

namespace Sys2Proof.Proofs

open Sys2Proof
open Sys2Proof.Config (Params)
open Sys2Proof.Machine
open Sys2Proof.Safety
open Sys2Proof.Laws

/-! ### The steps of the executor and of a host -/

theorem SameRings.refl (s : State) : SameRings s s := ⟨rfl, rfl, rfl, rfl⟩

theorem SameRings.trans {s u v : State} (h : SameRings s u) (h' : SameRings u v) : SameRings s v where
  sources := h'.sources.trans h.sources
  owner := h'.owner.trans h.owner
  audioCh := h'.audioCh.trans h.audioCh
  params := h'.params.trans h.params

theorem serve_sameRings (s : State) (p : Fin 15) : SameRings s (s.serve p) := ⟨rfl, rfl, rfl, rfl⟩

theorem complete_sameRings (s : State) (c : Code) (r : Results) : SameRings s (s.complete c r) :=
  ⟨rfl, rfl, rfl, rfl⟩

theorem readsBusy_sameRings (s : State) (p : Fin 15) : SameRings s (s.readsBusy p) := ⟨rfl, rfl, rfl, rfl⟩

theorem tick_sameRings (s : State) : SameRings s s.tick := ⟨rfl, rfl, rfl, rfl⟩

theorem hostDone_sameRings (s : State) (p : Fin 15) (v : Word) : SameRings s (s.hostDone p v) :=
  ⟨rfl, rfl, rfl, rfl⟩

theorem blockReset_tick_sameRings (s : State) : SameRings s.blockReset s.tick.blockReset :=
  ⟨rfl, rfl, rfl, rfl⟩

/-- Performing any word completes: with BAD_OPCODE where it is no encoding (R261). -/
theorem perform_completes (s : State) (w : Word) : Completes s (s.perform w) := by
  unfold State.perform
  split
  · exact exec_completes _ s
  · exact completes_raise (.refl s) _

/-- Everything the executor's step can do (R70, R261). -/
theorem execStep_cases {s t : State} {p : Fin 15} (h : s.execStep p = .next t) :
    t = s ∨ ∃ (u : State) (code : Code) (r : Results), Change (s.serve p) u ∧ t = u.complete code r := by
  unfold State.execStep at h
  split at h
  · rename_i c _
    obtain ⟨u, code, r0, r1, r2, r3, hchange, hu⟩ := perform_completes (s.serve p) c.word
    exact .inr ⟨u, code, _, hchange, Host.Outcome.next.inj (h.symm.trans hu)⟩
  · exact .inl (Host.Outcome.next.inj h).symm

/-- An access that a condition guards answers its next state only. -/
theorem eq_of_guarded_next {b : Prop} [Decidable b] {t u : State} {stop : Host.Outcome State Fault Refusal}
    (h : (if b then .next u else stop) = .next t) (hstop : stop ≠ .next t) : t = u := by
  split at h
  · exact (Host.Outcome.next.inj h).symm
  · exact absurd h hstop

/-- Everything a host's access can do: a register write, or a change of the data memory and of what the ports
remember of the hosts; then the host goes on to its next access. -/
theorem hostAct_cases {s t : State} {p : Fin 15} {x : HostAction} (h : s.hostAct p x = .next t) :
    ∃ (u : State) (v : Word), t = u.hostDone p v ∧
      ((∃ r w, u = s.writeReg r w) ∨ ∃ ports dmem, u = { s with ports := ports, dmem := dmem }) := by
  cases x with
  | regRead off width => exact ⟨s, _, eq_of_guarded_next h nofun, .inr ⟨s.ports, s.dmem, rfl⟩⟩
  | regWrite off width w => exact ⟨_, _, eq_of_guarded_next h nofun, .inl ⟨_, _, rfl⟩⟩
  | dmemRead a => exact ⟨_, _, eq_of_guarded_next h nofun, .inr ⟨_, _, rfl⟩⟩
  | dmemWrite a b => exact ⟨_, _, eq_of_guarded_next h nofun, .inr ⟨_, _, rfl⟩⟩
  | wait => exact ⟨s, _, (Host.Outcome.next.inj h).symm, .inr ⟨s.ports, s.dmem, rfl⟩⟩

/-- No register write reaches the rings, but for the block reset (R251, R252). -/
theorem writeReg_sameRings (s : State) (r : HostReg) (w : Word) :
    SameRings s (s.writeReg r w) ∨ s.writeReg r w = s.blockReset := by
  cases r with
  | ctrl =>
    simp only [State.writeReg]
    split
    · exact .inr rfl
    · exact .inl (.refl s)
  | id | audioCfg | head | irqStatus | params | res | hole => exact .inl (.refl s)
  | cdpCounter | cmd | status | ie | arg => exact .inl ⟨rfl, rfl, rfl, rfl⟩

/-- A host's step leaves the rings as they are, or as the block reset leaves them. -/
theorem hostStep_sameRings {s t : State} {p : Fin 15} (h : s.hostStep p = .next t) :
    SameRings s t ∨ SameRings s.blockReset t := by
  obtain ⟨u, hmove, hread⟩ := hostStep_cases h
  have htu : SameRings u t := by
    obtain rfl | ⟨v, rfl⟩ := hread
    · exact .refl t
    · exact ⟨rfl, rfl, rfl, rfl⟩
  obtain ⟨-, rfl⟩ | ⟨-, rfl⟩ | ⟨x, rest, -, -, hact⟩ := hostMove_cases hmove
  · exact .inl htu
  · exact .inl ((readsBusy_sameRings s p).trans htu)
  · obtain ⟨w, v, rfl, hw⟩ := hostAct_cases hact
    have hwt : SameRings w t := (hostDone_sameRings w p v).trans htu
    obtain ⟨r, b, rfl⟩ | ⟨ports, dmem, rfl⟩ := hw
    · rcases writeReg_sameRings s.tick r b with hwrite | hwrite
      · exact .inl (((tick_sameRings s).trans hwrite).trans hwt)
      · exact .inr ((blockReset_tick_sameRings s).trans (hwrite ▸ hwt))
    · exact .inl ⟨hwt.sources, hwt.owner, hwt.audioCh, hwt.params⟩

/-! ### The induction over what a step can do -/

/-- What speaks of the rings alone, and is kept by the block reset and by every change that a command makes, is
kept by every step of every agent under every schedule. -/
theorem stepBy_keeps {I : State → Prop} (hcongr : ∀ {s t : State}, SameRings s t → I s → I t)
    (hreset : ∀ {s : State}, I s → I s.blockReset) (hchange : ∀ {s u : State}, Change s u → I s → I u)
    {f : Nat → Nat} {s t : State} (hs : I s) (h : stepBy f s = .next t) : I t := by
  unfold stepBy at h
  split at h
  · rename_i x _
    cases x with
    | exec p =>
      obtain rfl | ⟨u, code, r, hu, rfl⟩ := execStep_cases h
      · exact hs
      · exact hcongr (complete_sameRings u code r) (hchange hu (hcongr (serve_sameRings s p) hs))
    | host p =>
      rcases hostStep_sameRings h with h' | h'
      · exact hcongr h' hs
      · exact hcongr h' (hreset hs)
  · exact Host.Outcome.next.inj h ▸ hs

/-! ### The rings (R32) -/

theorem sourceOk_of_open {P : Params} {c : Source} (ho : c.isOpen = true) (h : OpenOk P c) : SourceOk P c := by
  rwa [SourceOk, if_pos ho]

theorem openOk_of_sourceOk {P : Params} {c : Source} (ho : c.isOpen = true) (h : SourceOk P c) : OpenOk P c := by
  rwa [SourceOk, if_pos ho] at h

theorem closed_sourceOk (P : Params) : SourceOk P Source.closed := by
  simp [SourceOk, ClosedOk, Source.closed]

/-- A context that MX_ADD_MAPPING has just opened keeps the invariants of R32. -/
theorem opened_sourceOk (P : Params) {c : Nat} (m : Bool) {slots : List Nat} (hc : 1 ≤ c ∧ c ≤ 16)
    (hlen : 1 ≤ slots.length ∧ slots.length ≤ c) : SourceOk P (Source.opened c m slots) := by
  refine sourceOk_of_open rfl ⟨hc, hlen, ?_⟩
  simp [Source.opened, Source.total]

theorem RingChange.isOpen {P : Params} {c d : Source} (h : RingChange P c d) : d.isOpen = c.isOpen := by
  cases h with
  | push | flush | tag => rfl
  | forward t => exact forward_isOpen c P t

theorem RingChange.slots {P : Params} {c d : Source} (h : RingChange P c d) : d.slots = c.slots := by
  cases h with
  | push | flush | tag => rfl
  | forward t => exact forward_slots c P t

theorem RingChange.openOk {P : Params} (hP : P.legal = true) {c d : Source} (h : RingChange P c d)
    (hc : OpenOk P c) : OpenOk P d := by
  cases h with
  | push hne hmod hpts hend hring hslots =>
    have ⟨_, _, _, _, _, hchunks, _⟩ := hc
    exact push_openOk hP hc hne hmod hpts hend hring (lt_of_le_of_ne hchunks hslots)
  | flush => exact flush_openOk hc
  | tag t n => exact tag_openOk hc t n
  | forward t => exact forward_openOk hc t

theorem change_ringsOk {s u : State} (h : Change s u) (hs : RingsOk s) : RingsOk u := by
  induction h with
  | other _ _ hsame => exact ringsOk_congr hsame.sources hsame.params hs
  | configured => exact ringsOk_congr rfl rfl hs
  | @ring s src d hopen hd =>
    obtain ⟨-, hisOpen⟩ := (sourceOpen_iff s src).mp hopen
    have hsource : SourceOk s.params (s.source src) := by
      rw [source_eq_getElem s (lt_of_isOpen hisOpen)]
      exact hs.2 ⟨src, lt_of_isOpen hisOpen⟩
    exact setSource_ringsOk hs
      (sourceOk_of_open (hd.isOpen.trans hisOpen) (hd.openOk hs.1 (openOk_of_sourceOk hisOpen hsource)))
  | opened m _ _ hc _ hlen =>
    exact ringsOk_congr (claimSlots_sources _ _ _) rfl (setSource_ringsOk hs (opened_sourceOk _ m hc hlen))
  | closed =>
    exact ringsOk_congr (freeSlotsOf_sources _ _) rfl (setSource_ringsOk hs (closed_sourceOk _))
  | forwardAll s t => exact forwardAll_ringsOk hs t
  | consume s t n => exact consume_ringsOk hs t n
  | trans _ _ ih ih' => exact ih' (ih hs)

/-- Every context of a state is closed and no slot is owned, as after reset (R43). -/
structure NoMapping (s : State) : Prop where
  sources : ∀ i : Fin 16, s.sources[i] = Source.closed
  owner : ∀ k : Fin 16, s.owner[k] = none

theorem reset_noMapping : NoMapping State.reset where
  sources i := by simp [State.reset]
  owner k := by simp [State.reset]

theorem blockReset_noMapping (s : State) : NoMapping s.blockReset where
  sources := reset_noMapping.sources
  owner := reset_noMapping.owner

theorem NoMapping.ringsOk {s : State} (h : NoMapping s) (hP : s.params.legal = true) : RingsOk s :=
  ⟨hP, fun i => by rw [h.sources]; exact closed_sourceOk _⟩

theorem NoMapping.slotsOk {s : State} (h : NoMapping s) : SlotsOk s := by
  simp [SlotsOk, h.sources, h.owner, Source.closed]

/-- Settles O57: the block reset leaves closed contexts, and every change that a command makes keeps them (R32). -/
theorem stepKeepsTheRings : Obligations.StepKeepsTheRings := fun _ _ _ =>
  stepBy_keeps (fun h => ringsOk_congr h.sources h.params)
    (fun {s} h => (blockReset_noMapping s).ringsOk h.1) change_ringsOk

/-! ### The slots (R34, R37) -/

/-- The slot table's invariant is kept where each context stays open on the same slots, or closed. -/
theorem mapSources_slotsOk {s : State} (h : SlotsOk s) (p : Nat → Bool) {f : Source → Source}
    (hopen : ∀ c, (f c).isOpen = c.isOpen) (hslots : ∀ c, (f c).slots = c.slots) :
    SlotsOk (s.mapSources p f) := by
  refine slotsOk_congr (by simp) (by simp) (by simp) (fun i => ?_) h
  rw [← source_fin, mapSources_source _ _ _ i.isLt, source_fin]
  split
  · exact ⟨hopen _, hslots _⟩
  · exact ⟨rfl, rfl⟩

theorem ring_slotsOk {s : State} (h : SlotsOk s) {src : Nat} {d : Source}
    (hd : RingChange s.params (s.source src) d) : SlotsOk (s.setSource src d) := by
  refine slotsOk_congr (by simp) (by simp) (by simp) (fun i => ?_) h
  rw [← source_fin, ← source_fin]
  by_cases e : i.val = src
  · subst e
    rw [setSource_source_self _ _ i.isLt]
    exact ⟨hd.isOpen, hd.slots⟩
  · rw [setSource_source_ne _ _ e]
    exact ⟨rfl, rfl⟩

/-- A state without an open source has no owned slot. -/
theorem noOwner_of_not_someOpen {s : State} (h : SlotsOk s) (hclosed : s.someOpen = false) :
    (∀ i : Fin 16, s.sources[i].isOpen = false) ∧ ∀ k : Fin 16, s.owner[k] = none := by
  obtain ⟨hagree, howned, hmapped, -⟩ := h
  have hsources : ∀ i : Fin 16, s.sources[i].isOpen = false := by
    intro i
    by_contra hi
    rw [Bool.not_eq_false] at hi
    have hsome : s.someOpen = true := by
      refine List.any_eq_true.mpr ⟨i.val, List.mem_range.mpr (hmapped i hi).1, ?_⟩
      rw [sourceOpen_iff, source_fin]
      exact ⟨(hmapped i hi).1, hi⟩
    rw [hclosed] at hsome
    exact Bool.false_ne_true hsome
  refine ⟨hsources, fun k => Option.eq_none_iff_forall_ne_some.mpr fun o ho => ?_⟩
  obtain ⟨hsource, hchan, -⟩ := howned k o ho
  obtain ⟨hopen, -⟩ := (hagree k ⟨o.source, hsource⟩ ⟨o.chan, hchan⟩).mp ho
  rw [hsources] at hopen
  exact absurd hopen Bool.false_ne_true

/-- The channel count may change while no source is open (R140). -/
theorem configured_slotsOk {s : State} (h : SlotsOk s) (hclosed : s.someOpen = false) (n : Nat) (d : Bool) :
    SlotsOk { s with audioCh := n, declaredOnly := d, head := invalidBits } := by
  obtain ⟨hsources, howner⟩ := noOwner_of_not_someOpen h hclosed
  obtain ⟨-, -, -, hslots⟩ := h
  refine ⟨fun k i ch => ?_, fun k o ho => ?_, fun i hi => ?_, hslots⟩
  · show s.owner[k] = some _ ↔ s.sources[i].isOpen = true ∧ _
    rw [howner, hsources]
    simp
  · exact absurd (howner k ▸ ho : o ∈ none) (Option.not_mem_none o)
  · exact absurd ((hsources i).symm.trans hi) Bool.false_ne_true

theorem change_slotsOk {s u : State} (h : Change s u) (hP : s.params.legal = true) (hs : SlotsOk s) :
    SlotsOk u := by
  induction h with
  | other _ _ hsame =>
    exact slotsOk_congr hsame.owner hsame.audioCh hsame.params (fun i => by simp [hsame.sources]) hs
  | configured d hclosed => exact configured_slotsOk hs hclosed _ d
  | ring _ hd => exact ring_slotsOk hs hd
  | opened m hsrc hclosed _ hslots =>
    obtain ⟨-, ⟨-, hmax⟩, -⟩ := (legal_iff _).mp hP
    exact claim_slotsOk hs (lt_of_lt_of_le hsrc hmax) hsrc hclosed hslots
  | @closed s src hopen =>
    exact free_slotsOk hs (lt_of_isOpen ((sourceOpen_iff s src).mp hopen).2)
  | forwardAll s t =>
    exact mapSources_slotsOk hs _ (fun c => forward_isOpen c _ t) fun c => forward_slots c _ t
  | consume => exact mapSources_slotsOk hs _ (fun _ => rfl) fun _ => rfl
  | trans h _ ih ih' => exact ih' (h.params ▸ hP) (ih hP hs)

theorem change_channelsOk {s u : State} (h : Change s u) (hs : ChannelsOk s) : ChannelsOk u := by
  induction h with
  | other _ _ hsame => rwa [ChannelsOk, hsame.audioCh]
  | configured d _ hn => simpa [isChannelCount] using hn
  | ring | opened | closed | forwardAll | consume => simpa [ChannelsOk] using hs
  | trans _ _ ih ih' => exact ih' (ih hs)

/-- The invariants of O58, with the legal parameters that they lean on. -/
structure MuxOk (s : State) : Prop where
  legal : s.params.legal = true
  slots : SlotsOk s
  channels : ChannelsOk s

theorem stepBy_muxOk {f : Nat → Nat} {s t : State} (hs : MuxOk s) (h : stepBy f s = .next t) : MuxOk t := by
  refine stepBy_keeps ?_ ?_ ?_ hs h
  · intro s t hsame hs
    exact ⟨hsame.params ▸ hs.legal,
      slotsOk_congr hsame.owner hsame.audioCh hsame.params (fun i => by simp [hsame.sources]) hs.slots,
      by simpa [ChannelsOk, hsame.audioCh] using hs.channels⟩
  · exact fun {s} hs => ⟨hs.legal, (blockReset_noMapping s).slotsOk, .inl rfl⟩
  · exact fun hchange hs => ⟨hchange.params ▸ hs.legal, change_slotsOk hchange hs.legal hs.slots,
      change_channelsOk hchange hs.channels⟩

/-- Settles O58: a mapping claims free slots and its removal frees them; the channel count changes only while no
source is open. -/
theorem stepKeepsTheSlots : Obligations.StepKeepsTheSlots := by
  intro f s t hlegal hslots hchannels h
  have ht := stepBy_muxOk ⟨hlegal, hslots, hchannels⟩ h
  exact ⟨ht.slots, ht.channels⟩

/-! ### Reset -/

/-- Settles O60: after reset nothing is mapped, listed or to be done. -/
theorem resetHasTheInvariants : Obligations.ResetHasTheInvariants :=
  ⟨reset_noMapping.ringsOk (by decide), reset_noMapping.slotsOk, .inl rfl, reset_memory_wf,
    fun c hc => absurd hc List.not_mem_nil, fun p x hx => by simp [State.reset, HostAgent.idle] at hx⟩

end Sys2Proof.Proofs
end

section
/-! PROOFS. The host register window: which register lies at an offset, what the registers read bit by bit, and what
the writes of CMD, STATUS and CTRL do (10_state.md rules R20 to R28 and R43). -/

namespace Sys2Proof.Proofs

open Sys2Proof
open Sys2Proof.Machine
open Sys2Proof.Safety
open Sys2Proof.Laws

/-! ### Where the registers lie (R20, R22, R23) -/

theorem hostReg_global (nports : Nat) {off : Nat} (h : off < 0x100) : hostReg nports off = globalReg off :=
  if_pos h

theorem hostReg_port {nports : Nat} {p : Fin 15} (hp : p.val < nports) {off : Nat} (h : off < 0x100) :
    hostReg nports (0x100 * (p.val + 1) + off) = portReg p off := by
  have hport : (0x100 * (p.val + 1) + off) / 0x100 - 1 = p.val := by omega
  have hoff : (0x100 * (p.val + 1) + off) % 0x100 = off := by omega
  have hglobal : ¬ 0x100 * (p.val + 1) + off < 0x100 := by omega
  simp only [hostReg, if_neg hglobal, hport, hoff, p.isLt, hp, dite_true, if_true]

theorem hostReg_of_ge {nports off : Nat} (hn : nports ≤ 15) (h : 0x100 * (nports + 1) ≤ off) :
    hostReg nports off = .hole := by
  have hglobal : ¬ off < 0x100 := by omega
  have hport : ¬ off / 0x100 - 1 < nports := by omega
  simp only [hostReg, if_neg hglobal, if_neg hport, dite_eq_ite, ite_self]

/-- At or above the first port's base lies a register of some port, or a hole. -/
theorem hostReg_cases {nports off : Nat} (h : 0x100 ≤ off) :
    hostReg nports off = .hole ∨ ∃ p : Fin 15, hostReg nports off = portReg p (off % 0x100) := by
  unfold hostReg
  rw [if_neg (not_lt.mpr h)]
  split
  · split
    · exact .inr ⟨_, rfl⟩
    · exact .inl rfl
  · exact .inl rfl

theorem globalReg_of_ge {off : Nat} (h : 0x020 ≤ off) : globalReg off = .hole := by
  unfold globalReg
  split
  case h_9 => rfl
  all_goals omega

theorem portReg_arg (p : Fin 15) (n : Fin 8) (hi : Bool) {off : Nat}
    (h : off = 0x10 + 8 * n.val + 4 * hi.toNat) :
    portReg p off = .arg p n hi := by
  have hhi := hi.toNat_le
  have hbounds : ¬ off = 0x00 ∧ ¬ off = 0x04 ∧ ¬ off = 0x08 ∧ 0x10 ≤ off ∧ off < 0x50 := by omega
  have hn : Fin.ofNat 8 ((off - 0x10) / 8) = n := Fin.ext (by rw [Fin.val_ofNat]; omega)
  have hhalf : decide ((off - 0x10) % 8 = 4) = hi := by cases hi <;> simp at h ⊢ <;> omega
  simp only [portReg, hbounds, hn, hhalf, and_self, if_true, if_false]

theorem portReg_res (p : Fin 15) (n : Fin 4) (hi : Bool) {off : Nat}
    (h : off = 0x50 + 8 * n.val + 4 * hi.toNat) :
    portReg p off = .res p n hi := by
  have hhi := hi.toNat_le
  have hbounds : ¬ off = 0x00 ∧ ¬ off = 0x04 ∧ ¬ off = 0x08 ∧ ¬ off < 0x50 ∧ 0x50 ≤ off ∧
      off < 0x70 := by omega
  have hn : Fin.ofNat 4 ((off - 0x50) / 8) = n := Fin.ext (by rw [Fin.val_ofNat]; omega)
  have hhalf : decide ((off - 0x50) % 8 = 4) = hi := by cases hi <;> simp at h ⊢ <;> omega
  simp only [portReg, hbounds, hn, hhalf, and_self, and_false, if_true, if_false]

theorem portReg_hole (p : Fin 15) {off : Nat} (h : off = 0x0C ∨ 0x70 ≤ off) : portReg p off = .hole := by
  have hbounds : ¬ off = 0x00 ∧ ¬ off = 0x04 ∧ ¬ off = 0x08 ∧ ¬ (0x10 ≤ off ∧ off < 0x50) ∧
      ¬ (0x50 ≤ off ∧ off < 0x70) := by omega
  simp only [portReg, hbounds, if_false]

/-- Settles O13: an offset below 0x100 is a global register's or a hole, one of an existing port's is that port's
register or a hole, and every other is a hole. -/
theorem registerWindow : Obligations.RegisterWindow := by
  intro nports hn
  refine ⟨rfl, fun p hp => ⟨?_, fun n => ⟨?_, ?_⟩, fun n => ⟨?_, ?_⟩⟩, fun off _ hoff => ?_,
    fun s w => ⟨rfl, rfl⟩⟩
  · simp only [List.map_cons, List.map_nil, hostReg_port hp (show 0x00 < 0x100 by decide),
      hostReg_port hp (show 0x04 < 0x100 by decide), hostReg_port hp (show 0x08 < 0x100 by decide)]
    rfl
  · rw [hostReg_port hp (by omega), portReg_arg p n false (by simp)]
  · rw [hostReg_port hp (by omega), portReg_arg p n true (by simp; omega)]
  · rw [hostReg_port hp (by omega), portReg_res p n false (by simp)]
  · rw [hostReg_port hp (by omega), portReg_res p n true (by simp; omega)]
  · rcases hoff with ⟨hlo, hhi⟩ | hbeyond | ⟨hlo, hport⟩
    · rw [hostReg_global nports hhi, globalReg_of_ge hlo]
    · exact hostReg_of_ge hn hbeyond
    · rcases hostReg_cases (nports := nports) hlo with h | ⟨p, h⟩
      · exact h
      · rw [h, portReg_hole p hport]

/-! ### CMD and STATUS (R24, R25) -/

/-- Settles O10: each branch of the CMD write is the rule's, and an argument write leaves what is pending. -/
theorem cmdWriteAcceptsOrOverruns : Obligations.CmdWriteAcceptsOrOverruns := by
  intro s p w hp
  refine ⟨hostReg_port hp (show 0 < 0x100 by decide), fun hbusy => ?_, fun hidle => ⟨?_, ?_⟩, fun n hi v => ?_⟩
  · simp only [State.writeReg, Port.writeCmd, hbusy, if_true]
  · simp only [State.writeReg, Port.writeCmd, hidle, Bool.false_eq_true, if_false]
  · simp only [State.writeReg, Port.writeCmd, hidle, Bool.false_eq_true, if_false, setPort_port_self]
    rfl
  · simp only [State.writeReg, setPort_port_self]
    rfl

/-- STATUS above BUSY (R25). -/
theorem statusWord_getLsbD (p : Port) (k : Nat) :
    p.statusWord.getLsbD k =
      if k < 1 then (BitVec.ofBool p.busy).getLsbD k
      else (0#16 ++ p.code.toByte ++ 0#4 ++ BitVec.ofBool p.ovr ++ BitVec.ofBool p.err ++
        BitVec.ofBool p.done).getLsbD (k - 1) :=
  BitVec.getLsbD_append

theorem statusWord_extractLsb' (p : Port) {start : Nat} (h : 1 ≤ start) (len : Nat) :
    p.statusWord.extractLsb' start len =
      (0#16 ++ p.code.toByte ++ 0#4 ++ BitVec.ofBool p.ovr ++ BitVec.ofBool p.err ++
        BitVec.ofBool p.done).extractLsb' (start - 1) len :=
  BitVec.extractLsb'_append_eq_of_le h

/-- The flags of STATUS (R25). -/
theorem statusWord_flags (p : Port) :
    p.statusWord.getLsbD 0 = p.pending.isSome ∧ p.statusWord.getLsbD 1 = p.done ∧
      p.statusWord.getLsbD 2 = p.err ∧ p.statusWord.getLsbD 3 = p.ovr := by
  simp only [statusWord_getLsbD, BitVec.getLsbD_append, BitVec.getLsbD_ofBool]
  simp [Port.busy]

/-- The reserved bits of STATUS and its code (R25). -/
theorem statusWord_fields (p : Port) :
    p.statusWord.extractLsb' 4 4 = 0#4 ∧ p.statusWord.extractLsb' 8 8 = p.code.toByte ∧
      p.statusWord.extractLsb' 16 16 = 0#16 := by
  simp (disch := decide) only [statusWord_extractLsb', BitVec.extractLsb'_append_eq_of_le]
  exact ⟨BitVec.extractLsb'_append_eq_right, BitVec.extractLsb'_append_eq_right, BitVec.extractLsb'_eq_self⟩

/-- Settles O11, by the layout of STATUS; its write is the rule's by definition. -/
theorem statusFieldsAndClears : Obligations.StatusFieldsAndClears := by
  refine ⟨rfl, fun s p v hp => ⟨hostReg_port hp (by decide), ?_, rfl⟩⟩
  obtain ⟨hbusy, hdone, herr, hovr⟩ := statusWord_flags s.ports[p]
  obtain ⟨hlow, hcode, hhigh⟩ := statusWord_fields s.ports[p]
  exact ⟨hbusy, hdone, herr, hovr, hlow, hcode, hhigh⟩

/-! ### The halves of 64-bit registers (R27, R28) -/

theorem half_append (v : DWord) : half v true ++ half v false = v :=
  (BitVec.extractLsb'_append_extractLsb'_eq_extractLsb' rfl).trans BitVec.extractLsb'_eq_self

/-- Writing the two halves of a value leaves the value, whatever was there (R91). -/
theorem withHalf_withHalf (u v : DWord) :
    withHalf (withHalf u false (v.extractLsb' 0 32)) true (v.extractLsb' 32 32) = v := by
  have hlow : (withHalf u false (v.extractLsb' 0 32)).extractLsb' 0 32 = v.extractLsb' 0 32 :=
    BitVec.extractLsb'_append_eq_right
  rw [withHalf, if_pos rfl, hlow]
  exact half_append v

theorem setPort_setPort (s : State) (p : Fin 15) (x y : Port) : (s.setPort p x).setPort p y = s.setPort p y := by
  simp [State.setPort]

theorem writeArg_writeArg (p : Port) (n : Fin 8) (v : DWord) :
    (p.writeArg n false (v.extractLsb' 0 32)).writeArg n true (v.extractLsb' 32 32) =
      { p with args := p.args.set n v } := by
  simp [Port.writeArg, withHalf_withHalf]

/-! ### The fields of the other registers (R22, R26, R37) -/

/-- IE above its DONE bit (R26). -/
theorem ieWord_getLsbD (p : Port) (k : Nat) :
    p.ieWord.getLsbD k =
      if k < 1 then (BitVec.ofBool p.ie.done).getLsbD k
      else (0#29 ++ BitVec.ofBool p.ie.ovr ++ BitVec.ofBool p.ie.err).getLsbD (k - 1) :=
  BitVec.getLsbD_append

theorem ieWord_extractLsb' (p : Port) {start : Nat} (h : 1 ≤ start) (len : Nat) :
    p.ieWord.extractLsb' start len =
      (0#29 ++ BitVec.ofBool p.ie.ovr ++ BitVec.ofBool p.ie.err).extractLsb' (start - 1) len :=
  BitVec.extractLsb'_append_eq_of_le h

theorem ieWord_fields (p : Port) :
    p.ieWord.getLsbD 0 = p.ie.done ∧ p.ieWord.getLsbD 1 = p.ie.err ∧ p.ieWord.getLsbD 2 = p.ie.ovr ∧
      p.ieWord.extractLsb' 3 29 = 0#29 := by
  simp (disch := decide) only [ieWord_getLsbD, ieWord_extractLsb', BitVec.getLsbD_append, BitVec.getLsbD_ofBool,
    BitVec.extractLsb'_append_eq_of_le]
  simp

/-- AUDIO_CFG above its channel count (R22). -/
theorem audioCfgWord_getLsbD (s : State) (k : Nat) :
    s.audioCfgWord.getLsbD k =
      if k < 5 then (BitVec.ofNat 5 s.audioCh).getLsbD k
      else (0#23 ++ BitVec.ofBool s.declaredOnly ++ 0#3).getLsbD (k - 5) :=
  BitVec.getLsbD_append

theorem audioCfgWord_extractLsb' (s : State) {start : Nat} (h : 5 ≤ start) (len : Nat) :
    s.audioCfgWord.extractLsb' start len =
      (0#23 ++ BitVec.ofBool s.declaredOnly ++ 0#3).extractLsb' (start - 5) len :=
  BitVec.extractLsb'_append_eq_of_le h

theorem audioCfgWord_fields (s : State) :
    s.audioCfgWord.extractLsb' 0 5 = BitVec.ofNat 5 s.audioCh ∧ s.audioCfgWord.extractLsb' 5 3 = 0#3 ∧
      s.audioCfgWord.getLsbD 8 = s.declaredOnly ∧ s.audioCfgWord.extractLsb' 9 23 = 0#23 := by
  refine ⟨BitVec.extractLsb'_append_eq_right, ?_⟩
  simp (disch := decide) only [audioCfgWord_getLsbD, audioCfgWord_extractLsb', BitVec.getLsbD_append,
    BitVec.getLsbD_ofBool, BitVec.extractLsb'_append_eq_of_le]
  exact ⟨BitVec.extractLsb'_append_eq_right, by simp, BitVec.extractLsb'_eq_self⟩

/-- PARAMS above its number of ports (R22). -/
theorem paramsWord_extractLsb' (s : State) {start : Nat} (h : 4 ≤ start) (len : Nat) :
    s.paramsWord.extractLsb' start len =
      (0#16 ++ BitVec.ofNat 4 s.params.subframeBytes ++ 0#3 ++
        BitVec.ofNat 5 s.params.maxSources).extractLsb' (start - 4) len :=
  BitVec.extractLsb'_append_eq_of_le h

theorem paramsWord_fields (s : State) :
    s.paramsWord.extractLsb' 0 4 = BitVec.ofNat 4 s.params.nports ∧
      s.paramsWord.extractLsb' 4 5 = BitVec.ofNat 5 s.params.maxSources ∧
      s.paramsWord.extractLsb' 12 4 = BitVec.ofNat 4 s.params.subframeBytes ∧
      s.paramsWord.extractLsb' 9 3 = 0#3 ∧ s.paramsWord.extractLsb' 16 16 = 0#16 := by
  refine ⟨BitVec.extractLsb'_append_eq_right, ?_⟩
  simp (disch := decide) only [paramsWord_extractLsb', BitVec.extractLsb'_append_eq_of_le]
  exact ⟨BitVec.extractLsb'_append_eq_right, BitVec.extractLsb'_append_eq_right,
    BitVec.extractLsb'_append_eq_right, BitVec.extractLsb'_eq_self⟩

/-- A number that fits its field reads back. -/
theorem toNat_field {k w n : Nat} {word : Word} (h : word.extractLsb' k w = BitVec.ofNat w n) (hn : n < 2 ^ w) :
    (word.extractLsb' k w).toNat = n := by
  rw [h, BitVec.toNat_ofNat, Nat.mod_eq_of_lt hn]

/-- Settles O16, by the layouts of the words, the halves of 64-bit registers and, for PARAMS, the legal ranges. -/
theorem registerContents : Obligations.RegisterContents := by
  refine ⟨fun s p n v => ?_, fun s => ⟨fun p n => half_append _, fun p n => half_append _, half_append _, rfl,
    fun p => rfl, fun p => ieWord_fields _, ?_, ?_, ?_⟩⟩
  · simp only [State.writeReg, setPort_port_self, setPort_setPort, writeArg_writeArg]
  · exact ⟨BitVec.extractLsb'_append_eq_right, BitVec.extractLsb'_append_eq_left⟩
  · obtain ⟨hcount, hlow, hdeclared, hhigh⟩ := audioCfgWord_fields s
    exact ⟨fun hch => toNat_field hcount (by omega), hlow, hdeclared, hhigh⟩
  · obtain ⟨hports, hsources, hbytes, hlow, hhigh⟩ := paramsWord_fields s
    refine ⟨fun hlegal => ?_, hlow, hhigh⟩
    obtain ⟨⟨-, hn⟩, ⟨-, hm⟩, ⟨-, hb⟩, -⟩ := (legal_iff _).mp hlegal
    exact ⟨toNat_field hports (by omega), toNat_field hsources (by omega), toNat_field hbytes (by omega)⟩

/-! ### Reset (R43, R251, R290) -/

/-- Every piece of block state has its value of R43. -/
structure AtReset (u : State) : Prop where
  ports : u.ports = State.reset.ports
  mapping : NoMapping u
  audioCh : u.audioCh = 0
  declaredOnly : u.declaredOnly = false
  head : u.head = invalidBits
  cdpCounter : u.cdpCounter = 0#16

theorem reset_atReset : AtReset State.reset := ⟨rfl, reset_noMapping, rfl, rfl, rfl, rfl⟩

theorem blockReset_atReset (s : State) : AtReset s.blockReset := ⟨rfl, blockReset_noMapping s, rfl, rfl, rfl, rfl⟩

theorem AtReset.port {u : State} (h : AtReset u) (p : Fin 15) : u.ports[p] = Port.reset := by
  simp [h.ports, State.reset]

theorem AtReset.irqOutput {u : State} (h : AtReset u) : u.irqOutput = false := by
  refine List.any_eq_false.mpr fun p _ => ?_
  rw [State.irqOf, h.port]
  simp [Port.irq, Port.reset]

theorem writeReg_ctrl_set (s : State) {w : Word} (h : w.getLsbD 0 = true) : s.writeReg .ctrl w = s.blockReset :=
  if_pos h

theorem writeReg_ctrl_clear (s : State) {w : Word} (h : w.getLsbD 0 = false) : s.writeReg .ctrl w = s :=
  if_neg (Bool.eq_false_iff.mp h)

theorem writeReg_ctrl_dmem (s : State) (w : Word) : (s.writeReg .ctrl w).dmem = s.dmem := by
  cases h : w.getLsbD 0 with
  | true => rw [writeReg_ctrl_set s h, blockReset_dmem]
  | false => rw [writeReg_ctrl_clear s h]

/-- Settles O15: power-on and the block reset both leave every piece of block state at its value of R43. -/
theorem resetLeavesTheResetValues : Obligations.ResetLeavesTheResetValues := by
  refine ⟨fun s u w hu => ?_, fun s w => ⟨writeReg_ctrl_dmem s w, writeReg_ctrl_clear s, rfl⟩⟩
  have hreset : AtReset u := by
    rcases hu with rfl | ⟨hw, rfl⟩
    · exact reset_atReset
    · rw [writeReg_ctrl_set s hw]
      exact blockReset_atReset s
  refine ⟨fun p => ?_, ⟨hreset.audioCh, hreset.declaredOnly⟩, hreset.head, hreset.cdpCounter, fun i => ?_,
    hreset.mapping.owner, hreset.irqOutput⟩
  · rw [hreset.port]
    simp [Port.reset, Port.busy, Code.toByte]
  · rw [hreset.mapping.sources]
    exact ⟨rfl, rfl, rfl, rfl, rfl, rfl⟩

end Sys2Proof.Proofs
end

section
/-! PROOFS. What a step of a host does, access by access: where it stops, what its register accesses and its WAIT
change, and that the accesses its host still has to make stay the interface's (10_state.md rule R21). -/

namespace Sys2Proof.Proofs

open Sys2Proof
open Sys2Proof.Machine
open Sys2Proof.Safety
open Sys2Proof.Laws

/-! ### A host's step, by its next access -/

theorem isHostAccess_iff {off width : Nat} :
    isHostAccess off width = true ↔ width = 4 ∧ off % 4 = 0 ∧ off < 4096 := decide_eq_true_iff

theorem head?_of_cons {s : State} {p : Fin 15} {x : HostAction} {rest : List HostAction}
    (h : s.hosts[p].actions = x :: rest) : s.hosts[p].actions.head? = some x :=
  congrArg List.head? h

theorem hostWaits_of_ne_wait {s : State} {p : Fin 15} {x : HostAction} {rest : List HostAction}
    (h : s.hosts[p].actions = x :: rest) (hx : x ≠ .wait) : s.hostWaits p = false := by
  refine Bool.eq_false_iff.mpr fun hwaits => hx ?_
  exact Option.some.inj ((head?_of_cons h).symm.trans (hostWaits_iff.mp hwaits).1)

theorem hostWaits_of_not_busy {s : State} {p : Fin 15} (h : s.ports[p].busy = false) : s.hostWaits p = false :=
  Bool.eq_false_iff.mpr fun hwaits => Bool.eq_false_iff.mp h (hostWaits_iff.mp hwaits).2

/-- A host whose next access is no WAIT and no read of the data memory makes that access. -/
theorem hostStep_of_cons {s : State} {p : Fin 15} {x : HostAction} {rest : List HostAction}
    (h : s.hosts[p].actions = x :: rest) (hwait : x ≠ .wait) (hread : ∀ a, x ≠ .dmemRead a) :
    s.hostStep p = s.tick.hostAct p x := by
  have hhead : ∀ a, s.hosts[p].actions.head? ≠ some (.dmemRead a) := fun a ha =>
    hread a (Option.some.inj ((head?_of_cons h).symm.trans ha))
  rw [hostStep_of_not_read hhead, hostMove_of_cons h (hostWaits_of_ne_wait h hwait)]

section
variable {s : State} {p : Fin 15} {rest : List HostAction}

theorem hostStep_regRead {off width : Nat} (h : s.hosts[p].actions = .regRead off width :: rest) :
    s.hostStep p =
      if isHostAccess off width then
        .next (s.tick.hostDone p (s.tick.readReg (hostReg s.params.nports off)))
      else .refused .badHostAccess :=
  hostStep_of_cons h nofun nofun

theorem hostStep_regWrite {off width : Nat} {w : Word} (h : s.hosts[p].actions = .regWrite off width w :: rest) :
    s.hostStep p =
      if isHostAccess off width then
        .next ((s.tick.writeReg (hostReg s.params.nports off) w).hostDone p s.hosts[p].lastRead)
      else .refused .badHostAccess :=
  hostStep_of_cons h nofun nofun

theorem hostStep_dmemWrite {a : Nat} {b : Byte} (h : s.hosts[p].actions = .dmemWrite a b :: rest) :
    s.hostStep p =
      if a < s.params.dmemSize then
        .next ({ s.tick with
          dmem := Memory.write s.dmem a b,
          ports := Vector.ofFn fun q => s.ports[q].noteHostWrite a }.hostDone p s.hosts[p].lastRead)
      else .fault .hostDmemRange :=
  hostStep_of_cons h nofun nofun

/-- A host that reads the data memory, but for what it gets where the read races. -/
theorem hostMove_dmemRead {a : Nat} (h : s.hosts[p].actions = .dmemRead a :: rest) :
    s.hostMove p =
      if a < s.params.dmemSize then
        .next ({ s.tick with ports := Vector.ofFn fun q => s.ports[q].noteHostRead a }.hostDone p
          ((Memory.read s.dmem a).setWidth 32))
      else .fault .hostDmemRange :=
  hostMove_of_cons h (hostWaits_of_ne_wait h nofun)

theorem hostStep_wait (h : s.hosts[p].actions = .wait :: rest) :
    s.hostStep p =
      .next (if s.ports[p].busy then s.readsBusy p else s.tick.hostDone p s.ports[p].statusWord) := by
  rw [hostStep_of_not_read (by rw [head?_of_cons h]; nofun)]
  cases hbusy : s.ports[p].busy with
  | true => exact hostMove_of_waits (hostWaits_iff.mpr ⟨head?_of_cons h, hbusy⟩)
  | false => exact hostMove_of_cons h (hostWaits_of_not_busy hbusy)

/-! ### Where a host's step stops (R21, R60) -/

/-- An access that the interface has answers a next state. -/
theorem hostStep_next_of_actionOk {x : HostAction} (h : s.hosts[p].actions = x :: rest)
    (hx : actionOk s.params x = true) : ∃ t, s.hostStep p = .next t := by
  cases x with
  | regRead off width => exact ⟨_, (hostStep_regRead h).trans (if_pos hx)⟩
  | regWrite off width w => exact ⟨_, (hostStep_regWrite h).trans (if_pos hx)⟩
  | dmemRead a => exact ⟨_, hostStep_of_read h ((hostMove_dmemRead h).trans (if_pos (of_decide_eq_true hx)))⟩
  | dmemWrite a b => exact ⟨_, (hostStep_dmemWrite h).trans (if_pos (of_decide_eq_true hx))⟩
  | wait => exact ⟨_, hostStep_wait h⟩

theorem hostStep_refused {x : HostAction} (h : s.hosts[p].actions = x :: rest) {off width : Nat}
    (hx : x = .regRead off width ∨ ∃ w, x = .regWrite off width w) (hbad : ¬ isHostAccess off width = true) :
    s.hostStep p = .refused .badHostAccess := by
  obtain rfl | ⟨w, rfl⟩ := hx
  · exact (hostStep_regRead h).trans (if_neg hbad)
  · exact (hostStep_regWrite h).trans (if_neg hbad)

theorem hostStep_fault {x : HostAction} (h : s.hosts[p].actions = x :: rest) {a : Nat}
    (hx : x = .dmemRead a ∨ ∃ b, x = .dmemWrite a b) (hbad : s.params.dmemSize ≤ a) :
    s.hostStep p = .fault .hostDmemRange := by
  obtain rfl | ⟨b, rfl⟩ := hx
  · exact hostStep_of_fault ((hostMove_dmemRead h).trans (if_neg (not_lt.mpr hbad)))
  · exact (hostStep_dmemWrite h).trans (if_neg (not_lt.mpr hbad))

end

/-! ### The accesses that hosts still have to make -/

theorem hostsOk_congr {s t : State} (hhosts : t.hosts = s.hosts) (hparams : t.params = s.params) (h : HostsOk s) :
    HostsOk t := by
  unfold HostsOk
  rw [hhosts, hparams]
  exact h

theorem setHost_hostsOk {s : State} (h : HostsOk s) {p : Fin 15} {a : HostAgent}
    (ha : ∀ x ∈ a.actions, actionOk s.params x = true) : HostsOk (s.setHost p a) := by
  intro q
  by_cases hq : q = p
  · subst hq
    rwa [setHost_host_self]
  · rw [setHost_host_ne s a hq]
    exact h q

theorem hostDone_hostsOk {s : State} (h : HostsOk s) (p : Fin 15) (v : Word) : HostsOk (s.hostDone p v) :=
  setHost_hostsOk h fun x hx => h p x (List.mem_of_mem_tail hx)

theorem writeReg_hosts_params (s : State) (r : HostReg) (w : Word) :
    (s.writeReg r w).hosts = s.hosts ∧ (s.writeReg r w).params = s.params := by
  cases r with
  | ctrl =>
    cases h : w.getLsbD 0 with
    | true => simp [writeReg_ctrl_set s h]
    | false => simp [writeReg_ctrl_clear s h]
  | id | audioCfg | cdpCounter | head | irqStatus | params | cmd | status | ie | arg | res | hole =>
    exact ⟨rfl, rfl⟩

/-- A host's step keeps the parameters, and its accesses the interface's. -/
theorem hostStep_hostsOk {s t : State} {p : Fin 15} (h : s.hostStep p = .next t) (hs : HostsOk s) :
    HostsOk t ∧ t.params = s.params := by
  obtain ⟨u, hmove, hread⟩ := hostStep_cases h
  have hu : HostsOk u ∧ u.params = s.params := by
    obtain ⟨-, rfl⟩ | ⟨-, rfl⟩ | ⟨x, rest, -, -, hact⟩ := hostMove_cases hmove
    · exact ⟨hs, rfl⟩
    · have hsteps : HostsOk { s with steps := s.steps + 1 } := hs
      exact ⟨setHost_hostsOk hsteps (hs p), rfl⟩
    · obtain ⟨v, w, rfl, hv⟩ := hostAct_cases hact
      have hv' : v.hosts = s.hosts ∧ v.params = s.params := by
        obtain ⟨r, b, rfl⟩ | ⟨ports, dmem, rfl⟩ := hv
        · exact writeReg_hosts_params s.tick r b
        · exact ⟨rfl, rfl⟩
      exact ⟨hostDone_hostsOk (hostsOk_congr hv'.1 hv'.2 hs) p w, hv'.2⟩
  obtain rfl | ⟨v, rfl⟩ := hread
  · exact hu
  · exact ⟨setHost_hostsOk hu.1 (hu.1 p), hu.2⟩

theorem execStep_next (s : State) (p : Fin 15) : ∃ t, s.execStep p = .next t := by
  unfold State.execStep
  split
  · obtain ⟨u, code, r0, r1, r2, r3, -, h⟩ := perform_completes (s.serve p) _
    exact ⟨_, h⟩
  · exact ⟨s, rfl⟩

theorem execStep_hosts_params {s t : State} {p : Fin 15} (h : s.execStep p = .next t) :
    t.hosts = s.hosts ∧ t.params = s.params := by
  obtain rfl | ⟨u, code, r, hchange, rfl⟩ := execStep_cases h
  · exact ⟨rfl, rfl⟩
  · obtain ⟨-, hhosts, -, -, -, hparams⟩ := hchange.outside
    exact ⟨hhosts, hparams⟩

/-! ### The choice of the agent -/

theorem pick_mem_movers {s : State} {f : Nat → Nat} {x : Agent} (h : s.pick f = some x) : x ∈ s.movers := by
  unfold State.pick at h
  split at h
  · exact absurd h (Option.some_ne_none x).symm
  · rename_i y hy
    rw [hy, ← Option.some.inj h]
    exact List.mem_singleton_self y
  · rename_i y z rest hmovers
    rw [hmovers, ← Option.some.inj h]
    cases hfind : (y :: z :: rest).find? fun a => decide (a.number = f s.steps) with
    | none => exact List.mem_cons_self
    | some a => exact List.mem_of_find?_eq_some hfind

/-- A host that moves has an access to make. -/
theorem actions_of_pick_host {s : State} {f : Nat → Nat} {p : Fin 15} (h : s.pick f = some (.host p)) :
    ∃ x rest, s.hosts[p].actions = x :: rest := by
  have hmove := (List.mem_filter.mp (pick_mem_movers h)).2
  simp only [State.canMove, Bool.and_eq_true, Bool.not_eq_true', List.isEmpty_eq_false_iff] at hmove
  exact List.exists_cons_of_ne_nil hmove.2

theorem stepBy_of_pick {f : Nat → Nat} {s : State} {x : Agent} (h : s.pick f = some x) :
    stepBy f s = s.agentStep x := by
  simp only [stepBy, h]

theorem stepBy_of_pick_none {f : Nat → Nat} {s : State} (h : s.pick f = none) : stepBy f s = .next s := by
  simp only [stepBy, h]

/-- Where every access that the hosts will make is the interface's, a step answers such a state. -/
theorem stepBy_hostsOk (f : Nat → Nat) {s : State} (hs : HostsOk s) :
    ∃ t, stepBy f s = .next t ∧ HostsOk t ∧ t.params = s.params := by
  cases hpick : s.pick f with
  | none => exact ⟨s, stepBy_of_pick_none hpick, hs, rfl⟩
  | some x =>
    cases x with
    | exec p =>
      obtain ⟨t, ht⟩ := execStep_next s p
      obtain ⟨hhosts, hparams⟩ := execStep_hosts_params ht
      exact ⟨t, (stepBy_of_pick hpick).trans ht, hostsOk_congr hhosts hparams hs, hparams⟩
    | host p =>
      obtain ⟨x, rest, hx⟩ := actions_of_pick_host hpick
      obtain ⟨t, ht⟩ := hostStep_next_of_actionOk hx (hs p x (hx ▸ List.mem_cons_self))
      exact ⟨t, (stepBy_of_pick hpick).trans ht, hostStep_hostsOk ht hs⟩

/-- Settles O18: a command always completes, and a host's step goes by its next access. -/
theorem stepStopsOnlyOnBadHostAccess : Obligations.StepStopsOnlyOnBadHostAccess := by
  intro f s
  refine ⟨fun p hpick => ?_, stepBy_of_pick_none, fun p hpick => ?_, stepBy_hostsOk f⟩
  · rw [stepBy_of_pick hpick]
    exact execStep_next s p
  · obtain ⟨x, rest, hx⟩ := actions_of_pick_host hpick
    rw [stepBy_of_pick hpick]
    refine ⟨x, rest, hx, fun off width haccess => ⟨fun hok => ?_, fun hbad => ?_⟩,
      fun a haccess => ⟨fun hok => ?_, hostStep_fault hx haccess⟩, fun hwait => ?_⟩
    · refine hostStep_next_of_actionOk hx ?_
      obtain rfl | ⟨w, rfl⟩ := haccess
      · exact isHostAccess_iff.mpr hok
      · exact isHostAccess_iff.mpr hok
    · exact hostStep_refused hx haccess (mt isHostAccess_iff.mp hbad)
    · refine hostStep_next_of_actionOk hx ?_
      obtain rfl | ⟨b, rfl⟩ := haccess
      · exact decide_eq_true hok
      · exact decide_eq_true hok
    · exact hostStep_next_of_actionOk hx (hwait ▸ rfl)

/-! ### What a host's register accesses change (R21, R91, R252) -/

/-- What a register reads depends on no number of a step or of a draw. -/
theorem readReg_tick (s : State) (r : HostReg) : s.tick.readReg r = s.readReg r := by
  cases r <;> rfl

/-- A register write neither reads nor changes the numbers of the step and of the draw. -/
theorem writeReg_tick (s : State) (r : HostReg) (w : Word) :
    s.tick.writeReg r w = { s.writeReg r w with steps := s.steps + 1, draws := s.draws + 1 } := by
  cases r with
  | ctrl =>
    cases h : w.getLsbD 0 with
    | true => rw [writeReg_ctrl_set s h, writeReg_ctrl_set s.tick h]; rfl
    | false => rw [writeReg_ctrl_clear s h, writeReg_ctrl_clear s.tick h]; rfl
  | id | audioCfg | cdpCounter | head | irqStatus | params | cmd | status | ie | arg | res | hole => rfl

/-- A host that has made its first access, put together as the statements write it. -/
theorem hostDone_eq {s : State} {p : Fin 15} {x : HostAction} {rest : List HostAction}
    (h : s.hosts[p].actions = x :: rest) (v : Word) :
    s.hostDone p v = { s with hosts := s.hosts.set p ⟨rest, v⟩ } := by
  simp only [State.hostDone, State.setHost, h, List.tail_cons]

theorem hostStep_regRead_eq {s : State} {p : Fin 15} {off : Nat} {rest : List HostAction} (hoff : off % 4 = 0)
    (hlt : off < 4096) (h : s.hosts[p].actions = .regRead off 4 :: rest) :
    s.hostStep p = .next { s with
      steps := s.steps + 1
      draws := s.draws + 1
      hosts := s.hosts.set p ⟨rest, s.readReg (hostReg s.params.nports off)⟩ } := by
  rw [hostStep_regRead h, if_pos (isHostAccess_iff.mpr ⟨rfl, hoff, hlt⟩), readReg_tick,
    hostDone_eq (s := s.tick) h]
  rfl

theorem hostStep_regWrite_eq {s : State} {p : Fin 15} {off : Nat} {rest : List HostAction} {w : Word}
    (hoff : off % 4 = 0) (hlt : off < 4096) (h : s.hosts[p].actions = .regWrite off 4 w :: rest) :
    s.hostStep p = .next { s.writeReg (hostReg s.params.nports off) w with
      steps := s.steps + 1
      draws := s.draws + 1
      hosts := s.hosts.set p ⟨rest, s.hosts[p].lastRead⟩ } := by
  have hhosts := (writeReg_hosts_params s (hostReg s.params.nports off) w).1
  rw [hostStep_regWrite h, if_pos (isHostAccess_iff.mpr ⟨rfl, hoff, hlt⟩), writeReg_tick,
    hostDone_eq (x := .regWrite off 4 w) (rest := rest) (by simpa [hhosts] using h)]
  simp only [hhosts]

theorem hostStep_wait_eq {s : State} {p : Fin 15} {rest : List HostAction}
    (h : s.hosts[p].actions = .wait :: rest) :
    s.hostStep p = .next { s with
      steps := s.steps + 1
      draws := if s.ports[p].busy then s.draws else s.draws + 1
      hosts := s.hosts.set p
        ⟨if s.ports[p].busy then .wait :: rest else rest, s.readReg (.status p)⟩ } := by
  rw [hostStep_wait h]
  cases hbusy : s.ports[p].busy with
  | true =>
    simp only [if_true, State.readsBusy, h]
    rfl
  | false =>
    simp only [Bool.false_eq_true, if_false, hostDone_eq (s := s.tick) h]
    rfl

/-- Settles O14: the host's steps by the equations above; what each write changes is its definition. -/
theorem hostRegisterAccesses : Obligations.HostRegisterAccesses := by
  refine ⟨fun s p off rest hoff hlt => ⟨hostStep_regRead_eq hoff hlt, fun w => hostStep_regWrite_eq hoff hlt⟩,
    fun s p rest => hostStep_wait_eq, fun s w => ?_⟩
  refine ⟨⟨rfl, rfl, rfl, rfl, rfl⟩, fun hi => rfl, fun p n hi => rfl, fun p => rfl, fun p n hi => rfl, ?_⟩
  rw [BitVec.setWidth_eq_extractLsb' (by decide)]
  rfl

end Sys2Proof.Proofs
end

section
/-! PROOFS. The choice of the agent (20_memory.md rule R71), and what no step depends on: the numbers of the free
choices and what hosts have read. States that differ in these alone have the same steps to come, so the same
buffers of their pending commands (20_memory.md rule R73). -/

namespace Sys2Proof.Proofs

open Sys2Proof
open Sys2Proof.Machine
open Sys2Proof.Safety
open Sys2Proof.Laws

/-! ### Any agent that can move is the one some schedule picks (R71) -/

theorem agent_number_inj {x y : Agent} (h : x.number = y.number) : x = y := by
  cases x with
  | exec p =>
    cases y with
    | exec q => exact congrArg Agent.exec (Fin.ext h)
    | host q => simp only [Agent.number] at h; omega
  | host p =>
    cases y with
    | exec q => simp only [Agent.number] at h; omega
    | host q => exact congrArg Agent.host (Fin.ext (by simp only [Agent.number] at h; omega))

theorem mem_agents (x : Agent) : x ∈ agents := by
  cases x <;> simp [agents]

theorem mem_movers {s : State} {x : Agent} : x ∈ s.movers ↔ s.canMove x = true := by
  simp [State.movers, mem_agents]

/-- A schedule that names an agent that can move picks it. -/
theorem pick_of_named {s : State} {f : Nat → Nat} {x : Agent} (h : s.canMove x = true)
    (hf : f s.steps = x.number) : s.pick f = some x := by
  have hx := mem_movers.mpr h
  unfold State.pick
  split
  · rename_i hnil
    simp [hnil] at hx
  · rename_i y hy
    rw [hy, List.mem_singleton] at hx
    rw [hx]
  · rename_i y z rest hcons
    rw [hcons] at hx
    cases hfind : (y :: z :: rest).find? fun a => decide (a.number = f s.steps) with
    | none => simpa [hf] using List.find?_eq_none.mp hfind x hx
    | some a =>
      have ha := List.find?_some hfind
      rw [decide_eq_true_iff, hf] at ha
      rw [agent_number_inj ha, Option.getD_some]

/-- Settles O6: the schedule that always names the executor at the port. -/
theorem anyPendingCommandCanBeNext : Obligations.AnyPendingCommandCanBeNext := by
  intro s p hp hbusy
  exact ⟨fun _ => (Agent.exec p).number, pick_of_named (Bool.and_eq_true_iff.mpr ⟨decide_eq_true hp, hbusy⟩) rfl⟩

/-! ### What no command depends on -/

/-- `s` with other hosts and another number of the next free choice. -/
def relabel (h : Vector HostAgent 15) (k : Nat) (s : State) : State := { s with hosts := h, steps := k }

/-- The outcome, its next state relabelled. -/
def relabelOutcome (h : Vector HostAgent 15) (k : Nat) :
    Host.Outcome State Fault Refusal → Host.Outcome State Fault Refusal
  | .next s => .next (relabel h k s)
  | .fault r => .fault r
  | .refused r => .refused r

section
variable {h : Vector HostAgent 15} {k : Nat}

/-- A check does not see the labels where neither of its branches does. -/
theorem relabel_ite {b : Prop} [Decidable b] {x y x' y' : Host.Outcome State Fault Refusal}
    (hx : x' = relabelOutcome h k x) (hy : y' = relabelOutcome h k y) :
    (if b then x' else y') = relabelOutcome h k (if b then x else y) := by
  split
  · exact hx
  · exact hy

theorem relabel_forwarded (s : State) : (relabel h k s).forwarded = relabel h k s.forwarded := by
  show (if s.regresses then (relabel h k s).forwardAll s.head.toInt else relabel h k s) =
    relabel h k (if s.regresses then s.forwardAll s.head.toInt else s)
  split <;> rfl

theorem relabel_execMxExtract (s : State) :
    execMxExtract (relabel h k s) = relabelOutcome h k (execMxExtract s) := by
  unfold execMxExtract
  rw [relabel_forwarded]
  exact relabel_ite rfl (relabel_ite rfl (relabel_ite rfl (relabel_ite rfl (relabel_ite rfl
    (relabel_ite rfl rfl)))))

theorem relabel_execMxAddMapping (src : Nat) (x a m : Bool) (s : State) :
    execMxAddMapping src x a m (relabel h k s) = relabelOutcome h k (execMxAddMapping src x a m s) := by
  have hslots : (relabel h k s).chooseSlots x a ((relabel h k s).arg 0) = s.chooseSlots x a (s.arg 0) := rfl
  unfold execMxAddMapping
  dsimp only
  rw [hslots]
  refine relabel_ite rfl (relabel_ite rfl (relabel_ite rfl (relabel_ite rfl (relabel_ite rfl
    (relabel_ite rfl ?_)))))
  cases s.chooseSlots x a (s.arg 0) with
  | error code => rfl
  | ok slots => rfl

/-- The outcome of a parser by what its checks find. -/
theorem relabel_elim {o : Option Nat} {x x' : Host.Outcome State Fault Refusal}
    {y y' : Nat → Host.Outcome State Fault Refusal} (hx : x' = relabelOutcome h k x)
    (hy : ∀ n, y' n = relabelOutcome h k (y n)) : o.elim x' y' = relabelOutcome h k (o.elim x y) := by
  cases o with
  | none => exact hx
  | some n => exact hy n

end

/-- What ANC_PARSE finds in its input (R197). -/
def ancFound (s : State) : Option Nat := ancCheck (fun j => s.read16 (s.arg 0 + 2 * j)) (s.arg 1)

/-- ANC_PARSE where it has found a packet of `n` payload bytes (R197). -/
def ancDelivered (s : State) (n : Nat) : Host.Outcome State Fault Refusal :=
  let w := fun j => s.read16 (s.arg 0 + 2 * j)
  if !inRange s.params (s.arg 2) n then s.raise .dmemFault
  else
    (s.storeRuns .ancParse [(s.arg 2, (List.range n).map fun j => lowByte (w (6 + j)))]).finish
      ((lowByte (w 3)).setWidth 64) ((lowByte (w 4)).setWidth 64) (countBits n) (countBits (7 + n))

/-- What CDP_PARSE finds in its input (R199). -/
def cdpFound (s : State) : Option Nat := cdpCheck (fun j => s.readByte (s.arg 0 + j)) (s.arg 1)

/-- CDP_PARSE where it has found a CDP of `q` triplets (R199). -/
def cdpDelivered (s : State) (q : Nat) : Host.Outcome State Fault Refusal :=
  let b := fun j => s.readByte (s.arg 0 + j)
  if !inRange s.params (s.arg 2) (3 * q) then s.raise .dmemFault
  else
    (s.storeRuns .cdpParse [(s.arg 2, (List.range (3 * q)).map fun j => b (9 + j))]).finish
      (countBits q) ((b 5 ++ b 6 : HalfWord).setWidth 64) (countBits ((b 3).extractLsb' 4 4).toNat) 0#64

theorem execAncParse_eq (s : State) :
    execAncParse s =
      if !isCount (s.arg 1) then s.raise .badArg
      else if !inRange s.params (s.arg 0) (2 * s.arg 1) then s.raise .dmemFault
      else (ancFound s).elim (s.raise .malformed) (ancDelivered s) := by
  unfold execAncParse
  dsimp only
  rw [← ancFound]
  cases ancFound s with
  | none => rfl
  | some n => rfl

theorem execCdpParse_eq (s : State) :
    execCdpParse s =
      if !isCount (s.arg 1) then s.raise .badArg
      else if !inRange s.params (s.arg 0) (s.arg 1) then s.raise .dmemFault
      else (cdpFound s).elim (s.raise .malformed) (cdpDelivered s) := by
  unfold execCdpParse
  dsimp only
  rw [← cdpFound]
  cases cdpFound s with
  | none => rfl
  | some n => rfl

/-- No command sees the hosts or the number of the next free choice, or changes them. -/
theorem exec_relabel (h : Vector HostAgent 15) (k : Nat) (i : Instr) (s : State) :
    exec i (relabel h k s) = relabelOutcome h k (exec i s) := by
  cases i with
  | nop | mxSlotMap => rfl
  | mxExtract => exact relabel_execMxExtract s
  | mxAddMapping src x a m => exact relabel_execMxAddMapping src x a m s
  | ancParse =>
    simp only [exec, execAncParse_eq]
    exact relabel_ite rfl (relabel_ite rfl (relabel_elim rfl fun _ => relabel_ite rfl rfl))
  | cdpParse =>
    simp only [exec, execCdpParse_eq]
    exact relabel_ite rfl (relabel_ite rfl (relabel_elim rfl fun _ => relabel_ite rfl rfl))
  | rbBufferStart | rbAvailable | rbFlushConsumed | mxRemoveMapping | mxBufferStart | mxAvailableVirtual =>
    exact relabel_ite rfl rfl
  | rbForwardTo | rbInfo | mxSetAudioConfig | ancPad | ancAfd | pxPackPlane | pxUnpackPlane =>
    exact relabel_ite rfl (relabel_ite rfl rfl)
  | rbTagVirtualConsumed | mxAlignedInterleave | ancData10 | ancCaptions | pxPackWords | pxUnpackWords =>
    exact relabel_ite rfl (relabel_ite rfl (relabel_ite rfl rfl))
  | rbRead =>
    exact relabel_ite rfl (relabel_ite rfl (relabel_ite rfl (relabel_ite rfl (relabel_ite rfl
      (relabel_ite rfl (relabel_ite rfl rfl))))))
  | rbPush =>
    exact relabel_ite rfl (relabel_ite rfl (relabel_ite rfl (relabel_ite rfl (relabel_ite rfl
      (relabel_ite rfl (relabel_ite rfl (relabel_ite rfl (relabel_ite rfl rfl))))))))

/-! ### States that differ in nothing that a step depends on -/

/-- `t` is `s` but for the number of the next free choice and what its hosts have read. -/
def Alike (s t : State) : Prop :=
  ∃ (h : Vector HostAgent 15) (k : Nat), (∀ q : Fin 15, h[q].actions = s.hosts[q].actions) ∧ t = relabel h k s

theorem Alike.refl (s : State) : Alike s s := ⟨s.hosts, s.steps, fun _ => rfl, rfl⟩

theorem Alike.symm {s t : State} (h : Alike s t) : Alike t s := by
  obtain ⟨g, k, hg, rfl⟩ := h
  exact ⟨s.hosts, s.steps, fun q => (hg q).symm, rfl⟩

theorem Alike.trans {s t u : State} (h : Alike s t) (h' : Alike t u) : Alike s u := by
  obtain ⟨g, k, hg, rfl⟩ := h
  obtain ⟨g', k', hg', rfl⟩ := h'
  exact ⟨g', k', fun q => (hg' q).trans (hg q), rfl⟩

theorem Alike.ports {s t : State} (h : Alike s t) : t.ports = s.ports := by
  obtain ⟨g, k, -, rfl⟩ := h
  rfl

theorem Alike.params {s t : State} (h : Alike s t) : t.params = s.params := by
  obtain ⟨g, k, -, rfl⟩ := h
  rfl

theorem Alike.actions {s t : State} (h : Alike s t) (q : Fin 15) : t.hosts[q].actions = s.hosts[q].actions := by
  obtain ⟨g, k, hg, rfl⟩ := h
  exact hg q

/-- A host that gets another value for what it has read. -/
theorem setHost_alike (s : State) {p : Fin 15} {a : HostAgent} (h : a.actions = s.hosts[p].actions) :
    Alike s (s.setHost p a) := by
  refine ⟨s.hosts.set p a, s.steps, fun q => ?_, rfl⟩
  by_cases hq : q = p
  · subst hq
    exact (congrArg HostAgent.actions (setHost_host_self s q a)).trans h
  · exact congrArg HostAgent.actions (setHost_host_ne s a hq)

/-- A WAIT that reads BUSY again. -/
theorem readsBusy_alike (s : State) (p : Fin 15) : Alike s (s.readsBusy p) := by
  obtain ⟨h, k, hh, heq⟩ := setHost_alike { s with steps := s.steps + 1 } (p := p)
    (a := ⟨s.hosts[p].actions, s.ports[p].statusWord⟩) rfl
  exact ⟨h, k, hh, heq⟩

theorem hostDone_alike {s t : State} (h : Alike s t) (p : Fin 15) (v w : Word) :
    Alike (s.hostDone p v) (t.hostDone p w) := by
  obtain ⟨g, k, hg, rfl⟩ := h
  refine ⟨g.set p ⟨g[p].actions.tail, w⟩, k, fun q => ?_, rfl⟩
  show ((relabel g k s).hostDone p w).hosts[q].actions = _
  by_cases hq : q = p
  · subst hq
    simp only [State.hostDone, setHost_host_self, ← hg]
    rfl
  · simp only [State.hostDone, setHost_host_ne _ _ hq, ← hg]
    rfl

theorem writeReg_alike {s t : State} (h : Alike s t) (r : HostReg) (w : Word) :
    Alike (s.writeReg r w) (t.writeReg r w) := by
  obtain ⟨g, k, hg, rfl⟩ := h
  cases r with
  | ctrl =>
    cases hw : w.getLsbD 0 with
    | true => rw [writeReg_ctrl_set _ hw, writeReg_ctrl_set _ hw]; exact ⟨g, k, hg, rfl⟩
    | false => rw [writeReg_ctrl_clear _ hw, writeReg_ctrl_clear _ hw]; exact ⟨g, k, hg, rfl⟩
  | id | audioCfg | cdpCounter | head | irqStatus | params | cmd | status | ie | arg | res | hole =>
    exact ⟨g, k, hg, rfl⟩

theorem tick_alike {s t : State} (h : Alike s t) : Alike s.tick t.tick := by
  obtain ⟨g, k, hg, rfl⟩ := h
  exact ⟨g, k + 1, hg, rfl⟩

/-- An access that a condition guards, made in states that are alike. -/
theorem guarded_alike {b : Prop} [Decidable b] {x y u : State} {stop stop' : Host.Outcome State Fault Refusal}
    (h : (if b then .next x else stop) = .next u) (hstop : stop ≠ .next u) (hxy : Alike x y) :
    ∃ v, (if b then .next y else stop') = .next v ∧ Alike u v := by
  split at h
  · rename_i hb
    obtain rfl := Host.Outcome.next.inj h
    exact ⟨y, if_pos hb, hxy⟩
  · exact absurd h hstop

/-- A host's access does the same to states that are alike. -/
theorem hostAct_alike {s t : State} (h : Alike s t) {p : Fin 15} {x : HostAction} {u : State}
    (hu : s.hostAct p x = .next u) : ∃ v, t.hostAct p x = .next v ∧ Alike u v := by
  obtain ⟨g, k, hg, rfl⟩ := id h
  cases x with
  | regRead off width => exact guarded_alike hu nofun (hostDone_alike h p _ _)
  | regWrite off width w => exact guarded_alike hu nofun (hostDone_alike (writeReg_alike h _ w) p _ _)
  | dmemRead a =>
    refine guarded_alike hu nofun (hostDone_alike ?_ p _ _)
    exact ⟨g, k, hg, rfl⟩
  | dmemWrite a b =>
    refine guarded_alike hu nofun (hostDone_alike ?_ p _ _)
    exact ⟨g, k, hg, rfl⟩
  | wait =>
    obtain rfl := Host.Outcome.next.inj hu
    exact ⟨_, rfl, hostDone_alike h p _ _⟩

theorem hostWaits_of_alike {s t : State} (h : Alike s t) (p : Fin 15) : t.hostWaits p = s.hostWaits p := by
  simp only [State.hostWaits, h.actions, h.ports]

theorem hostMove_alike {s t : State} (h : Alike s t) {p : Fin 15} {u : State} (hu : s.hostMove p = .next u) :
    ∃ v, t.hostMove p = .next v ∧ Alike u v := by
  obtain ⟨hnil, rfl⟩ | ⟨hwaits, rfl⟩ | ⟨x, rest, hcons, hwaits, hact⟩ := hostMove_cases hu
  · exact ⟨t, hostMove_of_nil ((h.actions p).trans hnil), h⟩
  · exact ⟨_, hostMove_of_waits ((hostWaits_of_alike h p).trans hwaits),
      ((readsBusy_alike s p).symm.trans h).trans (readsBusy_alike t p)⟩
  · obtain ⟨v, hv, huv⟩ := hostAct_alike (tick_alike h) hact
    exact ⟨v, (hostMove_of_cons ((h.actions p).trans hcons) ((hostWaits_of_alike h p).trans hwaits)).trans hv,
      huv⟩

/-- The executor's step does not see the hosts or the number of the next free choice. -/
theorem execStep_relabel (g : Vector HostAgent 15) (k : Nat) (s : State) {p : Fin 15} {c : Pending}
    (hc : s.ports[p].pending = some c) :
    (relabel g k s).execStep p = relabelOutcome g (k + 1) (s.execStep p) := by
  have hserve : (relabel g k s).serve p = relabel g (k + 1) (s.serve p) := rfl
  have hc' : (relabel g k s).ports[p].pending = some c := hc
  simp only [State.execStep, hc, hc', hserve, State.perform]
  cases decode c.word with
  | ok i => exact exec_relabel g (k + 1) i (s.serve p)
  | error e => rfl

theorem execStep_of_idle {s : State} {p : Fin 15} (h : s.ports[p].pending = none) : s.execStep p = .next s := by
  simp only [State.execStep, h]

theorem execStep_alike {s t : State} (h : Alike s t) {p : Fin 15} {u : State} (hu : s.execStep p = .next u) :
    ∃ v, t.execStep p = .next v ∧ Alike u v := by
  cases hc : s.ports[p].pending with
  | none =>
    obtain rfl := Host.Outcome.next.inj ((execStep_of_idle hc).symm.trans hu)
    exact ⟨t, execStep_of_idle (by rw [h.ports, hc]), h⟩
  | some c =>
    obtain ⟨g, k, hg, rfl⟩ := h
    rw [execStep_relabel g k s hc, hu]
    refine ⟨_, rfl, g, k + 1, fun q => ?_, rfl⟩
    rw [(execStep_hosts_params hu).1, hg]

theorem agentMove_alike {s t : State} (h : Alike s t) {x : Agent} {u : State} (hu : s.agentMove x = .next u) :
    ∃ v, t.agentMove x = .next v ∧ Alike u v := by
  cases x with
  | exec p => exact execStep_alike h hu
  | host p => exact hostMove_alike h hu

theorem canMove_of_alike {s t : State} (h : Alike s t) (x : Agent) : t.canMove x = s.canMove x := by
  cases x with
  | exec p => simp only [State.canMove, h.ports, h.params]
  | host p => simp only [State.canMove, h.actions, h.params]

theorem idles_of_alike {s t : State} (h : Alike s t) (x : Agent) : t.idles x = s.idles x := by
  cases x with
  | exec p => rfl
  | host p => exact hostWaits_of_alike h p

theorem nexts_alike {s t u : State} (h : Alike s t) {p : Fin 15} (hu : u ∈ s.nexts p) :
    ∃ v ∈ t.nexts p, Alike u v := by
  obtain ⟨x, hx, hmove, hidle, hne, hu, hbusy⟩ := mem_nexts.mp hu
  obtain ⟨v, hv, huv⟩ := agentMove_alike h hu
  exact ⟨v, mem_nexts.mpr ⟨x, hx, (canMove_of_alike h x).trans hmove, (idles_of_alike h x).trans hidle, hne, hv,
    by rw [huv.ports, hbusy]⟩, huv⟩

theorem futuresWithin_alike {n : Nat} {s t u : State} (h : Alike s t) {p : Fin 15}
    (hu : u ∈ futuresWithin n s p) : ∃ v ∈ futuresWithin n t p, Alike u v := by
  induction n generalizing s t with
  | zero =>
    obtain rfl : u = s := by simpa [futuresWithin] using hu
    exact ⟨t, self_mem_futuresWithin 0 t p, h⟩
  | succ n ih =>
    rcases mem_futuresWithin_succ.mp hu with rfl | ⟨w, hw, hu⟩
    · exact ⟨t, self_mem_futuresWithin _ t p, h⟩
    · obtain ⟨w', hw', hww'⟩ := nexts_alike h hw
      obtain ⟨v, hv, huv⟩ := ih hww' hu
      exact ⟨v, mem_futuresWithin_succ.mpr (.inr ⟨w', hw', hv⟩), huv⟩

theorem stepsToCome_of_alike {s t : State} (h : Alike s t) : t.stepsToCome = s.stepsToCome := by
  simp only [State.stepsToCome, h.actions, h.ports]

/-- States that are alike have the same states to come, but for what no step depends on. -/
theorem futures_alike {s t u : State} (h : Alike s t) {p : Fin 15} (hu : u ∈ s.futures p) :
    ∃ v ∈ t.futures p, Alike u v := by
  rw [State.futures, stepsToCome_of_alike h]
  exact futuresWithin_alike h hu

theorem wouldSucceed_of_alike {s t : State} (h : Alike s t) (p : Fin 15) :
    t.wouldSucceed p = s.wouldSucceed p := by
  refine Bool.eq_iff_iff.mpr ?_
  rw [wouldSucceed_iff, wouldSucceed_iff]
  constructor
  · rintro ⟨u, hu, hcode⟩
    obtain ⟨v, hv, huv⟩ := execStep_alike h.symm hu
    exact ⟨v, hv, by rw [huv.ports, hcode]⟩
  · rintro ⟨u, hu, hcode⟩
    obtain ⟨v, hv, huv⟩ := execStep_alike h hu
    exact ⟨v, hv, by rw [huv.ports, hcode]⟩

/-- A pending command has the same buffers in states that are alike. -/
theorem buffersAt_of_alike {s t : State} (h : Alike s t) (p : Fin 15) : t.buffersAt p = s.buffersAt p := by
  have hsucceed := wouldSucceed_of_alike h p
  obtain ⟨g, k, -, rfl⟩ := h
  have hperformed : ((relabel g k s).serve p).performed = (s.serve p).performed := rfl
  unfold State.buffersAt
  rw [hperformed, hsucceed]
  rfl

/-- A pending command may have the same buffers, when it is performed, in states that are alike. -/
theorem exists_buffersAt_of_alike {s t u : State} (h : Alike s t) {p : Fin 15} (hu : u ∈ s.futures p) :
    ∃ v ∈ t.futures p, v.buffersAt p = u.buffersAt p := by
  obtain ⟨v, hv, huv⟩ := futures_alike h hu
  exact ⟨v, hv, buffersAt_of_alike huv p⟩

end Sys2Proof.Proofs
end

section
/-! PROOFS. What a host's data-memory accesses do, and what the pending commands meet after them (20_memory.md rules
R72, R73; 70_reset_and_hazards.md rule R301). -/

namespace Sys2Proof.Proofs

open Sys2Proof
open Sys2Proof.Machine
open Sys2Proof.Safety
open Sys2Proof.Laws

/-! ### What a pending command meets -/

theorem serve_hostWrites {s : State} {q : Fin 15} {c : Pending} (h : s.ports[q].pending = some c) :
    (s.serve q).hostWrites = c.hostWrote := by
  simp only [State.hostWrites, serve_command h]

theorem serve_hostReads {s : State} {q : Fin 15} {c : Pending} (h : s.ports[q].pending = some c) :
    (s.serve q).hostReads = c.hostRead := by
  simp only [State.hostReads, serve_command h]

section
variable {s : State} {q : Fin 15} {c : Pending} {i : Instr}

theorem serve_violations (hc : s.ports[q].pending = some c) :
    (s.serve q).violations i = ((s.serve q).buffers i).violations c.hostWrote c.hostRead := by
  rw [State.violations, State.violated, serve_hostWrites hc, serve_hostReads hc]

/-- A pending command reads a draw where hosts have raced with it on a range of its, else the memory's byte. -/
theorem serve_readByte (hc : s.ports[q].pending = some c) (hd : decode c.word = .ok i) (x : Nat) :
    (Races ((s.serve q).buffers i) c.hostWrote c.hostRead x →
        (s.serve q).readByte x = Config.raceByte .commandRead (s.draws + 1) x) ∧
      (¬ Races ((s.serve q).buffers i) c.hostWrote c.hostRead x →
        (s.serve q).readByte x = Memory.read s.dmem x) := by
  rw [readByte_of_performed (serve_performed hc hd), serve_violations hc, ← raced_iff]
  exact ⟨fun h => if_pos h, fun h => if_neg h⟩

/-- An output range on which hosts have raced with a pending command ends as draws. -/
theorem serve_storeRuns_drawn (hc : s.ports[q].pending = some c) (hs : MemoryOk s) (runs : List Run) {r : Range}
    {y : Nat} (hr : r ∈ ((s.serve q).buffers i).writes.map Buffer.range) (hy : r.holds y = true)
    (hv : Violated ((s.serve q).buffers i) c.hostWrote c.hostRead y) {x : Nat} (hx : r.holds x = true) :
    Memory.read ((s.serve q).storeRuns i runs).dmem x = Config.raceByte .commandWrite (s.draws + 1) x := by
  refine storeRuns_read_raced (s := s.serve q) hs ⟨r, mem_racedOutputs.mpr ⟨List.mem_map.mp hr, y, ?_, hy⟩, hx⟩
  rw [serve_violations hc]
  exact mem_buffers_violations.mpr hv

end

/-- What every pending command meets in `t`, as the statement says it. -/
theorem pending_meets (t : State) (q : Fin 15) (c : Pending) (i : Instr) (hc : t.ports[q].pending = some c)
    (hd : decode c.word = .ok i) :
    let b := (t.serve q).buffers i
    (∀ x : Nat,
      (Races b c.hostWrote c.hostRead x → (t.serve q).readByte x = Config.raceByte .commandRead (t.draws + 1) x) ∧
      (¬ Races b c.hostWrote c.hostRead x → (t.serve q).readByte x = Memory.read t.dmem x)) ∧
    ∀ (runs : List Run) (r : Range) (y : Nat), MemoryOk t → r ∈ b.writes.map Buffer.range →
      r.holds y = true → Violated b c.hostWrote c.hostRead y → ∀ x : Nat, r.holds x = true →
        Memory.read ((t.serve q).storeRuns i runs).dmem x = Config.raceByte .commandWrite (t.draws + 1) x :=
  ⟨serve_readByte hc hd, fun runs _ _ ht hr hy hv _ hx => serve_storeRuns_drawn hc ht runs hr hy hv hx⟩

/-- A command accepted at an idle port meets the memory as it is. -/
theorem accepted_unraced {t : State} {p : Fin 15} (h : t.ports[p].busy = false) (w : Word) :
    ((t.writeReg (.cmd p) w).serve p).touches = [] ∧
      ∀ x : Nat, ((t.writeReg (.cmd p) w).serve p).readByte x = Memory.read t.dmem x := by
  have hpending : (t.writeReg (.cmd p) w).ports[p].pending = some ⟨w, t.ports[p].args, [], []⟩ := by
    simp only [State.writeReg, Port.writeCmd, h, Bool.false_eq_true, if_false, setPort_port_self]
  have htouches : ((t.writeReg (.cmd p) w).serve p).touches = [] := by
    rw [State.touches, serve_hostWrites hpending, serve_hostReads hpending]
    rfl
  exact ⟨htouches, readByte_of_unraced fun i _ => violations_of_untouched htouches i⟩

/-! ### A host's accesses of the data memory -/

section
variable {s : State} {p : Fin 15} {a : Nat} {rest : List HostAction}

/-- The state in which host `p` has written `b` to byte `a`. -/
def afterWrite (s : State) (p : Fin 15) (a : Nat) (b : Byte) (rest : List HostAction) : State :=
  { s with
    steps := s.steps + 1
    draws := s.draws + 1
    dmem := Memory.write s.dmem a b
    ports := Vector.ofFn fun q => s.ports[q].noteHostWrite a
    hosts := s.hosts.set p ⟨rest, s.hosts[p].lastRead⟩ }

theorem hostStep_dmemWrite_eq {b : Byte} (ha : a < s.params.dmemSize)
    (h : s.hosts[p].actions = .dmemWrite a b :: rest) :
    s.hostStep p = .next (afterWrite s p a b rest) := by
  rw [hostStep_dmemWrite h, if_pos ha]
  simp only [State.hostDone, State.setHost, tick_hosts, h, List.tail_cons]
  rfl

theorem afterWrite_port (b : Byte) (q : Fin 15) :
    (afterWrite s p a b rest).ports[q] = s.ports[q].noteHostWrite a := by
  simp [afterWrite]

/-- A state in which a host has made a read of the data memory, but for what it got. -/
def afterRead (s : State) (p : Fin 15) (a : Nat) (rest : List HostAction) (v : Word) : State :=
  { s with
    steps := s.steps + 1
    draws := s.draws + 1
    ports := Vector.ofFn fun q => s.ports[q].noteHostRead a
    hosts := s.hosts.set p ⟨rest, v⟩ }

theorem setHost_afterRead (v w : Word) :
    (afterRead s p a rest v).setHost p ⟨(afterRead s p a rest v).hosts[p].actions, w⟩ =
      afterRead s p a rest w := by
  simp [afterRead, State.setHost]

/-- What host `p` gets that reads byte `a`. -/
def gotByte (s : State) (p : Fin 15) (a : Nat) (rest : List HostAction) : Byte :=
  (afterRead s p a rest ((Memory.read s.dmem a).setWidth 32)).hostReadByte a

theorem hostStep_dmemRead_eq (ha : a < s.params.dmemSize) (h : s.hosts[p].actions = .dmemRead a :: rest) :
    s.hostStep p = .next (afterRead s p a rest ((gotByte s p a rest).setWidth 32)) := by
  have hmove : s.hostMove p = .next (afterRead s p a rest ((Memory.read s.dmem a).setWidth 32)) := by
    rw [hostMove_dmemRead h, if_pos ha]
    simp only [State.hostDone, State.setHost, tick_hosts, h, List.tail_cons]
    rfl
  rw [hostStep_of_read h hmove, setHost_afterRead, gotByte]

theorem afterRead_port (v : Word) (q : Fin 15) :
    (afterRead s p a rest v).ports[q] = s.ports[q].noteHostRead a := by
  simp [afterRead]

theorem afterRead_alike (v w : Word) : Alike (afterRead s p a rest v) (afterRead s p a rest w) := by
  rw [← setHost_afterRead v w]
  exact setHost_alike _ rfl

end

/-- A read of the data memory races as the pending commands' buffers are in the states to come, whatever hosts have
read. -/
theorem readRaces_of_alike {s t : State} (h : Alike s t) {q : Fin 15} {a : Nat} :
    s.readRaces q a = true ↔ ∃ c, t.ports[q].pending = some c ∧
      ∃ u ∈ t.futures q, Races (u.buffersAt q) c.hostWrote c.hostRead a := by
  rw [readRaces_iff, h.ports]
  refine exists_congr fun c => and_congr_right fun _ => ⟨fun ⟨u, hu, hr⟩ => ?_, fun ⟨u, hu, hr⟩ => ?_⟩
  · obtain ⟨v, hv, hvu⟩ := exists_buffersAt_of_alike h hu
    exact ⟨v, hv, hvu ▸ hr⟩
  · obtain ⟨v, hv, hvu⟩ := exists_buffersAt_of_alike h.symm hu
    exact ⟨v, hv, hvu ▸ hr⟩

/-- A host gets a draw where its read races, as the state after the read shows, else the memory's byte. -/
theorem gotByte_eq (s : State) (p : Fin 15) (a : Nat) (rest : List HostAction) (w : Word) :
    let races := fun q : Fin 15 => ∃ c, (afterRead s p a rest w).ports[q].pending = some c ∧
      ∃ u ∈ (afterRead s p a rest w).futures q, Races (u.buffersAt q) c.hostWrote c.hostRead a
    ((∃ q, races q) → gotByte s p a rest = Config.raceByte .hostRead (s.draws + 1) a) ∧
      ((∀ q, ¬ races q) → gotByte s p a rest = Memory.read s.dmem a) := by
  have hraces := fun q => readRaces_of_alike (q := q) (a := a)
    (afterRead_alike (s := s) (p := p) (a := a) (rest := rest) ((Memory.read s.dmem a).setWidth 32) w)
  obtain ⟨hraced, hunraced⟩ := @hostReadByte_eq (afterRead s p a rest ((Memory.read s.dmem a).setWidth 32)) a
  exact ⟨fun ⟨q, hq⟩ => hraced ⟨q, (hraces q).mpr hq⟩,
    fun hq => hunraced fun q => Bool.eq_false_iff.mpr fun h => hq q ((hraces q).mp h)⟩

/-- Settles O17: the steps by their equations; which reads race does not depend on what the read returns. -/
theorem hostMemoryAccesses : Obligations.HostMemoryAccesses := by
  intro s p a rest ha
  refine ⟨fun b hs hactions => ?_, fun hactions => ?_⟩
  · refine ⟨afterWrite s p a b rest, hostStep_dmemWrite_eq ha hactions,
      by simp [afterWrite, SameConfig, SameSources, SameHead], by simp [afterWrite], read_write_self hs a b,
      fun x hx => read_write_ne _ _ hx, afterWrite_port b, fun w hidle => accepted_unraced ?_ w, ?_⟩
    · rw [afterWrite_port]
      simpa [Port.busy, Port.noteHostWrite] using hidle
    · exact pending_meets _
  · refine ⟨afterRead s p a rest ((gotByte s p a rest).setWidth 32), gotByte s p a rest,
      hostStep_dmemRead_eq ha hactions, by simp [afterRead, SameConfig, SameSources, SameHead],
      by simp [afterRead], by simp [afterRead], afterRead_port _, gotByte_eq s p a rest _, ?_⟩
    exact pending_meets _

end Sys2Proof.Proofs
end

section
/-! PROOFS. The states in which a pending command may be performed are those to come: no step adds to them, and each
of them some schedule brings about (20_memory.md rules R71, R73). -/

namespace Sys2Proof.Proofs

open Sys2Proof
open Sys2Proof.Machine
open Sys2Proof.Safety
open Sys2Proof.Laws

/-! ### The steps to come get fewer -/

/-- A sum over the ports whose terms rise at one port only. -/
theorem sum_ports_le {f g : Fin 15 → Nat} {m n : Nat} (p : Fin 15) (hp : f p + m ≤ g p + n)
    (h : ∀ q, q ≠ p → f q ≤ g q) :
    ((List.finRange 15).map f).sum + m ≤ ((List.finRange 15).map g).sum + n := by
  rw [← Fin.sum_univ_def, ← Fin.sum_univ_def, ← Finset.add_sum_erase _ f (Finset.mem_univ p),
    ← Finset.add_sum_erase _ g (Finset.mem_univ p)]
  have := Finset.sum_le_sum (s := Finset.univ.erase p) fun q hq => h q (Finset.ne_of_mem_erase hq)
  omega

/-- The accesses that the hosts still have to make. -/
def actionsToCome (s : State) : Nat := ((List.finRange 15).map fun q => s.hosts[q].actions.length).sum

/-- The commands that pend. -/
def busyPorts (s : State) : Nat := ((List.finRange 15).map fun q => if s.ports[q].busy then 1 else 0).sum

theorem stepsToCome_eq (s : State) : s.stepsToCome = 2 * actionsToCome s + busyPorts s := by
  simp only [State.stepsToCome, actionsToCome, busyPorts, List.sum_map_add, List.sum_map_mul_left]

theorem busyPorts_le {s t : State} {n : Nat} (p : Fin 15)
    (hp : (if t.ports[p].busy then 1 else 0) ≤ (if s.ports[p].busy then 1 else 0) + n)
    (h : ∀ q, q ≠ p → t.ports[q].busy = true → s.ports[q].busy = true) : busyPorts t ≤ busyPorts s + n := by
  have hle : ∀ q, q ≠ p → (if t.ports[q].busy then 1 else 0) ≤ if s.ports[q].busy then 1 else 0 := by
    intro q hq
    split
    · rw [if_pos (h q hq ‹_›)]
    · exact Nat.zero_le _
  rw [← Nat.add_zero (busyPorts t)]
  exact sum_ports_le p hp hle

/-- The executor's step ends with the port not busy, and reaches no other port. -/
theorem execStep_ports {s t : State} {p : Fin 15} (h : s.execStep p = .next t) :
    t.ports[p].busy = false ∧ ∀ q, q ≠ p → t.ports[q] = s.ports[q] := by
  cases hc : s.ports[p].pending with
  | none =>
    obtain rfl := Host.Outcome.next.inj ((execStep_of_idle hc).symm.trans h)
    exact ⟨by simp only [Port.busy, hc, Option.isSome_none], fun _ _ => rfl⟩
  | some c =>
    obtain ⟨u, code, r0, r1, r2, r3, hchange, hu⟩ := perform_completes (s.serve p) c.word
    simp only [State.execStep, hc, hu] at h
    obtain rfl := Host.Outcome.next.inj h
    obtain ⟨hports, -, hserving, -⟩ := hchange.outside
    obtain rfl : u.serving = p := hserving
    exact ⟨by rw [complete_port_self]; rfl, fun q hq => by rw [complete_port_ne u _ _ hq, hports]; rfl⟩

theorem execStep_stepsToCome {s t : State} {p : Fin 15} (hbusy : s.ports[p].busy = true)
    (h : s.execStep p = .next t) : t.stepsToCome + 1 ≤ s.stepsToCome := by
  obtain ⟨hp, hne⟩ := execStep_ports h
  have hactions : actionsToCome t = actionsToCome s := by
    simp only [actionsToCome, (execStep_hosts_params h).1]
  have hports : busyPorts t + 1 ≤ busyPorts s + 0 := by
    refine sum_ports_le p ?_ fun q hq => ?_
    · simp only [hp, hbusy, Bool.false_eq_true, if_true, if_false, Nat.zero_add, Nat.add_zero, le_refl]
    · rw [hne q hq]
  rw [stepsToCome_eq, stepsToCome_eq]
  omega

theorem setPort_busyPorts (s : State) (p : Fin 15) (x : Port) : busyPorts (s.setPort p x) ≤ busyPorts s + 1 := by
  refine busyPorts_le p ?_ fun q hq hb => ?_
  · split <;> omega
  · rwa [setPort_port_ne s x hq] at hb

theorem blockReset_busyPorts (s : State) : busyPorts s.blockReset ≤ busyPorts s + 1 := by
  refine busyPorts_le 0 (by split <;> omega) fun q _ hb => ?_
  rw [(blockReset_atReset s).port] at hb
  exact absurd hb Bool.false_ne_true

/-- A register write makes one port busy at most (R24). -/
theorem writeReg_busyPorts (s : State) (r : HostReg) (w : Word) : busyPorts (s.writeReg r w) ≤ busyPorts s + 1 := by
  cases r with
  | ctrl =>
    cases hw : w.getLsbD 0 with
    | true => rw [writeReg_ctrl_set s hw]; exact blockReset_busyPorts s
    | false => rw [writeReg_ctrl_clear s hw]; exact Nat.le_add_right _ 1
  | cmd p | status p | ie p | arg p => exact setPort_busyPorts s p _
  | id | audioCfg | cdpCounter | head | irqStatus | params | res | hole => exact Nat.le_add_right _ 1

theorem ofFn_busyPorts (s : State) {f : Port → Port} (hf : ∀ x, (f x).busy = x.busy) (m : Memory) :
    busyPorts { s with dmem := m, ports := Vector.ofFn fun q => f s.ports[q] } = busyPorts s := by
  simp [busyPorts, hf]

/-- A host that has made its first access has fewer steps to come, though it may have made one port busy. -/
theorem hostDone_stepsToCome {s u : State} {p : Fin 15} {x : HostAction} {rest : List HostAction}
    (hx : s.hosts[p].actions = x :: rest) (hhosts : u.hosts = s.hosts) (hbusy : busyPorts u ≤ busyPorts s + 1)
    (v : Word) : (u.hostDone p v).stepsToCome + 1 ≤ s.stepsToCome := by
  have hactions : actionsToCome (u.hostDone p v) + 1 ≤ actionsToCome s + 0 := by
    refine sum_ports_le p ?_ fun q hq => ?_
    · simp only [State.hostDone, setHost_host_self, hhosts, hx, List.tail_cons, List.length_cons, Nat.add_zero,
        le_refl]
    · rw [State.hostDone, setHost_host_ne _ _ hq, hhosts]
  have hports : busyPorts (u.hostDone p v) = busyPorts u := rfl
  rw [stepsToCome_eq, stepsToCome_eq]
  omega

/-- A host's access leaves fewer steps to come. -/
theorem hostAct_stepsToCome {s t : State} {p : Fin 15} {x : HostAction} {rest : List HostAction}
    (hx : s.hosts[p].actions = x :: rest) (h : s.hostAct p x = .next t) : t.stepsToCome + 1 ≤ s.stepsToCome := by
  cases x with
  | regRead off width =>
    obtain rfl := eq_of_guarded_next h nofun
    exact hostDone_stepsToCome hx rfl (Nat.le_add_right _ 1) _
  | regWrite off width w =>
    obtain rfl := eq_of_guarded_next h nofun
    exact hostDone_stepsToCome hx (writeReg_hosts_params _ _ _).1 (writeReg_busyPorts _ _ _) _
  | dmemRead a =>
    obtain rfl := eq_of_guarded_next h nofun
    have hports := ofFn_busyPorts s (f := fun x => x.noteHostRead a)
      (fun x => by simp [Port.busy, Port.noteHostRead]) s.dmem
    exact hostDone_stepsToCome (u := { s with ports := Vector.ofFn fun q => s.ports[q].noteHostRead a }) hx rfl
      (by omega) _
  | dmemWrite a b =>
    obtain rfl := eq_of_guarded_next h nofun
    have hports := ofFn_busyPorts s (f := fun x => x.noteHostWrite a)
      (fun x => by simp [Port.busy, Port.noteHostWrite]) (Memory.write s.dmem a b)
    exact hostDone_stepsToCome (u := { s with
      dmem := Memory.write s.dmem a b, ports := Vector.ofFn fun q => s.ports[q].noteHostWrite a }) hx rfl
      (by omega) _
  | wait =>
    obtain rfl := Host.Outcome.next.inj h
    exact hostDone_stepsToCome hx rfl (Nat.le_add_right _ 1) _

/-- A host that can move has an access to make. -/
theorem actions_of_canMove_host {s : State} {p : Fin 15} (h : s.canMove (.host p) = true) :
    s.hosts[p].actions ≠ [] := by
  simp only [State.canMove, Bool.and_eq_true, Bool.not_eq_true', List.isEmpty_eq_false_iff] at h
  exact h.2

theorem busy_of_canMove_exec {s : State} {p : Fin 15} (h : s.canMove (.exec p) = true) :
    s.ports[p].busy = true :=
  (Bool.and_eq_true_iff.mp h).2

/-- Every step of an agent but a WAIT that reads BUSY again leaves fewer steps to come. -/
theorem agentMove_stepsToCome {s t : State} {x : Agent} (hmove : s.canMove x = true) (hidle : s.idles x = false)
    (h : s.agentMove x = .next t) : t.stepsToCome + 1 ≤ s.stepsToCome := by
  cases x with
  | exec p => exact execStep_stepsToCome (busy_of_canMove_exec hmove) h
  | host p =>
    obtain ⟨hnil, -⟩ | ⟨hwaits, -⟩ | ⟨x, rest, hx, -, hact⟩ := hostMove_cases h
    · exact absurd hnil (actions_of_canMove_host hmove)
    · exact absurd (hidle.symm.trans hwaits) Bool.false_ne_true
    · exact hostAct_stepsToCome (s := s.tick) hx hact

/-- What may come after a next state may come. -/
theorem futures_of_nexts {s t u : State} {p : Fin 15} (ht : t ∈ s.nexts p) (hu : u ∈ t.futures p) :
    u ∈ s.futures p := by
  obtain ⟨x, -, hmove, hidle, -, h, -⟩ := mem_nexts.mp ht
  exact futuresWithin_mono (agentMove_stepsToCome hmove hidle h) (mem_futuresWithin_succ.mpr (.inr ⟨t, ht, hu⟩))

/-! ### No step adds to the buffers that a pending command may have -/

/-- A step of an agent is its move where nothing races, but for what a host reads. -/
theorem agentMove_of_agentStep {s t : State} {x : Agent} (h : s.agentStep x = .next t) :
    ∃ u, s.agentMove x = .next u ∧ Alike u t := by
  cases x with
  | exec p => exact ⟨t, h, .refl t⟩
  | host p =>
    obtain ⟨u, hu, rfl | ⟨v, rfl⟩⟩ := hostStep_cases h
    · exact ⟨t, hu, .refl t⟩
    · exact ⟨u, hu, setHost_alike u rfl⟩

theorem agentStep_of_agentMove {s u : State} {x : Agent} (h : s.agentMove x = .next u) :
    ∃ t, s.agentStep x = .next t ∧ Alike u t := by
  cases x with
  | exec p => exact ⟨u, h, .refl u⟩
  | host p =>
    by_cases hread : ∃ a, s.hosts[p].actions.head? = some (.dmemRead a)
    · obtain ⟨a, ha⟩ := hread
      obtain ⟨rest, hrest⟩ := List.head?_eq_some_iff.mp ha
      exact ⟨_, hostStep_of_read hrest h, setHost_alike u rfl⟩
    · exact ⟨u, (hostStep_of_not_read fun a ha => hread ⟨a, ha⟩).trans h, .refl u⟩

/-- Where a command still pends after a step, the step was another agent's: a next state, or one like the state
before where a WAIT has read BUSY again. -/
theorem stepBy_nexts {f : Nat → Nat} {s t : State} {p : Fin 15} (h : stepBy f s = .next t)
    (ht : t.ports[p].busy = true) : Alike s t ∨ ∃ u ∈ s.nexts p, Alike u t := by
  cases hpick : s.pick f with
  | none =>
    obtain rfl := Host.Outcome.next.inj ((stepBy_of_pick_none hpick).symm.trans h)
    exact .inl (.refl s)
  | some x =>
    obtain ⟨u, hu, hut⟩ := agentMove_of_agentStep ((stepBy_of_pick hpick).symm.trans h)
    have hbusy : u.ports[p].busy = true := by rw [← hut.ports, ht]
    cases hidle : s.idles x with
    | true =>
      cases x with
      | exec q => exact absurd hidle Bool.false_ne_true
      | host q =>
        obtain rfl := Host.Outcome.next.inj ((hostMove_of_waits hidle).symm.trans hu)
        exact .inl ((readsBusy_alike s q).trans hut)
    | false =>
      refine .inr ⟨u, mem_nexts.mpr ⟨x, mem_agents x, mem_movers.mp (pick_mem_movers hpick), hidle, ?_, hu, hbusy⟩,
        hut⟩
      rintro rfl
      exact absurd ((execStep_ports hu).1.symm.trans hbusy) Bool.false_ne_true

theorem stepBy_adds_no_buffers {f : Nat → Nat} {s t u : State} {p : Fin 15} (h : stepBy f s = .next t)
    (ht : t.ports[p].busy = true) (hu : u ∈ t.futures p) :
    ∃ v ∈ s.futures p, v.buffersAt p = u.buffersAt p := by
  rcases stepBy_nexts h ht with hst | ⟨w, hw, hwt⟩
  · exact exists_buffersAt_of_alike hst.symm hu
  · obtain ⟨v, hv, hvu⟩ := exists_buffersAt_of_alike hwt.symm hu
    exact ⟨v, futures_of_nexts hw hv, hvu⟩

/-! ### Some schedule brings each of them about -/

theorem execStep_steps {s t : State} {p : Fin 15} (hbusy : s.ports[p].busy = true) (h : s.execStep p = .next t) :
    t.steps = s.steps + 1 := by
  obtain ⟨c, hc⟩ := Option.isSome_iff_exists.mp hbusy
  obtain ⟨u, code, r0, r1, r2, r3, hchange, hu⟩ := perform_completes (s.serve p) c.word
  simp only [State.execStep, hc, hu] at h
  obtain rfl := Host.Outcome.next.inj h
  obtain ⟨-, -, -, hsteps, -⟩ := hchange.outside
  exact hsteps

theorem writeReg_steps (s : State) (r : HostReg) (w : Word) : (s.writeReg r w).steps = s.steps := by
  cases r with
  | ctrl =>
    cases hw : w.getLsbD 0 with
    | true => rw [writeReg_ctrl_set s hw, blockReset_steps]
    | false => rw [writeReg_ctrl_clear s hw]
  | id | audioCfg | cdpCounter | head | irqStatus | params | cmd | status | ie | arg | res | hole => rfl

theorem hostStep_steps {s t : State} {p : Fin 15} (hne : s.hosts[p].actions ≠ []) (h : s.hostStep p = .next t) :
    t.steps = s.steps + 1 := by
  obtain ⟨u, hmove, hread⟩ := hostStep_cases h
  have htu : t.steps = u.steps := by
    obtain rfl | ⟨v, rfl⟩ := hread <;> rfl
  obtain ⟨hnil, -⟩ | ⟨-, rfl⟩ | ⟨x, rest, -, -, hact⟩ := hostMove_cases hmove
  · exact absurd hnil hne
  · exact htu
  · obtain ⟨w, v, rfl, ⟨r, b, rfl⟩ | ⟨ports, dmem, rfl⟩⟩ := hostAct_cases hact
    · exact htu.trans (writeReg_steps s.tick r b)
    · exact htu

/-- An agent that can move uses up the free choice by which it was picked. -/
theorem agentStep_steps {s t : State} {x : Agent} (hmove : s.canMove x = true) (h : s.agentStep x = .next t) :
    t.steps = s.steps + 1 := by
  cases x with
  | exec p => exact execStep_steps (busy_of_canMove_exec hmove) h
  | host p => exact hostStep_steps (actions_of_canMove_host hmove) h

/-- What may come, comes under every schedule that agrees with some schedule on the free choices not yet taken. -/
theorem exists_schedule_of_futuresWithin {n : Nat} {s r v : State} {p : Fin 15} (hr : Alike s r)
    (hv : v ∈ futuresWithin n s p) :
    ∃ (f : Nat → Nat) (k : Nat) (u : State), Alike v u ∧
      ∀ g : Nat → Nat, (∀ m, r.steps ≤ m → g m = f m) → runBy g k r = .next u := by
  induction n generalizing s r with
  | zero =>
    obtain rfl : v = s := by simpa [futuresWithin] using hv
    exact ⟨Config.schedule, 0, r, hr, fun _ _ => rfl⟩
  | succ n ih =>
    rcases mem_futuresWithin_succ.mp hv with rfl | ⟨t, ht, hv⟩
    · exact ⟨Config.schedule, 0, r, hr, fun _ _ => rfl⟩
    · obtain ⟨x, -, hmove, -, -, hagent, -⟩ := mem_nexts.mp ht
      obtain ⟨t', ht', htt'⟩ := agentMove_alike hr hagent
      obtain ⟨w, hw, ht'w⟩ := agentStep_of_agentMove ht'
      have hmove' : r.canMove x = true := (canMove_of_alike hr x).trans hmove
      have hsteps := agentStep_steps hmove' hw
      obtain ⟨f, k, u, hvu, hrun⟩ := ih (htt'.trans ht'w) hv
      refine ⟨fun m => if m = r.steps then x.number else f m, k + 1, u, hvu, fun g hg => ?_⟩
      have hstep : stepBy g r = .next w :=
        (stepBy_of_pick (pick_of_named hmove' ((hg _ le_rfl).trans (if_pos rfl)))).trans hw
      simp only [runBy, hstep]
      refine hrun g fun m hm => (hg m (by omega)).trans (if_neg (by omega))

theorem futures_come {s v : State} {p : Fin 15} (hs : s.ports[p].busy = true) : v ∈ s.futures p →
    ∃ (f : Nat → Nat) (k : Nat) (u : State), runBy f k s = .next u ∧ u.ports[p].busy = true ∧
      u.buffersAt p = v.buffersAt p := by
  intro hv
  obtain ⟨f, k, u, hvu, hrun⟩ := exists_schedule_of_futuresWithin (.refl s) hv
  exact ⟨f, k, u, hrun f fun _ _ => rfl, by rw [hvu.ports, busy_of_mem_futuresWithin hs hv],
    buffersAt_of_alike hvu p⟩

end Sys2Proof.Proofs
end

section
/-! PROOFS. The findings of a command, which are settled after two rounds of races: what it finds when it is performed
is among those by which its buffers are judged (20_memory.md rule R73). -/

namespace Sys2Proof.Proofs

open Sys2Proof
open Sys2Proof.Config (Params)
open Sys2Proof.Machine
open Sys2Proof.Safety
open Sys2Proof.Laws

/-! ### Races by the buffers of a command -/

/-- A buffer without a byte, which nothing races on. -/
def NoByte (y : Buffer) : Prop := ∀ x : Nat, y.range.holds x = false ∧ y.span.covers x = false

theorem whole_zero_noByte (a : Nat) : NoByte (whole a 0) := by
  intro x
  simp only [← Bool.not_eq_true, whole_holds, whole_covers]
  omega

/-- A command with more buffers races with more, whatever buffers without a byte it has. -/
theorem races_mono {b c : Buffers} {wrote read : List Nat} {a : Nat} (hreads : b.reads = c.reads)
    (hwrites : ∀ y ∈ b.writes, y ∈ c.writes ∨ NoByte y) (h : Races b wrote read a) : Races c wrote read a := by
  have hmem : ∀ (y : Buffer) (x : Nat), y.range.holds x = true ∨ y.span.covers x = true → y ∈ b.writes →
      y ∈ c.writes := by
    intro y x hx hy
    refine (hwrites y hy).resolve_right fun hno => ?_
    simp [hno x] at hx
  obtain ⟨r, hr, ha, x, hx, hviolated⟩ := h
  refine ⟨r, ?_, ha, x, hx, ?_⟩
  · rw [List.mem_append, ← hreads]
    exact (List.mem_append.mp hr).imp_right (hmem r a (.inl ha))
  · rw [Violated, ← hreads]
    refine hviolated.imp_right fun ⟨htouched, y, hy, hcovers⟩ => ⟨htouched, y, hmem y x (.inr hcovers) hy, hcovers⟩

section
variable {s : State}

/-- Hosts have raced with the command being performed, if its buffers are `b`, on a range that holds `a`. -/
def RacesOn (s : State) (b : Buffers) (a : Nat) : Prop := Races b s.hostWrites s.hostReads a

theorem racesOn_mono {b c : Buffers} {a : Nat} (hreads : b.reads = c.reads)
    (hwrites : ∀ y ∈ b.writes, y ∈ c.writes ∨ NoByte y) (h : RacesOn s b a) : RacesOn s c a :=
  races_mono hreads hwrites h

theorem byteWith_of_races {b : Buffers} {a : Nat} (h : RacesOn s b a) :
    s.byteWith b a = Config.raceByte .commandRead s.draws a :=
  if_pos (raced_iff.mpr h)

theorem byteWith_of_not_races {b : Buffers} {a : Nat} (h : ¬ RacesOn s b a) :
    s.byteWith b a = Memory.read s.dmem a :=
  if_neg fun hraced => h (raced_iff.mp hraced)

theorem byteWith_congr {b c : Buffers} (h : ∀ a, RacesOn s b a ↔ RacesOn s c a) : s.byteWith b = s.byteWith c := by
  funext a
  by_cases hb : RacesOn s b a
  · rw [byteWith_of_races hb, byteWith_of_races ((h a).mp hb)]
  · rw [byteWith_of_not_races hb, byteWith_of_not_races fun hc => hb ((h a).mpr hc)]

theorem readByte_eq_byteWith {i : Instr} (h : s.performed = some i) : s.readByte = s.byteWith (s.buffers i) := by
  funext a
  simp only [State.readByte, h]

/-! ### What a command finds -/

theorem mem_buffersOf_writes {i : Instr} {found : List Extent} {y : Buffer} :
    y ∈ (s.buffersOf i found).writes ↔ ∃ e ∈ found, y ∈ commandWrites s.params s.args e i :=
  List.mem_flatMap

/-- What command `i` finds as the races on its inputs alone leave them. -/
def firstFinding (s : State) (i : Instr) : Extent := s.extent (s.byteWith (s.buffersOf i []))

/-- What command `i` finds as the races on its first output leave its inputs. -/
def secondFinding (s : State) (i : Instr) : Extent := s.extent (s.byteWith (s.buffersOf i [firstFinding s i]))

theorem mem_buffers_writes {i : Instr} {y : Buffer} :
    y ∈ (s.buffers i).writes ↔ y ∈ commandWrites s.params s.args (firstFinding s i) i ∨
      y ∈ commandWrites s.params s.args (secondFinding s i) i := by
  refine mem_buffersOf_writes.trans ?_
  show (∃ e ∈ [firstFinding s i, secondFinding s i], y ∈ commandWrites s.params s.args e i) ↔ _
  simp

theorem mem_firstWrites {i : Instr} {y : Buffer} :
    y ∈ (s.buffersOf i [firstFinding s i]).writes ↔ y ∈ commandWrites s.params s.args (firstFinding s i) i := by
  refine mem_buffersOf_writes.trans ?_
  simp

theorem races_of_first {i : Instr} {a : Nat} (h : RacesOn s (s.buffersOf i [firstFinding s i]) a) :
    RacesOn s (s.buffers i) a := by
  refine racesOn_mono ?_ (fun y hy => .inl (mem_buffers_writes.mpr (.inl (mem_firstWrites.mp hy)))) h
  rfl

theorem races_of_none {i : Instr} {a : Nat} (h : RacesOn s (s.buffersOf i []) a) :
    RacesOn s (s.buffersOf i [firstFinding s i]) a := by
  refine racesOn_mono ?_ (fun y hy => absurd hy List.not_mem_nil) h
  rfl

/-- Where no host has raced with a command, it finds what it finds in the memory. -/
theorem findings_of_unraced {i : Instr} (hp : s.performed = some i) (h : s.violations i = []) :
    firstFinding s i = s.extent s.readByte ∧ secondFinding s i = s.extent s.readByte := by
  have hnone : ∀ a, ¬ RacesOn s (s.buffers i) a := by
    intro a hraces
    have hraced : (s.buffers i).raced (s.violations i) a = true := raced_iff.mpr hraces
    rw [h, raced_nil] at hraced
    exact Bool.false_ne_true hraced
  have hbuffers : s.readByte = s.byteWith (s.buffers i) := readByte_eq_byteWith hp
  have hfirst : s.byteWith (s.buffersOf i [firstFinding s i]) = s.byteWith (s.buffers i) :=
    byteWith_congr fun a => iff_of_false (fun hr => hnone a (races_of_first hr)) (hnone a)
  have hzero : s.byteWith (s.buffersOf i []) = s.byteWith (s.buffers i) :=
    byteWith_congr fun a => iff_of_false (fun hr => hnone a (races_of_first (races_of_none hr))) (hnone a)
  exact ⟨by rw [firstFinding, hzero, hbuffers], by rw [secondFinding, hfirst, hbuffers]⟩

/-! ### The findings of a parser -/

/-- Command `i` is a parser: it writes the buffers `W n` where it finds `n` in its input by `check`, which the byte at
`key` decides where it finds anything, and none with a byte where it finds nothing. -/
structure Parses (s : State) (i : Instr) (check : (Nat → Byte) → Option Nat) (key : Nat) (W : Nat → List Buffer) :
    Prop where
  writes : ∀ byte : Nat → Byte, commandWrites s.params s.args (s.extent byte) i = W ((check byte).getD 0)
  noByte : ∀ y ∈ W 0, NoByte y
  decides : ∀ (f g : Nat → Byte) (n m : Nat), check f = some n → check g = some m → f key = g key → n = m

variable {i : Instr} {check : (Nat → Byte) → Option Nat} {key : Nat} {W : Nat → List Buffer}

/-- A second finding that gives no other buffers than the first adds no race. -/
theorem byteWith_buffers_of_second
    (hsecond : ∀ y ∈ commandWrites s.params s.args (secondFinding s i) i,
      y ∈ commandWrites s.params s.args (firstFinding s i) i ∨ NoByte y) :
    s.byteWith (s.buffers i) = s.byteWith (s.buffersOf i [firstFinding s i]) := by
  refine byteWith_congr fun a => ⟨racesOn_mono rfl fun y hy => ?_, races_of_first⟩
  rw [mem_firstWrites]
  exact (mem_buffers_writes.mp hy).elim .inl (hsecond y)

/-- A first finding that gives no buffer with a byte adds no race. -/
theorem byteWith_first_of_noByte
    (hfirst : ∀ y ∈ commandWrites s.params s.args (firstFinding s i) i, NoByte y) :
    s.byteWith (s.buffersOf i [firstFinding s i]) = s.byteWith (s.buffersOf i []) :=
  byteWith_congr fun _ => ⟨racesOn_mono rfl fun y hy => .inr (hfirst y (mem_firstWrites.mp hy)), races_of_none⟩

/-- A race on the first output of a parser makes a byte a draw from then on. -/
theorem byteWith_key (key : Nat) :
    s.byteWith (s.buffersOf i [firstFinding s i]) key = s.byteWith (s.buffers i) key ∨
      s.byteWith (s.buffersOf i []) key = s.byteWith (s.buffersOf i [firstFinding s i]) key := by
  by_cases hkey : RacesOn s (s.buffersOf i [firstFinding s i]) key
  · exact .inl (by rw [byteWith_of_races hkey, byteWith_of_races (races_of_first hkey)])
  · exact .inr (by rw [byteWith_of_not_races hkey, byteWith_of_not_races fun hr => hkey (races_of_none hr)])

/-- What a parser finds when it is performed is its second finding: a race on its first output either leaves the byte
that decides what it finds, or makes it the same draw from then on. -/
theorem Parses.settled (h : Parses s i check key W) {n : Nat} (hn : check (s.byteWith (s.buffers i)) = some n) :
    check (s.byteWith (s.buffersOf i [firstFinding s i])) = some n := by
  have hfirst : commandWrites s.params s.args (firstFinding s i) i =
    W ((check (s.byteWith (s.buffersOf i []))).getD 0) := h.writes _
  have hsecond : commandWrites s.params s.args (secondFinding s i) i =
    W ((check (s.byteWith (s.buffersOf i [firstFinding s i]))).getD 0) := h.writes _
  cases h1 : check (s.byteWith (s.buffersOf i [firstFinding s i])) with
  | none =>
    rw [h1] at hsecond
    rw [byteWith_buffers_of_second fun y hy => .inr (h.noByte y (hsecond ▸ hy)), h1] at hn
    exact hn
  | some m =>
    rcases byteWith_key key with hkey | hkey
    · rw [h.decides _ _ m n h1 hn hkey]
    · cases h0 : check (s.byteWith (s.buffersOf i [])) with
      | none =>
        rw [h0] at hfirst
        rw [byteWith_first_of_noByte fun y hy => h.noByte y (hfirst ▸ hy), h0] at h1
        exact absurd h1 (Option.some_ne_none m).symm
      | some k =>
        have hsame : commandWrites s.params s.args (secondFinding s i) i =
            commandWrites s.params s.args (firstFinding s i) i := by
          rw [hfirst, hsecond, h0, h1, h.decides _ _ k m h0 h1 hkey]
        rw [byteWith_buffers_of_second fun y hy => .inl (hsame ▸ hy), h1] at hn
        exact hn

/-- The buffers for what a parser finds are among those by which it is judged. -/
theorem Parses.mem_writes (h : Parses s i check key W) {n : Nat} (hn : check (s.byteWith (s.buffers i)) = some n)
    {y : Buffer} (hy : y ∈ W n) : y ∈ (s.buffers i).writes := by
  have hsecond : commandWrites s.params s.args (secondFinding s i) i = W n := by
    have := h.writes (s.byteWith (s.buffersOf i [firstFinding s i]))
    rwa [h.settled hn] at this
  exact mem_buffers_writes.mpr (.inr (hsecond ▸ hy))

end

/-! ### ANC_PARSE and CDP_PARSE -/

/-- The LEN byte is the payload length of a packet that passes the checks (R197). -/
theorem eq_of_ancCheck {w : Nat → HalfWord} {m n : Nat} (h : ancCheck w m = some n) :
    n = ((w 5).setWidth 8 : Byte).toNat := by
  simp only [ancCheck, Option.ite_none_left_eq_some] at h
  obtain ⟨-, -, -, -, -, h⟩ := h
  exact (Option.some.inj h).symm

/-- The low five bits of the ccdata byte are the triplet count of a CDP that passes the checks (R199). -/
theorem eq_of_cdpCheck {b : Nat → Byte} {m q : Nat} (h : cdpCheck b m = some q) :
    q = ((b 8).extractLsb' 0 5).toNat := by
  simp only [cdpCheck, Option.ite_none_left_eq_some] at h
  obtain ⟨-, -, -, -, -, -, -, -, -, -, h⟩ := h
  exact (Option.some.inj h).symm

theorem noByte_of_mem_buffersIf {ok : Bool} {a n : Nat} (hn : n = 0) {y : Buffer}
    (h : y ∈ buffersIf ok [whole a n]) : NoByte y := by
  obtain ⟨-, hy⟩ := mem_buffersIf.mp h
  rw [List.mem_singleton.mp hy, hn]
  exact whole_zero_noByte a

/-- The low byte of a word is its first (R62). -/
theorem lowByte_append (u v : Byte) : ((u ++ v : HalfWord).setWidth 8 : Byte) = v := by
  rw [BitVec.setWidth_eq_extractLsb' (by decide)]
  exact BitVec.extractLsb'_append_eq_right

/-- What ANC_PARSE finds where it reads `byte a` at address `a` (R197). -/
def ancFoundIn (s : State) (byte : Nat → Byte) : Option Nat :=
  ancCheck (fun j => byte (s.arg 0 + 2 * j + 1) ++ byte (s.arg 0 + 2 * j)) (s.arg 1)

/-- What CDP_PARSE finds where it reads `byte a` at address `a` (R199). -/
def cdpFoundIn (s : State) (byte : Nat → Byte) : Option Nat := cdpCheck (fun j => byte (s.arg 0 + j)) (s.arg 1)

theorem ancFound_eq (s : State) : ancFound s = ancFoundIn s s.readByte := rfl

theorem cdpFound_eq (s : State) : cdpFound s = cdpFoundIn s s.readByte := rfl

/-- The buffers that ANC_PARSE writes where it finds `n` payload bytes (R197). -/
def ancParseWrites (s : State) (n : Nat) : List Buffer :=
  buffersIf (isCount (s.arg 1) && inRange s.params (s.arg 0) (2 * s.arg 1) && inRange s.params (s.arg 2) n)
    [whole (s.arg 2) n]

/-- The buffers that CDP_PARSE writes where it finds `q` triplets (R199). -/
def cdpParseWrites (s : State) (q : Nat) : List Buffer :=
  buffersIf (isCount (s.arg 1) && inRange s.params (s.arg 0) (s.arg 1) && inRange s.params (s.arg 2) (3 * q))
    [whole (s.arg 2) (3 * q)]

theorem ancParse_parses (s : State) : Parses s .ancParse (ancFoundIn s) (s.arg 0 + 10) (ancParseWrites s) where
  writes byte := rfl
  noByte y hy := noByte_of_mem_buffersIf rfl hy
  decides f g n m hf hg hkey := by
    rw [eq_of_ancCheck hf, eq_of_ancCheck hg, lowByte_append, lowByte_append]
    exact congrArg BitVec.toNat hkey

theorem cdpParse_parses (s : State) : Parses s .cdpParse (cdpFoundIn s) (s.arg 0 + 8) (cdpParseWrites s) where
  writes byte := rfl
  noByte y hy := noByte_of_mem_buffersIf rfl hy
  decides f g n m hf hg hkey := by
    rw [eq_of_cdpCheck hf, eq_of_cdpCheck hg, hkey]

end Sys2Proof.Proofs
end

section
/-! PROOFS. How each command ends, and which bytes it stores: nothing where it fails, and else its
rule's runs, which lie in its output ranges (20_memory.md rules R60, R63; 60_exceptions.md R264). -/

namespace Sys2Proof.Proofs

open Sys2Proof
open Sys2Proof.Config (Params)
open Sys2Proof.Machine
open Sys2Proof.Safety
open Sys2Proof.Laws

/-! ### How a command ends -/

/-- The command performed in `s` ends with OK and the data memory `m` where `ok` holds, and else fails and leaves the
data memory as it is. -/
def Ends (s : State) (ok : Prop) (m : Memory) (o : Host.Outcome State Fault Refusal) : Prop :=
  ∃ t, o = .next t ∧ ((ok ∧ t.ports[s.serving].code = .ok ∧ t.dmem = m) ∨
    (¬ ok ∧ t.ports[s.serving].code ≠ .ok ∧ t.dmem = s.dmem))

section
variable {s u : State} {ok : Prop} {m : Memory} {o : Host.Outcome State Fault Refusal}

theorem complete_code (hserving : u.serving = s.serving) (c : Code) (r : Results) :
    (u.complete c r).ports[s.serving].code = c := by
  simp only [← hserving, complete_port_self, Port.complete]

theorem ends_finish (hserving : u.serving = s.serving) (r0 r1 r2 r3 : DWord) :
    Ends s True u.dmem (u.finish r0 r1 r2 r3) :=
  ⟨_, rfl, .inl ⟨trivial, complete_code hserving _ _, rfl⟩⟩

theorem ends_storeRuns (s : State) (i : Instr) (runs : List Run) (r0 r1 r2 r3 : DWord) :
    Ends s True (s.storeRuns i runs).dmem ((s.storeRuns i runs).finish r0 r1 r2 r3) :=
  ends_finish (storeRuns_serving s i runs) r0 r1 r2 r3

theorem ends_raise (hserving : u.serving = s.serving) (hdmem : u.dmem = s.dmem) {c : Code} (hc : c ≠ .ok) :
    Ends s False m (u.raise c) :=
  ⟨_, rfl, .inr ⟨id, by rwa [complete_code hserving], hdmem⟩⟩

theorem Ends.congr {ok' : Prop} (h : Ends s ok m o) (hok : ok ↔ ok') : Ends s ok' m o := by
  rwa [← propext hok]

theorem ends_of_iff {ok' : Prop} (hok : ok ↔ ok') (h : Ends s ok m o) : Ends s ok' m o := h.congr hok

/-- A choice between two ways to go on. -/
theorem ends_ite {b : Prop} [Decidable b] {ok' : Prop} {o' : Host.Outcome State Fault Refusal}
    (h : b → Ends s ok m o) (h' : ¬ b → Ends s ok' m o') :
    Ends s (b ∧ ok ∨ ¬ b ∧ ok') m (if b then o else o') := by
  split
  · rename_i hb
    exact (h hb).congr (by simp [hb])
  · rename_i hb
    exact (h' hb).congr (by simp [hb])

/-- A check of a command. -/
theorem ends_check {b : Prop} [Decidable b] {c : Code} (hc : c ≠ .ok) (h : ¬ b → Ends s ok m o) :
    Ends s (¬ b ∧ ok) m (if b then s.raise c else o) := by
  split
  · rename_i hb
    exact (ends_raise rfl rfl hc).congr (by simp [hb])
  · rename_i hb
    exact (h hb).congr (by simp [hb])

/-- The outcome of a parser by what its checks find. -/
theorem ends_elim {ok : Nat → Prop} {m : Nat → Memory} {found : Option Nat}
    {o : Nat → Host.Outcome State Fault Refusal} (h : ∀ n, Ends s (ok n) (m n) (o n)) :
    Ends s (∃ n, found = some n ∧ ok n) (m (found.getD 0)) (found.elim (s.raise .malformed) o) := by
  cases found with
  | none => exact (ends_raise (c := .malformed) rfl rfl nofun).congr (by simp)
  | some n => exact (h n).congr (by simp)

theorem Ends.ok_iff (h : Ends s ok m o) : (∃ t, o = .next t ∧ t.ports[s.serving].code = .ok) ↔ ok := by
  obtain ⟨t, rfl, ⟨hok, hcode, -⟩ | ⟨hok, hcode, -⟩⟩ := h
  · exact ⟨fun _ => hok, fun _ => ⟨t, rfl, hcode⟩⟩
  · refine ⟨fun ⟨t', ht', hcode'⟩ => ?_, fun h => absurd h hok⟩
    obtain rfl := Host.Outcome.next.inj ht'
    exact absurd hcode' hcode

/-! ### How the commands that store end -/

variable (s)

theorem execAncData10_ends (p : Bool) :
    Ends s ((decide (s.arg 0 ≤ 0xFF ∧ s.arg 1 ≤ 0xFF ∧ s.arg 3 ≤ 255) &&
        (inRange s.params (s.arg 2) (s.arg 3) &&
          inRange s.params (s.arg 4) (2 * emittedCount p (7 + s.arg 3)))) = true)
      (s.storeRuns (.ancData10 p) [(s.arg 4, wordBytes (emitted s.params p
        (build (BitVec.ofNat 8 (s.arg 0)) (BitVec.ofNat 8 (s.arg 1)) s.data10Payload)))]).dmem
      (exec (.ancData10 p) s) := by
  refine ends_of_iff ?_ (ends_check nofun fun _ => ends_check nofun fun _ => ends_check nofun fun _ =>
    ends_storeRuns s _ _ _ _ _ _)
  simp [and_assoc]

theorem execAncPad_ends :
    Ends s ((isCount (s.arg 1) &&
        inRange s.params (s.arg 0 + 2 * s.arg 1) (2 * padCount (s.arg 1))) = true)
      (s.storeRuns .ancPad [(s.arg 0 + 2 * s.arg 1, wordBytes (fillers s.params (s.arg 1)))]).dmem
      (exec .ancPad s) := by
  refine ends_of_iff ?_ (ends_check nofun fun _ => ends_check nofun fun _ => ends_storeRuns s _ _ _ _ _ _)
  simp

theorem execAncAfd_ends (p : Bool) :
    Ends s ((decide (s.arg 0 ≤ 15 ∧ s.arg 1 ≤ 1) && inRange s.params (s.arg 2) (2 * emittedCount p 15)) = true)
      (s.storeRuns (.ancAfd p) [(s.arg 2, wordBytes (emitted s.params p
        (build s.params.afdDid s.params.afdSdid (afdBody (s.arg 0) (s.arg 1)))))]).dmem
      (exec (.ancAfd p) s) := by
  refine ends_of_iff ?_ (ends_check nofun fun _ => ends_check nofun fun _ => ends_storeRuns s _ _ _ _ _ _)
  simp

theorem execAncCaptions_ends (p : Bool) :
    Ends s ((isCount (s.arg 0) && isCount (s.arg 1) && decide (s.arg 3 ≤ 31) &&
        (inRange s.params (s.arg 2) (3 * s.arg 3) &&
          inRange s.params (s.arg 4) (2 * emittedCount p (7 + (13 + 3 * s.arg 3))))) = true)
      (s.storeRuns (.ancCaptions p) [(s.arg 4, wordBytes (s.captionWords p))]).dmem
      (exec (.ancCaptions p) s) := by
  have hserving := storeRuns_serving s (.ancCaptions p) [(s.arg 4, wordBytes (s.captionWords p))]
  refine ends_of_iff ?_ (ends_check nofun fun _ => ends_check nofun fun _ => ends_check nofun fun _ =>
    ends_finish (u := { s.storeRuns (.ancCaptions p) _ with cdpCounter := _ }) hserving _ _ _ _)
  simp [and_assoc]

theorem execPxPackPlane_ends :
    Ends s (pictureFits s.params (packPicture s.args) = true)
      (s.storeRuns .pxPackPlane (s.packRuns (packPicture s.args))).dmem (exec .pxPackPlane s) := by
  refine ends_of_iff ?_ (ends_check nofun fun _ => ends_check nofun fun _ => ends_storeRuns s _ _ _ _ _ _)
  simp [pictureFits]

theorem execPxUnpackPlane_ends :
    Ends s (pictureFits s.params (unpackPicture s.args) = true)
      (s.storeRuns .pxUnpackPlane (s.unpackRuns (unpackPicture s.args))).dmem (exec .pxUnpackPlane s) := by
  refine ends_of_iff ?_ (ends_check nofun fun _ => ends_check nofun fun _ => ends_storeRuns s _ _ _ _ _ _)
  simp [pictureFits]

theorem execPxPackWords_ends (c : Bool) :
    Ends s (wordsFit s.params (s.arg 1) (s.arg 0) (2 * s.arg 1) (s.arg 2) (16 * (s.arg 1 / 6)) = true)
      (s.storeRuns (.pxPackWords c) (s.packWordRuns c)).dmem (exec (.pxPackWords c) s) := by
  refine ends_of_iff ?_ (ends_check nofun fun _ => ends_check nofun fun _ => ends_check nofun fun _ =>
    ends_storeRuns s _ _ _ _ _ _)
  simp [wordsFit, and_assoc]

theorem execPxUnpackWords_ends :
    Ends s (wordsFit s.params (s.arg 1) (s.arg 0) (16 * (s.arg 1 / 6)) (s.arg 2) (2 * s.arg 1) = true)
      (s.storeRuns .pxUnpackWords s.unpackWordRuns).dmem (exec .pxUnpackWords s) := by
  refine ends_of_iff ?_ (ends_check nofun fun _ => ends_check nofun fun _ => ends_check nofun fun _ =>
    ends_storeRuns s _ _ _ _ _ _)
  simp [wordsFit, and_assoc]

/-- RB_READ completes with OK (R106). -/
def ReadOk (src : Nat) : Prop :=
  s.sourceOpen src = true ∧ isCount (s.arg 1) = true ∧ isValidTime (s.sarg 2) = true ∧
    (1 ≤ s.arg 5 ∧ s.arg 5 ≤ 8) ∧ s.arg 3 < (s.source src).nsub ∧ s.arg 4 < 2 * s.arg 5 ∧
    inRange s.params (s.arg 0) (s.arg 1 * 2 * s.arg 5 * s.params.subframeBytes) = true

theorem execRbRead_ends (src : Nat) :
    Ends s (ReadOk s src)
      (s.storeRuns (.rbRead src) ((s.source src).readRuns s.params (s.arg 0) (s.arg 1) (s.sarg 2) (s.arg 3)
        (s.arg 4) (s.arg 5))).dmem
      (exec (.rbRead src) s) := by
  refine ends_of_iff ?_ (ends_check nofun fun _ => ends_check nofun fun _ => ends_check nofun fun _ =>
    ends_check nofun fun _ => ends_check nofun fun _ => ends_check nofun fun _ => ends_check nofun fun _ =>
      ends_storeRuns s _ _ _ _ _ _)
  simp [ReadOk, not_or, Nat.one_le_iff_ne_zero]

/-- What MX_EXTRACT's forwards leave (R160). -/
theorem forwarded_same :
    s.forwarded.ports = s.ports ∧ s.forwarded.serving = s.serving ∧ s.forwarded.dmem = s.dmem ∧
      s.forwarded.params = s.params ∧ s.forwarded.audioCh = s.audioCh := by
  unfold State.forwarded
  split <;> simp

/-- MX_EXTRACT completes with OK (R160). -/
def ExtractOk : Prop :=
  s.audioCh ≠ 0 ∧ (1 ≤ s.arg 0 ∧ s.arg 0 ≤ u32Max) ∧ inRange s.params (s.arg 1) (s.blockBytes (s.arg 0)) = true ∧
    s.active ≠ [] ∧ s.extractStop (s.arg 0) ≤ int64Max ∧ s.forwarded.active ≠ [] ∧
    s.arg 0 ≤ s.forwarded.virtualAvail s.extractStart

theorem execMxExtract_ends :
    Ends s (ExtractOk s)
      (s.forwarded.storeRuns .mxExtract (s.forwarded.blockRuns (s.arg 1) (s.arg 0) s.extractStart)).dmem
      (exec .mxExtract s) := by
  obtain ⟨-, hserving, hdmem, -⟩ := forwarded_same s
  have hfinish := ends_finish (s := s) (u := { (s.forwarded.storeRuns .mxExtract
    (s.forwarded.blockRuns (s.arg 1) (s.arg 0) s.extractStart)).consume s.extractStart (s.arg 0) with
      head := timeBits (s.extractStop (s.arg 0)) }) hserving
  refine ends_of_iff ?_ (ends_check nofun fun _ => ends_check nofun fun _ => ends_check nofun fun _ =>
    ends_check nofun fun _ => ends_check nofun fun _ =>
      ends_ite (fun _ => ends_raise hserving hdmem nofun) fun _ => hfinish _ _ _ _)
  simp [ExtractOk, and_assoc, Nat.one_le_iff_ne_zero]

theorem execAncParse_ends :
    Ends s ((isCount (s.arg 1) && inRange s.params (s.arg 0) (2 * s.arg 1)) = true ∧
        ∃ n, ancFound s = some n ∧ inRange s.params (s.arg 2) n = true)
      (s.storeRuns .ancParse [(s.arg 2, (List.range ((ancFound s).getD 0)).map fun j =>
        lowByte (s.read16 (s.arg 0 + 2 * (6 + j))))]).dmem
      (exec .ancParse s) := by
  rw [exec, execAncParse_eq]
  refine ends_of_iff ?_ (ends_check nofun fun _ => ends_check nofun fun _ =>
    ends_elim (m := fun n => (s.storeRuns .ancParse [(s.arg 2, (List.range n).map fun j =>
        lowByte (s.read16 (s.arg 0 + 2 * (6 + j))))]).dmem) fun n =>
      ends_check nofun fun _ => ends_storeRuns s _ _ _ _ _ _)
  simp [and_assoc]

theorem execCdpParse_ends :
    Ends s ((isCount (s.arg 1) && inRange s.params (s.arg 0) (s.arg 1)) = true ∧
        ∃ q, cdpFound s = some q ∧ inRange s.params (s.arg 2) (3 * q) = true)
      (s.storeRuns .cdpParse [(s.arg 2, (List.range (3 * (cdpFound s).getD 0)).map fun j =>
        s.readByte (s.arg 0 + (9 + j)))]).dmem
      (exec .cdpParse s) := by
  rw [exec, execCdpParse_eq]
  refine ends_of_iff ?_ (ends_check nofun fun _ => ends_check nofun fun _ =>
    ends_elim (m := fun q => (s.storeRuns .cdpParse [(s.arg 2, (List.range (3 * q)).map fun j =>
        s.readByte (s.arg 0 + (9 + j)))]).dmem) fun q =>
      ends_check nofun fun _ => ends_storeRuns s _ _ _ _ _ _)
  simp [and_assoc]

/-! ### How the commands that store nothing end -/

/-- RB_PUSH completes with OK (R103). -/
def PushOk (src : Nat) : Prop :=
  (s.sourceOpen src = true ∧ isCount (s.arg 1) = true ∧ isValidTime (s.sarg 2) = true ∧
    s.arg 1 % (s.source src).frameBytes s.params = 0 ∧
    s.sarg 2 + framesToTicks s.params (s.arg 1 / (s.source src).frameBytes s.params) ≤ int64Max ∧
    inRange s.params (s.arg 0) (s.arg 1) = true) ∧
    (s.arg 1 = 0 ∨ s.arg 1 ≠ 0 ∧ (s.source src).data.length + s.arg 1 ≤ s.params.ringBytes ∧
      (s.source src).chunks.length ≠ s.params.chunkSlots)

theorem execRbPush_ends (src : Nat) : Ends s (PushOk s src) s.dmem (exec (.rbPush src) s) := by
  refine ends_of_iff ?_ (ends_check nofun fun _ => ends_check nofun fun _ => ends_check nofun fun _ =>
    ends_check nofun fun _ => ends_check nofun fun _ => ends_check nofun fun _ =>
      ends_ite (fun _ => ends_finish rfl _ _ _ _) fun _ => ends_check nofun fun _ => ends_check nofun fun _ =>
        ends_finish (u := s.setSource src _) rfl _ _ _ _)
  simp [PushOk, and_assoc]

/-- The command stores no byte. -/
def storesNothing : Instr → Bool
  | .rbRead _ | .mxExtract | .ancData10 _ | .ancPad | .ancAfd _ | .ancCaptions _ | .ancParse | .cdpParse
  | .pxPackPlane | .pxPackWords _ | .pxUnpackPlane | .pxUnpackWords => false
  | _ => true

/-- The outcome is a next state with the data memory of `s`. -/
def KeepsDmem (s : State) (o : Host.Outcome State Fault Refusal) : Prop := ∃ t, o = .next t ∧ t.dmem = s.dmem

variable {s}

theorem Ends.keepsDmem (h : Ends s ok s.dmem o) : KeepsDmem s o := by
  obtain ⟨t, ht, ⟨-, -, hdmem⟩ | ⟨-, -, hdmem⟩⟩ := h
  · exact ⟨t, ht, hdmem⟩
  · exact ⟨t, ht, hdmem⟩

theorem keepsDmem_finish (h : u.dmem = s.dmem) (r0 r1 r2 r3 : DWord) : KeepsDmem s (u.finish r0 r1 r2 r3) :=
  ⟨_, rfl, h⟩

theorem keepsDmem_query (s : State) (r0 r1 r2 r3 : DWord) : KeepsDmem s (s.finish r0 r1 r2 r3) :=
  keepsDmem_finish rfl r0 r1 r2 r3

theorem keepsDmem_raise (s : State) (c : Code) : KeepsDmem s (s.raise c) := ⟨_, rfl, rfl⟩

theorem keepsDmem_check {b : Prop} [Decidable b] {c : Code} (h : KeepsDmem s o) :
    KeepsDmem s (if b then s.raise c else o) := by
  split
  · exact keepsDmem_raise s c
  · exact h

theorem execRbInfo_keepsDmem (src : Nat) : KeepsDmem s (execRbInfo src s) := by
  refine keepsDmem_check ?_
  split
  · exact keepsDmem_query s _ _ _ _
  · exact keepsDmem_query s _ _ _ _

theorem execMxAddMapping_keepsDmem (src : Nat) (x a m : Bool) : KeepsDmem s (execMxAddMapping src x a m s) := by
  refine keepsDmem_check (keepsDmem_check (keepsDmem_check (keepsDmem_check (keepsDmem_check
    (keepsDmem_check ?_)))))
  split
  · exact keepsDmem_raise s _
  · exact keepsDmem_finish rfl _ _ _ _

theorem exec_keepsDmem {i : Instr} (h : storesNothing i = true) : KeepsDmem s (exec i s) := by
  cases i with
  | nop | mxSlotMap => exact keepsDmem_query s _ _ _ _
  | rbPush src => exact (execRbPush_ends s src).keepsDmem
  | rbInfo src => exact execRbInfo_keepsDmem src
  | mxAddMapping src x a m => exact execMxAddMapping_keepsDmem src x a m
  | rbBufferStart | rbAvailable | mxBufferStart | mxAvailableVirtual =>
    exact keepsDmem_check (keepsDmem_query s _ _ _ _)
  | mxAlignedInterleave =>
    exact keepsDmem_check (keepsDmem_check (keepsDmem_check (keepsDmem_query s _ _ _ _)))
  | rbFlushConsumed | mxRemoveMapping => exact keepsDmem_check (keepsDmem_finish rfl _ _ _ _)
  | rbForwardTo | mxSetAudioConfig => exact keepsDmem_check (keepsDmem_check (keepsDmem_finish rfl _ _ _ _))
  | rbTagVirtualConsumed =>
    exact keepsDmem_check (keepsDmem_check (keepsDmem_check (keepsDmem_finish rfl _ _ _ _)))
  | rbRead | mxExtract | ancData10 | ancPad | ancAfd | ancCaptions | ancParse | cdpParse | pxPackPlane
  | pxPackWords | pxUnpackPlane | pxUnpackWords => exact absurd h Bool.false_ne_true

end

end Sys2Proof.Proofs
end

section
/-! PROOFS. Every byte that a command stores lies in one of its output ranges, and those lie inside the data memory
(20_memory.md rules R60, R63). -/

namespace Sys2Proof.Proofs

open Sys2Proof
open Sys2Proof.Config (Params)
open Sys2Proof.Machine
open Sys2Proof.Safety
open Sys2Proof.Laws

/-! ### The bytes that the rules' runs cover -/

/-- Some run of the list lies over the byte. -/
def RunsCover (runs : List Run) (a : Nat) : Prop := ∃ r ∈ runs, Run.covers r a = true

theorem runsCover_singleton {base a : Nat} {bs : List Byte} :
    RunsCover [(base, bs)] a ↔ base ≤ a ∧ a < base + bs.length := by
  simp [RunsCover, covers_iff]

@[simp] theorem length_sampleBytes (v : Sample) : (sampleBytes v).length = 2 := rfl

@[simp] theorem length_groupBytes (y u v : Nat → Sample) : (groupBytes (packGroup y u v)).length = 16 := rfl

/-- RB_READ's runs lie in its block (R106). -/
theorem readRuns_cover {c : Source} {P : Params} {dst count chan slot width a : Nat} {t : Int}
    (hslot : slot < 2 * width) (h : RunsCover (c.readRuns P dst count t chan slot width) a) :
    dst ≤ a ∧ a < dst + count * 2 * width * P.subframeBytes := by
  obtain ⟨r, hr, ha⟩ := h
  unfold Source.readRuns at hr
  split at hr
  · exact absurd hr List.not_mem_nil
  · obtain ⟨i, hi, hframe⟩ := List.mem_filterMap.mp hr
    obtain ⟨j, -, rfl⟩ := Option.map_eq_some_iff.mp hframe
    obtain ⟨hlow, hhigh⟩ := (covers_iff _ a).mp ha
    have hlen : (c.subframe P j chan).length ≤ P.subframeBytes := List.length_take_le _ _
    have hslots : i * 2 * width + slot + 1 ≤ count * 2 * width := by
      have hcount := Nat.mul_le_mul_right (2 * width) (List.mem_range.mp hi : i + 1 ≤ count)
      rw [Nat.succ_mul, ← Nat.mul_assoc, ← Nat.mul_assoc] at hcount
      omega
    have hbytes := Nat.mul_le_mul_right P.subframeBytes hslots
    rw [Nat.add_mul] at hbytes
    dsimp only at hlow hhigh
    omega

/-- MX_EXTRACT's runs lie in its block (R160). -/
theorem blockRuns_cover {s : State} {dst n a : Nat} {t : Int} (h : RunsCover (s.blockRuns dst n t) a) :
    dst ≤ a ∧ a < dst + s.blockBytes n := by
  obtain ⟨r, hr, ha⟩ := h
  rcases List.mem_cons.mp hr with rfl | hr
  · simpa [covers_iff] using ha
  · obtain ⟨k, hk, hr⟩ := List.mem_flatMap.mp hr
    split at hr
    · split at hr
      · exact readRuns_cover (List.mem_range.mp hk) ⟨r, hr, ha⟩
      · exact absurd hr List.not_mem_nil
    · exact absurd hr List.not_mem_nil

/-- PX_PACK_WORDS' runs lie in its output (R222). -/
theorem packWordRuns_cover {s : State} {c : Bool} {a : Nat} (h : RunsCover (s.packWordRuns c) a) :
    s.arg 2 ≤ a ∧ a < s.arg 2 + 16 * (s.arg 1 / 6) := by
  obtain ⟨r, hr, ha⟩ := h
  obtain ⟨g, hg, rfl⟩ := List.mem_map.mp hr
  rw [covers_iff, State.wordGroup, length_groupBytes] at ha
  have := List.mem_range.mp hg
  omega

/-- PX_UNPACK_WORDS' runs lie in its output (R223). -/
theorem unpackWordRuns_cover {s : State} {a : Nat} (h : RunsCover s.unpackWordRuns a) :
    s.arg 2 ≤ a ∧ a < s.arg 2 + 2 * s.arg 1 := by
  obtain ⟨r, hr, ha⟩ := h
  obtain ⟨j, hj, rfl⟩ := List.mem_map.mp hr
  rw [covers_iff, length_sampleBytes] at ha
  have := List.mem_range.mp hj
  omega

/-- A byte of a row lies in the rows' range. -/
theorem rowsRange_holds {base pitch rows bytes r off n a : Nat} (hr : r < rows) (hoff : off + n ≤ bytes)
    (ha : base + r * pitch + off ≤ a ∧ a < base + r * pitch + off + n) :
    (rowsRange base pitch rows bytes).holds a = true := by
  have hrow : r * pitch ≤ (rows - 1) * pitch := Nat.mul_le_mul_right _ (by omega)
  rw [holds_iff, rowsRange]
  dsimp only
  omega

/-- PX_PACK_PLANE's runs lie in the packed rows (R224). -/
theorem packRuns_cover {s : State} {p : Picture} {a : Nat} (h : RunsCover (s.packRuns p) a) :
    (packedRange p).holds a = true := by
  obtain ⟨run, hrun, ha⟩ := h
  obtain ⟨r, hr, hrun⟩ := List.mem_flatMap.mp hrun
  obtain ⟨g, hg, rfl⟩ := List.mem_map.mp hrun
  rw [covers_iff, State.packedGroup, length_groupBytes] at ha
  have := List.mem_range.mp hg
  exact rowsRange_holds (List.mem_range.mp hr) (by omega) ha

/-- PX_UNPACK_PLANE's runs lie in the three planes (R226). -/
theorem unpackRuns_cover {s : State} {p : Picture} {a : Nat} (h : RunsCover (s.unpackRuns p) a) :
    (lumaRange p).holds a = true ∨ (cbRange p).holds a = true ∨ (crRange p).holds a = true := by
  obtain ⟨run, hrun, ha⟩ := h
  obtain ⟨r, hr, hrun⟩ := List.mem_flatMap.mp hrun
  obtain ⟨g, -, hrun⟩ := List.mem_flatMap.mp hrun
  have hrow := List.mem_range.mp hr
  rcases List.mem_append.mp hrun with hrun | hrun
  · obtain ⟨k, -, hk⟩ := List.mem_filterMap.mp hrun
    obtain ⟨hwidth, hk⟩ := Option.ite_none_right_eq_some.mp hk
    obtain rfl := Option.some.inj hk
    rw [covers_iff, length_sampleBytes] at ha
    exact .inl (rowsRange_holds hrow (by omega) ha)
  · obtain ⟨k, -, hk⟩ := List.mem_flatMap.mp hrun
    split at hk
    · rcases List.mem_pair.mp hk with rfl | rfl
      · rw [covers_iff, length_sampleBytes] at ha
        exact .inr (.inl (rowsRange_holds hrow (by omega) ha))
      · rw [covers_iff, length_sampleBytes] at ha
        exact .inr (.inr (rowsRange_holds hrow (by omega) ha))
    · exact absurd hk List.not_mem_nil

/-! ### The output ranges lie inside the data memory -/

theorem lt_of_inRange {P : Params} {base n a : Nat} (h : inRange P base n = true) (ha : base ≤ a ∧ a < base + n) :
    a < P.dmemSize := by
  rcases of_decide_eq_true h with h | h <;> omega

theorem lt_of_inside {P : Params} {r : Range} {a : Nat} (h : r.inside P = true) (ha : r.holds a = true) :
    a < P.dmemSize :=
  lt_of_inRange h ((holds_iff r a).mp ha)

theorem inside_of_pictureFits {P : Params} {p : Picture} (h : pictureFits P p = true) :
    (lumaRange p).inside P = true ∧ (cbRange p).inside P = true ∧ (crRange p).inside P = true ∧
      (packedRange p).inside P = true := by
  simpa [pictureFits, pictureInRange, and_assoc] using (Bool.and_eq_true_iff.mp h).2

/-- A command's checks cover its output ranges (R63). -/
theorem commandWrites_inside {P : Params} {args : Args} {e : Extent} {i : Instr} {y : Buffer}
    (hy : y ∈ commandWrites P args e i) : y.range.inside P = true := by
  cases i with
  | rbRead | mxExtract | ancData10 | ancPad | ancAfd | ancCaptions | ancParse | cdpParse | pxPackWords
  | pxUnpackWords =>
    obtain ⟨hok, hy⟩ := mem_buffersIf.mp hy
    rw [List.mem_singleton.mp hy]
    simp only [wordsFit, Bool.and_eq_true] at hok
    simp only [whole, Range.inside, hok]
  | pxPackPlane =>
    obtain ⟨hok, hy⟩ := mem_buffersIf.mp hy
    obtain ⟨-, -, -, hpacked⟩ := inside_of_pictureFits hok
    rw [List.mem_singleton.mp hy]
    exact hpacked
  | pxUnpackPlane =>
    obtain ⟨hok, hy⟩ := mem_buffersIf.mp hy
    obtain ⟨hluma, hcb, hcr, -⟩ := inside_of_pictureFits hok
    simp only [planeBuffers, List.mem_cons, List.not_mem_nil, or_false] at hy
    obtain rfl | rfl | rfl := hy
    · exact hluma
    · exact hcb
    · exact hcr
  | nop | rbPush | rbBufferStart | rbAvailable | rbFlushConsumed | rbTagVirtualConsumed | rbForwardTo | rbInfo
  | mxSetAudioConfig | mxAddMapping | mxRemoveMapping | mxBufferStart | mxAvailableVirtual | mxAlignedInterleave
  | mxSlotMap => exact absurd hy List.not_mem_nil

/-! ### The bytes that a command may store -/

/-- Byte `a` exists, and lies in an output range of command `i` where the rings keep their invariants. -/
def Reaches (s : State) (i : Instr) (a : Nat) : Prop :=
  a < s.params.dmemSize ∧ (RingsOk s → ∃ y ∈ (s.buffers i).writes, y.range.holds a = true)

theorem reaches_of_mem {s : State} {i : Instr} {y : Buffer} {a : Nat} (hy : y ∈ (s.buffers i).writes)
    (ha : y.range.holds a = true) : Reaches s i a := by
  obtain ⟨e, -, he⟩ := mem_buffersOf_writes.mp hy
  exact ⟨lt_of_inside (commandWrites_inside he) ha, fun _ => ⟨y, hy, ha⟩⟩

theorem reaches_of_first {s : State} {i : Instr} {y : Buffer} {a : Nat}
    (hy : y ∈ commandWrites s.params s.args (firstFinding s i) i) (ha : y.range.holds a = true) : Reaches s i a :=
  reaches_of_mem (mem_buffers_writes.mpr (.inl hy)) ha

/-- A byte of the one block that the command writes. -/
theorem reaches_of_block {s : State} {i : Instr} {ok : Bool} {base n a : Nat} (hok : ok = true)
    (h : commandWrites s.params s.args (firstFinding s i) i = buffersIf ok [whole base n])
    (ha : base ≤ a ∧ a < base + n) : Reaches s i a := by
  refine reaches_of_first (y := whole base n) ?_ ((whole_holds base n a).mpr ha)
  rw [h]
  exact mem_buffersIf.mpr ⟨hok, List.mem_singleton_self _⟩

/-- The outcome is a next state whose data memory is that of `s` with runs stored that lie where command `i` may
store, and with none where the command has failed. -/
def Stores (s : State) (i : Instr) (o : Host.Outcome State Fault Refusal) : Prop :=
  ∃ (t : State) (runs : List Run), o = .next t ∧ t.dmem = Memory.writeRuns s.dmem runs ∧
    (t.ports[s.serving].code ≠ .ok → runs = []) ∧ ∀ a, RunsCover runs a → Reaches s i a

theorem KeepsDmem.stores {s : State} {o : Host.Outcome State Fault Refusal} (h : KeepsDmem s o) (i : Instr) :
    Stores s i o := by
  obtain ⟨t, ht, hdmem⟩ := h
  exact ⟨t, [], ht, hdmem, fun _ => rfl, fun a ⟨_, hr, _⟩ => absurd hr List.not_mem_nil⟩

/-- A command whose rule's runs lie where it may store stores nowhere else: the draws of R73 lie in its ranges. -/
theorem Ends.stores {s u : State} {i : Instr} {ok : Prop} {runs : List Run} {o : Host.Outcome State Fault Refusal}
    (h : Ends s ok (u.storeRuns i runs).dmem o) (hdmem : u.dmem = s.dmem)
    (hwrites : ∀ y ∈ (u.buffers i).writes, y ∈ (s.buffers i).writes)
    (hruns : ok → ∀ a, RunsCover runs a → Reaches s i a) : Stores s i o := by
  obtain ⟨t, ht, ⟨hok, hcode, hm⟩ | ⟨-, -, hm⟩⟩ := h
  · refine ⟨t, runs ++ (u.racedOutputs i).map u.drawn, ht, by rw [hm, storeRuns_dmem, hdmem],
      fun hfail => absurd hcode hfail, ?_⟩
    rintro a ⟨r, hr, ha⟩
    rcases List.mem_append.mp hr with hr | hr
    · exact hruns hok a ⟨r, hr, ha⟩
    · obtain ⟨range, hrange, rfl⟩ := List.mem_map.mp hr
      obtain ⟨⟨y, hy, rfl⟩, -⟩ := mem_racedOutputs.mp hrange
      exact reaches_of_mem (hwrites y hy) ((drawn_covers u y.range a).symm.trans ha)
  · exact KeepsDmem.stores ⟨t, ht, hm⟩ i

/-! ### The commands that store -/

section
variable {s : State} {i : Instr} {runs : List Run} {o : Host.Outcome State Fault Refusal}

theorem stores_of_ends {ok : Prop} (h : Ends s ok (s.storeRuns i runs).dmem o)
    (hruns : ok → ∀ a, RunsCover runs a → Reaches s i a) : Stores s i o :=
  h.stores rfl (fun _ hy => hy) hruns

/-- A command that stores words in its one block. -/
theorem stores_of_words {ok : Bool} {base n : Nat} {ws : List Sample}
    (h : Ends s (ok = true) (s.storeRuns i [(base, wordBytes ws)]).dmem o) (hws : 2 * ws.length = n)
    (hwrites : commandWrites s.params s.args (firstFinding s i) i = buffersIf ok [whole base n]) :
    Stores s i o :=
  stores_of_ends h fun hok a ha => reaches_of_block hok hwrites (by
    rwa [runsCover_singleton, length_wordBytes, hws] at ha)

variable (s)

theorem mxExtract_writes (byte : Nat → Byte) :
    commandWrites s.params s.args (s.extent byte) .mxExtract =
      buffersIf (isCount (s.arg 0) && inRange s.params (s.arg 1) (s.blockBytes (s.arg 0)))
        [whole (s.arg 1) (s.blockBytes (s.arg 0))] := rfl

theorem forwarded_blockBytes (n : Nat) : s.forwarded.blockBytes n = s.blockBytes n := by
  obtain ⟨-, -, -, hparams, haudio⟩ := forwarded_same s
  simp only [State.blockBytes, State.frameWidth, hparams, haudio]

theorem forwarded_writes {y : Buffer} (hy : y ∈ (s.forwarded.buffers .mxExtract).writes) :
    y ∈ (s.buffers .mxExtract).writes := by
  obtain ⟨hports, hserving, -, hparams, -⟩ := forwarded_same s
  have h := mem_buffers_writes.mp hy
  simp only [firstFinding, secondFinding, mxExtract_writes, or_self] at h
  rw [forwarded_blockBytes, hparams, arg_congr hports hserving, arg_congr hports hserving] at h
  exact mem_buffers_writes.mpr (.inl h)

theorem execMxExtract_stores : Stores s .mxExtract (exec .mxExtract s) := by
  obtain ⟨-, -, hdmem, -⟩ := forwarded_same s
  refine (execMxExtract_ends s).stores hdmem (fun _ => forwarded_writes s) fun hok a ha => ?_
  obtain ⟨-, ⟨-, hcount⟩, hrange, -⟩ := hok
  have hblock := blockRuns_cover ha
  rw [forwarded_blockBytes] at hblock
  refine reaches_of_block ?_ (mxExtract_writes s _) hblock
  rw [hrange, Bool.and_true]
  exact decide_eq_true hcount

/-- The buffer that RB_READ writes: its block, and the slot of each frame that it copies (R106). -/
def readBuffer (src : Nat) : Buffer where
  range := ⟨s.arg 0, s.arg 1 * (2 * s.arg 5 * s.params.subframeBytes)⟩
  span :=
    let copied := (s.source src).copiedFrames s.params (s.arg 1) (s.sarg 2)
    let frame := 2 * s.arg 5 * s.params.subframeBytes
    ⟨s.arg 0 + copied.1 * frame + s.arg 4 * s.params.subframeBytes, frame, copied.2, s.params.subframeBytes⟩

theorem rbRead_writes (src : Nat) (byte : Nat → Byte) :
    commandWrites s.params s.args (s.extent byte) (.rbRead src) =
      buffersIf (decide (src < s.params.maxSources ∧ s.argBits 2 ≠ invalidBits) &&
          decide (1 ≤ s.arg 5 ∧ s.arg 5 ≤ 8 ∧ s.arg 3 < 16 ∧ s.arg 4 < 2 * s.arg 5) && isCount (s.arg 1) &&
          inRange s.params (s.arg 0) (s.arg 1 * (2 * s.arg 5 * s.params.subframeBytes)))
        [readBuffer s src] := rfl

theorem openOk_of_sourceOpen {s : State} (h : RingsOk s) {src : Nat} (hopen : s.sourceOpen src = true) :
    src < s.params.maxSources ∧ OpenOk s.params (s.source src) := by
  obtain ⟨hsrc, hisOpen⟩ := (sourceOpen_iff s src).mp hopen
  have hlt := lt_of_isOpen hisOpen
  have hsource := h.2 ⟨src, hlt⟩
  rw [← source_fin] at hsource
  exact ⟨hsrc, openOk_of_sourceOk hisOpen hsource⟩

/-- Where the rings keep their invariants, the checks of RB_READ imply those of its arguments alone. -/
theorem readBuffer_mem {src : Nat} (hrings : RingsOk s) (hok : ReadOk s src) (byte : Nat → Byte) :
    readBuffer s src ∈ commandWrites s.params s.args (s.extent byte) (.rbRead src) := by
  obtain ⟨hopen, hcount, hvalid, hwidth, hchan, hslot, hrange⟩ := hok
  obtain ⟨hsrc, ⟨-, hnsub⟩, -⟩ := openOk_of_sourceOpen hrings hopen
  have htime : s.argBits 2 ≠ invalidBits := ne_invalidBits_of_isValidTime hvalid
  have hchan' : s.arg 3 < 16 := by omega
  rw [rbRead_writes, mem_buffersIf]
  simp only [Nat.mul_assoc] at hrange ⊢
  simp [hsrc, htime, hwidth, hchan', hslot, hcount, hrange]

theorem execRbRead_stores (src : Nat) : Stores s (.rbRead src) (exec (.rbRead src) s) := by
  refine stores_of_ends (execRbRead_ends s src) fun hok a ha => ?_
  obtain ⟨-, -, -, -, -, hslot, hrange⟩ := id hok
  have hblock := readRuns_cover hslot ha
  refine ⟨lt_of_inRange hrange hblock, fun hrings => ?_⟩
  refine ⟨readBuffer s src, mem_buffers_writes.mpr (.inl (readBuffer_mem s hrings hok _)), ?_⟩
  simp only [Nat.mul_assoc] at hblock
  simp only [readBuffer, holds_iff, Nat.mul_assoc]
  exact hblock

theorem execAncParse_stores (hp : s.performed = some .ancParse) : Stores s .ancParse (exec .ancParse s) := by
  refine stores_of_ends (execAncParse_ends s) fun hok a ha => ?_
  obtain ⟨hfits, n, hn, hrange⟩ := hok
  rw [runsCover_singleton, hn, List.length_map, List.length_range, Option.getD_some] at ha
  rw [ancFound_eq, readByte_eq_byteWith hp] at hn
  refine reaches_of_mem ((ancParse_parses s).mem_writes hn ?_) ((whole_holds _ n a).mpr ha)
  exact mem_buffersIf.mpr ⟨Bool.and_eq_true_iff.mpr ⟨hfits, hrange⟩, List.mem_singleton_self _⟩

theorem execCdpParse_stores (hp : s.performed = some .cdpParse) : Stores s .cdpParse (exec .cdpParse s) := by
  refine stores_of_ends (execCdpParse_ends s) fun hok a ha => ?_
  obtain ⟨hfits, q, hq, hrange⟩ := hok
  rw [runsCover_singleton, hq, List.length_map, List.length_range, Option.getD_some] at ha
  rw [cdpFound_eq, readByte_eq_byteWith hp] at hq
  refine reaches_of_mem ((cdpParse_parses s).mem_writes hq ?_) ((whole_holds _ (3 * q) a).mpr ha)
  exact mem_buffersIf.mpr ⟨Bool.and_eq_true_iff.mpr ⟨hfits, hrange⟩, List.mem_singleton_self _⟩

theorem execPxPackPlane_stores : Stores s .pxPackPlane (exec .pxPackPlane s) := by
  refine stores_of_ends (execPxPackPlane_ends s) fun hok a ha => ?_
  exact reaches_of_first (mem_buffersIf.mpr ⟨hok, List.mem_singleton_self _⟩) (packRuns_cover ha)

theorem execPxUnpackPlane_stores : Stores s .pxUnpackPlane (exec .pxUnpackPlane s) := by
  refine stores_of_ends (execPxUnpackPlane_ends s) fun hok a ha => ?_
  have hmem : ∀ y ∈ planeBuffers (unpackPicture s.args),
      y ∈ commandWrites s.params s.args (firstFinding s .pxUnpackPlane) .pxUnpackPlane :=
    fun y hy => mem_buffersIf.mpr ⟨hok, hy⟩
  rcases unpackRuns_cover ha with ha | ha | ha
  · exact reaches_of_first (hmem _ (.head _)) ha
  · exact reaches_of_first (hmem _ (.tail _ (.head _))) ha
  · exact reaches_of_first (hmem _ (.tail _ (.tail _ (.head _)))) ha

/-- Every command stores in its output ranges alone, and nothing where it fails. -/
theorem exec_stores (hp : s.performed = some i) : Stores s i (exec i s) := by
  cases i with
  | rbRead src => exact execRbRead_stores s src
  | mxExtract => exact execMxExtract_stores s
  | ancData10 p =>
    exact stores_of_words (n := 2 * emittedCount p (7 + s.arg 3)) (execAncData10_ends s p)
      (by simp [State.data10Payload]) rfl
  | ancPad => exact stores_of_words (n := 2 * padCount (s.arg 1)) (execAncPad_ends s) (by simp) rfl
  | ancAfd p => exact stores_of_words (execAncAfd_ends s p) (by simp [afdBody]) rfl
  | ancCaptions p =>
    exact stores_of_words (n := 2 * emittedCount p (7 + (13 + 3 * s.arg 3))) (execAncCaptions_ends s p)
      (by simp [State.captionWords, State.captionCdp]) rfl
  | ancParse => exact execAncParse_stores s hp
  | cdpParse => exact execCdpParse_stores s hp
  | pxPackPlane => exact execPxPackPlane_stores s
  | pxUnpackPlane => exact execPxUnpackPlane_stores s
  | pxPackWords c =>
    exact stores_of_ends (execPxPackWords_ends s c) fun hok a ha =>
      reaches_of_block hok rfl (packWordRuns_cover ha)
  | pxUnpackWords =>
    exact stores_of_ends (execPxUnpackWords_ends s) fun hok a ha =>
      reaches_of_block hok rfl (unpackWordRuns_cover ha)
  | nop | rbPush | rbBufferStart | rbAvailable | rbFlushConsumed | rbTagVirtualConsumed | rbForwardTo | rbInfo
  | mxSetAudioConfig | mxAddMapping | mxRemoveMapping | mxBufferStart | mxAvailableVirtual | mxAlignedInterleave
  | mxSlotMap => exact (exec_keepsDmem rfl).stores _

end
end Sys2Proof.Proofs
end

section
/-! PROOFS. The bytes of a command's buffers are those that its rule names (20_memory.md rules R63, R73), and every step
keeps the data memory's form and size (20_memory.md rule R60). -/

namespace Sys2Proof.Proofs

open Sys2Proof
open Sys2Proof.Config (Params)
open Sys2Proof.Machine
open Sys2Proof.Safety
open Sys2Proof.Laws

/-! ### The bytes that the rules name -/

/-- Some buffer of the list has byte `a`. -/
def Covered (l : List Buffer) (a : Nat) : Prop := ∃ y ∈ l, y.span.covers a = true

theorem covered_buffersIf {ok : Bool} {l : List Buffer} {a : Nat} :
    Covered (buffersIf ok l) a ↔ ok = true ∧ Covered l a := by
  simp [Covered, mem_buffersIf, and_assoc]

theorem not_covered_nil {a : Nat} : ¬ Covered [] a := fun ⟨_, hy, _⟩ => List.not_mem_nil hy

theorem covered_singleton {y : Buffer} {a : Nat} : Covered [y] a ↔ y.span.covers a = true := by
  simp [Covered]

theorem covered_whole {base n a : Nat} : Covered [whole base n] a ↔ base ≤ a ∧ a < base + n := by
  rw [covered_singleton, whole_covers]

theorem covered_block {ok : Bool} {base n a : Nat} :
    Covered (buffersIf ok [whole base n]) a ↔ ok = true ∧ base ≤ a ∧ a < base + n :=
  covered_buffersIf.trans (and_congr_right fun _ => covered_whole)

/-- The buffers of command `i`, which completes with OK where `ok` holds, have the bytes that its rule names: where it
is judged by its arguments alone, it has output buffers only if it completes with OK. -/
structure NamesBytes (s : State) (i : Instr) (ok : Prop) : Prop where
  reads : ∀ a, Covered (commandReads s.params s.args i) a → InputOf s i a
  reads_of_ok : ok → ∀ a, InputOf s i a → Covered (commandReads s.params s.args i) a
  writes_of_ok : ok → ∀ a,
    Covered (commandWrites s.params s.args (s.extent s.readByte) i) a ↔ OutputOf s i a
  ok_of_writes : asksBlock i = false → ∀ a,
    Covered (commandWrites s.params s.args (s.extent s.readByte) i) a → ok

section
variable {s : State} {i : Instr} {ok : Prop}

/-- A command whose checks ask for its arguments alone. -/
theorem NamesBytes.of_checks {fits : Bool} (hok : ok ↔ fits = true)
    (hreads : ∀ a, Covered (commandReads s.params s.args i) a ↔ fits = true ∧ InputOf s i a)
    (hwrites : ∀ a, Covered (commandWrites s.params s.args (s.extent s.readByte) i) a ↔
      fits = true ∧ OutputOf s i a) : NamesBytes s i ok where
  reads a h := ((hreads a).mp h).2
  reads_of_ok h a ha := (hreads a).mpr ⟨hok.mp h, ha⟩
  writes_of_ok h a := (hwrites a).trans (and_iff_right (hok.mp h))
  ok_of_writes _ a h := hok.mpr ((hwrites a).mp h).1

/-- A command without a buffer. -/
theorem NamesBytes.of_none (hreads : commandReads s.params s.args i = [])
    (hwrites : commandWrites s.params s.args (s.extent s.readByte) i = []) (hin : ∀ a, ¬ InputOf s i a)
    (hout : ∀ a, ¬ OutputOf s i a) : NamesBytes s i ok where
  reads _ h := absurd (hreads ▸ h) not_covered_nil
  reads_of_ok _ a ha := absurd ha (hin a)
  writes_of_ok _ a := iff_of_false (hwrites ▸ not_covered_nil) (hout a)
  ok_of_writes _ _ h := absurd (hwrites ▸ h) not_covered_nil

/-- A parser, which writes `size n` bytes at `dst` where it finds `n` in the input that its checks let it read. -/
theorem NamesBytes.of_parser {fits : Bool} {found : Option Nat} {size : Nat → Nat} {dst : Nat}
    (hsize : size 0 = 0) (hreads : ∀ a, Covered (commandReads s.params s.args i) a ↔ fits = true ∧ InputOf s i a)
    (hwrites : commandWrites s.params s.args (s.extent s.readByte) i =
      buffersIf (fits && inRange s.params dst (size (found.getD 0))) [whole dst (size (found.getD 0))])
    (hout : ∀ n, found = some n → ∀ a, OutputOf s i a ↔ dst ≤ a ∧ a < dst + size n) :
    NamesBytes s i (fits = true ∧ ∃ n, found = some n ∧ inRange s.params dst (size n) = true) where
  reads a h := ((hreads a).mp h).2
  reads_of_ok hok a ha := (hreads a).mpr ⟨hok.1, ha⟩
  writes_of_ok hok a := by
    obtain ⟨hfits, n, hn, hrange⟩ := hok
    rw [hwrites, covered_block, hn, Option.getD_some, hout n hn, hfits, hrange]
    exact and_iff_right rfl
  ok_of_writes _ a h := by
    rw [hwrites, covered_block, Bool.and_eq_true] at h
    obtain ⟨⟨hfits, hrange⟩, ha⟩ := h
    cases hn : found with
    | none =>
      rw [hn, Option.getD_none, hsize] at ha
      omega
    | some n =>
      rw [hn] at hrange
      exact ⟨hfits, n, rfl, hrange⟩

variable (s)

/-- The destination frames that RB_READ copies are those whose time the ring holds (R106). -/
theorem copiedFrames_spec (c : Source) (P : Params) (count : Nat) (t : Int) (i : Nat) :
    (c.copiedFrames P count t).1 ≤ i ∧ i < (c.copiedFrames P count t).1 + (c.copiedFrames P count t).2 ↔
      i < count ∧ ∃ j : Nat, (i : Int) - c.offset P t = j ∧ j < c.total := by
  unfold Source.copiedFrames
  split
  · constructor
    · rintro ⟨-, h⟩
      exact absurd h (Nat.not_lt_zero i)
    · rintro ⟨-, j, -, hj⟩
      omega
  · dsimp only
    constructor
    · rintro ⟨h1, h2⟩
      exact ⟨by omega, ((i : Int) - c.offset P t).toNat, by omega, by omega⟩
    · rintro ⟨hi, j, hj, hlt⟩
      omega

theorem readBuffer_covers {src : Nat} (hok : ReadOk s src) (a : Nat) :
    (readBuffer s src).span.covers a = true ↔ OutputOf s (.rbRead src) a := by
  obtain ⟨-, -, -, ⟨hwidth, -⟩, -⟩ := hok
  have hspec := copiedFrames_spec (s.source src) s.params (s.arg 1) (s.sarg 2)
  have hbytes : s.params.subframeBytes ≤ 2 * s.arg 5 * s.params.subframeBytes :=
    Nat.le_mul_of_pos_left _ (by omega)
  have haddr : ∀ i, s.arg 0 + (i * 2 * s.arg 5 + s.arg 4) * s.params.subframeBytes =
      s.arg 0 + i * (2 * s.arg 5 * s.params.subframeBytes) + s.arg 4 * s.params.subframeBytes := fun i => by ring
  refine (span_covers hbytes a).trans ?_
  simp only [readBuffer, OutputOf, haddr]
  constructor
  · rintro ⟨k, hk, hlow, hhigh⟩
    obtain ⟨hi, j, hj, hlt⟩ := (hspec (((s.source src).copiedFrames s.params (s.arg 1) (s.sarg 2)).1 + k)).mp
      (by omega)
    refine ⟨_, j, hi, hj, hlt, ?_⟩
    rw [Nat.add_mul]
    omega
  · rintro ⟨i, j, hi, hj, hlt, hlow, hhigh⟩
    obtain ⟨hfirst, hlast⟩ := (hspec i).mpr ⟨hi, j, hj, hlt⟩
    obtain ⟨k, rfl⟩ := Nat.exists_eq_add_of_le hfirst
    refine ⟨k, by omega, ?_⟩
    rw [Nat.add_mul] at hlow hhigh
    omega

theorem rbRead_namesBytes (hrings : RingsOk s) (src : Nat) : NamesBytes s (.rbRead src) (ReadOk s src) where
  reads a h := absurd h not_covered_nil
  reads_of_ok _ a ha := absurd ha id
  writes_of_ok hok a := by
    have hmem := readBuffer_mem s hrings hok s.readByte
    rw [← readBuffer_covers s hok a]
    rw [rbRead_writes, mem_buffersIf] at hmem
    rw [rbRead_writes, covered_buffersIf, covered_singleton]
    exact and_iff_right hmem.1
  ok_of_writes h := absurd rfl (Bool.eq_false_iff.mp h)

theorem rbPush_namesBytes (src : Nat) : NamesBytes s (.rbPush src) (PushOk s src) where
  reads a h := (covered_block.mp h).2
  reads_of_ok hok a ha := by
    obtain ⟨⟨hopen, hcount, hvalid, -, -, hrange⟩, hroom⟩ := hok
    have htime : s.argBits 2 ≠ invalidBits := ne_invalidBits_of_isValidTime hvalid
    have hsrc := ((sourceOpen_iff s src).mp hopen).1
    have ha' : s.arg 0 ≤ a ∧ a < s.arg 0 + s.arg 1 := ha
    have hlen : s.arg 1 ≤ s.params.ringBytes := by omega
    refine covered_block.mpr ⟨?_, ha⟩
    exact Bool.and_eq_true_iff.mpr ⟨Bool.and_eq_true_iff.mpr ⟨decide_eq_true ⟨hsrc, htime, hlen⟩, hcount⟩, hrange⟩
  writes_of_ok _ _ := iff_of_false not_covered_nil id
  ok_of_writes _ _ h := absurd h not_covered_nil

theorem mxExtract_namesBytes : NamesBytes s .mxExtract (ExtractOk s) where
  reads _ h := absurd h not_covered_nil
  reads_of_ok _ _ ha := absurd ha id
  writes_of_ok hok a := by
    obtain ⟨-, ⟨-, hcount⟩, hrange, -⟩ := hok
    rw [mxExtract_writes, covered_block, hrange, Bool.and_true]
    exact and_iff_right (decide_eq_true hcount)
  ok_of_writes h := absurd rfl (Bool.eq_false_iff.mp h)

/-! ### The pictures -/

theorem pictureWidth_eq (v : DWord) : pictureWidth v = v.toNat % 2 ^ 32 := by
  simp [pictureWidth]

theorem pictureHeight_eq (v : DWord) : pictureHeight v = v.toNat / 2 ^ 32 := by
  rw [pictureHeight, BitVec.extractLsb'_toNat, Nat.shiftRight_eq_div_pow]
  omega

theorem covered_planeBuffers {P : Params} {p : Picture} (h : pictureFits P p = true) {a : Nat} :
    Covered (planeBuffers p) a ↔
      ∃ r < p.height, (p.luma + r * p.lumaPitch ≤ a ∧ a < p.luma + r * p.lumaPitch + 2 * p.width) ∨
        (p.cb + r * p.chromaPitch ≤ a ∧ a < p.cb + r * p.chromaPitch + p.width) ∨
        (p.cr + r * p.chromaPitch ≤ a ∧ a < p.cr + r * p.chromaPitch + p.width) := by
  obtain ⟨hluma, hchroma, -⟩ : 2 * p.width ≤ p.lumaPitch ∧ p.width ≤ p.chromaPitch ∧ 16 * pictureGroups p ≤ p.stride :=
    of_decide_eq_true (Bool.and_eq_true_iff.mp (Bool.and_eq_true_iff.mp h).1).2
  simp only [Covered, planeBuffers, List.mem_cons, List.not_mem_nil, or_false, exists_eq_or_imp, exists_eq_left,
    span_covers (r := ⟨_, p.lumaPitch, _, _⟩) hluma, span_covers (r := ⟨_, p.chromaPitch, _, _⟩) hchroma,
    ← exists_or, ← and_or_left]

theorem covered_packedBuffer {P : Params} {p : Picture} (h : pictureFits P p = true) {a : Nat} :
    Covered [packedBuffer p] a ↔
      ∃ r < p.height, p.packed + r * p.stride ≤ a ∧ a < p.packed + r * p.stride + 16 * pictureGroups p := by
  obtain ⟨-, -, hstride⟩ : 2 * p.width ≤ p.lumaPitch ∧ p.width ≤ p.chromaPitch ∧ 16 * pictureGroups p ≤ p.stride :=
    of_decide_eq_true (Bool.and_eq_true_iff.mp (Bool.and_eq_true_iff.mp h).1).2
  rw [covered_singleton, packedBuffer]
  exact span_covers hstride a

theorem pxPackPlane_namesBytes :
    NamesBytes s .pxPackPlane (pictureFits s.params (packPicture s.args) = true) := by
  have hwidth : (packPicture s.args).width = s.arg 7 % 2 ^ 32 := pictureWidth_eq _
  have hheight : (packPicture s.args).height = s.arg 7 / 2 ^ 32 := pictureHeight_eq _
  refine .of_checks Iff.rfl (fun a => covered_buffersIf.trans (and_congr_right fun hfits => ?_)) fun a =>
    covered_buffersIf.trans (and_congr_right fun hfits => ?_)
  · rw [covered_planeBuffers hfits, hwidth, hheight]
    rfl
  · rw [covered_packedBuffer hfits, pictureGroups, hwidth, hheight]
    rfl

theorem pxUnpackPlane_namesBytes :
    NamesBytes s .pxUnpackPlane (pictureFits s.params (unpackPicture s.args) = true) := by
  have hwidth : (unpackPicture s.args).width = s.arg 7 % 2 ^ 32 := pictureWidth_eq _
  have hheight : (unpackPicture s.args).height = s.arg 7 / 2 ^ 32 := pictureHeight_eq _
  refine .of_checks Iff.rfl (fun a => covered_buffersIf.trans (and_congr_right fun hfits => ?_)) fun a =>
    covered_buffersIf.trans (and_congr_right fun hfits => ?_)
  · rw [covered_packedBuffer hfits, pictureGroups, hwidth, hheight]
    rfl
  · rw [covered_planeBuffers hfits, hwidth, hheight]
    rfl

/-! ### The parsers -/

theorem ancParse_namesBytes :
    NamesBytes s .ancParse ((isCount (s.arg 1) && inRange s.params (s.arg 0) (2 * s.arg 1)) = true ∧
      ∃ n, ancFound s = some n ∧ inRange s.params (s.arg 2) n = true) := by
  refine .of_parser (size := id) rfl (fun _ => covered_block)
    rfl fun n hn a => ?_
  have hlen : (s.read16 (s.arg 0 + 10)).toNat % 256 = n := by
    rw [eq_of_ancCheck hn, BitVec.toNat_setWidth]
  rw [OutputOf, hlen]
  rfl

theorem cdpParse_namesBytes :
    NamesBytes s .cdpParse ((isCount (s.arg 1) && inRange s.params (s.arg 0) (s.arg 1)) = true ∧
      ∃ q, cdpFound s = some q ∧ inRange s.params (s.arg 2) (3 * q) = true) := by
  refine .of_parser (size := fun q => 3 * q) rfl
    (fun _ => covered_block) rfl fun q hq a => ?_
  have hcount : (s.readByte (s.arg 0 + 8)).toNat % 32 = q := by
    rw [eq_of_cdpCheck hq, BitVec.extractLsb'_toNat, Nat.shiftRight_zero]
  rw [OutputOf, hcount]

/-! ### All commands -/

/-- Command `i`, performed in `s`, completes with OK. -/
def Succeeding (s : State) (i : Instr) : Prop := ∃ t, exec i s = .next t ∧ t.ports[s.serving].code = .ok

theorem NamesBytes.of_ends {s : State} {m : Memory} (h : NamesBytes s i ok)
    (hends : Ends s ok m (exec i s)) : NamesBytes s i (Succeeding s i) := by
  rwa [Succeeding, propext hends.ok_iff]

theorem namesBytes (hrings : RingsOk s) (i : Instr) : NamesBytes s i (Succeeding s i) := by
  cases i with
  | rbPush src => exact (rbPush_namesBytes s src).of_ends (execRbPush_ends s src)
  | rbRead src => exact (rbRead_namesBytes s hrings src).of_ends (execRbRead_ends s src)
  | mxExtract => exact (mxExtract_namesBytes s).of_ends (execMxExtract_ends s)
  | pxPackPlane => exact (pxPackPlane_namesBytes s).of_ends (execPxPackPlane_ends s)
  | pxUnpackPlane => exact (pxUnpackPlane_namesBytes s).of_ends (execPxUnpackPlane_ends s)
  | ancParse => exact (ancParse_namesBytes s).of_ends (execAncParse_ends s)
  | cdpParse => exact (cdpParse_namesBytes s).of_ends (execCdpParse_ends s)
  | ancData10 p =>
    exact NamesBytes.of_ends (.of_checks Iff.rfl (fun _ => covered_block) fun _ => covered_block)
      (execAncData10_ends s p)
  | ancPad =>
    exact NamesBytes.of_ends (.of_checks Iff.rfl (fun _ => iff_of_false not_covered_nil And.right)
      fun _ => covered_block) (execAncPad_ends s)
  | ancAfd p =>
    exact NamesBytes.of_ends (.of_checks Iff.rfl (fun _ => iff_of_false not_covered_nil And.right)
      fun _ => covered_block) (execAncAfd_ends s p)
  | ancCaptions p =>
    refine NamesBytes.of_ends (.of_checks Iff.rfl (fun _ => covered_block)
      fun a => covered_block.trans (and_congr_right fun _ => ?_)) (execAncCaptions_ends s p)
    have hwords : 7 + (13 + 3 * s.arg 3) = 20 + 3 * s.arg 3 := by omega
    show s.arg 4 ≤ a ∧ a < s.arg 4 + 2 * emittedCount p (7 + (13 + 3 * s.arg 3)) ↔ _
    rw [hwords]
    rfl
  | pxPackWords c =>
    exact NamesBytes.of_ends (.of_checks Iff.rfl (fun _ => covered_block) fun _ => covered_block)
      (execPxPackWords_ends s c)
  | pxUnpackWords =>
    exact NamesBytes.of_ends (.of_checks Iff.rfl (fun _ => covered_block) fun _ => covered_block)
      (execPxUnpackWords_ends s)
  | nop | rbBufferStart | rbAvailable | rbFlushConsumed | rbTagVirtualConsumed | rbForwardTo | rbInfo
  | mxSetAudioConfig | mxAddMapping | mxRemoveMapping | mxBufferStart | mxAvailableVirtual | mxAlignedInterleave
  | mxSlotMap => exact .of_none rfl rfl (fun _ => id) fun _ => id

end

/-! ### The buffers of a pending command, where no host has raced with it -/

theorem covered_buffers_of_unraced {s : State} {i : Instr} (hp : s.performed = some i) (h : s.violations i = [])
    (a : Nat) : Covered (s.buffers i).writes a ↔
      Covered (commandWrites s.params s.args (s.extent s.readByte) i) a := by
  obtain ⟨hfirst, hsecond⟩ := findings_of_unraced hp h
  simp only [Covered, mem_buffers_writes, hfirst, hsecond, or_self]

section
variable {s : State} {p : Fin 15} {c : Pending} {i : Instr}

theorem execStep_of_decoded (hc : s.ports[p].pending = some c) (hd : decode c.word = .ok i) :
    s.execStep p = exec i (s.serve p) := by
  simp only [State.execStep, hc, perform_of_decode hd]

theorem wouldSucceed_iff_succeeding (hc : s.ports[p].pending = some c) (hd : decode c.word = .ok i) :
    s.wouldSucceed p = true ↔ Succeeding (s.serve p) i := by
  rw [wouldSucceed_iff, execStep_of_decoded hc hd]
  rfl

/-- A pending command's buffers are those it is performed with, or it would fail and has none. -/
theorem buffersAt_cases (hc : s.ports[p].pending = some c) (hd : decode c.word = .ok i) :
    (s.buffersAt p = ⟨[], []⟩ ∧ asksBlock i = true ∧ ¬ Succeeding (s.serve p) i) ∨
      (s.buffersAt p = (s.serve p).buffers i ∧ (asksBlock i = true → Succeeding (s.serve p) i)) := by
  rw [buffersAt_of_decoded hc hd, ← wouldSucceed_iff_succeeding hc hd]
  cases asksBlock i <;> cases s.wouldSucceed p <;> simp

theorem buffersAt_named (hrings : RingsOk s) (hc : s.ports[p].pending = some c) (hd : decode c.word = .ok i)
    (h : (s.serve p).violations i = []) (a : Nat) :
    (Covered (s.buffersAt p).writes a ↔ OutputOf (s.serve p) i a ∧ Succeeding (s.serve p) i) ∧
      (Covered (s.buffersAt p).reads a → InputOf (s.serve p) i a) ∧
      (Succeeding (s.serve p) i → InputOf (s.serve p) i a → Covered (s.buffersAt p).reads a) := by
  have hnames := namesBytes (s.serve p) hrings i
  have hwrites := covered_buffers_of_unraced (serve_performed hc hd) h a
  rcases buffersAt_cases hc hd with ⟨hbuffers, -, hfail⟩ | ⟨hbuffers, hasks⟩
  · rw [hbuffers]
    exact ⟨iff_of_false not_covered_nil fun ho => hfail ho.2, fun hr => absurd hr not_covered_nil,
      fun hok => absurd hok hfail⟩
  · rw [hbuffers]
    refine ⟨hwrites.trans ⟨fun hw => ?_, fun ⟨ho, hok⟩ => (hnames.writes_of_ok hok a).mpr ho⟩, hnames.reads a,
      fun hok => hnames.reads_of_ok hok a⟩
    have hok : Succeeding (s.serve p) i := by
      cases hblock : asksBlock i with
      | true => exact hasks hblock
      | false => exact hnames.ok_of_writes hblock a hw
    exact ⟨(hnames.writes_of_ok hok a).mp hw, hok⟩

end

/-! ### What a step stores -/

/-- What the executor's step stores: nothing, or what the pending command does. -/
theorem execStep_stores {s t : State} {p : Fin 15} (h : s.execStep p = .next t) :
    t.dmem = s.dmem ∨ ∃ c i, s.ports[p].pending = some c ∧ decode c.word = .ok i ∧
      Stores (s.serve p) i (.next t) := by
  cases hc : s.ports[p].pending with
  | none =>
    obtain rfl := Host.Outcome.next.inj ((execStep_of_idle hc).symm.trans h)
    exact .inl rfl
  | some c =>
    cases hd : decode c.word with
    | ok i => exact .inr ⟨c, i, rfl, hd, h ▸ execStep_of_decoded hc hd ▸ exec_stores _ (serve_performed hc hd)⟩
    | error e =>
      simp only [State.execStep, hc, State.perform, hd] at h
      obtain rfl := Host.Outcome.next.inj h
      exact .inl rfl

/-- A command changes no byte outside its output ranges. -/
theorem execStep_read_out {s t : State} {p : Fin 15} (hrings : RingsOk s) (h : s.execStep p = .next t) {a : Nat}
    (ha : ∀ r ∈ (s.buffersAt p).writes, r.range.holds a = false) : Memory.read t.dmem a = Memory.read s.dmem a := by
  rcases execStep_stores h with hsame | ⟨c, i, hc, hd, t', runs, ht', hdmem, hfail, hreach⟩
  · rw [hsame]
  · obtain rfl := Host.Outcome.next.inj ht'
    rw [hdmem]
    refine read_writeRuns_out _ fun r hr => Bool.eq_false_iff.mpr fun hcovers => ?_
    rcases buffersAt_cases hc hd with ⟨-, -, hno⟩ | ⟨hbuffers, -⟩
    · have hcode : t.ports[p].code ≠ .ok := fun hok => hno ⟨t, execStep_of_decoded hc hd ▸ h, hok⟩
      rw [hfail hcode] at hr
      exact absurd hr List.not_mem_nil
    · obtain ⟨y, hy, hholds⟩ := (hreach a ⟨r, hr, hcovers⟩).2 hrings
      rw [ha y (hbuffers ▸ hy)] at hholds
      exact Bool.false_ne_true hholds

/-- The data memory has its canonical form and lists no address that does not exist (R60). -/
structure DmemOk (s : State) : Prop where
  form : MemoryOk s
  inside : InsideDmem s

theorem dmemOk_congr {s t : State} (h : DmemOk s) (hdmem : t.dmem = s.dmem) (hparams : t.params = s.params) :
    DmemOk t := by
  refine ⟨?_, ?_⟩
  · rw [MemoryOk, hdmem]
    exact h.form
  · rw [InsideDmem, hdmem, hparams]
    exact h.inside

theorem execStep_dmemOk {s t : State} {p : Fin 15} (hs : DmemOk s) (h : s.execStep p = .next t) : DmemOk t := by
  have hparams := (execStep_hosts_params h).2
  rcases execStep_stores h with hsame | ⟨c, i, -, -, t', runs, ht', hdmem, -, hreach⟩
  · exact dmemOk_congr hs hsame hparams
  · obtain rfl := Host.Outcome.next.inj ht'
    refine ⟨?_, fun d hd => ?_⟩
    · rw [MemoryOk, hdmem]
      exact wf_writeRuns hs.form runs
    · rw [hdmem] at hd
      rw [hparams]
      exact (mem_writeRuns hd).elim (fun hcovers => (hreach d.1 hcovers).1) (hs.inside d)

theorem writeReg_dmem (s : State) (r : HostReg) (w : Word) : (s.writeReg r w).dmem = s.dmem := by
  cases r with
  | ctrl => exact writeReg_ctrl_dmem s w
  | id | audioCfg | cdpCounter | head | irqStatus | params | cmd | status | ie | arg | res | hole => rfl

/-- A host's access stores one existing byte at most. -/
theorem hostAct_dmem {s t : State} {p : Fin 15} {x : HostAction} (h : s.hostAct p x = .next t) :
    t.dmem = s.dmem ∨ ∃ a b, a < s.params.dmemSize ∧ t.dmem = Memory.write s.dmem a b := by
  cases x with
  | regRead off width =>
    obtain rfl := eq_of_guarded_next h nofun
    exact .inl rfl
  | regWrite off width w =>
    obtain rfl := eq_of_guarded_next h nofun
    exact .inl (writeReg_dmem s _ w)
  | dmemRead a =>
    obtain rfl := eq_of_guarded_next h nofun
    exact .inl rfl
  | dmemWrite a b =>
    have ha : a < s.params.dmemSize := by
      by_contra ha
      exact absurd ((if_neg ha).symm.trans h) nofun
    obtain rfl := eq_of_guarded_next h nofun
    exact .inr ⟨a, b, ha, rfl⟩
  | wait =>
    obtain rfl := Host.Outcome.next.inj h
    exact .inl rfl

theorem hostStep_dmem {s t : State} {p : Fin 15} (h : s.hostStep p = .next t) :
    t.dmem = s.dmem ∨ ∃ a b, a < s.params.dmemSize ∧ t.dmem = Memory.write s.dmem a b := by
  obtain ⟨u, hmove, hread⟩ := hostStep_cases h
  have htu : t.dmem = u.dmem := by
    obtain rfl | ⟨v, rfl⟩ := hread <;> rfl
  rw [htu]
  obtain ⟨-, rfl⟩ | ⟨-, rfl⟩ | ⟨x, rest, -, -, hact⟩ := hostMove_cases hmove
  · exact .inl rfl
  · exact .inl rfl
  · exact hostAct_dmem (s := s.tick) hact

theorem hostStep_params {s t : State} {p : Fin 15} (h : s.hostStep p = .next t) : t.params = s.params :=
  (hostStep_sameRings h).elim SameRings.params SameRings.params

theorem hostStep_dmemOk {s t : State} {p : Fin 15} (hs : DmemOk s) (h : s.hostStep p = .next t) : DmemOk t := by
  have hparams := hostStep_params h
  rcases hostStep_dmem h with hsame | ⟨a, b, ha, hdmem⟩
  · exact dmemOk_congr hs hsame hparams
  · refine ⟨?_, fun d hd => ?_⟩
    · rw [MemoryOk, hdmem]
      exact wf_write hs.form a b
    · rw [hdmem] at hd
      rw [hparams]
      exact (mem_write hd).elim (fun e => e ▸ ha) (hs.inside d)

/-- Every step keeps the data memory's form and size, and the parameters. -/
theorem stepBy_dmemOk {f : Nat → Nat} {s t : State} (hs : DmemOk s) (h : stepBy f s = .next t) :
    DmemOk t ∧ t.params = s.params := by
  cases hpick : s.pick f with
  | none =>
    obtain rfl := Host.Outcome.next.inj ((stepBy_of_pick_none hpick).symm.trans h)
    exact ⟨hs, rfl⟩
  | some x =>
    have hstep := (stepBy_of_pick hpick).symm.trans h
    cases x with
    | exec p => exact ⟨execStep_dmemOk hs hstep, (execStep_hosts_params hstep).2⟩
    | host p => exact ⟨hostStep_dmemOk hs hstep, hostStep_params hstep⟩

/-- Settles O59: every store lies in an output range, whose bytes are those the rule names where nobody has raced with
the command; and the states by which a host's reads are judged are those to come. -/
theorem stepKeepsTheDataMemory : Obligations.StepKeepsTheDataMemory := by
  refine ⟨fun f s t hform hinside h => ?_, fun s t p hrings h a ha => execStep_read_out hrings h ha,
    fun s p c i hrings hc hd hunraced => ?_, fun f s t p _ h ht u hu => stepBy_adds_no_buffers h ht hu,
    fun s v p hs hv => futures_come hs hv⟩
  · obtain ⟨⟨hform', hinside'⟩, hparams⟩ := stepBy_dmemOk ⟨hform, hinside⟩ h
    exact ⟨hform', hinside', hparams⟩
  · rw [execStep_of_decoded hc hd]
    exact buffersAt_named hrings hc hd hunraced

end Sys2Proof.Proofs
end

section
/-! PROOFS. The decoder's rows, each said once against the opcode map of 30_encoding.md rules R83 and R84: which words
decode, to which commands, and what the executor makes of the words and the sources that are refused. -/

namespace Sys2Proof.Proofs

open Sys2Proof
open Sys2Proof.Machine
open Sys2Proof.Safety
open Sys2Proof.Laws

/-! ### The fields of a row of the opcode map (R83, R84) -/

theorem opcOf_eq_ofNat {w : Word} {n : Nat} (h : (opcOf w).toNat = n) : opcOf w = BitVec.ofNat 8 n := by
  rw [← h, BitVec.ofNat_toNat, BitVec.setWidth_eq]

theorem flag0_getLsbD : ∀ f : BitVec 8, f &&& ~~~1#8 = 0#8 → flag0 (f.getLsbD 0) = f := by
  decide

theorem flagsXAM_getLsbD :
    ∀ f : BitVec 8, f &&& ~~~7#8 = 0#8 → flagsXAM (f.getLsbD 0) (f.getLsbD 1) (f.getLsbD 2) = f := by
  decide

theorem zero_eq_flagsOf {w : Word} (h : flagsOf w &&& ~~~0#8 = 0#8) : 0#8 = flagsOf w := by
  rwa [BitVec.not_zero, BitVec.and_allOnes, eq_comm] at h

theorem flag0_eq_flagsOf {w : Word} (h : flagsOf w &&& ~~~1#8 = 0#8) : flag0 (flagOf w 0) = flagsOf w := by
  rw [flagOf_eq w (by decide), flag0_getLsbD _ h]

theorem flagsXAM_eq_flagsOf {w : Word} (h : flagsOf w &&& ~~~7#8 = 0#8) :
    flagsXAM (flagOf w 0) (flagOf w 1) (flagOf w 2) = flagsOf w := by
  rw [flagOf_eq w (by decide), flagOf_eq w (by decide), flagOf_eq w (by decide), flagsXAM_getLsbD _ h]

/-- An opcode stands in one row of the map. -/
theorem opcodeMap_opcode_unique : ∀ r ∈ opcodeMap, ∀ r' ∈ opcodeMap, r.1 = r'.1 → r = r' :=
  fun _ hr _ hr' h => List.inj_on_of_nodup_map (by decide) hr hr' h

/-! ### The tests of a row (R82) -/

theorem checkFlags_eq_ok {w : Word} {mask : BitVec 8} {i j : Instr} :
    checkFlags w mask j = .ok i ↔ flagsOf w &&& ~~~mask = 0#8 ∧ j = i := by
  rw [checkFlags]
  split <;> simp [*]

theorem withSource_eq_ok {w : Word} {mask : BitVec 8} {g : Nat → Instr} {i : Instr} :
    withSource w mask g = .ok i ↔ flagsOf w &&& ~~~mask = 0#8 ∧ g (srcOf w).toNat = i :=
  checkFlags_eq_ok

theorem withoutSource_eq_ok {w : Word} {mask : BitVec 8} {i j : Instr} :
    withoutSource w mask j = .ok i ↔ srcOf w = 0#8 ∧ flagsOf w &&& ~~~mask = 0#8 ∧ j = i := by
  rw [withoutSource]
  split <;> simp [checkFlags_eq_ok, *]

theorem decode_eq_ok {w : Word} {i : Instr} :
    decode w = .ok i ↔ rsvdOf w = 0#8 ∧ decodeOpcode w = .ok i := by
  rw [decode]
  split <;> simp [*]

/-! ### What the decoder can do with a word (R83, R84) -/

/-- What the decoder answers for a word with RSVD = 0: by the row of the opcode map that holds the word's opcode, a
command whose word has that opcode and the word's flags; or a refusal, where no row holds it. -/
inductive RowAnswer (w : Word) : Except DecodeError Instr → Prop where
  | source {mask : BitVec 8} {g : Nat → Instr} (hrow : (opcOf w, true, mask) ∈ opcodeMap)
      (hsource : ∀ n, (g n).source? = some n)
      (henc : flagsOf w &&& ~~~mask = 0#8 → ∀ n,
        encode (g n) = commandWord (flagsOf w) (BitVec.ofNat 8 n) (opcOf w)) :
      RowAnswer w (withSource w mask g)
  | noSource {mask : BitVec 8} {j : Instr} (hrow : (opcOf w, false, mask) ∈ opcodeMap)
      (hsource : j.source? = none)
      (henc : flagsOf w &&& ~~~mask = 0#8 → encode j = commandWord (flagsOf w) 0#8 (opcOf w)) :
      RowAnswer w (withoutSource w mask j)
  | unassigned (hrow : ∀ row ∈ opcodeMap, opcOf w ≠ row.1) : RowAnswer w (.error .unassignedOpcode)

section
variable {w : Word} {n : Nat} {flags mask : BitVec 8} (hn : (opcOf w).toNat = n)
  (hflags : flagsOf w &&& ~~~mask = 0#8 → flags = flagsOf w)
include hn hflags

theorem RowAnswer.of_sourceRow {g : Nat → Instr} (hrow : (BitVec.ofNat 8 n, true, mask) ∈ opcodeMap)
    (hsource : ∀ src, (g src).source? = some src)
    (henc : ∀ src, encode (g src) = commandWord flags (BitVec.ofNat 8 src) (BitVec.ofNat 8 n)) :
    RowAnswer w (withSource w mask g) := by
  rw [← opcOf_eq_ofNat hn] at hrow henc
  exact .source hrow hsource fun hf => hflags hf ▸ henc

theorem RowAnswer.of_noSourceRow {j : Instr} (hrow : (BitVec.ofNat 8 n, false, mask) ∈ opcodeMap)
    (hsource : j.source? = none) (henc : encode j = commandWord flags 0#8 (BitVec.ofNat 8 n)) :
    RowAnswer w (withoutSource w mask j) := by
  rw [← opcOf_eq_ofNat hn] at hrow henc
  exact .noSource hrow hsource fun hf => hflags hf ▸ henc

end

/-- The cases are the decoder's rows, by their places in it: those with SRC and no flags, MX_ADD_MAPPING, those with
neither SRC nor flags, those with one flag and no SRC, and the last, for every other opcode. -/
theorem decodeOpcode_answer (w : Word) : RowAnswer w (decodeOpcode w) := by
  unfold decodeOpcode
  split
  case h_2 h | h_3 h | h_4 h | h_5 h | h_6 h | h_7 h | h_8 h | h_9 h | h_12 h =>
    exact .of_sourceRow h zero_eq_flagsOf (by decide) (fun _ => rfl) fun _ => rfl
  case h_11 h => exact .of_sourceRow h flagsXAM_eq_flagsOf (by decide) (fun _ => rfl) fun _ => rfl
  case h_1 h | h_13 h | h_14 h | h_15 h | h_16 h | h_17 h | h_19 h | h_22 h | h_23 h | h_24 h | h_26 h | h_27 h =>
    exact .of_noSourceRow h zero_eq_flagsOf (by decide) rfl rfl
  case h_10 h | h_18 h | h_20 h | h_21 h | h_25 h =>
    exact .of_noSourceRow h flag0_eq_flagsOf (by decide) rfl rfl
  case h_28 =>
    refine .unassigned ?_
    simp_all [opcodeMap, ← BitVec.toNat_inj]

/-! ### Words that decode (R82, R92) -/

theorem wellFormed_of_source_lt {i : Instr} {src : Nat} (h : i.source? = some src) (hsrc : src < 256) :
    i.wellFormed = true := by
  simpa [Instr.wellFormed, h] using hsrc

theorem wellFormed_of_source_none {i : Instr} (h : i.source? = none) : i.wellFormed = true := by
  simp [Instr.wellFormed, h]

/-- A word is that of the command it decodes to: its fields are the command's, and RSVD = 0. -/
theorem encode_of_decode {w : Word} {i : Instr} (h : decode w = .ok i) :
    encode i = w ∧ i.wellFormed = true := by
  obtain ⟨hr, hd⟩ := decode_eq_ok.mp h
  have hw := commandWord_of_fields hr
  generalize ha : decodeOpcode w = a at hd
  cases ha ▸ decodeOpcode_answer w with
  | source hrow hsource henc =>
    obtain ⟨hf, rfl⟩ := withSource_eq_ok.mp hd
    refine ⟨?_, wellFormed_of_source_lt (hsource _) (srcOf w).isLt⟩
    rw [henc hf, BitVec.ofNat_toNat, BitVec.setWidth_eq, hw]
  | noSource hrow hsource henc =>
    obtain ⟨hs, hf, rfl⟩ := withoutSource_eq_ok.mp hd
    refine ⟨?_, wellFormed_of_source_none hsource⟩
    rw [henc hf, ← hs, hw]
  | unassigned => cases hd

theorem decodes_iff_validWord (w : Word) : (∃ i : Instr, decode w = .ok i) ↔ ValidWord w := by
  simp only [decode_eq_ok, exists_and_left, ValidWord]
  refine and_congr_right fun _ => ?_
  generalize ha : decodeOpcode w = a
  cases ha ▸ decodeOpcode_answer w with
  | source hrow =>
    simp only [withSource_eq_ok]
    constructor
    · rintro ⟨_, hf, -⟩
      exact ⟨_, hrow, rfl, hf, nofun⟩
    · rintro ⟨row, hmem, ho, hf, -⟩
      obtain rfl := opcodeMap_opcode_unique _ hrow row hmem ho
      exact ⟨_, hf, rfl⟩
  | noSource hrow =>
    simp only [withoutSource_eq_ok]
    constructor
    · rintro ⟨_, hs, hf, -⟩
      exact ⟨_, hrow, rfl, hf, fun _ => hs⟩
    · rintro ⟨row, hmem, ho, hf, hs⟩
      obtain rfl := opcodeMap_opcode_unique _ hrow row hmem ho
      exact ⟨_, hs rfl, hf, rfl⟩
  | unassigned hrow =>
    constructor
    · rintro ⟨_, h⟩
      cases h
    · rintro ⟨row, hmem, ho, -⟩
      exact absurd ho (hrow row hmem)

theorem decodeTableWord_toNat (w : Word) : decodeTableWord 32 w.toNat = (decode w).toOption := by
  rw [decodeTableWord, Nat.mod_eq_of_lt w.isLt, BitVec.ofNat_toNat, BitVec.setWidth_eq]
  cases decode w <;> rfl

/-! ### Words and sources that are refused (R82, R261) -/

theorem perform_of_not_validWord {w : Word} (h : ¬ ValidWord w) (s : State) :
    s.perform w = s.raise .badOpcode := by
  unfold State.perform
  split
  · next i hd => exact absurd ((decodes_iff_validWord w).mp ⟨i, hd⟩) h
  · rfl

theorem not_sourceOpen_of_ge {s : State} {src : Nat} (h : s.params.maxSources ≤ src) :
    (!s.sourceOpen src) = true := by
  simp [State.sourceOpen, Nat.not_lt.mpr h]

/-- The first check of every source command refuses a source that does not exist. -/
theorem raises_badSource_of_ge {s : State} {i : Instr} {src : Nat} (hi : i.source? = some src)
    (h : s.params.maxSources ≤ src) : Raises s i .badSource := by
  cases i with
  | rbPush | rbBufferStart | rbAvailable | rbRead | rbFlushConsumed | rbTagVirtualConsumed | rbForwardTo
  | mxRemoveMapping =>
    obtain rfl := Option.some.inj hi
    exact raises_of_exec (if_pos (not_sourceOpen_of_ge h))
  | rbInfo | mxAddMapping =>
    obtain rfl := Option.some.inj hi
    exact raises_of_exec (if_pos (Nat.not_lt.mpr h))
  | nop | mxSetAudioConfig | mxBufferStart | mxAvailableVirtual | mxAlignedInterleave | mxExtract | mxSlotMap
  | ancData10 | ancPad | ancAfd | ancCaptions | ancParse | cdpParse | pxPackPlane | pxPackWords | pxUnpackPlane
  | pxUnpackWords => cases hi

/-! ### The statements -/

/-- Settles O1: the table's word has all 32 bits of the command's word, so it decodes as that word does. -/
theorem decodeOfEncode : Obligations.DecodeOfEncode := by
  intro i hi
  have hd := decode_encode hi
  exact ⟨hd, by rw [decodeTableWord_toNat, hd]; rfl⟩

/-- Settles O2. -/
theorem encodeOfDecode : Obligations.EncodeOfDecode :=
  fun _ _ h => encode_of_decode h

/-- Settles O3: a word that is not valid does not decode, so the executor's step is its refusal. -/
theorem validWordsAreTheOpcodeMaps : Obligations.ValidWordsAreTheOpcodeMaps := by
  refine ⟨decodes_iff_validWord, fun f s p c hpick hc hw => ?_, fun s i src => raises_badSource_of_ge⟩
  rw [stepBy_of_pick_exec hpick hc, perform_of_not_validWord hw]
  exact raise_spec (s.serve p) .badOpcode

/-- Settles O4: each of the words is the word of its command, but for the last, whose opcode stands in no row. -/
theorem sampleWordsDecode : Obligations.SampleWordsDecode :=
  ⟨decode_encode (i := .rbPush 1) rfl, decode_encode (i := .mxAddMapping 3 true false true) rfl,
    decode_encode (i := .ancCaptions true) rfl, decode_encode (i := .pxPackWords false) rfl,
    decode_encode (i := .mxExtract) rfl, decode_encode (i := .nop) rfl, rfl⟩

end Sys2Proof.Proofs
end

section
/-! PROOFS. The checks of a command, said once: each check of a rule against its test in a statement, and how a command
that passes them all succeeds, with what it then leaves unchanged (60_exceptions.md rules R262, R264). -/

namespace Sys2Proof.Proofs

open Sys2Proof
open Sys2Proof.Config (Params)
open Sys2Proof.Machine
open Sys2Proof.Safety
open Sys2Proof.Laws

/-! ### The word of a source command (R82, R83) -/

/-- A command without flags decodes, from its opcode and a SRC field, as itself. -/
theorem decode_sourceWord {g : Nat → Instr} {o : BitVec 8} (hsource : ∀ k, (g k).source? = some k)
    (henc : ∀ k, encode (g k) = commandWord 0#8 (BitVec.ofNat 8 k) o) (n : BitVec 8) :
    decode (commandWord 0#8 n o) = .ok (g n.toNat) := by
  have hd := decode_encode (wellFormed_of_source_lt (hsource n.toNat) n.isLt)
  rwa [henc, BitVec.ofNat_toNat, BitVec.setWidth_eq] at hd

/-! ### The tests (R10, R63, R85) -/

section
variable {s : State}

theorem sarg_eq_int64Min_iff (n : Fin 8) : s.sarg n = int64Min ↔ s.argBits n = invalidBits := by
  rw [State.sarg, ← toInt_invalidBits, BitVec.toInt_inj]

theorem not_sourceOpen_iff {src : Nat} : (!s.sourceOpen src) = true ↔ NotOpen s src := by
  simp [State.sourceOpen, NotOpen]

theorem not_isCount_iff {n : Nat} : (!isCount n) = true ↔ u32Max < n := by
  simp [isCount]

theorem not_isValidTime_iff (n : Fin 8) : (!isValidTime (s.sarg n)) = true ↔ s.argBits n = invalidBits := by
  simp [isValidTime, ← sarg_eq_int64Min_iff]

theorem not_inRange_iff {P : Params} {a n : Nat} : (!inRange P a n) = true ↔ OutOfRange P a n := by
  simp [inRange, OutOfRange]

theorem sourceOpen_of_not_notOpen {src : Nat} (h : ¬ NotOpen s src) : s.sourceOpen src = true := by
  simpa using mt not_sourceOpen_iff.mp h

theorem lt_of_not_notOpen {src : Nat} (h : ¬ NotOpen s src) : src < 16 :=
  lt_of_isOpen ((sourceOpen_iff s src).mp (sourceOpen_of_not_notOpen h)).2

/-! ### The checks in order (R262) -/

variable {i : Instr} {bad ok : Prop} {code : Code} {rest : List (Prop × Code)}
  {o : Host.Outcome State Fault Refusal}

/-- A check: where its test fails the command raises its code, and else the rest of the rule is the command. -/
theorem checked_cons {b : Prop} [Decidable b] (hexec : exec i s = if b then s.raise code else o) (hb : b ↔ bad)
    (h : ¬ bad → exec i s = o → Checked s i rest ok) : Checked s i ((bad, code) :: rest) ok :=
  ⟨fun hbad => raises_of_exec (hexec.trans (if_pos (hb.mpr hbad))),
    fun hgood => h hgood (hexec.trans (if_neg (mt hb.mp hgood)))⟩

/-- A check that the command has no need of. -/
theorem checked_of_not (hgood : ¬ bad) (h : Checked s i rest ok) : Checked s i ((bad, code) :: rest) ok :=
  ⟨fun hbad => absurd hbad hgood, fun _ => h⟩

theorem checked_cases {checks : List (Prop × Code)} (h : Checked s i checks ok) :
    (∃ code, Raises s i code) ∨ ok := by
  induction checks with
  | nil => exact .inr h
  | cons check rest ih =>
    obtain ⟨hraise, hpass⟩ := h
    by_cases hbad : check.1
    · exact .inl ⟨check.2, hraise hbad⟩
    · exact ih (hpass hbad)

/-! ### How a command succeeds (R264) -/

variable {r0 r1 r2 r3 : DWord}

theorem reports_of_exec (hexec : exec i s = s.finish r0 r1 r2 r3) : Reports s i r0 r1 r2 r3 := by
  obtain ⟨t, ht, hdone, hsame⟩ := finish_query_spec s r0 r1 r2 r3
  exact ⟨t, hexec.trans ht, hdone, hsame.1, hsame⟩

/-- Nothing but source context `src` has changed, which is `d` in `t`. -/
theorem succeeds_of_setSource {src : Nat} {d : Source} (hsrc : src < 16)
    (hexec : exec i s = (s.setSource src d).finish r0 r1 r2 r3) :
    Succeeds s i r0 r1 r2 r3 fun t =>
      SameConfig s t ∧ SameHead s t ∧ SameDmem s t ∧ SameOtherSources s t src ∧ t.source src = d := by
  obtain ⟨t, ht, hdone, hout, hconfig, ⟨hsources, howner⟩, hhead, hdmem⟩ :=
    finish_spec (setSource_ports s src d) (setSource_serving s src d) r0 r1 r2 r3
  refine ⟨t, hexec.trans ht, hdone, hout, hconfig, hhead, hdmem, ⟨fun j hj => ?_, howner⟩, ?_⟩
  · rw [source_congr hsources, setSource_source_ne s d hj]
  · rw [source_congr hsources, setSource_source_self s d hsrc]

end

end Sys2Proof.Proofs
end

section
/-! PROOFS. The per-source ring buffer commands but RB_READ: what each does to its source context, in the terms of
41_ring_buffer.md rules R100 to R110. -/

namespace Sys2Proof.Proofs

open Sys2Proof
open Sys2Proof.Config (Params)
open Sys2Proof.Machine
open Sys2Proof.Safety
open Sys2Proof.Laws

/-! ### The buffer start and the offset (R100, R101) -/

section
variable {c : Source} {P : Params}

theorem bufferStart_of_empty (h : c.total = 0) : c.bufferStart P = int64Min := if_pos h

theorem bufferStart_of_chunks (h : c.total ≠ 0) {k : Chunk} {ks : List Chunk} (hk : c.chunks = k :: ks) :
    c.bufferStart P = k.pts.toInt + framesToTicks P c.headOff := by
  rw [Source.bufferStart, if_neg h, hk]

theorem timeBits_int64Min : timeBits int64Min = invalidBits := by decide

/-- The register bits of the buffer start of a ring that holds a frame are a valid TimePoint's. -/
theorem timeBits_bufferStart (hc : OpenOk P c) (h : c.total ≠ 0) :
    (timeBits (c.bufferStart P)).toInt = c.bufferStart P ∧ timeBits (c.bufferStart P) ≠ invalidBits := by
  obtain ⟨hlow, hhigh⟩ := bufferStart_valid hc (Nat.pos_of_ne_zero h)
  have hbits := toInt_timeBits hlow.le hhigh
  refine ⟨hbits, fun hinvalid => ?_⟩
  rw [hinvalid, toInt_invalidBits] at hbits
  exact hlow.ne hbits

/-- D2F of a distance in ticks, over the integers (R11). -/
theorem ticksToFrames_toNat {d : Int} (hd : 0 ≤ d) :
    (ticksToFrames P d.toNat : Int) = d * P.sampleRate / P.tickHz := by
  rw [ticksToFrames, Int.natCast_ediv, Int.natCast_mul, Int.toNat_of_nonneg hd]

theorem offset_eq (t : Int) : c.offset P t =
    if t ≤ c.bufferStart P then (c.bufferStart P - t) * P.sampleRate / P.tickHz
    else -((t - c.bufferStart P) * P.sampleRate / P.tickHz) := by
  unfold Source.offset
  split
  · next h => exact ticksToFrames_toNat (Int.sub_nonneg_of_le h)
  · next h => exact congrArg Neg.neg (ticksToFrames_toNat (by omega))

theorem forwardCount_eq (t : Int) : c.forwardCount P t =
    if c.total = 0 ∨ t ≤ c.bufferStart P then 0
    else min c.total ((t - c.bufferStart P) * P.sampleRate / P.tickHz).toNat := by
  unfold Source.forwardCount
  split
  · rfl
  · next h => rw [← ticksToFrames_toNat (by omega), Int.toNat_natCast]

end

/-! ### Any source context, where the rings keep their invariants (R32) -/

/-- What the ring of a source context keeps, be it open, closed or none of the build. -/
structure RingOk (P : Params) (c : Source) : Prop where
  frames_pos : ∀ k ∈ c.chunks, 1 ≤ k.frames
  headOff_inside : headOffInside c.chunks c.headOff
  tagged_le : c.tagged ≤ c.total
  total_le : c.total ≤ P.ringBytes

theorem ringOk_of_openOk {P : Params} (hP : P.legal = true) {c : Source} (h : OpenOk P c) : RingOk P c := by
  obtain ⟨⟨hnsub, -⟩, -, hchunks, hinside, hdata, -, hring, htagged⟩ := h
  refine ⟨fun k hk => (hchunks k hk).1, hinside, htagged, ?_⟩
  have := Nat.le_mul_of_pos_right c.total (frameBytes_pos hP hnsub)
  omega

theorem ringOk_of_closedOk {P : Params} {c : Source} (h : ClosedOk c) : RingOk P c := by
  obtain ⟨-, hchunks, hhead, -, htagged⟩ := h
  constructor <;> simp [Source.total, hchunks, hhead, htagged]

theorem ringOk_of_ringsOk {s : State} (h : RingsOk s) (src : Nat) : RingOk s.params (s.source src) := by
  rcases Nat.lt_or_ge src 16 with hsrc | hsrc
  · have hsource := h.2 ⟨src, hsrc⟩
    rw [← source_fin] at hsource
    unfold SourceOk at hsource
    split at hsource
    · exact ringOk_of_openOk h.1 hsource
    · exact ringOk_of_closedOk hsource
  · rw [source_of_ge s hsrc]
    exact ringOk_of_closedOk ⟨rfl, rfl, rfl, rfl, rfl⟩

/-! ### What a discard leaves (R102) -/

theorem RingOk.discard_total {P : Params} {c : Source} (h : RingOk P c) {k : Nat} (hk : k ≤ c.total) :
    (c.discard P k).total = c.total - k :=
  (dropFrames_spec h.frames_pos h.headOff_inside hk).2.1

/-- The chunk loop of `Discard` pops the chunks that are wholly discarded: the first `j`, where the `k` frames end
in chunk `j`, or at the end of the ring. -/
theorem dropFrames_eq_drop {cs : List Chunk} {h k j : Nat} (hf : ∀ c ∈ cs, 1 ≤ c.frames)
    (hin : headOffInside cs h) (hk : k ≤ chunkFrames cs - h) (hj : j ≤ cs.length)
    (hbefore : chunkFrames (cs.take j) ≤ h + k)
    (hlast : ∀ x, cs[j]? = some x → h + k < chunkFrames (cs.take j) + x.frames) :
    dropFrames cs h k = (cs.drop j, h + k - chunkFrames (cs.take j)) := by
  induction cs generalizing h k j with
  | nil =>
    obtain rfl : h = 0 := Nat.lt_one_iff.mp hin
    obtain rfl : k = 0 := by simpa using hk
    simp [dropFrames]
  | cons c cs ih =>
    have hhead : h < c.frames := hin
    have hf' : ∀ d ∈ cs, 1 ≤ d.frames := fun d hd => hf d (List.mem_cons_of_mem _ hd)
    rw [chunkFrames_cons] at hk
    cases j with
    | zero =>
      have hinside : h + k < c.frames := by simpa using hlast c rfl
      unfold dropFrames
      split
      · next hk0 => simp [hk0]
      · rw [if_neg (by omega)]
        simp
    | succ j =>
      simp only [List.take_succ_cons, chunkFrames_cons] at hbefore hlast
      have hpopped : c.frames - h ≤ k := by omega
      have hloop : dropFrames (c :: cs) h k = dropFrames cs 0 (k - (c.frames - h)) := by
        rw [dropFrames, if_neg (by omega), if_pos hpopped]
      rw [hloop, ih hf' (headOffInside_zero hf') (by omega) (Nat.le_of_succ_le_succ hj) (by omega)
        fun x hx => by have := hlast x (by simpa using hx); omega]
      simp only [List.drop_succ_cons, List.take_succ_cons, chunkFrames_cons]
      congr 1
      omega

/-! ### The statements -/

/-- Settles O21: the rule's checks in order; an empty push ends before the two that ask for room in the ring. -/
theorem rbPushOutcome : Obligations.RbPushOutcome := by
  refine ⟨decode_sourceWord (fun _ => rfl) fun _ => rfl, fun s src => ?_⟩
  refine checked_cons rfl not_sourceOpen_iff fun hopen hexec => checked_cons hexec not_isCount_iff fun _ hexec =>
    checked_cons hexec (not_isValidTime_iff 2) fun _ hexec => checked_cons hexec Iff.rfl fun _ hexec =>
    checked_cons hexec Iff.rfl fun _ hexec => checked_cons hexec not_inRange_iff fun _ hexec => ?_
  by_cases hlen : s.arg 1 = 0
  · refine checked_of_not (fun h => h.1 hlen) (checked_of_not (fun h => h.1 hlen) ?_)
    obtain ⟨t, ht, hdone, hout, hsame⟩ := reports_of_exec (hexec.trans (if_pos hlen))
    obtain ⟨-, hconfig, ⟨hsources, howner⟩, hhead, hdmem⟩ := hsame
    simp only [hlen, Nat.zero_div]
    exact ⟨t, ht, hdone, hout, hconfig, hhead, hdmem, ⟨fun j _ => source_congr hsources j, howner⟩,
      source_congr hsources src⟩
  · refine checked_cons (hexec.trans (if_neg hlen)) (by simp [hlen]) fun _ hexec =>
      checked_cons hexec (by simp [hlen]) fun _ hexec => ?_
    simp only [if_neg hlen]
    exact succeeds_of_setSource (lt_of_not_notOpen hopen) hexec

/-- Settles O22: the rule reports the buffer start, which is a valid TimePoint where the ring holds a frame. -/
theorem rbBufferStartOutcome : Obligations.RbBufferStartOutcome := by
  refine ⟨decode_sourceWord (fun _ => rfl) fun _ => rfl, fun s src => ?_⟩
  refine checked_cons rfl not_sourceOpen_iff fun hopen hexec => ?_
  have hreports := reports_of_exec hexec
  refine ⟨fun hempty => ?_, fun k ks htotal hchunks => ?_⟩
  · rwa [bufferStart_of_empty hempty, timeBits_int64Min] at hreports
  · have hstart := bufferStart_of_chunks (P := s.params) htotal hchunks
    rw [← hstart]
    refine ⟨hreports, fun hrings => ?_⟩
    exact timeBits_bufferStart (openOk_of_sourceOpen hrings (sourceOpen_of_not_notOpen hopen)).2 htotal

/-- Settles O23: the rule reports the availability, and INVALID is the one bit pattern of its least time. -/
theorem rbAvailableOutcome : Obligations.RbAvailableOutcome := by
  refine ⟨decode_sourceWord (fun _ => rfl) fun _ => rfl, fun c P t => offset_eq t, fun s src => ?_⟩
  refine checked_cons rfl not_sourceOpen_iff fun _ hexec => ?_
  simp only [← sarg_eq_int64Min_iff]
  exact reports_of_exec hexec

/-- Settles O25: the discard's chunk loop pops the chunks that it drops whole, and a flush is a discard of the tagged
frames. -/
theorem rbFlushConsumedOutcome : Obligations.RbFlushConsumedOutcome := by
  refine ⟨decode_sourceWord (fun _ => rfl) fun _ => rfl, fun s src k j hrings => ?_, fun s src => ?_⟩
  · intro c before hk
    have hring := ringOk_of_ringsOk hrings src
    refine ⟨hring.discard_total hk, rfl, fun hbefore hj hlast => ?_, rfl, rfl, rfl, rfl, rfl⟩
    have hloop := dropFrames_eq_drop hring.frames_pos hring.headOff_inside hk hj hbefore hlast
    exact ⟨congrArg Prod.fst hloop, congrArg Prod.snd hloop⟩
  · exact checked_cons rfl not_sourceOpen_iff fun hopen hexec =>
      succeeds_of_setSource (lt_of_not_notOpen hopen) hexec

/-- Settles O26: past the checks, only the source's tag count is set. -/
theorem rbTagVirtualConsumedOutcome : Obligations.RbTagVirtualConsumedOutcome := by
  refine ⟨decode_sourceWord (fun _ => rfl) fun _ => rfl, fun s src => ?_⟩
  refine checked_cons rfl not_sourceOpen_iff fun hopen hexec => checked_cons hexec (not_isValidTime_iff 0)
    fun _ hexec => checked_cons hexec not_isCount_iff fun _ hexec => ?_
  have hmax : ∀ x : Int, (max 0 x).toNat = x.toNat := fun x => by omega
  simp only [hmax]
  exact succeeds_of_setSource (lt_of_not_notOpen hopen) hexec

/-- Settles O27: past the checks, the source is forwarded by the frames counted before `t`. -/
theorem rbForwardToOutcome : Obligations.RbForwardToOutcome := by
  refine ⟨decode_sourceWord (fun _ => rfl) fun _ => rfl, fun s src => ?_⟩
  refine checked_cons rfl not_sourceOpen_iff fun hopen hexec => checked_cons hexec (not_isValidTime_iff 0)
    fun _ hexec => ?_
  simp only [← forwardCount_eq]
  exact succeeds_of_setSource (lt_of_not_notOpen hopen) hexec

/-- Settles O28: past its one check the rule only reports, as the source is closed or open. -/
theorem rbInfoOutcome : Obligations.RbInfoOutcome := by
  refine ⟨decode_sourceWord (fun _ => rfl) fun _ => rfl, fun s src => ?_⟩
  refine checked_cons rfl Nat.not_lt fun _ hexec => ⟨fun hclosed => ?_, fun hopen => ?_⟩
  · exact reports_of_exec (hexec.trans (if_pos (by simp [hclosed])))
  · exact reports_of_exec (hexec.trans (if_neg (by simp [hopen])))

end Sys2Proof.Proofs
end

section
/-! PROOFS. RB_READ: the runs it stores are the subframes of the frames that the ring holds at the times of its block,
and no other byte of the data memory ends with another value (41_ring_buffer.md rule R106, 20_memory.md rule R73). -/

namespace Sys2Proof.Proofs

open Sys2Proof
open Sys2Proof.Config (Params)
open Sys2Proof.Machine
open Sys2Proof.Safety
open Sys2Proof.Laws

/-! ### The runs -/

section
variable {c : Source} {P : Params} {dst count chan slot width i : Nat} {t : Int}

theorem frameAt_eq_some {j : Nat} : c.frameAt P t i = some j ↔ (i : Int) - c.offset P t = j ∧ j < c.total := by
  unfold Source.frameAt
  split
  · simp only [Option.some.injEq]
    omega
  · simp only [reduceCtorEq, false_iff]
    omega

theorem frameAt_isSome : (c.frameAt P t i).isSome =
    decide (0 ≤ (i : Int) - c.offset P t ∧ (i : Int) - c.offset P t < c.total) := by
  unfold Source.frameAt
  split
  · next h => simp only [Option.isSome_some, h, and_self, decide_true]
  · next h => simp only [Option.isSome_none, h, decide_false]

/-- An empty ring has no frame at any time, so its case of the rule is one with all others. -/
theorem readRuns_eq : c.readRuns P dst count t chan slot width =
    (List.range count).filterMap fun i => (c.frameAt P t i).map fun j =>
      (dst + (i * 2 * width + slot) * P.subframeBytes, c.subframe P j chan) := by
  unfold Source.readRuns
  split
  · next hempty =>
    symm
    rw [List.filterMap_eq_nil_iff]
    intro i _
    rw [Option.map_eq_none_iff, Option.eq_none_iff_forall_ne_some]
    exact fun j hj => absurd (frameAt_eq_some.mp hj).2 (by omega)
  · rfl

theorem mem_readRuns {r : Run} : r ∈ c.readRuns P dst count t chan slot width ↔
    ∃ i j : Nat, i < count ∧ ((i : Int) - c.offset P t = j ∧ j < c.total) ∧
      (dst + (i * 2 * width + slot) * P.subframeBytes, c.subframe P j chan) = r := by
  simp only [readRuns_eq, List.mem_filterMap, List.mem_range, Option.map_eq_some_iff, frameAt_eq_some,
    exists_and_left]

/-- RB_READ counts the frames of its block that the ring holds. -/
theorem length_readRuns : (c.readRuns P dst count t chan slot width).length =
    (List.range count).countP fun i : Nat =>
      decide (0 ≤ (i : Int) - c.offset P t ∧ (i : Int) - c.offset P t < c.total) := by
  simp only [readRuns_eq, List.length_filterMap_eq_countP, Option.isSome_map, frameAt_isSome]

/-! ### The bytes of the runs -/

theorem length_subframe_le (j : Nat) : (c.subframe P j chan).length ≤ P.subframeBytes :=
  List.length_take_le _ _

/-- A frame that the ring holds has all its bytes of every channel (R31, R32). -/
theorem length_subframe {j : Nat} (hdata : c.data.length = c.total * c.frameBytes P) (hj : j < c.total)
    (hchan : chan < c.nsub) : (c.subframe P j chan).length = P.subframeBytes := by
  have hframes := Nat.mul_le_mul_right c.nsub (show j + 1 ≤ c.total from hj)
  have hbytes := Nat.mul_le_mul_right P.subframeBytes
    (show j * c.nsub + chan + 1 ≤ c.total * c.nsub by rw [Nat.succ_mul] at hframes; omega)
  rw [Nat.succ_mul, Nat.mul_assoc c.total] at hbytes
  rw [Source.subframe, List.length_take, List.length_drop, hdata, Source.frameBytes]
  omega

theorem getD_subframe {j b : Nat} (hb : b < P.subframeBytes) :
    (c.subframe P j chan).getD b 0#8 = c.data.getD ((j * c.nsub + chan) * P.subframeBytes + b) 0#8 := by
  simp [Source.subframe, List.getD, hb]

/-- Two subframes of a block that share a byte are one: the slots of its frames lie apart. -/
theorem frame_eq_of_slot_overlap {i k n a : Nat} (hwidth : 1 ≤ width)
    (hi : dst + (i * 2 * width + slot) * n ≤ a ∧ a < dst + (i * 2 * width + slot) * n + n)
    (hk : dst + (k * 2 * width + slot) * n ≤ a ∧ a < dst + (k * 2 * width + slot) * n + n) : i = k := by
  have hslot : ∀ m, dst + m * n ≤ a ∧ a < dst + m * n + n → (a - dst) / n = m := fun m h =>
    Nat.div_eq_of_lt_le (by omega) (by rw [Nat.succ_mul]; omega)
  have hindex : i * (2 * width) = k * (2 * width) := by
    have := (hslot _ hi).symm.trans (hslot _ hk)
    rw [Nat.mul_assoc, Nat.mul_assoc] at this
    omega
  exact Nat.eq_of_mul_eq_mul_right (by omega) hindex

/-- Each byte of a frame that the ring holds lands as it was pushed. -/
theorem read_writeRuns_readRuns {m : Memory} (hm : Memory.wf m = true)
    (hdata : c.data.length = c.total * c.frameBytes P) (hchan : chan < c.nsub) (hwidth : 1 ≤ width) {j b : Nat}
    (hi : i < count) (hj : (i : Int) - c.offset P t = j) (hjt : j < c.total) (hb : b < P.subframeBytes) :
    Memory.read (Memory.writeRuns m (c.readRuns P dst count t chan slot width))
      (dst + (i * 2 * width + slot) * P.subframeBytes + b) =
      c.data.getD ((j * c.nsub + chan) * P.subframeBytes + b) 0#8 := by
  refine read_writeRuns_agree hm ⟨_, mem_readRuns.mpr ⟨i, j, hi, ⟨hj, hjt⟩, rfl⟩, ?_⟩ fun r hr hcovers => ?_
  · rw [covers_iff, length_subframe hdata hjt hchan]
    dsimp only
    omega
  · obtain ⟨k, l, -, ⟨hl, -⟩, rfl⟩ := mem_readRuns.mp hr
    have hspan := (covers_iff _ _).mp hcovers
    have hlen : (c.subframe P l chan).length ≤ P.subframeBytes := length_subframe_le l
    dsimp only at hspan
    obtain rfl : i = k := frame_eq_of_slot_overlap hwidth ⟨Nat.le_add_right _ b, by omega⟩ ⟨hspan.1, by omega⟩
    obtain rfl : j = l := by omega
    dsimp only
    rw [Nat.add_sub_cancel_left, getD_subframe hb]

/-- A byte of no frame that the ring holds is left as it is. -/
theorem read_writeRuns_readRuns_out (m : Memory) {a : Nat}
    (ha : ¬ ∃ i j : Nat, i < count ∧ (i : Int) - c.offset P t = j ∧ j < c.total ∧
      dst + (i * 2 * width + slot) * P.subframeBytes ≤ a ∧
        a < dst + (i * 2 * width + slot) * P.subframeBytes + P.subframeBytes) :
    Memory.read (Memory.writeRuns m (c.readRuns P dst count t chan slot width)) a = Memory.read m a := by
  refine read_writeRuns_out m fun r hr => Bool.eq_false_iff.mpr fun hcovers => ha ?_
  obtain ⟨i, j, hi, ⟨hj, hjt⟩, rfl⟩ := mem_readRuns.mp hr
  have hspan := (covers_iff _ _).mp hcovers
  have hlen : (c.subframe P j chan).length ≤ P.subframeBytes := length_subframe_le j
  dsimp only at hspan
  exact ⟨i, j, hi, hj, hjt, hspan.1, by omega⟩

end

/-! ### The block -/

section
variable {s : State} {src : Nat}

theorem eq_readBuffer_of_mem_writes {y : Buffer} (hy : y ∈ (s.buffers (.rbRead src)).writes) :
    y = readBuffer s src := by
  have hwrites := mem_buffers_writes.mp hy
  simp only [firstFinding, secondFinding, rbRead_writes, or_self] at hwrites
  exact List.mem_singleton.mp (mem_buffersIf.mp hwrites).2

theorem readBuffer_range : (readBuffer s src).range =
    ⟨s.arg 0, s.arg 1 * 2 * s.arg 5 * s.params.subframeBytes⟩ := by
  simp only [readBuffer, Nat.mul_assoc]

theorem mem_rbRead_writes (hrings : RingsOk s) (hok : ReadOk s src) {y : Buffer} :
    y ∈ (s.buffers (.rbRead src)).writes ↔ y = readBuffer s src :=
  ⟨eq_readBuffer_of_mem_writes, fun h => h ▸ mem_buffers_writes.mpr (.inl (readBuffer_mem s hrings hok _))⟩

/-- RB_READ reads no byte, and writes the frames that the ring holds to the block that its rule checks. -/
theorem rbRead_hasBuffers (hrings : RingsOk s) (hok : ReadOk s src) :
    HasBuffers s (.rbRead src) [⟨s.arg 0, s.arg 1 * 2 * s.arg 5 * s.params.subframeBytes⟩]
      (OutputOf s (.rbRead src)) where
  reads x := iff_of_false not_covered_nil id
  ranges r := by
    simp only [mem_rbRead_writes hrings hok, exists_eq_left, readBuffer_range, List.mem_singleton, eq_comm]
  writes r _ x _ := by
    simp only [mem_rbRead_writes hrings hok, exists_eq_left, readBuffer_covers s hok]

/-- RB_READ leaves every byte outside its block, raced with or not. -/
theorem storeRuns_rbRead_out (hslot : s.arg 4 < 2 * s.arg 5) {c : Source} {t : Int} {chan b : Nat}
    (hb : ¬(s.arg 0 ≤ b ∧ b < s.arg 0 + s.arg 1 * 2 * s.arg 5 * s.params.subframeBytes)) :
    Memory.read
        (s.storeRuns (.rbRead src) (c.readRuns s.params (s.arg 0) (s.arg 1) t chan (s.arg 4) (s.arg 5))).dmem b =
      Memory.read s.dmem b := by
  refine storeRuns_read_out s (fun y hy => ?_) fun r hr => ?_
  · rw [eq_readBuffer_of_mem_writes hy, readBuffer_range, Bool.eq_false_iff, ne_eq, holds_iff]
    exact hb
  · exact Bool.eq_false_iff.mpr fun hcovers => hb (readRuns_cover hslot ⟨r, hr, hcovers⟩)

end

/-- Settles O24: the runs that RB_READ stores lie in its block, and each is a subframe of a frame that the ring holds;
no two of them share a byte. -/
theorem rbReadOutcome : Obligations.RbReadOutcome := by
  refine ⟨decode_sourceWord (fun _ => rfl) fun _ => rfl, fun s src => ?_⟩
  intro c dst count ch k dw SB o copies raced
  refine checked_cons rfl not_sourceOpen_iff fun hopen hexec => checked_cons hexec not_isCount_iff fun hcount hexec =>
    checked_cons hexec (not_isValidTime_iff 2) fun htime hexec => checked_cons hexec (or_congr_right gt_iff_lt)
    fun hwidth hexec => checked_cons hexec Iff.rfl fun hchan hexec => checked_cons hexec Iff.rfl fun hslot hexec =>
    checked_cons hexec not_inRange_iff fun hrange hexec => ?_
  have hok : ReadOk s src := by
    refine ⟨sourceOpen_of_not_notOpen hopen, ?_, ?_, by omega, not_le.mp hchan, not_le.mp hslot, ?_⟩
    · simpa using mt not_isCount_iff.mp hcount
    · simpa using mt (not_isValidTime_iff 2).mp htime
    · simpa using mt not_inRange_iff.mp hrange
  rw [length_readRuns] at hexec
  obtain ⟨t, ht, hdone, hout, hconfig, hsources, hhead, hdmem⟩ := finish_storeRuns_spec s (.rbRead src)
    (c.readRuns s.params dst count (s.sarg 2) ch k dw)
    (countBits ((List.range count).countP fun i : Nat =>
      decide (0 ≤ (i : Int) - o ∧ (i : Int) - o < c.total))) 0#64 0#64 0#64
  refine ⟨t, hexec.trans ht, hdone, hout, hconfig, hhead, hsources, fun hform hrings => ?_, fun b hb => ?_⟩
  · have hbuffers := rbRead_hasBuffers hrings hok
    obtain ⟨-, -, -, -, -, hdata, -⟩ := openOk_of_sourceOpen hrings (sourceOpen_of_not_notOpen hopen)
    refine ⟨fun i j b hi hj hjt hb => ?_, fun a ha => ?_⟩
    · exact storeRuns_endsAs hform hbuffers hdmem
        (read_writeRuns_readRuns hform hdata (not_le.mp hchan) (by omega) hi hj hjt hb)
    · exact storeRuns_endsAs hform hbuffers hdmem (read_writeRuns_readRuns_out s.dmem ha)
  · rw [hdmem]
    exact storeRuns_rbRead_out (not_le.mp hslot) hb

end Sys2Proof.Proofs
end

section
/-! PROOFS. The frames of a ring: which ring commands add to them, which take from them, and how many
(41_ring_buffer.md rule R112). -/

namespace Sys2Proof.Proofs

open Sys2Proof
open Sys2Proof.Config (Params)
open Sys2Proof.Machine
open Sys2Proof.Safety
open Sys2Proof.Laws

/-! ### What a command makes of a ring's total and of RES0 -/

/-- Command `i` answers a next state in which `law` holds between the frames of source `src` and RES0. -/
def TotalLaw (s : State) (i : Instr) (src : Nat) (law : Nat → Nat → Prop) : Prop :=
  ∃ t, exec i s = .next t ∧ law (t.source src).total t.ports[s.serving].res[0].toNat

section
variable {s t : State} {i : Instr} {src : Nat} {law : Nat → Nat → Prop}

theorem TotalLaw.of_exec (h : TotalLaw s i src law) (ht : exec i s = .next t) :
    law (t.source src).total t.ports[s.serving].res[0].toNat := by
  obtain ⟨u, hu, hlaw⟩ := h
  obtain rfl := Host.Outcome.next.inj (ht.symm.trans hu)
  exact hlaw

theorem res0_of_completed {c : Code} {r0 r1 r2 r3 : DWord} (h : Completed s t c r0 r1 r2 r3) :
    t.ports[s.serving].res[0] = r0 := by
  rw [h.1]
  rfl

theorem totalLaw_of_succeeds {r0 r1 r2 r3 : DWord} {frame : State → Prop} (h : Succeeds s i r0 r1 r2 r3 frame)
    (hlaw : ∀ t, frame t → law (t.source src).total r0.toNat) : TotalLaw s i src law := by
  obtain ⟨t, ht, hdone, -, hframe⟩ := h
  exact ⟨t, ht, by rw [res0_of_completed hdone]; exact hlaw t hframe⟩

theorem totalLaw_of_raises {c : Code} (h : Raises s i c) (hlaw : law (s.source src).total 0) :
    TotalLaw s i src law := by
  obtain ⟨t, ht, hdone, -, -, ⟨hsources, -⟩, -⟩ := h
  refine ⟨t, ht, ?_⟩
  rw [res0_of_completed hdone, source_congr hsources]
  exact hlaw

/-- A law between the total and RES0 holds of a command where it holds of the command failing and succeeding. -/
theorem totalLaw_of_checked {checks : List (Prop × Code)} {ok : Prop} (h : Checked s i checks ok)
    (hfail : law (s.source src).total 0) (hok : ok → TotalLaw s i src law) : TotalLaw s i src law :=
  (checked_cases h).elim (fun ⟨_, hraise⟩ => totalLaw_of_raises hraise hfail) hok

theorem totalLaw_of_reports {r0 r1 r2 r3 : DWord} (h : Reports s i r0 r1 r2 r3)
    (hlaw : law (s.source src).total r0.toNat) : TotalLaw s i src law :=
  totalLaw_of_succeeds h fun t hsame => by
    obtain ⟨-, -, ⟨hsources, -⟩, -⟩ := hsame
    rwa [source_congr hsources]

end

theorem toNat_countBits {n : Nat} (h : n < 2 ^ 64) : (countBits n).toNat = n := by
  rw [countBits, BitVec.toNat_ofNat, Nat.mod_eq_of_lt h]

theorem RingOk.push_total {P : Params} {c : Source} (h : RingOk P c) (pts : DWord) (f : Nat) (bs : List Byte) :
    (c.push pts f bs).total = c.total + f := by
  have hle := headOff_le h.headOff_inside
  simp only [total_eq, Source.push, chunkFrames_append, chunkFrames_cons, chunkFrames_nil]
  omega

/-! ### The commands -/

/-- The ring is unchanged, whatever the command reports. -/
abbrev KeepsTotal (s : State) (src : Nat) (total _ : Nat) : Prop := total = (s.source src).total

section
variable (s : State) (src : Nat)

theorem rbBufferStart_keepsTotal : TotalLaw s (.rbBufferStart src) src (KeepsTotal s src) := by
  refine totalLaw_of_checked (rbBufferStartOutcome.2 s src) rfl fun ⟨hempty, hchunks⟩ => ?_
  by_cases htotal : (s.source src).total = 0
  · exact totalLaw_of_reports (hempty htotal) rfl
  · obtain ⟨k, ks, hk⟩ := List.exists_cons_of_ne_nil (chunks_of_total_pos (Nat.pos_of_ne_zero htotal))
    exact totalLaw_of_reports (hchunks k ks htotal hk).1 rfl

theorem rbAvailable_keepsTotal : TotalLaw s (.rbAvailable src) src (KeepsTotal s src) :=
  totalLaw_of_checked (rbAvailableOutcome.2.2 s src) rfl fun h => totalLaw_of_reports h rfl

theorem rbRead_keepsTotal : TotalLaw s (.rbRead src) src (KeepsTotal s src) :=
  totalLaw_of_checked (rbReadOutcome.2 s src) rfl fun h =>
    totalLaw_of_succeeds h fun _ ⟨_, _, ⟨hsources, _⟩, _⟩ => congrArg Source.total (source_congr hsources src)

/-- Tags are no frames: the ring's chunks are as they were. -/
theorem rbTagVirtualConsumed_keepsTotal : TotalLaw s (.rbTagVirtualConsumed src) src (KeepsTotal s src) :=
  totalLaw_of_checked (rbTagVirtualConsumedOutcome.2 s src) rfl fun h =>
    totalLaw_of_succeeds h fun _ ⟨_, _, _, _, htagged⟩ => (congrArg Source.total htagged).trans rfl

theorem rbInfo_keepsTotal : TotalLaw s (.rbInfo src) src (KeepsTotal s src) := by
  refine totalLaw_of_checked (rbInfoOutcome.2 s src) rfl fun ⟨hclosed, hopen⟩ => ?_
  cases hisOpen : (s.source src).isOpen with
  | false => exact totalLaw_of_reports (hclosed hisOpen) rfl
  | true => exact totalLaw_of_reports (hopen hisOpen) rfl

variable {s} (hrings : RingsOk s)
include hrings

theorem rbPush_total : TotalLaw s (.rbPush src) src fun total res => total = (s.source src).total + res := by
  refine totalLaw_of_checked (rbPushOutcome.2 s src) rfl fun h =>
    totalLaw_of_succeeds h fun t ⟨_, _, _, _, hpushed⟩ => ?_
  have hframes : s.arg 1 / ((s.source src).nsub * s.params.subframeBytes) < 2 ^ 64 :=
    (Nat.div_le_self _ _).trans_lt (s.argBits 1).isLt
  rw [hpushed, toNat_countBits hframes]
  split
  · next hlen => rw [hlen, Nat.zero_div, Nat.add_zero]
  · exact (ringOk_of_ringsOk hrings src).push_total _ _ _

variable (hcap : s.params.ringBytes < 2 ^ 64)
include hcap

/-- A discard whose count is reported takes as many frames as it reports. -/
theorem discard_total_add_countBits {k : Nat} (hk : k ≤ (s.source src).total) :
    ((s.source src).discard s.params k).total + (countBits k).toNat = (s.source src).total := by
  have hring := ringOk_of_ringsOk hrings src
  rw [hring.discard_total hk, toNat_countBits (by have := hring.total_le; omega), Nat.sub_add_cancel hk]

theorem rbFlushConsumed_total :
    TotalLaw s (.rbFlushConsumed src) src fun total res => total + res = (s.source src).total := by
  refine totalLaw_of_checked (rbFlushConsumedOutcome.2.2 s src) rfl fun h =>
    totalLaw_of_succeeds h fun t ⟨_, _, _, _, hflushed⟩ => ?_
  rw [hflushed]
  exact discard_total_add_countBits src hrings hcap (ringOk_of_ringsOk hrings src).tagged_le

theorem rbForwardTo_total :
    TotalLaw s (.rbForwardTo src) src fun total res => total + res = (s.source src).total := by
  refine totalLaw_of_checked (rbForwardToOutcome.2 s src) rfl fun h =>
    totalLaw_of_succeeds h fun t ⟨_, _, _, _, hforwarded⟩ => ?_
  rw [hforwarded]
  split
  · rfl
  · exact discard_total_add_countBits src hrings hcap (Nat.min_le_left _ _)

end

/-- Settles O29: each ring command's outcome gives its law between the total and RES0, and a command that fails
reports 0 and changes nothing. -/
theorem ringFramesAreConserved : Obligations.RingFramesAreConserved := by
  intro s t src i hrings hcap hi ht
  simp only [List.mem_cons, List.not_mem_nil, or_false] at hi
  obtain rfl | rfl | rfl | rfl | rfl | rfl | rfl | rfl := hi
  · simpa using (rbPush_total src hrings).of_exec ht
  · simpa using (rbBufferStart_keepsTotal s src).of_exec ht
  · simpa using (rbAvailable_keepsTotal s src).of_exec ht
  · simpa using (rbRead_keepsTotal s src).of_exec ht
  · simpa using (rbFlushConsumed_total src hrings hcap).of_exec ht
  · simpa using (rbTagVirtualConsumed_keepsTotal s src).of_exec ht
  · simpa using (rbForwardTo_total src hrings hcap).of_exec ht
  · simpa using (rbInfo_keepsTotal s src).of_exec ht

end Sys2Proof.Proofs
end

section
/-! PROOFS. The multiplexer's configuration and its mappings: MX_SET_AUDIO_CONFIG, MX_ADD_MAPPING, MX_REMOVE_MAPPING and
MX_SLOT_MAP (42_multiplexer.md rules R140, R145 to R148, R165). -/

namespace Sys2Proof.Proofs

open Sys2Proof
open Sys2Proof.Machine
open Sys2Proof.Safety
open Sys2Proof.Laws

/-! ### The configuration and the slot table (R140, R165) -/

theorem someOpen_iff {s : State} :
    s.someOpen = true ↔ ∃ i, i < s.params.maxSources ∧ (s.source i).isOpen = true := by
  simp only [State.someOpen, List.any_eq_true, List.mem_range, sourceOpen_iff]
  exact exists_congr fun i => and_iff_right_of_imp And.left

theorem not_isChannelCount_iff {n : Nat} :
    (!isChannelCount n) = true ↔ ¬(n = 0 ∨ n = 2 ∨ n = 8 ∨ n = 16) := by
  simp [isChannelCount]

/-- Settles O30: past the checks the configuration and `head` are set, and nothing else. -/
theorem mxSetAudioConfigOutcome : Obligations.MxSetAudioConfigOutcome := by
  refine ⟨fun d => decode_encode (i := .mxSetAudioConfig d) rfl, fun s d => ?_⟩
  refine checked_cons rfl someOpen_iff fun _ hexec => checked_cons hexec not_isChannelCount_iff fun _ hexec => ?_
  obtain ⟨t, ht, hdone, hout, ⟨haudio, hdeclared⟩, hsources, ⟨hhead, hcounter⟩, hdmem⟩ :=
    finish_spec (s := s) (u := { s with audioCh := s.arg 0, declaredOnly := d, head := invalidBits }) rfl rfl
      0#64 0#64 0#64 0#64
  exact ⟨t, hexec.trans ht, hdone, hout, hsources, hdmem, hcounter, haudio, hdeclared, hhead⟩

theorem sumSlots_eq (s : State) (width : Nat) (g : Owner → Nat) : s.sumSlots width g =
    countBits ((List.range 16).map fun k => ((s.ownerAt k).map fun o => g o * 2 ^ (width * k)).getD 0).sum := by
  unfold State.sumSlots
  congr 3
  funext k
  cases s.ownerAt k <;> rfl

/-- The mask of the owned slots (R165). -/
theorem sumSlots_one (s : State) : s.sumSlots 1 (fun _ => 1) =
    countBits ((List.range 16).map fun k => if s.ownerAt k = none then 0 else 2 ^ k).sum := by
  rw [sumSlots_eq]
  congr 3
  funext k
  cases s.ownerAt k <;> simp

/-- Settles O41: MX_SLOT_MAP checks nothing and only reports. -/
theorem mxSlotMapOutcome : Obligations.MxSlotMapOutcome := by
  refine ⟨decode_encode (i := .mxSlotMap) rfl, fun s => ?_⟩
  have hexec : exec .mxSlotMap s = s.finish (s.sumSlots 1 fun _ => 1) (s.sumSlots 4 Owner.source)
    (s.sumSlots 4 Owner.chan) (countBits s.audioCh ||| (countBits s.declaredOnly.toNat <<< 8)) := rfl
  rw [sumSlots_one, sumSlots_eq, sumSlots_eq] at hexec
  exact reports_of_exec hexec

/-! ### Removing a mapping (R148) -/

/-- The slots of the source are free, and every other slot is as before. -/
theorem freeSlotsOf_ownerAt_cases (s : State) (src k : Nat) :
    (∀ o, s.ownerAt k = some o → o.source = src → (s.freeSlotsOf src).ownerAt k = none) ∧
      ((∀ o, s.ownerAt k = some o → o.source ≠ src) → (s.freeSlotsOf src).ownerAt k = s.ownerAt k) := by
  rcases Nat.lt_or_ge k 16 with hk | hk
  · rw [freeSlotsOf_ownerAt s src hk]
    cases s.ownerAt k with
    | none => simp
    | some o => simp
  · simp [ownerAt_of_ge _ hk]

theorem ownerAt_congr {s t : State} (h : t.owner = s.owner) (k : Nat) : t.ownerAt k = s.ownerAt k := by
  simp only [State.ownerAt, h]

/-- Settles O33: past its one check the rule closes the source and frees its slots. -/
theorem mxRemoveMappingOutcome : Obligations.MxRemoveMappingOutcome := by
  refine ⟨decode_sourceWord (fun _ => rfl) fun _ => rfl, fun s src => ?_⟩
  refine checked_cons rfl not_sourceOpen_iff fun hopen hexec => ?_
  obtain ⟨t, ht, hdone, hout, hconfig, ⟨hsources, howner⟩, hhead, hdmem⟩ :=
    finish_spec (s := s) (u := (s.setSource src Source.closed).freeSlotsOf src) (by simp) (by simp)
      (slotMask (s.source src).slots) 0#64 0#64 0#64
  have hclosed : t.source src = Source.closed := by
    rw [source_congr hsources, source_congr (freeSlotsOf_sources _ src),
      setSource_source_self _ _ (lt_of_not_notOpen hopen)]
  refine ⟨t, hexec.trans ht, hdone, hout, hconfig, hhead, hdmem, fun j hj => ?_, ?_, fun k => ?_⟩
  · rw [source_congr hsources, source_congr (freeSlotsOf_sources _ src), setSource_source_ne _ _ hj]
  · rw [hclosed]
    exact ⟨rfl, rfl, rfl, rfl, rfl, rfl⟩
  · rw [ownerAt_congr howner]
    exact freeSlotsOf_ownerAt_cases (s.setSource src Source.closed) src k

/-! ### Adding a mapping (R145) -/

theorem decode_mxAddMapping (n : BitVec 8) (x a m : Bool) :
    decode (commandWord (flagsXAM x a m) n 0x21#8) = .ok (.mxAddMapping n.toNat x a m) := by
  have hd := decode_encode (i := .mxAddMapping n.toNat x a m) (wellFormed_of_source_lt rfl n.isLt)
  rwa [encode, BitVec.ofNat_toNat, BitVec.setWidth_eq] at hd

theorem explicit_flags : ∀ a m : Bool,
    flagsXAM true a m = 1#8 ||| (if a then 2#8 else 0#8) ||| (if m then 4#8 else 0#8) := by decide

theorem byCount_flags : ∀ a m : Bool,
    flagsXAM false a m = (if a then 2#8 else 0#8) ||| (if m then 4#8 else 0#8) := by decide

/-- MX_ADD_MAPPING from the choice of the slots on: it raises the code of a failed choice, or opens the source on the
chosen slots. -/
def openOn (s : State) (src c : Nat) (m : Bool) : Except Code (List Nat) → Host.Outcome State Fault Refusal
  | .error code => s.raise code
  | .ok slots =>
    ((s.setSource src (Source.opened c m slots)).claimSlots src slots).finish (slotMask slots) 0#64 0#64 0#64

theorem openOn_check (s : State) (src c : Nat) (m : Bool) {b : Prop} [Decidable b] (code : Code)
    (r : Except Code (List Nat)) :
    openOn s src c m (if b then .error code else r) = if b then s.raise code else openOn s src c m r := by
  split <;> rfl

theorem execMxAddMapping_eq (src : Nat) (x a m : Bool) (s : State) : execMxAddMapping src x a m s =
    if ¬ src < s.params.maxSources then s.raise .badSource
    else if s.audioCh = 0 then s.raise .badState
    else if s.arg 0 < 1 ∨ s.arg 0 > 16 then s.raise .badArg
    else if x && a then s.raise .badArg
    else if !(if x then s.listOk (s.arg 0) else s.countOk a (s.arg 0)) then s.raise .badArg
    else if (s.source src).isOpen then s.raise .rejected
    else openOn s src (s.arg 0) m (s.chooseSlots x a (s.arg 0)) := by
  unfold execMxAddMapping
  dsimp only
  cases s.chooseSlots x a (s.arg 0) <;> rfl

/-- A test of the model that a statement writes as several checks with one code: one of them. -/
theorem checked_part {s : State} {i : Instr} {bad ok : Prop} {code : Code} {rest : List (Prop × Code)}
    {o : Host.Outcome State Fault Refusal} {b : Prop} [Decidable b]
    (hexec : exec i s = if b then s.raise code else o) (hb : bad → b) (h : ¬ bad → Checked s i rest ok) :
    Checked s i ((bad, code) :: rest) ok :=
  ⟨fun hbad => raises_of_exec (hexec.trans (if_pos (hb hbad))), h⟩

section
variable {s : State} {src c : Nat} {m : Bool} {slots : List Nat}

/-- Claimed slots are owned by the source, each by the channel of its place in the list. -/
theorem claimSlots_ownerAt_getD (hn : slots.Nodup) (hlt : ∀ k ∈ slots, k < 16) {i : Nat} (hi : i < slots.length) :
    (s.claimSlots src slots).ownerAt (slots.getD i 16) = some ⟨src, i⟩ := by
  have hget : slots[i]? = some (slots.getD i 16) := by simp [hi]
  have howner : ownerIn src slots (slots.getD i 16) = some ⟨src, i⟩ := (ownerIn_eq_some hn).mpr ⟨rfl, hget⟩
  rw [claimSlots_ownerAt s src slots (hlt _ (List.mem_of_getElem? hget)), howner, Option.some_or]

theorem claimSlots_ownerAt_of_not_mem {k : Nat} (hk : k ∉ slots) :
    (s.claimSlots src slots).ownerAt k = s.ownerAt k := by
  rcases Nat.lt_or_ge k 16 with hlt | hge
  · rw [claimSlots_ownerAt s src slots hlt, ownerIn, if_neg (by simpa using hk), Option.none_or]
  · rw [ownerAt_of_ge _ hge, ownerAt_of_ge _ hge]

/-- What opening a source on chosen slots changes (R145). -/
theorem succeeds_of_openOn {i : Instr} (hsrc : src < 16) (hn : slots.Nodup) (hlt : ∀ k ∈ slots, k < 16)
    (hexec : exec i s = openOn s src c m (.ok slots)) :
    Succeeds s i (countBits (slots.map fun k => 2 ^ k).sum) 0#64 0#64 0#64 fun t =>
      SameConfig s t ∧ SameHead s t ∧ SameDmem s t ∧ (∀ j : Nat, j ≠ src → t.source j = s.source j) ∧
      t.source src = ⟨true, c, m, slots, [], 0, [], 0⟩ ∧
      (∀ i : Nat, i < slots.length → t.ownerAt (slots.getD i 16) = some ⟨src, i⟩) ∧
      ∀ k : Nat, k ∉ slots → t.ownerAt k = s.ownerAt k := by
  obtain ⟨t, ht, hdone, hout, hconfig, ⟨hsources, howner⟩, hhead, hdmem⟩ :=
    finish_spec (s := s) (u := (s.setSource src (Source.opened c m slots)).claimSlots src slots) (by simp) (by simp)
      (slotMask slots) 0#64 0#64 0#64
  have hsource : ∀ j, t.source j = (s.setSource src (Source.opened c m slots)).source j :=
    fun j => (source_congr hsources j).trans (source_congr (claimSlots_sources _ src slots) j)
  refine ⟨t, hexec.trans ht, hdone, hout, hconfig, hhead, hdmem, fun j hj => ?_, ?_, fun i hi => ?_, fun k hk => ?_⟩
  · rw [hsource, setSource_source_ne _ _ hj]
  · rw [hsource, setSource_source_self _ _ hsrc]
    rfl
  · rw [ownerAt_congr howner]
    exact claimSlots_ownerAt_getD hn hlt hi
  · rw [ownerAt_congr howner]
    exact claimSlots_ownerAt_of_not_mem (s := s.setSource src (Source.opened c m slots)) hk

end

/-! ### An explicit slot list (R86, R145) -/

/-- The slot list with its entries as the digits of the argument. -/
theorem slotList_eq (s : State) (n : Nat) :
    slotList (s.argBits 1) n = (List.range n).map fun i => s.arg 1 / 2 ^ (4 * i) % 16 := by
  refine List.map_congr_left fun i _ => ?_
  rw [slotEntry, BitVec.extractLsb'_toNat, Nat.shiftRight_eq_div_pow]
  rfl

theorem not_listOk_iff {s : State} {c : Nat} : (!s.listOk c) = true ↔
    (s.arg 2 < 1 ∨ c < s.arg 2) ∨ (s.arg 2 < 16 ∧ s.arg 1 / 2 ^ (4 * s.arg 2) ≠ 0) ∨
      (∃ k ∈ slotList (s.argBits 1) (s.arg 2), s.audioCh ≤ k) ∨ ¬(slotList (s.argBits 1) (s.arg 2)).Nodup := by
  simp only [State.listOk, Bool.not_eq_true', Bool.and_eq_false_iff, decide_eq_false_iff_not, or_assoc]
  simp only [not_and_or, Nat.not_le, Classical.not_imp, not_forall, Nat.not_lt, or_assoc]

theorem chooseSlots_explicit (s : State) (a : Bool) (c : Nat) : s.chooseSlots true a c =
    if (slotList (s.argBits 1) (s.arg 2)).any fun k => (s.ownerAt k).isSome then .error .rejected
    else .ok (slotList (s.argBits 1) (s.arg 2)) := rfl

theorem some_owned_iff {s : State} {slots : List Nat} :
    (slots.any fun k => (s.ownerAt k).isSome) = true ↔ ∃ k ∈ slots, s.ownerAt k ≠ none := by
  simp only [List.any_eq_true, Option.isSome_iff_ne_none]

/-- Settles O31: the four tests of a slot list are one check of the model, in the order of the rule; past all checks the
source opens on the list. -/
theorem mxAddMappingExplicit : Obligations.MxAddMappingExplicit := by
  refine ⟨fun n a m => explicit_flags a m ▸ decode_mxAddMapping n true a m, fun s src a m hmax => ?_⟩
  intro c N L
  have hL : slotList (s.argBits 1) N = L := slotList_eq s N
  refine checked_cons (execMxAddMapping_eq src true a m s) Nat.not_lt fun hsrc hexec =>
    checked_cons hexec Iff.rfl fun _ hexec => checked_cons hexec Iff.rfl fun _ hexec =>
    checked_cons hexec (by simp) fun _ hexec => ?_
  have hlist := not_listOk_iff (s := s) (c := c)
  rw [hL] at hlist
  refine checked_part hexec (fun h => hlist.mpr (.inl h)) fun hcount =>
    checked_part hexec (fun h => hlist.mpr (.inr (.inl h))) fun hhigh =>
    checked_part hexec (fun h => hlist.mpr (.inr (.inr (.inl h)))) fun hbelow =>
    checked_cons hexec
      (hlist.trans ((or_iff_right hcount).trans ((or_iff_right hhigh).trans (or_iff_right hbelow)))) fun hnodup hexec =>
    checked_cons hexec Iff.rfl fun _ hexec => ?_
  rw [chooseSlots_explicit, openOn_check, hL] at hexec
  refine checked_cons hexec some_owned_iff fun _ hexec => ?_
  have hlt : ∀ k ∈ L, k < 16 := by
    intro k hk
    obtain ⟨i, -, rfl⟩ := List.mem_map.mp hk
    exact Nat.mod_lt _ (by decide)
  have hopened := succeeds_of_openOn (lt_of_lt_of_le (not_le.mp hsrc) hmax) (not_not.mp hnodup) hlt hexec
  have hlen : L.length = N := by simp [L]
  rw [hlen] at hopened
  exact hopened

/-! ### A mapping by channel count (R146, R147) -/

theorem mem_freeSlots {s : State} {k : Nat} : k ∈ s.freeSlots ↔ k < s.audioCh ∧ s.ownerAt k = none := by
  simp [State.freeSlots]

theorem mem_freePairs {s : State} {p : Nat} : p ∈ s.freePairs ↔ p < s.audioCh / 2 ∧
    (2 * p < s.audioCh ∧ s.ownerAt (2 * p) = none) ∧ 2 * p + 1 < s.audioCh ∧ s.ownerAt (2 * p + 1) = none := by
  simp only [State.freePairs, State.frameWidth, List.mem_filter, List.mem_range, Bool.and_eq_true,
    Option.isNone_iff_eq_none]
  constructor
  · rintro ⟨hp, hfirst, hsecond⟩
    exact ⟨hp, ⟨by omega, hfirst⟩, by omega, hsecond⟩
  · rintro ⟨hp, ⟨-, hfirst⟩, -, hsecond⟩
    exact ⟨hp, hfirst, hsecond⟩

theorem freeSlots_ascend (s : State) : s.freeSlots.Pairwise (· < ·) := List.pairwise_lt_range.filter _

theorem freePairs_ascend (s : State) : s.freePairs.Pairwise (· < ·) := List.pairwise_lt_range.filter _

/-- Too few entries in a list are too few of what it lists. -/
theorem length_lt_iff {l : List Nat} (hl : l.Nodup) {p : Nat → Prop} (hp : ∀ k, k ∈ l ↔ p k) {n : Nat} :
    l.length < n ↔ ¬ ∃ m : List Nat, m.Nodup ∧ m.length = n ∧ ∀ k ∈ m, p k := by
  constructor
  · rintro hshort ⟨m, hm, rfl, hall⟩
    have := (hm.subperm fun k hk => (hp k).mpr (hall k hk)).length_le
    omega
  · intro hnone
    by_contra hlong
    exact hnone ⟨l.take n, hl.sublist (List.take_sublist n l), List.length_take_of_le (not_lt.mp hlong),
      fun k hk => (hp k).mp (List.mem_of_mem_take hk)⟩

/-- The first `n` entries of an ascending list are the `n` lowest of what it lists. -/
theorem take_lowest {l : List Nat} (hl : l.Pairwise (· < ·)) {p : Nat → Prop} (hp : ∀ k, k ∈ l ↔ p k) {n : Nat}
    (hn : n ≤ l.length) :
    (l.take n).length = n ∧ (l.take n).Pairwise (· < ·) ∧ (∀ k ∈ l.take n, p k) ∧
      ∀ k, p k → k ∉ l.take n → ∀ j ∈ l.take n, j < k := by
  refine ⟨List.length_take_of_le hn, hl.sublist (List.take_sublist n l),
    fun k hk => (hp k).mp (List.mem_of_mem_take hk), fun k hk hout j hj => ?_⟩
  have hmem := (hp k).mpr hk
  rw [← List.take_append_drop n l] at hl hmem
  obtain ⟨-, -, hacross⟩ := List.pairwise_append.mp hl
  exact hacross j hj k ((List.mem_append.mp hmem).resolve_left hout)

theorem not_countOk_iff {s : State} {a : Bool} {c : Nat} : (!s.countOk a c) = true ↔
    (s.arg 1 ≠ 0 ∨ s.arg 2 ≠ 0) ∨ (a = true ∧ c % 2 = 1) := by
  simp only [State.countOk, Bool.not_eq_true', Bool.and_eq_false_iff, decide_eq_false_iff_not, not_and_or,
    Bool.not_eq_false', Bool.and_eq_true, decide_eq_true_eq, ne_eq]

/-- A choice by channel count is refused in declared-only mode, and else is the one that fits, where one does. -/
theorem chooseSlots_of_fit {s : State} {a : Bool} {c : Nat} {few : Prop} [Decidable few] {slots : List Nat}
    (hfit : (if a then s.firstFitPairs (c / 2) else s.firstFit c) = if few then none else some slots) :
    s.chooseSlots false a c =
      if s.declaredOnly then .error .rejected else if few then .error .noResource else .ok slots := by
  rw [State.chooseSlots, if_neg Bool.false_ne_true, hfit]
  by_cases h : few
  · rw [if_pos h, if_pos h]
  · rw [if_neg h, if_neg h]

theorem chooseSlots_byCount (s : State) (c : Nat) : s.chooseSlots false false c =
    if s.declaredOnly then .error .rejected
    else if s.freeSlots.length < c then .error .noResource else .ok (s.freeSlots.take c) :=
  chooseSlots_of_fit rfl

theorem chooseSlots_byPairs (s : State) (c : Nat) : s.chooseSlots false true c =
    if s.declaredOnly then .error .rejected
    else if s.freePairs.length < c / 2 then .error .noResource
    else .ok ((s.freePairs.take (c / 2)).flatMap fun p => [2 * p, 2 * p + 1]) :=
  chooseSlots_of_fit rfl

/-- Settles O32: past its checks the rule takes the first entries of the ascending list of the free slots, or of the
free slot-pairs. -/
theorem mxAddMappingByCount : Obligations.MxAddMappingByCount := by
  refine ⟨fun n a m => byCount_flags a m ▸ decode_mxAddMapping n false a m, fun s src a m hmax hchannels => ?_⟩
  intro c free freePair
  refine checked_cons (execMxAddMapping_eq src false a m s) Nat.not_lt fun hsrc hexec =>
    checked_cons hexec Iff.rfl fun _ hexec => checked_cons hexec Iff.rfl fun _ hexec => ?_
  replace hexec := hexec.trans (if_neg (Bool.false_ne_true))
  have hcount := not_countOk_iff (s := s) (a := a) (c := c)
  refine checked_part hexec (fun h => hcount.mpr (.inl h)) fun hargs =>
    checked_cons hexec (hcount.trans (or_iff_right hargs)) fun heven hexec =>
    checked_cons hexec Iff.rfl fun _ hexec => ?_
  have hsrc' : src < 16 := lt_of_lt_of_le (not_le.mp hsrc) hmax
  have hbelow : s.audioCh ≤ 16 := by omega
  cases a with
  | false =>
    rw [chooseSlots_byCount, openOn_check, openOn_check] at hexec
    have hfew := length_lt_iff (n := c) (freeSlots_ascend s).nodup fun _ => mem_freeSlots
    refine checked_cons hexec Iff.rfl fun _ hexec => checked_cons hexec (hfew.trans (and_iff_right rfl).symm)
      fun henough hexec => checked_of_not (by simp) ?_
    obtain ⟨hlen, hascend, hfree, hlowest⟩ := take_lowest (freeSlots_ascend s) (fun _ => mem_freeSlots)
      (not_lt.mp fun h => henough ⟨rfl, hfew.mp h⟩)
    have hopened := succeeds_of_openOn hsrc' hascend.nodup (fun k hk => (hfree k hk).1.trans_le hbelow) hexec
    rw [hlen] at hopened
    exact ⟨s.freeSlots.take c, fun _ => ⟨hlen, hascend, hfree, hlowest⟩, nofun, hopened⟩
  | true =>
    rw [chooseSlots_byPairs, openOn_check, openOn_check] at hexec
    have hfew := length_lt_iff (n := c / 2) (freePairs_ascend s).nodup fun _ => mem_freePairs
    refine checked_cons hexec Iff.rfl fun _ hexec => checked_of_not (by simp) <|
      checked_cons hexec (hfew.trans (and_iff_right rfl).symm) fun henough hexec => ?_
    obtain ⟨hlen, hascend, hfree, hlowest⟩ := take_lowest (freePairs_ascend s) (fun _ => mem_freePairs)
      (not_lt.mp fun h => henough ⟨rfl, hfew.mp h⟩)
    have hslots : ∀ k ∈ (s.freePairs.take (c / 2)).flatMap fun p => [2 * p, 2 * p + 1], k < 16 := by
      intro k hk
      obtain ⟨p, hp, hk⟩ := List.mem_flatMap.mp hk
      obtain ⟨-, -, hpair, -⟩ := hfree p hp
      rcases List.mem_pair.mp hk with rfl | rfl <;> omega
    have hlength : ((s.freePairs.take (c / 2)).flatMap fun p => [2 * p, 2 * p + 1]).length = c := by
      have hc : c % 2 ≠ 1 := fun h => heven ⟨rfl, h⟩
      rw [pairSlots_length, hlen]
      omega
    have hopened := succeeds_of_openOn hsrc' (pairSlots_nodup hascend.nodup) hslots hexec
    rw [hlength] at hopened
    exact ⟨_, nofun, fun _ => ⟨_, rfl, hlen, hascend, hfree, hlowest⟩, hopened⟩

end Sys2Proof.Proofs
end

section
/-! PROOFS. The multiplexer's availability: the least buffer start and the least availability over the active sources,
and the greatest cut that is legal for every one of them that is not PCM (42_multiplexer.md rules R150 to R155). -/

namespace Sys2Proof.Proofs

open Sys2Proof
open Sys2Proof.Config (Params)
open Sys2Proof.Machine
open Sys2Proof.Safety
open Sys2Proof.Laws

/-! ### Active sources (R150) -/

section
variable {s : State}

theorem isActive_iff_active {i : Nat} : s.isActive i = true ↔ Active s i := by
  rw [isActive_iff, sourceOpen_iff, and_assoc]

theorem mem_active_iff {i : Nat} : i ∈ s.active ↔ Active s i := (mem_active s i).trans isActive_iff_active

theorem active_eq_nil_iff : s.active = [] ↔ ∀ i : Nat, ¬ Active s i := by
  simp only [List.eq_nil_iff_forall_not_mem, mem_active_iff]

/-- The least value over a list is that of an entry whose value is at most every other's. -/
theorem min?_map_eq {ι α : Type} [Min α] [LE α] [Std.IsLinearOrder α] [Std.LawfulOrderMin α] {l : List ι}
    {f : ι → α} {i : ι} (hi : i ∈ l) (hleast : ∀ j ∈ l, f i ≤ f j) : (l.map f).min? = some (f i) := by
  refine List.min?_eq_some_iff.mpr ⟨List.mem_map_of_mem hi, fun b hb => ?_⟩
  obtain ⟨j, hj, rfl⟩ := List.mem_map.mp hb
  exact hleast j hj

/-! ### The start and the availability (R151, R152) -/

theorem muxStart_of_none (h : ∀ i : Nat, ¬ Active s i) : s.muxStart = int64Min := by
  rw [State.muxStart, active_eq_nil_iff.mpr h]
  rfl

theorem muxStart_of_least {i : Nat} (hi : Active s i) (hleast : ∀ j : Nat, Active s j →
    (s.source i).bufferStart s.params ≤ (s.source j).bufferStart s.params) :
    s.muxStart = (s.source i).bufferStart s.params := by
  rw [State.muxStart, min?_map_eq (mem_active_iff.mpr hi) fun j hj => hleast j (mem_active_iff.mp hj)]
  rfl

/-- The owner has a slot of the extracted block and is active. -/
def Counted (s : State) (o : Owner) : Prop :=
  ∃ k : Nat, k < 2 * (s.audioCh / 2) ∧ s.ownerAt k = some o ∧ Active s o.source

theorem mem_pairOwners {p : Nat} {o : Owner} : o ∈ s.pairOwners p ↔
    (s.ownerAt (2 * p) = some o ∨ s.ownerAt (2 * p + 1) = some o) ∧ Active s o.source := by
  simp [State.pairOwners, isActive_iff_active, @eq_comm _ (some o)]

theorem counted_iff {o : Owner} : Counted s o ↔ ∃ p < s.frameWidth, o ∈ s.pairOwners p := by
  simp only [Counted, mem_pairOwners, State.frameWidth]
  constructor
  · rintro ⟨k, hk, howner, hactive⟩
    refine ⟨k / 2, by omega, ?_, hactive⟩
    rcases Nat.mod_two_eq_zero_or_one k with hmod | hmod
    · exact .inl (by rwa [show 2 * (k / 2) = k by omega])
    · exact .inr (by rwa [show 2 * (k / 2) + 1 = k by omega])
  · rintro ⟨p, hp, howner | howner, hactive⟩
    · exact ⟨2 * p, by omega, howner, hactive⟩
    · exact ⟨2 * p + 1, by omega, howner, hactive⟩

theorem pairAvail_of_none {t : Int} {p : Nat} (h : ∀ o, o ∉ s.pairOwners p) : s.pairAvail t p = none := by
  rw [State.pairAvail, List.eq_nil_iff_forall_not_mem.mpr h]
  rfl

/-- The availability of a pair is that of one of its active owners. -/
theorem exists_of_pairAvail {t : Int} {p n : Nat} (h : s.pairAvail t p = some n) :
    ∃ o ∈ s.pairOwners p, (s.source o.source).avail s.params t = n :=
  List.mem_map.mp (List.min?_eq_some_iff.mp h).1

theorem virtualAvail_of_none {t : Int} (h : ∀ o, ¬ Counted s o) : s.virtualAvail t = 0 := by
  have hnone : (List.range s.frameWidth).filterMap (s.pairAvail t) = [] := by
    refine List.filterMap_eq_nil_iff.mpr fun p hp => pairAvail_of_none fun o ho => ?_
    exact h o (counted_iff.mpr ⟨p, List.mem_range.mp hp, ho⟩)
  rw [State.virtualAvail, hnone]
  rfl

theorem virtualAvail_of_least {t : Int} {o : Owner} (ho : Counted s o) (hleast : ∀ o', Counted s o' →
    (s.source o.source).avail s.params t ≤ (s.source o'.source).avail s.params t) :
    s.virtualAvail t = (s.source o.source).avail s.params t := by
  have hmin : ((List.range s.frameWidth).filterMap (s.pairAvail t)).min? =
      some ((s.source o.source).avail s.params t) := by
    refine List.min?_eq_some_iff.mpr ⟨?_, fun n hn => ?_⟩
    · obtain ⟨p, hp, hmem⟩ := counted_iff.mp ho
      exact List.mem_filterMap.mpr ⟨p, List.mem_range.mpr hp,
        min?_map_eq hmem fun o' ho' => hleast o' (counted_iff.mpr ⟨p, hp, ho'⟩)⟩
    · obtain ⟨p, hp, hpair⟩ := List.mem_filterMap.mp hn
      obtain ⟨o', ho', rfl⟩ := exists_of_pairAvail hpair
      exact hleast o' (counted_iff.mpr ⟨p, List.mem_range.mp hp, ho'⟩)
  rw [State.virtualAvail, hmin]
  rfl

/-! ### Legal cuts (R155) -/

theorem mem_chunkEnds {pos n : Nat} {cs : List Chunk} :
    n ∈ chunkEnds pos cs ↔ ∃ j < cs.length, n = pos + chunkFrames (cs.take (j + 1)) := by
  induction cs generalizing pos with
  | nil => simp [chunkEnds]
  | cons c cs ih =>
    simp only [chunkEnds, List.mem_cons, ih, List.length_cons, Nat.exists_lt_succ_left, List.take_succ_cons,
      chunkFrames_cons, List.take_zero, chunkFrames_nil, Nat.add_zero, Nat.add_assoc]

/-- The ends of a ring's chunks, counted from its first frame: the first chunk has lost the frames already discarded. -/
theorem mem_ends {c : Source} (hinside : headOffInside c.chunks c.headOff) {n : Nat} :
    n ∈ c.ends ↔ ∃ j < c.chunks.length, n + c.headOff = chunkFrames (c.chunks.take (j + 1)) := by
  cases hchunks : c.chunks with
  | nil => simp [Source.ends, hchunks]
  | cons k ks =>
    rw [hchunks] at hinside
    have hfirst : c.headOff < k.frames := hinside
    simp only [Source.ends, hchunks, List.mem_cons, mem_chunkEnds, List.length_cons, Nat.exists_lt_succ_left,
      List.take_succ_cons, chunkFrames_cons, List.take_zero, chunkFrames_nil, Nat.add_zero]
    exact or_congr (by omega) (exists_congr fun j => and_congr_right fun _ => by omega)

theorem exists_mem_ends_iff {c : Source} (hinside : headOffInside c.chunks c.headOff) {e : Int} :
    (∃ n ∈ c.ends, e = (n : Int)) ↔
      ∃ j < c.chunks.length, e = (((c.chunks.take (j + 1)).map Chunk.frames).sum : Int) - c.headOff := by
  simp only [mem_ends hinside]
  constructor
  · rintro ⟨n, ⟨j, hj, hn⟩, rfl⟩
    exact ⟨j, hj, eq_sub_of_add_eq (by exact_mod_cast hn)⟩
  · rintro ⟨j, hj, rfl⟩
    have hle : c.headOff ≤ chunkFrames (c.chunks.take (j + 1)) := by
      cases hchunks : c.chunks with
      | nil => simp [hchunks] at hj
      | cons k ks =>
        rw [hchunks] at hinside
        have hfirst : c.headOff < k.frames := hinside
        rw [List.take_succ_cons, chunkFrames_cons]
        omega
    exact ⟨_, ⟨j, hj, Nat.sub_add_cancel hle⟩, (Int.ofNat_sub hle).symm⟩

theorem mem_passthrough_iff {i : Nat} : i ∈ s.passthrough ↔ Active s i ∧ (s.source i).pcm = false := by
  simp [State.passthrough, mem_active_iff]

end

/-- Settles O34: both commands only report, past the check that audio is enabled. -/
theorem mxStartAndAvailability : Obligations.MxStartAndAvailability := by
  refine ⟨decode_encode (i := .mxBufferStart) rfl, decode_encode (i := .mxAvailableVirtual) rfl, fun s => ?_⟩
  refine ⟨checked_cons rfl Iff.rfl fun _ hexec => ?_, checked_cons rfl Iff.rfl fun _ hexec => ?_⟩
  · have hreports := reports_of_exec hexec
    refine ⟨fun hnone => ?_, fun i hi hleast => ?_⟩
    · rwa [muxStart_of_none hnone, timeBits_int64Min] at hreports
    · rwa [muxStart_of_least hi hleast] at hreports
  · have hreports := reports_of_exec hexec
    refine ⟨fun hnone => ?_, fun o ho hleast => ?_⟩
    · rwa [virtualAvail_of_none hnone] at hreports
    · rwa [virtualAvail_of_least ho hleast] at hreports

/-- A cut is legal for the model where it is for every active source that is not PCM, as the rule says. -/
theorem legalCut_iff_rule {s : State} (hrings : RingsOk s) {t : Int} {n : Nat} : s.legalCut t n = true ↔
    ∀ i : Nat, Active s i → (s.source i).pcm = false →
      n = 0 ∨ (n : Int) ≤ (s.source i).offset s.params t ∨
        ∃ j : Nat, j < (s.source i).chunks.length ∧ (n : Int) - (s.source i).offset s.params t =
          ((((s.source i).chunks.take (j + 1)).map Chunk.frames).sum : Int) - (s.source i).headOff := by
  simp only [legalCut_iff, mem_passthrough_iff, source_legalCut_iff, and_imp,
    exists_mem_ends_iff (ringOk_of_ringsOk hrings _).headOff_inside]

/-- Settles O35: the aligned cut is the greatest that the model calls legal, which is legal by the rule. -/
theorem mxAlignedInterleaveOutcome : Obligations.MxAlignedInterleaveOutcome := by
  refine ⟨decode_encode (i := .mxAlignedInterleave) rfl, fun s hrings => ?_⟩
  intro isEnd legal
  refine checked_cons rfl Iff.rfl fun _ hexec => checked_cons hexec (not_isValidTime_iff 0) fun _ hexec =>
    checked_cons hexec not_isCount_iff fun _ hexec => ?_
  obtain ⟨hle, hlegal, hgreatest⟩ := alignedCut_spec s (s.sarg 0) (s.arg 1)
  exact ⟨_, reports_of_exec hexec, hle, (legalCut_iff_rule hrings).mp hlegal,
    fun m hm hlegal => hgreatest m hm ((legalCut_iff_rule hrings).mpr hlegal)⟩

end Sys2Proof.Proofs
end

section
/-! PROOFS. MX_EXTRACT: its checks and the forwards it keeps, every byte of the block it writes, and the frames it takes
from the sources (42_multiplexer.md rules R160 to R162). -/

namespace Sys2Proof.Proofs

open Sys2Proof
open Sys2Proof.Config (Params)
open Sys2Proof.Machine
open Sys2Proof.Safety
open Sys2Proof.Laws

/-! ### Changes of many source contexts -/

theorem mapSources_source_of_isOpen {s : State} {p : Nat → Bool}
    (hp : ∀ i, p i = true → (s.source i).isOpen = true) (f : Source → Source) (i : Nat) :
    (s.mapSources p f).source i = if p i then f (s.source i) else s.source i := by
  rcases Nat.lt_or_ge i 16 with hi | hi
  · exact mapSources_source s p f hi
  · have hclosed : ¬ p i = true := fun h => absurd (lt_of_isOpen (hp i h)) (not_lt.mpr hi)
    rw [if_neg hclosed, mapSources_source_of_ge s p f hi, source_of_ge s hi]

theorem forwardAll_source (s : State) (t : Int) (i : Nat) : (s.forwardAll t).source i =
    if s.sourceOpen i then (s.source i).forward s.params t else s.source i :=
  mapSources_source_of_isOpen (fun i hi => ((sourceOpen_iff s i).mp hi).2) _ i

theorem consume_source (s : State) (t : Int) (n i : Nat) : (s.consume t n).source i =
    if s.isActive i then ((s.source i).tag s.params t n).flush s.params else s.source i :=
  mapSources_source_of_isOpen (fun _ hi => (isActive_iff_active.mp hi).2.1) _ i

theorem forward_eq (c : Source) (P : Params) (t : Int) : c.forward P t =
    if c.total = 0 ∨ t ≤ c.bufferStart P then c
    else
      let k := min c.total ((t - c.bufferStart P) * P.sampleRate / P.tickHz).toNat
      { c.discard P k with tagged := c.tagged - k } := by
  unfold Source.forward
  split
  · rfl
  · next h => rw [forwardCount_eq, if_neg h]

/-! ### The start of the block (R160) -/

section
variable {s t : State}

theorem extractStart_eq (s : State) : s.extractStart =
    if s.head ≠ invalidBits ∧ s.muxStart < s.head.toInt then s.head.toInt else s.muxStart := by
  simp only [State.extractStart, State.regresses, decide_eq_true_eq]

theorem forwarded_eq (s : State) : s.forwarded =
    if s.head ≠ invalidBits ∧ s.muxStart < s.head.toInt then s.forwardAll s.head.toInt else s := by
  simp only [State.forwarded, State.regresses, decide_eq_true_eq]

/-- What MX_EXTRACT's forwards leave of the block and of what stands outside it. -/
theorem forwarded_frame (s : State) :
    SameOutside s s.forwarded ∧ SameConfig s s.forwarded ∧ SameHead s s.forwarded ∧
      s.forwarded.owner = s.owner := by
  unfold State.forwarded
  split <;> simp [SameOutside, SameConfig, SameHead]

/-! ### How MX_EXTRACT succeeds (R160) -/

/-- The state when MX_EXTRACT has written its block and not yet consumed it. -/
def withBlock (s : State) : State :=
  s.forwarded.storeRuns .mxExtract (s.forwarded.blockRuns (s.arg 1) (s.arg 0) s.extractStart)

/-- The state after a successful MX_EXTRACT, but for its completion. -/
def extracted (s : State) : State :=
  { (withBlock s).consume s.extractStart (s.arg 0) with head := timeBits (s.extractStop (s.arg 0)) }

/-- MX_EXTRACT past all its checks. -/
abbrev ExecExtracts (s : State) : Prop :=
  exec .mxExtract s = (extracted s).finish (timeBits s.extractStart) (countBits (s.arg 0))
    (countBits (s.blockBytes (s.arg 0))) 0#64

theorem exec_mxExtract_eq (s : State) : exec .mxExtract s =
    if s.audioCh = 0 then s.raise .badState
    else if s.arg 0 < 1 ∨ u32Max < s.arg 0 then s.raise .badArg
    else if !inRange s.params (s.arg 1) (s.blockBytes (s.arg 0)) then s.raise .dmemFault
    else if s.active = [] then s.raise .notReady
    else if int64Max < s.extractStop (s.arg 0) then s.raise .badArg
    else if s.forwarded.active = [] ∨ s.forwarded.virtualAvail s.extractStart < s.arg 0 then
      s.forwarded.raise .notReady
    else (extracted s).finish (timeBits s.extractStart) (countBits (s.arg 0))
      (countBits (s.blockBytes (s.arg 0))) 0#64 :=
  rfl

theorem exec_mxExtract_of_ok (hok : ExtractOk s) : ExecExtracts s := by
  obtain ⟨haudio, ⟨hlow, hhigh⟩, hrange, hactive, hstop, hforwarded, havail⟩ := hok
  rw [ExecExtracts, exec_mxExtract_eq, if_neg haudio, if_neg (not_or.mpr ⟨not_lt.mpr hlow, not_lt.mpr hhigh⟩),
    hrange, if_neg (by decide), if_neg hactive, if_neg (not_lt.mpr hstop),
    if_neg (not_or.mpr ⟨hforwarded, not_lt.mpr havail⟩)]

theorem extracted_source (s : State) (i : Nat) : (extracted s).source i =
    if Active s.forwarded i then ((s.forwarded.source i).tag s.params s.extractStart (s.arg 0)).flush s.params
    else s.forwarded.source i := by
  obtain ⟨-, -, -, hparams, -⟩ := forwarded_same s
  have hconsumed : (extracted s).source i = ((withBlock s).consume s.extractStart (s.arg 0)).source i := rfl
  have hsource : (withBlock s).source i = s.forwarded.source i := rfl
  have hactive : (withBlock s).isActive i = true ↔ Active s.forwarded i := isActive_iff_active
  rw [hconsumed, consume_source, hsource, ← hparams]
  exact if_congr hactive rfl rfl

/-- Everything a successful MX_EXTRACT does. -/
theorem mxExtract_succeeds (hexec : ExecExtracts s) :
    Succeeds s .mxExtract (timeBits s.extractStart) (countBits (s.arg 0)) (countBits (s.blockBytes (s.arg 0))) 0#64
      fun t => SameConfig s t ∧ t.owner = s.owner ∧ t.cdpCounter = s.cdpCounter ∧
        t.head = timeBits (s.extractStop (s.arg 0)) ∧
        t.dmem = (withBlock s).dmem ∧
        ∀ i : Nat, t.source i = (extracted s).source i := by
  obtain ⟨⟨hhosts, hserving, hsteps, hdraws, hparams⟩, ⟨haudio, hdeclared⟩, ⟨-, hcounter⟩, howner⟩ :=
    forwarded_frame s
  refine ⟨_, hexec, complete_completed_of_ports ?_ ?_ _ _ _ _ _, ?_, ?_, ?_, ?_, rfl, ?_, fun i => rfl⟩
  all_goals simp [SameOutside, SameConfig, extracted, withBlock, hhosts, hserving, hsteps, hdraws, hparams, haudio,
    hdeclared, hcounter, howner, (forwarded_same s).1]

/-- Past the checks the outcome is the one that completes with OK. -/
theorem extractOk_of_code (ht : exec .mxExtract s = .next t) (hcode : t.ports[s.serving].code = .ok) : ExtractOk s :=
  (execMxExtract_ends s).ok_iff.mp ⟨t, ht, hcode⟩

/-! ### Where MX_EXTRACT writes (R160, R73) -/

theorem mem_mxExtract_writes {y : Buffer} : y ∈ (s.buffers .mxExtract).writes ↔
    (isCount (s.arg 0) && inRange s.params (s.arg 1) (s.blockBytes (s.arg 0))) = true ∧
      y = whole (s.arg 1) (s.blockBytes (s.arg 0)) := by
  rw [mem_buffers_writes]
  simp only [firstFinding, secondFinding, mxExtract_writes, or_self, mem_buffersIf, List.mem_singleton]

/-- No byte outside the block ends with another value. -/
theorem withBlock_read_out (s : State) :
    SameDmemOutside s (withBlock s) (s.arg 1) (s.blockBytes (s.arg 0)) := by
  intro b hb
  obtain ⟨-, -, hdmem, -⟩ := forwarded_same s
  rw [← hdmem]
  refine storeRuns_read_out s.forwarded (fun y hy => ?_) fun r hr => Bool.eq_false_iff.mpr fun hcovers => ?_
  · obtain ⟨-, rfl⟩ := mem_mxExtract_writes.mp (forwarded_writes s hy)
    exact Bool.eq_false_iff.mpr fun h => hb ((whole_holds _ _ b).mp h)
  · have hblock := blockRuns_cover ⟨r, hr, hcovers⟩
    rw [forwarded_blockBytes] at hblock
    exact hb hblock

end

/-- Settles O36: the forwards keep all but the sources, and past the checks the rule either fails with the forwards kept
or writes its block and consumes it. -/
theorem mxExtractOutcome : Obligations.MxExtractOutcome := by
  refine ⟨decode_encode (i := .mxExtract) rfl, fun s h j => ?_, fun s => ?_⟩
  · intro u c k
    refine ⟨by simp [u], by simp [u, SameOutside], by simp [u, SameConfig], by simp [u, SameHead], by simp [u],
      by simp [u], ?_⟩
    rw [forwardAll_source]
    by_cases hopen : NotOpen s j
    · have hclosed : s.sourceOpen j = false := by simpa using not_sourceOpen_iff.mpr hopen
      rw [hclosed, if_neg Bool.false_ne_true, if_pos (.inl hopen)]
    · rw [if_pos (sourceOpen_of_not_notOpen hopen), forward_eq]
      exact if_congr (or_iff_right hopen).symm rfl rfl
  · intro n bytes regress start stop f short
    have hstart : start = s.extractStart := (extractStart_eq s).symm
    have hforwarded : f = s.forwarded := (forwarded_eq s).symm
    have hstop : stop = s.extractStop n := congrArg (· + (framesToTicks s.params n : Int)) hstart
    have hshort : (s.forwarded.active = [] ∨ s.forwarded.virtualAvail s.extractStart < n) ↔ short := by
      rw [active_eq_nil_iff, ← hforwarded, ← hstart]
    rw [hstart, hstop, hforwarded]
    refine checked_cons (exec_mxExtract_eq s) Iff.rfl fun _ hexec => checked_cons hexec Iff.rfl fun _ hexec =>
      checked_cons hexec not_inRange_iff fun _ hexec => checked_cons hexec active_eq_nil_iff fun _ hexec =>
      checked_cons hexec Iff.rfl fun _ hexec => ⟨fun hfew => ?_, fun henough => ?_⟩
    · obtain ⟨hports, hserving, -⟩ := forwarded_same s
      exact ⟨_, hexec.trans (if_pos (hshort.mpr hfew)), complete_completed_of_ports hports hserving _ _ _ _ _,
        complete_sameBlock s.forwarded _ _⟩
    · obtain ⟨t, ht, hdone, hout, hconfig, howner, hcounter, hhead, hdmem, hsource⟩ :=
        mxExtract_succeeds (hexec.trans (if_neg (mt hshort.mp henough)))
      refine ⟨t, ht, hdone, hout, hconfig, howner, hcounter, hhead, ?_, fun i => ?_⟩
      · rw [SameDmemOutside, hdmem]
        exact withBlock_read_out s
      · rw [hsource, extracted_source]

/-! ### The bytes of the block (R161) -/

/-- A byte that the zeros cover ends as the runs after them say, or as zero where none of them covers it. -/
theorem read_writeRuns_over_zeros {m : Memory} (hm : Memory.wf m = true) {dst n a : Nat}
    (ha : dst ≤ a ∧ a < dst + n) {runs : List Run} {v : Byte}
    (hagree : ∀ r ∈ runs, Run.covers r a = true → r.2.getD (a - r.1) 0#8 = v)
    (hcovered : v ≠ 0#8 → RunsCover runs a) :
    Memory.read (Memory.writeRuns m ((dst, List.replicate n 0#8) :: runs)) a = v := by
  by_cases hcover : RunsCover runs a
  · exact read_writeRuns_agree (wf_writeBytes hm _ _) hcover hagree
  · obtain rfl : v = 0#8 := by_contra fun hv => hcover (hcovered hv)
    have hlt : a - dst < n := by omega
    rw [writeRuns_cons, read_writeRuns_out _ fun r hr => Bool.eq_false_iff.mpr fun h => hcover ⟨r, hr, h⟩,
      read_writeBytes_in hm (by simpa using ha)]
    simp [List.getD, hlt]

section
variable {s : State} {dst count i k b : Nat} {t : Int}

theorem mem_slotRuns {r : Run} : r ∈ s.slotRuns dst count t ↔
    ∃ k < 2 * s.frameWidth, ∃ o, s.ownerAt k = some o ∧ Active s o.source ∧
      ∃ i j : Nat, i < count ∧ ((i : Int) - (s.source o.source).offset s.params t = j ∧
        j < (s.source o.source).total) ∧
        (dst + (i * 2 * s.frameWidth + k) * s.params.subframeBytes,
          (s.source o.source).subframe s.params j o.chan) = r := by
  simp only [State.slotRuns, List.mem_flatMap, List.mem_range]
  refine exists_congr fun k => and_congr_right fun _ => ?_
  cases s.ownerAt k with
  | none => simp
  | some o =>
    simp only [Option.some.injEq, exists_eq_left', ← isActive_iff_active, ← mem_readRuns]
    split <;> simp [*]

/-- A byte of a block lies in it. -/
theorem block_lt {width n SB : Nat} (hi : i < n) (hk : k < 2 * width) (hb : b < SB) :
    (i * 2 * width + k) * SB + b < n * 2 * width * SB := by
  have hslots : i * 2 * width + k + 1 ≤ n * 2 * width := by
    have hcount := Nat.mul_le_mul_right (2 * width) (show i + 1 ≤ n from hi)
    rw [Nat.succ_mul, ← Nat.mul_assoc, ← Nat.mul_assoc] at hcount
    omega
  have hbytes := Nat.mul_le_mul_right SB hslots
  rw [Nat.succ_mul] at hbytes
  omega

/-- The places of a block lie apart: a byte belongs to one slot of one frame. -/
theorem place_unique {width SB i' k' a : Nat} (hk : k < 2 * width) (hk' : k' < 2 * width)
    (ha : dst + (i * 2 * width + k) * SB ≤ a ∧ a < dst + (i * 2 * width + k) * SB + SB)
    (ha' : dst + (i' * 2 * width + k') * SB ≤ a ∧ a < dst + (i' * 2 * width + k') * SB + SB) :
    i' = i ∧ k' = k := by
  have hplace : ∀ m, dst + m * SB ≤ a ∧ a < dst + m * SB + SB → (a - dst) / SB = m := fun m h =>
    Nat.div_eq_of_lt_le (by omega) (by rw [Nat.succ_mul]; omega)
  have hsame := (hplace _ ha').symm.trans (hplace _ ha)
  have hwidth : 0 < 2 * width := by omega
  rw [Nat.mul_assoc, Nat.mul_assoc, Nat.mul_comm i', Nat.mul_comm i] at hsame
  have hframe := congrArg (· / (2 * width)) hsame
  simp only [Nat.mul_add_div hwidth, Nat.div_eq_of_lt hk, Nat.div_eq_of_lt hk', Nat.add_zero] at hframe
  subst hframe
  exact ⟨rfl, Nat.add_left_cancel hsame⟩

/-- A byte of a slot of a frame ends as the owner's byte where an active owner has the frame, else as zero. -/
theorem read_writeRuns_blockRuns {m : Memory} (hm : Memory.wf m = true) (hi : i < count)
    (hk : k < 2 * s.frameWidth) (hb : b < s.params.subframeBytes) {v : Byte}
    (hframe : ∀ o, s.ownerAt k = some o → Active s o.source → ∀ j : Nat,
      (i : Int) - (s.source o.source).offset s.params t = j → j < (s.source o.source).total →
      (s.source o.source).data.getD ((j * (s.source o.source).nsub + o.chan) * s.params.subframeBytes + b) 0#8 = v)
    (hzero : v ≠ 0#8 → ∃ o, s.ownerAt k = some o ∧ Active s o.source ∧ ∃ j : Nat,
      (i : Int) - (s.source o.source).offset s.params t = j ∧ j < (s.source o.source).total) :
    Memory.read (Memory.writeRuns m (s.blockRuns dst count t))
      (dst + (i * 2 * s.frameWidth + k) * s.params.subframeBytes + b) = v := by
  have hlt := block_lt hi hk hb
  refine read_writeRuns_over_zeros hm ⟨by omega, by rw [State.blockBytes]; omega⟩ (fun r hr hcovers => ?_)
    fun hv => ?_
  · obtain ⟨k', hk', o, howner, hactive, i', j, -, ⟨hj, hjt⟩, rfl⟩ := mem_slotRuns.mp hr
    have hspan := (covers_iff _ _).mp hcovers
    have hlen : ((s.source o.source).subframe s.params j o.chan).length ≤ s.params.subframeBytes :=
      length_subframe_le j
    dsimp only at hspan
    obtain ⟨rfl, rfl⟩ := place_unique hk hk' ⟨Nat.le_add_right _ b, by omega⟩ ⟨hspan.1, by omega⟩
    dsimp only
    rw [Nat.add_sub_cancel_left, getD_subframe hb]
    exact hframe o howner hactive j hj hjt
  · obtain ⟨o, howner, hactive, j, hj, hjt⟩ := hzero hv
    refine ⟨_, mem_slotRuns.mpr ⟨k, hk, o, howner, hactive, i, j, hi, ⟨hj, hjt⟩, rfl⟩, ?_⟩
    have hbyte : ((s.source o.source).subframe s.params j o.chan).getD b 0#8 ≠ 0#8 := by
      rwa [getD_subframe hb, hframe o howner hactive j hj hjt]
    have hlen : b < ((s.source o.source).subframe s.params j o.chan).length := by
      by_contra hge
      exact hbyte (List.getD_eq_default _ _ (not_lt.mp hge))
    rw [covers_iff]
    dsimp only
    omega

/-- MX_EXTRACT reads no byte, and writes every byte of the one block that its rule checks. -/
theorem mxExtract_hasBuffers
    (hok : (isCount (s.arg 0) && inRange s.params (s.arg 1) (s.blockBytes (s.arg 0))) = true) :
    HasBuffers s .mxExtract [⟨s.arg 1, s.blockBytes (s.arg 0)⟩] fun _ => True where
  reads x := iff_of_false not_covered_nil id
  ranges r := by
    simp only [mem_mxExtract_writes, hok, true_and, exists_eq_left, List.mem_singleton, eq_comm, whole]
  writes r hr x hx := by
    obtain rfl := List.mem_singleton.mp hr
    simp only [mem_mxExtract_writes, hok, true_and, exists_eq_left, whole_covers]
    exact iff_true_intro ((holds_iff _ x).mp hx)

/-- What hosts have raced with does not depend on the sources. -/
theorem racedBlock_mxExtract_congr {u : State} (hports : u.ports = s.ports) (hserving : u.serving = s.serving)
    (base n : Nat) : RacedBlock u .mxExtract base n = RacedBlock s .mxExtract base n := by
  funext a
  simp only [RacedBlock, RacedOutput, InputOf, hostWrites_congr hports hserving, touches_congr hports hserving]

end

/-- A byte of the block ends as the runs of the forwarded sources say, up to the draws of R73. -/
theorem extracted_endsAs {s t : State} (hform : MemoryOk s) (hok : ExtractOk s) (ht : exec .mxExtract s = .next t)
    {a : Nat} {v : Byte}
    (hv : Memory.read (Memory.writeRuns s.dmem (s.forwarded.blockRuns (s.arg 1) (s.arg 0) s.extractStart)) a = v) :
    EndsAs s t (RacedBlock s .mxExtract (s.arg 1) (s.blockBytes (s.arg 0))) a v := by
  obtain ⟨hports, hserving, hdmem, hparams, -⟩ := forwarded_same s
  obtain ⟨⟨-, -, -, hdraws, -⟩, -⟩ := forwarded_frame s
  obtain ⟨u, hu, -, -, -, -, -, -, hstored, -⟩ := mxExtract_succeeds (exec_mxExtract_of_ok hok)
  obtain rfl := Host.Outcome.next.inj (ht.symm.trans hu)
  obtain ⟨-, ⟨-, hcount⟩, hrange, -⟩ := hok
  have hbuffers := mxExtract_hasBuffers (s := s.forwarded) (by
    rw [arg_congr hports hserving, arg_congr hports hserving, forwarded_blockBytes, hparams, hrange, Bool.and_true]
    exact decide_eq_true hcount)
  rw [arg_congr hports hserving, arg_congr hports hserving, forwarded_blockBytes] at hbuffers
  have hends : EndsAs s.forwarded t (RacedBlock s.forwarded .mxExtract (s.arg 1) (s.blockBytes (s.arg 0))) a v :=
    storeRuns_endsAs (by rwa [hdmem]) hbuffers hstored (hdmem ▸ hv)
  rwa [racedBlock_mxExtract_congr hports hserving, EndsAs, hdraws] at hends

/-- Settles O37: the zeros cover the block, and each run over them is a frame's channel in its slot. -/
theorem extractedBlockLayout : Obligations.ExtractedBlockLayout := by
  intro s t hform ht hcode SB f start raced i k b hi hk hb a
  have hok := extractOk_of_code ht hcode
  obtain ⟨-, -, -, hparams, haudio⟩ := forwarded_same s
  obtain ⟨-, -, -, howner⟩ := forwarded_frame s
  have hstart : start = s.extractStart := (extractStart_eq s).symm
  have hforwarded : f = s.forwarded := (forwarded_eq s).symm
  have hwidth : s.forwarded.frameWidth = s.audioCh / 2 := congrArg (· / 2) haudio
  have hread := @read_writeRuns_blockRuns s.forwarded (s.arg 1) (s.arg 0) i k b s.extractStart s.dmem hform hi
  rw [hwidth, hparams] at hread
  simp only [ownerAt_congr howner] at hread
  rw [hstart, hforwarded]
  refine ⟨fun o j ho hactive hj hjt => extracted_endsAs hform hok ht
    (hread hk hb ?_ fun _ => ⟨o, ho, hactive, j, hj, hjt⟩),
    fun hnone => extracted_endsAs hform hok ht (hread hk hb ?_ fun h => absurd rfl h)⟩
  · intro o' ho' _ j' hj' _
    obtain rfl := Option.some.inj (ho.symm.trans ho')
    obtain rfl : j' = j := by omega
    rfl
  · intro o' ho' hactive' j' hj' hjt'
    exact absurd (hnone o' j' ho' hactive' hj') (not_le.mpr hjt')

/-! ### What the block takes from the sources (R162) -/

/-- The frames that tagging a window and flushing take from a ring without a tag are those before the window's end. -/
theorem taggedAfter_of_untagged {c : Source} {P : Params} (htagged : c.tagged = 0) (t : Int) (n : Nat) :
    c.taggedAfter P t n = min c.total (max 0 ((n : Int) - c.offset P t)).toNat := by
  unfold Source.taggedAfter
  split <;> omega

theorem forward_tagged_of_untagged {c : Source} (htagged : c.tagged = 0) (P : Params) (t : Int) :
    (c.forward P t).tagged = 0 := by
  unfold Source.forward
  split
  · exact htagged
  · show c.tagged - _ = 0
    rw [htagged, Nat.zero_sub]

theorem forwarded_tagged_of_untagged {s : State} {i : Nat} (htagged : (s.source i).tagged = 0) :
    (s.forwarded.source i).tagged = 0 := by
  unfold State.forwarded
  split
  · rw [forwardAll_source]
    split
    · exact forward_tagged_of_untagged htagged _ _
    · exact htagged
  · exact htagged

/-- Settles O38: an untagged source is tagged with the block's frames, and a flush discards those. -/
theorem extractConsumesTheBlock : Obligations.ExtractConsumesTheBlock := by
  intro s t i hrings ht hcode f start o gone hactive htagged
  have hstart : start = s.extractStart := (extractStart_eq s).symm
  have hforwarded : f = s.forwarded := (forwarded_eq s).symm
  obtain ⟨-, -, -, hparams, -⟩ := forwarded_same s
  obtain ⟨u, hu, -, -, -, -, -, -, -, hsource⟩ :=
    mxExtract_succeeds (exec_mxExtract_of_ok (extractOk_of_code ht hcode))
  obtain rfl := Host.Outcome.next.inj (ht.symm.trans hu)
  have hcount : ((f.source i).tag s.params start (s.arg 0)).tagged = gone :=
    taggedAfter_of_untagged (hforwarded ▸ forwarded_tagged_of_untagged htagged) _ _
  have hconsumed : t.source i =
      { ((f.source i).tag s.params start (s.arg 0)).discard s.params gone with tagged := 0 } := by
    rw [hsource, extracted_source, ← hforwarded, if_pos hactive, ← hstart, Source.flush, hcount]
  have hring := ringOk_of_ringsOk (change_ringsOk (.forwarded s) hrings) i
  rw [hparams, ← hforwarded] at hring
  have hle : gone ≤ (f.source i).total := Nat.min_le_left _ _
  have htotal : ((f.source i).discard s.params gone).total = (f.source i).total - gone := hring.discard_total hle
  rw [hconsumed]
  exact ⟨htotal, rfl, fun j ch => discard_subframe (f.source i) s.params gone j ch⟩

end Sys2Proof.Proofs
end

section
/-! PROOFS. What the commands and the hosts leave of the multiplexer: only a successful MX_EXTRACT, MX_SET_AUDIO_CONFIG
and a reset move `head`, and only MX_REMOVE_MAPPING and a reset end a mapping (42_multiplexer.md rules R149, R163). -/

namespace Sys2Proof.Proofs

open Sys2Proof
open Sys2Proof.Config (Params)
open Sys2Proof.Machine
open Sys2Proof.Safety
open Sys2Proof.Laws

/-! ### The commands that keep `head` and the mappings -/

/-- The shape and the slots of a source context are unchanged. -/
structure SameMapping (c d : Source) : Prop where
  isOpen : d.isOpen = c.isOpen
  nsub : d.nsub = c.nsub
  pcm : d.pcm = c.pcm
  slots : d.slots = c.slots

theorem SameMapping.refl (c : Source) : SameMapping c c := ⟨rfl, rfl, rfl, rfl⟩

theorem forward_sameMapping (c : Source) (P : Params) (t : Int) : SameMapping c (c.forward P t) :=
  ⟨forward_isOpen c P t, forward_nsub c P t, forward_pcm c P t, forward_slots c P t⟩

/-- Every open source keeps its mapping, and every owned slot its owner. -/
structure KeepsMappings (s t : State) : Prop where
  sources : ∀ i, (s.source i).isOpen = true → SameMapping (s.source i) (t.source i)
  owner : ∀ k o, s.ownerAt k = some o → t.ownerAt k = some o

theorem keepsMappings_of_sameSources {s t : State} (h : SameSources s t) : KeepsMappings s t where
  sources i _ := by rw [source_congr h.1]; exact .refl _
  owner k o ho := by rwa [ownerAt_congr h.2]

/-- The outcome is a next state with the `head` and the mappings of `s`. -/
def KeepsMux (s : State) (o : Host.Outcome State Fault Refusal) : Prop :=
  ∃ t, o = .next t ∧ t.head = s.head ∧ KeepsMappings s t

section
variable {s u : State} {o : Host.Outcome State Fault Refusal} {c : Code} {r : Results}

theorem keepsMux_of_same (hsources : u.sources = s.sources) (howner : u.owner = s.owner) (hhead : u.head = s.head) :
    KeepsMux s (.next (u.complete c r)) :=
  ⟨_, rfl, hhead, keepsMappings_of_sameSources ⟨hsources, howner⟩⟩

theorem keepsMux_raise (s : State) (c : Code) : KeepsMux s (s.raise c) := keepsMux_of_same rfl rfl rfl

theorem keepsMux_query (s : State) (r0 r1 r2 r3 : DWord) : KeepsMux s (s.finish r0 r1 r2 r3) :=
  keepsMux_of_same rfl rfl rfl

theorem keepsMux_storeRuns (s : State) (i : Instr) (runs : List Run) (r0 r1 r2 r3 : DWord) :
    KeepsMux s ((s.storeRuns i runs).finish r0 r1 r2 r3) := keepsMux_of_same rfl rfl rfl

/-- A change of a source context that keeps its mapping. -/
theorem keepsMux_setSource {i : Nat} {d : Source} (hd : SameMapping (s.source i) d) :
    KeepsMux s (.next ((s.setSource i d).complete c r)) := by
  refine ⟨_, rfl, rfl, fun j hj => ?_, fun k o ho => ho⟩
  show SameMapping (s.source j) ((s.setSource i d).source j)
  by_cases hji : j = i
  · subst hji
    rwa [setSource_source_self s d (lt_of_isOpen hj)]
  · rw [setSource_source_ne s d hji]
    exact .refl _

theorem keepsMux_check {b : Prop} [Decidable b] (h : ¬ b → KeepsMux s o) :
    KeepsMux s (if b then s.raise c else o) := by
  split
  · exact keepsMux_raise s c
  · exact h ‹_›

theorem keepsMux_elim {found : Option Nat} {o : Nat → Host.Outcome State Fault Refusal} (h : ∀ n, KeepsMux s (o n)) :
    KeepsMux s (found.elim (s.raise .malformed) o) := by
  cases found with
  | none => exact keepsMux_raise s _
  | some n => exact h n

theorem execRbPush_keepsMux (src : Nat) (s : State) : KeepsMux s (execRbPush src s) := by
  refine keepsMux_check fun _ => keepsMux_check fun _ => keepsMux_check fun _ => keepsMux_check fun _ =>
    keepsMux_check fun _ => keepsMux_check fun _ => ?_
  split
  · exact keepsMux_query s _ _ _ _
  · exact keepsMux_check fun _ => keepsMux_check fun _ => keepsMux_setSource ⟨rfl, rfl, rfl, rfl⟩

theorem execRbInfo_keepsMux (src : Nat) (s : State) : KeepsMux s (execRbInfo src s) := by
  refine keepsMux_check fun _ => ?_
  split
  · exact keepsMux_query s _ _ _ _
  · exact keepsMux_query s _ _ _ _

/-- A new mapping takes a closed source and free slots, so it ends no other (R145). -/
theorem execMxAddMapping_keepsMux (src : Nat) (x a m : Bool) (s : State) :
    KeepsMux s (execMxAddMapping src x a m s) := by
  rw [execMxAddMapping_eq]
  refine keepsMux_check fun _ => keepsMux_check fun _ => keepsMux_check fun hc => keepsMux_check fun _ =>
    keepsMux_check fun hok => keepsMux_check fun hclosed => ?_
  cases hslots : s.chooseSlots x a (s.arg 0) with
  | error code => exact keepsMux_raise s code
  | ok slots =>
    obtain ⟨⟨-, -, hfree, -⟩, -⟩ := chooseSlots_spec (by omega) (by simpa using hok) hslots
    refine ⟨_, rfl, rfl, fun i hi => ?_, fun k o ho => ?_⟩
    · have hne : i ≠ src := fun h => hclosed (h ▸ hi)
      show SameMapping (s.source i) ((s.setSource src _).source i)
      rw [setSource_source_ne s _ hne]
      exact .refl _
    · have hk : k ∉ slots := fun hk => by rw [hfree k hk] at ho; cases ho
      exact (claimSlots_ownerAt_of_not_mem (s := s.setSource src (Source.opened (s.arg 0) m slots)) hk).trans ho

/-- The command may move `head` or end a mapping. -/
def movesMux : Instr → Bool
  | .mxSetAudioConfig _ | .mxRemoveMapping _ | .mxExtract => true
  | _ => false

theorem exec_keepsMux {i : Instr} (s : State) (h : movesMux i = false) : KeepsMux s (exec i s) := by
  cases i with
  | nop | mxSlotMap => exact keepsMux_query s _ _ _ _
  | rbPush src => exact execRbPush_keepsMux src s
  | rbInfo src => exact execRbInfo_keepsMux src s
  | mxAddMapping src x a m => exact execMxAddMapping_keepsMux src x a m s
  | rbFlushConsumed => exact keepsMux_check fun _ => keepsMux_setSource ⟨rfl, rfl, rfl, rfl⟩
  | rbTagVirtualConsumed =>
    exact keepsMux_check fun _ => keepsMux_check fun _ => keepsMux_check fun _ =>
      keepsMux_setSource ⟨rfl, rfl, rfl, rfl⟩
  | rbForwardTo =>
    exact keepsMux_check fun _ => keepsMux_check fun _ => keepsMux_setSource (forward_sameMapping _ _ _)
  | rbBufferStart | rbAvailable | mxBufferStart | mxAvailableVirtual =>
    exact keepsMux_check fun _ => keepsMux_query s _ _ _ _
  | mxAlignedInterleave =>
    exact keepsMux_check fun _ => keepsMux_check fun _ => keepsMux_check fun _ => keepsMux_query s _ _ _ _
  | rbRead =>
    exact keepsMux_check fun _ => keepsMux_check fun _ => keepsMux_check fun _ => keepsMux_check fun _ =>
      keepsMux_check fun _ => keepsMux_check fun _ => keepsMux_check fun _ => keepsMux_storeRuns s _ _ _ _ _ _
  | ancPad | ancAfd | pxPackPlane | pxUnpackPlane =>
    exact keepsMux_check fun _ => keepsMux_check fun _ => keepsMux_storeRuns s _ _ _ _ _ _
  | ancData10 | pxPackWords | pxUnpackWords =>
    exact keepsMux_check fun _ => keepsMux_check fun _ => keepsMux_check fun _ => keepsMux_storeRuns s _ _ _ _ _ _
  | ancCaptions =>
    exact keepsMux_check fun _ => keepsMux_check fun _ => keepsMux_check fun _ => keepsMux_of_same rfl rfl rfl
  | ancParse =>
    rw [exec, execAncParse_eq]
    refine keepsMux_check fun _ => keepsMux_check fun _ => keepsMux_elim fun n => ?_
    unfold ancDelivered
    exact keepsMux_check fun _ => keepsMux_storeRuns s _ _ _ _ _ _
  | cdpParse =>
    rw [exec, execCdpParse_eq]
    refine keepsMux_check fun _ => keepsMux_check fun _ => keepsMux_elim fun n => ?_
    unfold cdpDelivered
    exact keepsMux_check fun _ => keepsMux_storeRuns s _ _ _ _ _ _
  | mxSetAudioConfig | mxRemoveMapping | mxExtract => exact absurd h.symm Bool.false_ne_true

end

/-! ### What a host's step can do to the multiplexer (R251, R252) -/

theorem eq_of_hostReg_ctrl {nports off : Nat} (h : hostReg nports off = .ctrl) : off = 0x004 := by
  rcases Nat.lt_or_ge off 0x100 with hoff | hoff
  · rw [hostReg_global nports hoff] at h
    unfold globalReg at h
    split at h
    case h_2 => rfl
    all_goals cases h
  · rcases hostReg_cases (nports := nports) hoff with hr | ⟨p, hr⟩
    · rw [hr] at h
      cases h
    · rw [hr] at h
      unfold portReg at h
      split_ifs at h

/-- No register write reaches the sources, the slot table or `head`, but for the block reset. -/
theorem writeReg_mux (s : State) (r : HostReg) (w : Word) :
    ((s.writeReg r w).head = s.head ∧ SameSources s (s.writeReg r w)) ∨
      ((s.writeReg r w).head = invalidBits ∧ r = .ctrl ∧ w.getLsbD 0 = true) := by
  cases r with
  | ctrl =>
    cases hw : w.getLsbD 0 with
    | true =>
      rw [writeReg_ctrl_set s hw]
      exact .inr ⟨rfl, rfl, rfl⟩
    | false =>
      rw [writeReg_ctrl_clear s hw]
      exact .inl ⟨rfl, rfl, rfl⟩
  | id | audioCfg | head | irqStatus | params | res | hole | cdpCounter | cmd | status | ie | arg =>
    exact .inl ⟨rfl, rfl, rfl⟩

/-- A host's step leaves the sources, the slot table and `head` as they are, or it resets the block. -/
theorem hostStep_mux_cases {s t : State} {p : Fin 15} (h : s.hostStep p = .next t) :
    (t.head = s.head ∧ SameSources s t) ∨ (t.head = invalidBits ∧ ∃ (w : Word) (rest : List HostAction),
      s.hosts[p].actions = .regWrite 0x004 4 w :: rest ∧ w.getLsbD 0 = true) := by
  obtain ⟨u, hmove, hread⟩ := hostStep_cases h
  have htu : t.head = u.head ∧ SameSources u t := by
    obtain rfl | ⟨v, rfl⟩ := hread
    · exact ⟨rfl, rfl, rfl⟩
    · exact ⟨rfl, rfl, rfl⟩
  obtain ⟨hhead, hsources, howner⟩ := htu
  rw [SameSources, hhead, hsources, howner]
  obtain ⟨-, rfl⟩ | ⟨-, rfl⟩ | ⟨x, rest, hactions, -, hact⟩ := hostMove_cases hmove
  · exact .inl ⟨rfl, rfl, rfl⟩
  · exact .inl ⟨rfl, rfl, rfl⟩
  · cases x with
    | regRead | dmemRead | dmemWrite =>
      obtain rfl := eq_of_guarded_next hact nofun
      rw [hostDone_head, hostDone_sources, hostDone_owner]
      exact .inl ⟨rfl, rfl, rfl⟩
    | wait =>
      obtain rfl := Host.Outcome.next.inj hact
      exact .inl ⟨rfl, rfl, rfl⟩
    | regWrite off width w =>
      have haccess : isHostAccess off width = true := by
        by_contra hbad
        exact absurd ((if_neg hbad).symm.trans hact) nofun
      obtain ⟨rfl, -, -⟩ := isHostAccess_iff.mp haccess
      obtain rfl := eq_of_guarded_next hact nofun
      have hwrite := writeReg_mux s.tick (hostReg s.params.nports off) w
      rw [SameSources, tick_head, tick_sources, tick_owner] at hwrite
      rw [hostDone_head, hostDone_sources, hostDone_owner]
      rcases hwrite with hsame | ⟨hreset, hctrl, hbit⟩
      · exact .inl hsame
      · obtain rfl := eq_of_hostReg_ctrl hctrl
        exact .inr ⟨hreset, w, rest, hactions, hbit⟩

/-! ### Where `head` moves (R163) -/

section
variable {s t : State} {i : Instr}

theorem head_of_raises {code : Code} (h : Raises s i code) (ht : exec i s = .next t) : t.head = s.head := by
  obtain ⟨u, hu, -, -, -, -, ⟨hhead, -⟩, -⟩ := h
  obtain rfl := Host.Outcome.next.inj (ht.symm.trans hu)
  exact hhead

/-- A command that fails leaves `head`. -/
theorem head_of_checked {checks : List (Prop × Code)} {ok : Prop} (h : Checked s i checks ok)
    (ht : exec i s = .next t) (hok : ok → t.head = s.head ∨ t.ports[s.serving].code = .ok) :
    t.head = s.head ∨ t.ports[s.serving].code = .ok :=
  (checked_cases h).elim (fun ⟨_, hraise⟩ => .inl (head_of_raises hraise ht)) hok

/-- A command that ends with OK has passed its checks, where none of them raises OK. -/
theorem ok_of_checked {checks : List (Prop × Code)} {ok : Prop} (h : Checked s i checks ok)
    (hcodes : ∀ check ∈ checks, check.2 ≠ .ok) (ht : exec i s = .next t) (hcode : t.ports[s.serving].code = .ok) :
    ok := by
  induction checks with
  | nil => exact h
  | cons check rest ih =>
    obtain ⟨hraise, hpass⟩ := h
    refine ih (hpass fun hbad => ?_) fun c hc => hcodes c (List.mem_cons_of_mem _ hc)
    obtain ⟨u, hu, hdone, -⟩ := hraise hbad
    obtain rfl := Host.Outcome.next.inj (ht.symm.trans hu)
    exact hcodes check List.mem_cons_self ((code_of_completed hdone).symm.trans hcode)

theorem code_of_succeeds {r0 r1 r2 r3 : DWord} {frame : State → Prop} (h : Succeeds s i r0 r1 r2 r3 frame)
    (ht : exec i s = .next t) : t.ports[s.serving].code = .ok := by
  obtain ⟨u, hu, hdone, -⟩ := h
  obtain rfl := Host.Outcome.next.inj (ht.symm.trans hu)
  exact code_of_completed hdone

theorem sameBlock_of_raise {u : State} {code : Code} (h : u.raise code = .next t) : SameBlock u t := by
  obtain rfl := Host.Outcome.next.inj h
  exact complete_sameBlock u _ _

/-- A check that a performed command passes, or by which it fails. -/
theorem sameBlock_or_of_check {u : State} {b : Prop} [Decidable b] {code : Code} {o : Host.Outcome State Fault Refusal}
    (h : (if b then u.raise code else o) = .next t) : SameBlock u t ∨ o = .next t := by
  split at h
  · exact .inl (sameBlock_of_raise h)
  · exact .inr h

/-- Everything MX_EXTRACT can do: it succeeds, or it fails with the state as it was or as the forwards leave it. -/
theorem exec_mxExtract_cases (ht : exec .mxExtract s = .next t) :
    ExecExtracts s ∨ SameBlock s t ∨ SameBlock s.forwarded t := by
  have hfail : SameBlock s t → ExecExtracts s ∨ SameBlock s t ∨ SameBlock s.forwarded t := fun h => .inr (.inl h)
  have hexec := (exec_mxExtract_eq s).symm.trans ht
  exact (sameBlock_or_of_check hexec).elim hfail fun hexec => (sameBlock_or_of_check hexec).elim hfail fun hexec =>
    (sameBlock_or_of_check hexec).elim hfail fun hexec => (sameBlock_or_of_check hexec).elim hfail fun hexec =>
    (sameBlock_or_of_check hexec).elim hfail fun hexec =>
    (sameBlock_or_of_check hexec).elim (fun h => .inr (.inr h)) fun hexec => .inl (ht.trans hexec.symm)

theorem mxExtract_head (ht : exec .mxExtract s = .next t) : t.head = s.head ∨ t.ports[s.serving].code = .ok := by
  rcases exec_mxExtract_cases ht with hexec | ⟨-, -, -, ⟨hhead, -⟩, -⟩ | ⟨-, -, -, ⟨hhead, -⟩, -⟩
  · exact .inr (code_of_succeeds (mxExtract_succeeds hexec) ht)
  · exact .inl hhead
  · obtain ⟨-, -, ⟨hforwarded, -⟩, -⟩ := forwarded_frame s
    exact .inl (hhead.trans hforwarded)

theorem mxSetAudioConfig_head {d : Bool} (ht : exec (.mxSetAudioConfig d) s = .next t) :
    (t.ports[s.serving].code = .ok → t.head = invalidBits) ∧
      (t.head = s.head ∨ t.ports[s.serving].code = .ok) := by
  have hchecked := mxSetAudioConfigOutcome.2 s d
  refine ⟨fun hcode => ?_, head_of_checked hchecked ht fun hok => .inr (code_of_succeeds hok ht)⟩
  obtain ⟨u, hu, -, -, -, -, -, -, -, hhead⟩ := ok_of_checked hchecked (by simp) ht hcode
  obtain rfl := Host.Outcome.next.inj (ht.symm.trans hu)
  exact hhead

theorem mxRemoveMapping_head {src : Nat} (ht : exec (.mxRemoveMapping src) s = .next t) : t.head = s.head := by
  refine (checked_cases (mxRemoveMappingOutcome.2 s src)).elim (fun ⟨_, hraise⟩ => head_of_raises hraise ht) ?_
  rintro ⟨u, hu, -, -, -, ⟨hhead, -⟩, -⟩
  obtain rfl := Host.Outcome.next.inj (ht.symm.trans hu)
  exact hhead

theorem head_of_keepsMux (h : KeepsMux s (exec i s)) (ht : exec i s = .next t) : t.head = s.head := by
  obtain ⟨u, hu, hhead, -⟩ := h
  obtain rfl := Host.Outcome.next.inj (ht.symm.trans hu)
  exact hhead

/-- A command that moves `head` is a successful MX_EXTRACT or MX_SET_AUDIO_CONFIG. -/
theorem exec_moves_head (ht : exec i s = .next t) (hmoved : t.head ≠ s.head) :
    t.ports[s.serving].code = .ok ∧ (i = .mxExtract ∨ ∃ d : Bool, i = .mxSetAudioConfig d) := by
  cases hi : movesMux i with
  | false => exact absurd (head_of_keepsMux (exec_keepsMux s hi) ht) hmoved
  | true =>
    cases i with
    | mxExtract => exact ⟨(mxExtract_head ht).resolve_left hmoved, .inl rfl⟩
    | mxSetAudioConfig d => exact ⟨(mxSetAudioConfig_head ht).2.resolve_left hmoved, .inr ⟨d, rfl⟩⟩
    | mxRemoveMapping src => exact absurd (mxRemoveMapping_head ht) hmoved
    | _ => exact absurd hi Bool.false_ne_true

/-! ### The starts of the blocks (R160, R163) -/

theorem lt_toInt_of_ne_invalidBits {x : DWord} (h : x ≠ invalidBits) : int64Min < x.toInt := by
  have hle : int64Min ≤ x.toInt := by simpa using BitVec.le_toInt x
  refine lt_of_le_of_ne hle fun he => h (BitVec.toInt_inj.mp ?_)
  rw [toInt_invalidBits, he]

/-- The start of the active sources is the buffer start of one of them. -/
theorem exists_muxStart (hactive : s.active ≠ []) :
    ∃ i, Active s i ∧ s.muxStart = (s.source i).bufferStart s.params := by
  have hne : s.active.map (fun i => (s.source i).bufferStart s.params) ≠ [] := by simpa using hactive
  obtain ⟨m, hm⟩ := Option.isSome_iff_exists.mp (List.isSome_min?_of_ne_nil hne)
  obtain ⟨i, hi, rfl⟩ := List.mem_map.mp (List.min?_eq_some_iff.mp hm).1
  exact ⟨i, mem_active_iff.mp hi, by rw [State.muxStart, hm]; rfl⟩

/-- The start of a block is a valid TimePoint, at or after a valid `head`. -/
theorem extractStart_valid (hrings : RingsOk s) (hactive : s.active ≠ []) :
    int64Min < s.extractStart ∧ (s.head ≠ invalidBits → s.head.toInt ≤ s.extractStart) := by
  rw [extractStart_eq]
  split
  · next hregress => exact ⟨lt_toInt_of_ne_invalidBits hregress.1, fun _ => le_rfl⟩
  · next hregress =>
    obtain ⟨i, ⟨hi, hopen, htotal⟩, hstart⟩ := exists_muxStart hactive
    obtain ⟨-, hring⟩ := openOk_of_sourceOpen hrings ((sourceOpen_iff s i).mpr ⟨hi, hopen⟩)
    rw [hstart] at hregress ⊢
    exact ⟨(bufferStart_valid hring htotal).1, fun hhead => not_lt.mp fun hlt => hregress ⟨hhead, hlt⟩⟩

/-- A successful MX_EXTRACT moves `head` from before its block to the end of it. -/
theorem mxExtract_moves_head (hrings : RingsOk s) (ht : exec .mxExtract s = .next t)
    (hcode : t.ports[s.serving].code = .ok) :
    t.head.toInt = t.ports[s.serving].res[0].toInt + framesToTicks s.params (s.arg 0) ∧
      (s.head ≠ invalidBits → s.head.toInt ≤ t.ports[s.serving].res[0].toInt) ∧ t.head ≠ invalidBits := by
  have hok := extractOk_of_code ht hcode
  obtain ⟨u, hu, hdone, -, -, -, -, hhead, -⟩ := mxExtract_succeeds (exec_mxExtract_of_ok hok)
  obtain rfl := Host.Outcome.next.inj (ht.symm.trans hu)
  obtain ⟨-, -, -, hactive, hstop, -⟩ := hok
  obtain ⟨hlow, hmonotone⟩ := extractStart_valid hrings hactive
  have hend : s.extractStop (s.arg 0) = s.extractStart + framesToTicks s.params (s.arg 0) := rfl
  have hstartBits : (timeBits s.extractStart).toInt = s.extractStart := toInt_timeBits hlow.le (by omega)
  have hstopBits : (timeBits (s.extractStop (s.arg 0))).toInt = s.extractStop (s.arg 0) :=
    toInt_timeBits (by omega) hstop
  rw [res0_of_completed hdone, hhead, hstartBits, hstopBits]
  refine ⟨hend, hmonotone, fun hinvalid => ?_⟩
  rw [hinvalid, toInt_invalidBits] at hstopBits
  omega

end

/-- Settles O39: the stop of a block lies at or after its start, and its start at or after `head`. -/
theorem blockStartsNeverRegress : Obligations.BlockStartsNeverRegress := by
  refine ⟨fun s t i hrings ht => ⟨?_, ?_, exec_moves_head ht⟩, fun s t p h hmoved => ?_⟩
  · rintro rfl hcode
    exact mxExtract_moves_head hrings ht hcode
  · rintro d rfl hcode
    exact (mxSetAudioConfig_head ht).1 hcode
  · exact (hostStep_mux_cases h).resolve_left fun hsame => hmoved hsame.1

/-! ### Where mappings end (R149) -/

section
variable {s t : State} {i : Instr}

theorem forwarded_sameMapping (s : State) (i : Nat) : SameMapping (s.source i) (s.forwarded.source i) := by
  unfold State.forwarded
  split
  · rw [forwardAll_source]
    split
    · exact forward_sameMapping _ _ _
    · exact .refl _
  · exact .refl _

theorem extracted_sameMapping (s : State) (i : Nat) : SameMapping (s.source i) ((extracted s).source i) := by
  obtain ⟨hopen, hnsub, hpcm, hslots⟩ := forwarded_sameMapping s i
  rw [extracted_source]
  split
  · exact ⟨hopen, hnsub, hpcm, hslots⟩
  · exact ⟨hopen, hnsub, hpcm, hslots⟩

theorem keepsMappings_of_raises {code : Code} (h : Raises s i code) (ht : exec i s = .next t) : KeepsMappings s t := by
  obtain ⟨u, hu, -, -, -, hsources, -⟩ := h
  obtain rfl := Host.Outcome.next.inj (ht.symm.trans hu)
  exact keepsMappings_of_sameSources hsources

theorem mxSetAudioConfig_keepsMappings {d : Bool} (ht : exec (.mxSetAudioConfig d) s = .next t) :
    KeepsMappings s t := by
  rcases checked_cases (mxSetAudioConfigOutcome.2 s d) with ⟨_, hraise⟩ | ⟨u, hu, -, -, hsources, -⟩
  · exact keepsMappings_of_raises hraise ht
  obtain rfl := Host.Outcome.next.inj (ht.symm.trans hu)
  exact keepsMappings_of_sameSources hsources

theorem mxExtract_keepsMappings (ht : exec .mxExtract s = .next t) : KeepsMappings s t := by
  obtain ⟨-, -, -, hkept⟩ := forwarded_frame s
  rcases exec_mxExtract_cases ht with hexec | ⟨-, -, hsame, -⟩ | ⟨-, -, ⟨hsources, howner⟩, -⟩
  · obtain ⟨u, hu, -, -, -, howner, -, -, -, hsource⟩ := mxExtract_succeeds hexec
    obtain rfl := Host.Outcome.next.inj (ht.symm.trans hu)
    refine ⟨fun i _ => ?_, fun k o ho => ?_⟩
    · rw [hsource]
      exact extracted_sameMapping s i
    · rwa [ownerAt_congr howner]
  · exact keepsMappings_of_sameSources hsame
  · exact ⟨fun i _ => source_congr hsources i ▸ forwarded_sameMapping s i,
      fun k o ho => by rwa [ownerAt_congr (howner.trans hkept)]⟩

/-- Removing one mapping keeps every other. -/
theorem mxRemoveMapping_keeps {removed src : Nat} (ht : exec (.mxRemoveMapping removed) s = .next t)
    (hne : src ≠ removed) : SameMapping (s.source src) (t.source src) ∧
      ∀ k o, s.ownerAt k = some o → o.source = src → t.ownerAt k = some o := by
  rcases checked_cases (mxRemoveMappingOutcome.2 s removed) with
    ⟨_, u, hu, -, -, -, ⟨hsources, howner⟩, -⟩ | ⟨u, hu, -, -, -, -, -, hothers, -, hslots⟩
  · obtain rfl := Host.Outcome.next.inj (ht.symm.trans hu)
    exact ⟨source_congr hsources src ▸ .refl _, fun k o ho _ => by rwa [ownerAt_congr howner]⟩
  · obtain rfl := Host.Outcome.next.inj (ht.symm.trans hu)
    refine ⟨hothers src hne ▸ .refl _, fun k o ho hsrc => ?_⟩
    rw [(hslots k).2 fun o' ho' => ?_, ho]
    obtain rfl := Option.some.inj (ho.symm.trans ho')
    exact fun h => hne (hsrc.symm.trans h)

/-- No command but its removal ends the mapping of an open source. -/
theorem exec_keepsMapping {src : Nat} (ht : exec i s = .next t) (hopen : (s.source src).isOpen = true)
    (hi : i ≠ .mxRemoveMapping src) : SameMapping (s.source src) (t.source src) ∧
      ∀ k o, s.ownerAt k = some o → o.source = src → t.ownerAt k = some o := by
  have hall : KeepsMappings s t → SameMapping (s.source src) (t.source src) ∧
      ∀ k o, s.ownerAt k = some o → o.source = src → t.ownerAt k = some o :=
    fun h => ⟨h.sources src hopen, fun k o ho _ => h.owner k o ho⟩
  cases hmoves : movesMux i with
  | false =>
    obtain ⟨u, hu, -, hkeeps⟩ := exec_keepsMux s hmoves
    obtain rfl := Host.Outcome.next.inj (ht.symm.trans hu)
    exact hall hkeeps
  | true =>
    cases i with
    | mxSetAudioConfig d => exact hall (mxSetAudioConfig_keepsMappings ht)
    | mxExtract => exact hall (mxExtract_keepsMappings ht)
    | mxRemoveMapping removed => exact mxRemoveMapping_keeps ht fun h => hi (h ▸ rfl)
    | _ => exact absurd hmoves Bool.false_ne_true

end

/-- Settles O40: the removal frees the slots of its own source alone, and a host's step reaches the sources by a reset
only. -/
theorem mappingsAreIrreversible : Obligations.MappingsAreIrreversible := by
  refine ⟨fun i s t src ht hopen hi => ?_, fun s t p h hchanged => ?_⟩
  · obtain ⟨hkept, howner⟩ := exec_keepsMapping ht hopen hi
    exact ⟨hkept.isOpen.trans hopen, hkept.nsub, hkept.pcm, hkept.slots, fun k ch hk => howner k _ hk rfl⟩
  · exact ((hostStep_mux_cases h).resolve_left fun hsame => hchanged hsame.2).2

end Sys2Proof.Proofs
end

section
/-! PROOFS. The words of an ancillary packet and the bytes of a caption packet, each by its place, the rate codes, and
what the parsers' tests say (43_ancillary.md rules R180 to R182, R191 to R193, R197, R199). -/

namespace Sys2Proof.Proofs

open Sys2Proof
open Sys2Proof.Machine
open Sys2Proof.Laws

/-! ### Rate codes (R192) -/

/-- A fraction reduces to `n / d`, which is in lowest terms, exactly where it equals it. -/
theorem reduced_eq_iff {num den n d : Nat} (hden : den ≠ 0) (hd : 0 < d) (hnd : n.Coprime d) :
    (num / num.gcd den, den / num.gcd den) = (n, d) ↔ num * d = n * den := by
  have hg : 0 < num.gcd den := Nat.gcd_pos_of_pos_right _ (Nat.pos_of_ne_zero hden)
  have hab := Nat.coprime_div_gcd_div_gcd hg
  have hnum := Nat.div_mul_cancel (Nat.gcd_dvd_left num den)
  have hden' := Nat.div_mul_cancel (Nat.gcd_dvd_right num den)
  generalize num.gcd den = g, num / num.gcd den = a, den / num.gcd den = b at *
  subst hnum hden'
  have hcross : a * g * d = n * (b * g) ↔ a * d = n * b := by
    rw [Nat.mul_right_comm, ← Nat.mul_assoc n, Nat.mul_left_inj hg.ne']
  rw [hcross, Prod.mk.injEq]
  constructor
  · rintro ⟨rfl, rfl⟩
    rfl
  · intro h
    have hbd : b = d := Nat.dvd_antisymm (hab.symm.dvd_of_dvd_mul_left ⟨n, by rw [h, Nat.mul_comm]⟩)
      (hnd.symm.dvd_of_dvd_mul_left ⟨a, by rw [← h, Nat.mul_comm]⟩)
    subst hbd
    exact ⟨Nat.eq_of_mul_eq_mul_right hd h, rfl⟩

theorem getD_lookup_cons (x k : Nat × Nat) (c : Nat) (l : List ((Nat × Nat) × Nat)) :
    (((k, c) :: l).lookup x).getD 1 = if x = k then c else (l.lookup x).getD 1 := by
  rw [List.lookup_cons]
  by_cases h : x = k
  · rw [if_pos h, beq_iff_eq.mpr h, Option.getD_some]
  · rw [if_neg h, beq_eq_false_iff_ne.mpr h]

/-- Settles O51: the table's rates are in lowest terms, so a rate reduces to one of them exactly where it equals it. -/
theorem rateCodes : Obligations.RateCodes := by
  intro num den
  unfold rateCode
  split
  · rfl
  · next hden =>
    simp (disch := decide) only [rateTable, getD_lookup_cons, reduced_eq_iff hden, List.lookup_nil,
      Option.getD_none, Nat.mul_one]

/-! ### The words of a packet (R180 to R182) -/

theorem popcount_eq_sum (v : Byte) : popcount v = ((List.range 8).map fun k => (v.getLsbD k).toNat).sum := by
  rw [popcount]
  induction List.range 8 with
  | nil => rfl
  | cons k l ih =>
    rw [List.countP_cons, ih, List.map_cons, List.sum_cons, Nat.add_comm]
    cases v.getLsbD k <;> rfl

theorem toNat_par (v : Byte) :
    (par v).toNat = v.toNat + popcount v % 2 * 256 + (1 - popcount v % 2) * 512 := by
  unfold par
  rw [toNat_append_byte]
  split
  · next h => rw [h]; simp; omega
  · next h => rw [Nat.mod_two_ne_one.mp h]; simp; omega

theorem toNat_checksum (ws : List Sample) :
    (checksum ws).toNat = wordSum ws + (1 - wordSum ws / 256 % 2) * 512 := by
  have hlt : wordSum ws < 512 := Nat.mod_lt _ (by decide)
  unfold checksum
  rw [BitVec.toNat_ofNat]
  split <;> omega

/-- The bytes that a packet carries between its header and its checksum, in order (R182). -/
def carriedBytes (did sdid : Byte) (b : List Byte) : List Byte := did :: sdid :: BitVec.ofNat 8 b.length :: b

section
variable (did sdid : Byte) (b : List Byte)

theorem packetBody_eq_map : packetBody did sdid b = (carriedBytes did sdid b).map par := rfl

/-- Words 3 to `5 + n` of a packet are those that its checksum covers. -/
theorem take_drop_build : ((build did sdid b).drop 3).take (3 + b.length) = packetBody did sdid b := by
  rw [← length_packetBody did sdid b]
  exact List.take_left

theorem getD_build_body {k : Nat} (hk : k < 3 + b.length) :
    (build did sdid b).getD (3 + k) 0#10 = par ((carriedBytes did sdid b).getD k 0#8) := by
  have hk' : k < (carriedBytes did sdid b).length := by
    simp only [carriedBytes, List.length_cons]
    omega
  have hbody : (build did sdid b).getD (3 + k) 0#10 = (packetBody did sdid b).getD k 0#10 := by
    rw [← length_packetBody did sdid b] at hk
    rw [build, List.append_assoc, List.getD_append_right _ _ _ _ (Nat.le_add_right 3 k), List.getD_append]
    · simp
    · simpa using hk
  rw [hbody, packetBody_eq_map]
  simp [List.getD, hk']

theorem getD_build_payload {j : Nat} (hj : j < b.length) :
    (build did sdid b).getD (6 + j) 0#10 = par (b.getD j 0#8) := by
  rw [show 6 + j = 3 + (3 + j) by omega, getD_build_body did sdid b (by omega), Nat.add_comm 3 j]
  rfl

theorem getD_build_checksum :
    (build did sdid b).getD (6 + b.length) 0#10 = checksum (packetBody did sdid b) := by
  have hlast : ([0x000#10, 0x3FF#10, 0x3FF#10] ++ packetBody did sdid b).length = 6 + b.length := by
    simp only [List.length_append, length_packetBody, List.length_cons, List.length_nil]
    omega
  rw [build, ← hlast, List.getD_append_right _ _ _ _ le_rfl, Nat.sub_self]
  rfl

end

/-- Settles O48: each word of a packet by its place. -/
theorem packetWords : Obligations.PacketWords := by
  refine ⟨fun v => ?_, toNat_checksum, fun did sdid b _ => ?_⟩
  · rw [toNat_par, popcount_eq_sum]
  · intro w
    have hbody : ∀ k < 3, w.getD (3 + k) 0#10 = par ((carriedBytes did sdid b).getD k 0#8) :=
      fun k hk => getD_build_body did sdid b (by omega)
    refine ⟨length_build did sdid b, rfl, ⟨hbody 0 (by decide), hbody 1 (by decide), hbody 2 (by decide)⟩,
      fun j hj => getD_build_payload did sdid b hj, ?_⟩
    rw [take_drop_build]
    exact getD_build_checksum did sdid b

end Sys2Proof.Proofs
end

section
/-! PROOFS. The commands that store a word array: each writes the words of its rule to the one block that its checks
cover, and no other byte of the data memory ends with another value (43_ancillary.md rules R184 to R187, R189, R194;
20_memory.md rule R73). -/

namespace Sys2Proof.Proofs

open Sys2Proof
open Sys2Proof.Config (Params)
open Sys2Proof.Machine
open Sys2Proof.Safety
open Sys2Proof.Laws

/-! ### The bytes of a word array (R62, R183) -/

theorem wordBytes_cons (w : Sample) (ws : List Sample) :
    wordBytes (w :: ws) = w.setWidth 8 :: (w >>> 8).setWidth 8 :: wordBytes ws := by
  have hlow : ((w.setWidth 16 : HalfWord).extractLsb' 0 8 : Byte) = w.setWidth 8 := by
    ext k hk
    simp [show k < 16 by omega]
  have hhigh : ((w.setWidth 16 : HalfWord).extractLsb' 8 8 : Byte) = (w >>> 8).setWidth 8 := by
    ext k hk
    simp [show 8 + k < 16 by omega]
  rw [← hlow, ← hhigh]
  rfl

/-- Word `j` lies in bytes `2j` and `2j + 1`, low byte first. -/
theorem getD_wordBytes (ws : List Sample) (j : Nat) :
    (wordBytes ws).getD (2 * j) 0#8 = (ws.getD j 0#10).setWidth 8 ∧
      (wordBytes ws).getD (2 * j + 1) 0#8 = (ws.getD j 0#10 >>> 8).setWidth 8 := by
  induction ws generalizing j with
  | nil => exact ⟨rfl, by simp [wordBytes]⟩
  | cons w ws ih =>
    rw [wordBytes_cons]
    cases j with
    | zero => exact ⟨rfl, rfl⟩
    | succ j => exact ih j

theorem emitted_eq (P : Params) (p : Bool) (ws : List Sample) :
    emitted P p ws = ws ++ List.replicate (if p then padCount ws.length else 0) P.padWord := by
  cases p with
  | false => exact (List.append_nil ws).symm
  | true => rfl

/-! ### What storing one run leaves (R73) -/

section
variable {s t : State} {i : Instr} {outputs : List Range} {base n : Nat} {bs : List Byte} {ws : List Sample}

/-- A command that stores the bytes `bs` at `base`, every one in an output range, leaves every other byte that is in
none of its raced ranges. -/
theorem storesBytes_of_dmem (hbuffers : HasBuffers s i outputs fun _ => True)
    (hdmem : t.dmem = (s.storeRuns i [(base, bs)]).dmem) :
    StoresBytes s t (RacedOutput s i outputs fun _ => True) base bs := by
  have hruns : Memory.writeRuns s.dmem [(base, bs)] = Memory.writeBytes s.dmem base bs := rfl
  refine ⟨fun hform => ⟨fun j hj => ?_, fun b hb => ?_⟩, fun b hb hraced => ?_⟩
  · refine storeRuns_endsAs hform hbuffers hdmem ?_
    rw [hruns, read_writeBytes_in hform (by omega), Nat.add_sub_cancel_left]
  · exact storeRuns_endsAs hform hbuffers hdmem (read_writeBytes_out s.dmem hb)
  · rw [hdmem, storeRuns_read_unraced, hruns, read_writeBytes_out _ hb]
    exact fun r hr => Bool.eq_false_iff.mpr fun hholds => hraced ((racedOutput_iff hbuffers b).mp ⟨r, hr, hholds⟩)

theorem storesWords_of_dmem (hbuffers : HasBuffers s i [⟨base, 2 * ws.length⟩] fun _ => True)
    (hdmem : t.dmem = (s.storeRuns i [(base, wordBytes ws)]).dmem) : StoresWords s t i base ws := by
  obtain ⟨hstored, hout⟩ := storesBytes_of_dmem hbuffers hdmem
  rw [length_wordBytes] at hstored hout
  refine ⟨fun hform j hj => ?_, fun b hb => hout b hb ?_⟩
  · obtain ⟨hbytes, -⟩ := hstored hform
    obtain ⟨hlow, hhigh⟩ := getD_wordBytes ws j
    have hfirst := hbytes (2 * j) (by omega)
    have hsecond := hbytes (2 * j + 1) (by omega)
    rw [hlow] at hfirst
    rw [hhigh] at hsecond
    exact ⟨hfirst, hsecond⟩
  · rintro ⟨r, hr, hholds, -⟩
    obtain rfl := List.mem_singleton.mp hr
    exact hb ((holds_iff _ b).mp hholds)

/-- The buffers of a command that writes one block, whatever it finds. -/
theorem hasBuffers_of_block {fits : Bool} (hfits : fits = true)
    (hreads : ∀ x, Covered (commandReads s.params s.args i) x ↔ fits = true ∧ InputOf s i x)
    (hwrites : ∀ e, commandWrites s.params s.args e i = buffersIf fits [whole base n]) :
    HasBuffers s i [⟨base, n⟩] fun _ => True := by
  have hmem : ∀ y, y ∈ (s.buffers i).writes ↔ y = whole base n := by
    intro y
    rw [mem_buffers_writes, hwrites, hwrites, or_self, mem_buffersIf, List.mem_singleton]
    exact and_iff_right hfits
  constructor
  case reads => exact fun x => (hreads x).trans (and_iff_right hfits)
  case ranges =>
    intro r
    simp only [hmem, exists_eq_left, List.mem_singleton, eq_comm, whole]
  case writes =>
    intro r hr x hx
    obtain rfl := List.mem_singleton.mp hr
    simp only [hmem, exists_eq_left, whole_covers]
    exact iff_true_intro ((holds_iff _ x).mp hx)

/-- A command that past its checks only stores words, in the one block that they cover. -/
theorem succeeds_of_words {fits : Bool} {m : Memory} {r0 r1 r2 r3 : DWord} (hends : Ends s (fits = true) m (exec i s))
    (hreads : ∀ x, Covered (commandReads s.params s.args i) x ↔ fits = true ∧ InputOf s i x)
    (hwrites : ∀ e, commandWrites s.params s.args e i = buffersIf fits [whole base n]) (hn : n = 2 * ws.length)
    (hexec : exec i s = (s.storeRuns i [(base, wordBytes ws)]).finish r0 r1 r2 r3) :
    Succeeds s i r0 r1 r2 r3 fun t =>
      SameConfig s t ∧ SameSources s t ∧ SameHead s t ∧ StoresWords s t i base ws := by
  subst hn
  obtain ⟨t, ht, hdone, hout, hconfig, hsources, hhead, hdmem⟩ :=
    finish_storeRuns_spec s i [(base, wordBytes ws)] r0 r1 r2 r3
  have hfits := hends.ok_iff.mp ⟨t, hexec.trans ht, code_of_completed hdone⟩
  exact ⟨t, hexec.trans ht, hdone, hout, hconfig, hsources, hhead,
    storesWords_of_dmem (hasBuffers_of_block hfits hreads hwrites) hdmem⟩

/-- A command that past its checks only stores a packet, padded where `p` is set, and reports its lengths and its
checksum (R184). -/
theorem succeeds_of_packet {fits p : Bool} {m : Memory} {did sdid : Byte} (hb : bs.length = n)
    (hends : Ends s (fits = true) m (exec i s))
    (hreads : ∀ x, Covered (commandReads s.params s.args i) x ↔ fits = true ∧ InputOf s i x)
    (hwrites : ∀ e, commandWrites s.params s.args e i = buffersIf fits [whole base (2 * emittedCount p (7 + n))])
    (hexec : exec i s = (s.storeRuns i [(base, wordBytes (emitted s.params p (build did sdid bs)))]).finish
      (countBits (emittedCount p (7 + n))) (countBits (7 + n)) (wordResult (checksum (packetBody did sdid bs))) 0#64) :
    Succeeds s i (countBits (emittedCount p (7 + n))) (countBits (7 + n))
      (((build did sdid bs).getD (6 + n) 0#10).setWidth 64) 0#64 fun t =>
      SameConfig s t ∧ SameSources s t ∧ SameHead s t ∧ StoresWords s t i base
        (build did sdid bs ++ List.replicate (if p then padCount (7 + n) else 0) s.params.padWord) := by
  subst hb
  have hstored := succeeds_of_words hends hreads hwrites (by rw [length_emitted, length_build]) hexec
  rw [← getD_build_checksum, emitted_eq, length_build] at hstored
  exact hstored

end

/-! ### The checks of two ranges and of two counts -/

theorem not_inRange_and_iff {P : Params} {a n b m : Nat} :
    (!(inRange P a n && inRange P b m)) = true ↔ OutOfRange P a n ∨ OutOfRange P b m := by
  rw [Bool.not_and, Bool.or_eq_true, not_inRange_iff, not_inRange_iff]

theorem not_isCount_and_iff {m n : Nat} : (!(isCount m && isCount n)) = true ↔ u32Max < m ∨ u32Max < n := by
  rw [Bool.not_and, Bool.or_eq_true, not_isCount_iff, not_isCount_iff]

/-- A test of two ranges, which a statement writes as two checks. -/
theorem checked_ranges {s : State} {i : Instr} {a n b m : Nat} {code : Code} {rest : List (Prop × Code)} {ok : Prop}
    {o : Host.Outcome State Fault Refusal}
    (hexec : exec i s = if !(inRange s.params a n && inRange s.params b m) then s.raise code else o)
    (h : exec i s = o → Checked s i rest ok) :
    Checked s i ((OutOfRange s.params a n, code) :: (OutOfRange s.params b m, code) :: rest) ok :=
  checked_part hexec (fun h => not_inRange_and_iff.mpr (.inl h)) fun hfirst =>
    checked_cons hexec (not_inRange_and_iff.trans (or_iff_right hfirst)) fun _ => h

/-! ### The statements -/

/-- Settles O42: past its checks the rule stores the padded packet, and reports its lengths and its checksum. -/
theorem ancData10Outcome : Obligations.AncData10Outcome := by
  refine ⟨fun p => decode_encode (i := .ancData10 p) rfl, fun s p => ?_⟩
  intro n pad ws
  refine checked_cons rfl Iff.rfl fun _ hexec => checked_cons hexec Iff.rfl fun _ hexec =>
    checked_ranges hexec fun hexec => ?_
  exact succeeds_of_packet (length_readBytes s (s.arg 2) n) (execAncData10_ends s p) (fun _ => covered_block)
    (fun _ => rfl) hexec

/-- Settles O43: past its checks the rule stores the fillers after the array. -/
theorem ancPadOutcome : Obligations.AncPadOutcome := by
  refine ⟨decode_encode (i := .ancPad) rfl, fun s => ⟨(padCount_spec (s.arg 1)).1, ?_⟩⟩
  refine checked_cons rfl not_isCount_iff fun _ hexec => checked_cons hexec not_inRange_iff fun _ hexec => ?_
  exact succeeds_of_words (n := 2 * padCount (s.arg 1)) (execAncPad_ends s)
    (fun _ => iff_of_false not_covered_nil And.right) (fun _ => rfl) (by simp [padCount]) hexec

/-- The AFD code and the aspect bit lie apart in the first byte of the body (R188). -/
theorem afdBody_eq {a r : Nat} (ha : a ≤ 15) (hr : r ≤ 1) : afdBody a r =
    [(BitVec.ofNat 8 a <<< 3) ||| (BitVec.ofNat 8 r <<< 2), 0#8, 0#8, 0#8, 0#8, 0#8, 0#8, 0#8] := by
  have hfirst : ∀ a < 16, ∀ r < 2,
      BitVec.ofNat 8 (a * 8 + r * 4) = (BitVec.ofNat 8 a <<< 3) ||| (BitVec.ofNat 8 r <<< 2) := by decide
  rw [afdBody, hfirst a (by omega) r (by omega)]

/-- Settles O44: past its checks the rule stores the padded packet of the AFD body. -/
theorem ancAfdOutcome : Obligations.AncAfdOutcome := by
  refine ⟨fun p => decode_encode (i := .ancAfd p) rfl, fun s p => ?_⟩
  intro pad ws
  refine checked_cons rfl Iff.rfl fun hargs hexec => checked_cons hexec not_inRange_iff fun _ hexec => ?_
  have hstored := succeeds_of_packet (n := 8) rfl (execAncAfd_ends s p)
    (fun _ => iff_of_false not_covered_nil And.right) (fun _ => rfl) hexec
  rw [afdBody_eq (by omega) (by omega)] at hstored
  exact hstored

/-- Settles O45: past its checks the rule stores the padded packet of the CDP and counts up. -/
theorem ancCaptionsOutcome : Obligations.AncCaptionsOutcome := by
  refine ⟨fun p => decode_encode (i := .ancCaptions p) rfl, fun s p => ?_⟩
  intro q n pad rc ws
  refine checked_cons rfl not_isCount_and_iff fun _ hexec => checked_cons hexec Iff.rfl fun _ hexec =>
    checked_ranges hexec fun hexec => ?_
  have hpacket : (build Config.captionDid Config.captionSdid s.captionCdp).length = 7 + n := by
    rw [length_build, State.captionCdp, length_cdp, length_readBytes]
  have hwords : s.captionWords p = ws ++ List.replicate pad s.params.padWord := by
    rw [State.captionWords, emitted_eq, hpacket]
    rfl
  have hlen : (s.captionWords p).length = emittedCount p (7 + n) := by
    rw [State.captionWords, length_emitted, hpacket]
  have hdone := complete_completed_of_ports (s := s)
    (u := { s.storeRuns (.ancCaptions p) [(s.arg 4, wordBytes (s.captionWords p))] with
      cdpCounter := s.cdpCounter + 1#16 }) rfl rfl .ok (countBits (emittedCount p (7 + n)))
    (s.cdpCounter.setWidth 64) (countBits rc) (countBits n)
  have hfits := (execAncCaptions_ends s p).ok_iff.mp ⟨_, hexec, code_of_completed hdone⟩
  refine ⟨_, hexec, hdone, ⟨rfl, rfl, rfl, rfl, rfl⟩, ⟨rfl, rfl⟩, ⟨rfl, rfl⟩, rfl, BitVec.toNat_add _ _, ?_⟩
  rw [← hwords]
  refine storesWords_of_dmem (hasBuffers_of_block hfits (fun _ => covered_block) fun _ => ?_) rfl
  rw [hlen]
  rfl

end Sys2Proof.Proofs
end

section
/-! PROOFS. The parsers: their tests are those of their rules, a packet or a CDP that the block builds passes them, and
the parsers report and store what they find (43_ancillary.md rules R195 to R197, R199; 20_memory.md rule R73). -/

namespace Sys2Proof.Proofs

open Sys2Proof
open Sys2Proof.Machine
open Sys2Proof.Safety
open Sys2Proof.Laws

/-! ### The tests (R197, R199) -/

theorem parityOk_iff (w : HalfWord) :
    parityOk w = true ↔ w >>> 10 = 0#16 ∧ w = (par (w.setWidth 8)).setWidth 16 := by
  rw [parityOk, decide_eq_true_iff]
  refine ⟨fun h => ⟨?_, h⟩, And.right⟩
  rw [h]
  ext k hk
  simp

/-- ANC_PARSE finds `n` payload bytes exactly where LEN is `n` and every test of the rule passes. -/
theorem ancCheck_eq_some {w : Nat → HalfWord} {m n : Nat} :
    ancCheck w m = some n ↔ n = (w 5).toNat % 256 ∧ PacketOk w m n := by
  have hparity : ((List.range (3 + n)).all fun j => parityOk (w (3 + j))) = true ↔ ∀ j, 3 ≤ j → j ≤ 5 + n →
      w j >>> 10 = 0#16 ∧ w j = (par ((w j).setWidth 8)).setWidth 16 := by
    simp only [List.all_eq_true, List.mem_range, parityOk_iff]
    constructor
    · intro h j hlow hhigh
      obtain ⟨k, rfl⟩ := Nat.exists_eq_add_of_le hlow
      exact h k (by omega)
    · exact fun h k hk => h (3 + k) (by omega) (by omega)
  rw [PacketOk, ← hparity]
  simp only [ancCheck, Option.ite_none_left_eq_some, Option.some.injEq, BitVec.toNat_setWidth]
  constructor
  · rintro ⟨hm, hheader, hlen, hall, hsum, rfl⟩
    refine ⟨rfl, by omega, by simpa [and_assoc] using hheader, by omega, by simpa using hall, not_not.mp hsum⟩
  · rintro ⟨rfl, hm, hheader, hlen, hall, hsum⟩
    exact ⟨by omega, by simpa [and_assoc] using hheader, by omega, by simpa using hall, not_not.mpr hsum, rfl⟩

/-- The rate code of a CDP is the high half of its byte 3 (R191). -/
theorem toNat_rateNibble (v : Byte) : (v.extractLsb' 4 4).toNat = v.toNat / 16 := by
  rw [BitVec.extractLsb'_toNat, Nat.shiftRight_eq_div_pow]
  omega

/-- CDP_PARSE finds `q` triplets exactly where its count byte says `q` and every test of the rule passes. -/
theorem cdpCheck_eq_some {b : Nat → Byte} {m q : Nat} :
    cdpCheck b m = some q ↔ q = (b 8).toNat % 32 ∧ CdpOk b m q := by
  have hcount : ((b 8).extractLsb' 0 5).toNat = (b 8).toNat % 32 := by simp
  simp only [cdpCheck, Option.ite_none_left_eq_some, Option.some.injEq, hcount, toNat_rateNibble, CdpOk, byteSum,
    List.map_map, Function.comp_def]
  constructor
  · rintro ⟨hm, hheader, hlen, hmarker, hrc, hsection, hsize, hfooter, hcounter, hsum, rfl⟩
    refine ⟨rfl, by omega, by simpa using hheader, by omega, not_not.mp hmarker, by omega, by simpa using hsection,
      not_not.mp hsize, not_not.mp hfooter, by simpa using hcounter, not_not.mp hsum⟩
  · rintro ⟨rfl, hm, hheader, hlen, hmarker, hrc, hsection, hsize, hfooter, hcounter, hsum⟩
    exact ⟨by omega, by simpa using hheader, by omega, not_not.mpr hmarker, by omega, by simpa using hsection,
      not_not.mpr hsize, not_not.mpr hfooter, by simpa using hcounter, not_not.mpr hsum, rfl⟩

/-! ### What a parser writes (R73) -/

section
variable {s : State} {i : Instr}

/-- A parser whose input its checks let it read writes, at `dst`, the blocks of the sizes that it finds and that fit. -/
theorem hasBuffers_of_parser {dst : Nat} {size : Extent → Nat}
    (hreads : ∀ x, Covered (commandReads s.params s.args i) x ↔ InputOf s i x)
    (hwrites : ∀ e, commandWrites s.params s.args e i =
      buffersIf (inRange s.params dst (size e)) [whole dst (size e)]) :
    HasBuffers s i ((((s.findings i).map size).filter (inRange s.params dst)).map fun n => ⟨dst, n⟩)
      fun _ => True := by
  have hmem : ∀ y, y ∈ (s.buffers i).writes ↔
      ∃ e ∈ s.findings i, inRange s.params dst (size e) = true ∧ y = whole dst (size e) := by
    intro y
    refine mem_buffersOf_writes.trans ?_
    simp only [hwrites, mem_buffersIf, List.mem_singleton]
  have houtput : ∀ r : Range, r ∈ (((s.findings i).map size).filter (inRange s.params dst)).map
      (fun n => (⟨dst, n⟩ : Range)) ↔ ∃ y ∈ (s.buffers i).writes, y.range = r := by
    intro r
    simp only [hmem, List.mem_map, List.mem_filter]
    constructor
    · rintro ⟨_, ⟨⟨e, he, rfl⟩, hfits⟩, rfl⟩
      exact ⟨_, ⟨e, he, hfits, rfl⟩, rfl⟩
    · rintro ⟨_, ⟨e, he, hfits, rfl⟩, rfl⟩
      exact ⟨_, ⟨⟨e, he, rfl⟩, hfits⟩, rfl⟩
  refine ⟨hreads, houtput, fun r hr x hx => iff_true_intro ?_⟩
  obtain ⟨y, hy, rfl⟩ := (houtput r).mp hr
  obtain ⟨e, -, -, rfl⟩ := (hmem y).mp hy
  exact ⟨_, hy, (whole_covers dst (size e) x).mpr ((whole_holds dst (size e) x).mp hx)⟩

theorem ancParse_hasBuffers (hfits : (isCount (s.arg 1) && inRange s.params (s.arg 0) (2 * s.arg 1)) = true) :
    HasBuffers s .ancParse ((((s.findings .ancParse).map Extent.payload).filter
      (inRange s.params (s.arg 2))).map fun n => ⟨s.arg 2, n⟩) fun _ => True := by
  refine hasBuffers_of_parser (fun _ => covered_block.trans (and_iff_right hfits)) fun e => ?_
  show buffersIf (isCount (s.arg 1) && inRange s.params (s.arg 0) (2 * s.arg 1) && _) _ = _
  rw [hfits, Bool.true_and]
  rfl

theorem cdpParse_hasBuffers (hfits : (isCount (s.arg 1) && inRange s.params (s.arg 0) (s.arg 1)) = true) :
    HasBuffers s .cdpParse ((((s.findings .cdpParse).map Extent.triplets).filter
      (inRange s.params (s.arg 2))).map fun n => ⟨s.arg 2, n⟩) fun _ => True := by
  refine hasBuffers_of_parser (fun _ => covered_block.trans (and_iff_right hfits)) fun e => ?_
  show buffersIf (isCount (s.arg 1) && inRange s.params (s.arg 0) (s.arg 1) && _) _ = _
  rw [hfits, Bool.true_and]
  rfl

/-- The check of a parser that fails where it finds nothing. -/
theorem checked_found {found : Option Nat} {n : Nat} {good : Nat → Prop} {ok : Prop} {code : Code}
    {rest : List (Prop × Code)} {o : Nat → Host.Outcome State Fault Refusal}
    (hexec : exec i s = found.elim (s.raise code) o) (hfound : ∀ k, found = some k ↔ k = n ∧ good k)
    (h : exec i s = o n → Checked s i rest ok) : Checked s i ((¬ good n, code) :: rest) ok := by
  refine ⟨fun hbad => ?_, fun hgood => ?_⟩
  · have hnone : found = none := by
      refine Option.eq_none_iff_forall_ne_some.mpr fun k hk => ?_
      obtain ⟨rfl, hgood⟩ := (hfound k).mp hk
      exact hbad hgood
    rw [hnone] at hexec
    exact raises_of_exec hexec
  · rw [(hfound n).mpr ⟨rfl, not_not.mp hgood⟩] at hexec
    exact h hexec

end

theorem toNat_lowByte (w : HalfWord) : (lowByte w).toNat = w.toNat % 256 := BitVec.toNat_setWidth 8 w

theorem setWidth_eq_countBits {n : Nat} (v : BitVec n) : v.setWidth 64 = countBits v.toNat := by
  rw [countBits, BitVec.ofNat_toNat]

/-- Settles O46: the model's tests are the rule's, and a packet that passes them is delivered. -/
theorem ancParseOutcome : Obligations.AncParseOutcome := by
  refine ⟨decode_encode (i := .ancParse) rfl, fun s => ?_⟩
  intro m w n
  refine checked_cons (execAncParse_eq s) not_isCount_iff fun hcount hexec =>
    checked_cons hexec not_inRange_iff fun hinput hexec =>
    checked_found (good := PacketOk w m) hexec (fun _ => ancCheck_eq_some) fun hexec =>
    checked_cons hexec not_inRange_iff fun _ hexec => ?_
  obtain ⟨t, ht, hdone, hout, hconfig, hsources, hhead, hdmem⟩ := finish_storeRuns_spec s .ancParse
    [(s.arg 2, (List.range n).map fun j => lowByte (w (6 + j)))] ((lowByte (w 3)).setWidth 64)
    ((lowByte (w 4)).setWidth 64) (countBits n) (countBits (7 + n))
  rw [setWidth_eq_countBits, setWidth_eq_countBits, toNat_lowByte, toNat_lowByte] at hdone
  refine ⟨t, hexec.trans ht, hdone, hout, hconfig, hsources, hhead, ?_⟩
  refine storesBytes_of_dmem (ancParse_hasBuffers ?_) hdmem
  simpa using And.intro (mt not_isCount_iff.mp hcount) (mt not_inRange_iff.mp hinput)

/-- Settles O47: the model's tests are the rule's, and a CDP that passes them is delivered. -/
theorem cdpParseOutcome : Obligations.CdpParseOutcome := by
  refine ⟨decode_encode (i := .cdpParse) rfl, fun s => ?_⟩
  intro m b q
  refine checked_cons (execCdpParse_eq s) not_isCount_iff fun hcount hexec =>
    checked_cons hexec not_inRange_iff fun hinput hexec =>
    checked_found (good := CdpOk b m) hexec (fun _ => cdpCheck_eq_some) fun hexec =>
    checked_cons hexec not_inRange_iff fun _ hexec => ?_
  obtain ⟨t, ht, hdone, hout, hconfig, hsources, hhead, hdmem⟩ := finish_storeRuns_spec s .cdpParse
    [(s.arg 2, (List.range (3 * q)).map fun j => b (9 + j))] (countBits q) ((b 5 ++ b 6 : HalfWord).setWidth 64)
    (countBits ((b 3).extractLsb' 4 4).toNat) 0#64
  rw [setWidth_eq_countBits, toNat_append_byte, toNat_rateNibble] at hdone
  refine ⟨t, hexec.trans ht, hdone, hout, hconfig, hsources, hhead, ?_⟩
  refine storesBytes_of_dmem (cdpParse_hasBuffers ?_) hdmem
  simpa using And.intro (mt not_isCount_iff.mp hcount) (mt not_inRange_iff.mp hinput)

/-! ### What the block builds passes the tests (R195, R196) -/

/-- A command none of whose checks fails does what its rule says. -/
theorem ok_of_checks_pass {s : State} {i : Instr} {checks : List (Prop × Code)} {ok : Prop}
    (h : Checked s i checks ok) (hpass : checks.Forall fun check => ¬ check.1) : ok := by
  induction checks with
  | nil => exact h
  | cons check rest ih =>
    obtain ⟨hfirst, hrest⟩ := (List.forall_cons _ _ _).mp hpass
    exact ih (h.2 hfirst) hrest

theorem map_range_eq {α : Type} {f : Nat → α} {l : List α} {d : α} {n : Nat} (hn : l.length = n)
    (h : ∀ j < n, f j = l.getD j d) : (List.range n).map f = l := by
  subst hn
  refine List.ext_getElem (by simp) fun j _ hj => ?_
  rw [List.getElem_map, List.getElem_range, h j hj, List.getD_eq_getElem l d hj]

section
variable {did sdid : Byte} {b : List Byte} {w : Nat → HalfWord} {m : Nat}

/-- The words of a packet that the block builds lie in the array. -/
def HoldsPacket (w : Nat → HalfWord) (did sdid : Byte) (b : List Byte) : Prop :=
  ∀ j < 7 + b.length, w j = ((build did sdid b).getD j 0#10).setWidth 16

theorem HoldsPacket.body (h : HoldsPacket w did sdid b) {k : Nat} (hk : k < 3 + b.length) :
    w (3 + k) = (par ((carriedBytes did sdid b).getD k 0#8)).setWidth 16 := by
  rw [h (3 + k) (by omega), getD_build_body did sdid b hk]

theorem HoldsPacket.lowByte (h : HoldsPacket w did sdid b) {k : Nat} (hk : k < 3 + b.length) :
    (w (3 + k)).setWidth 8 = (carriedBytes did sdid b).getD k 0#8 := by
  rw [h.body hk, setWidth_par]

theorem HoldsPacket.payload (h : HoldsPacket w did sdid b) :
    ((List.range b.length).map fun j => (w (6 + j)).setWidth 8) = b := by
  refine map_range_eq (d := 0#8) rfl fun j hj => ?_
  rw [show 6 + j = 3 + (3 + j) by omega, h.lowByte (by omega), Nat.add_comm 3 j]
  rfl

theorem HoldsPacket.packetOk (h : HoldsPacket w did sdid b) (hm : 7 + b.length ≤ m) : PacketOk w m b.length := by
  have hheader : ∀ j < 3, w j = (([0x000#10, 0x3FF#10, 0x3FF#10] : List Sample).getD j 0#10).setWidth 16 := by
    intro j hj
    rw [h j (by omega), build, List.append_assoc, List.getD_append _ _ _ _ hj]
  have hparity : ∀ k < 3 + b.length, parityOk (w (3 + k)) = true := by
    intro k hk
    rw [parityOk, decide_eq_true_iff, h.lowByte hk, h.body hk]
  have hbody : ((List.range (3 + b.length)).map fun j => (w (3 + j)).setWidth 10) = packetBody did sdid b := by
    refine map_range_eq (d := par 0#8) (length_packetBody did sdid b) fun k hk => ?_
    rw [h.body hk, packetBody_eq_map, List.getD_map]
    exact BitVec.setWidth_setWidth_of_le _ (by decide)
  refine ⟨by omega, ⟨hheader 0 (by decide), hheader 1 (by decide), hheader 2 (by decide)⟩, hm, fun j hlow hhigh => ?_,
    ?_⟩
  · obtain ⟨k, rfl⟩ := Nat.exists_eq_add_of_le hlow
    exact (parityOk_iff _).mp (hparity k (by omega))
  · rw [hbody, h (6 + b.length) (by omega), getD_build_checksum]

end

/-- Settles O49: a packet that the block builds passes the tests, and is what ANC_PARSE delivers. -/
theorem builtPacketsParse : Obligations.BuiltPacketsParse := by
  intro s did sdid b hb hwords hlen hcount hinput houtput
  have hpacket : HoldsPacket (fun j => s.read16 (s.arg 0 + 2 * j)) did sdid b := hwords
  have hbyte : ∀ k < 3 + b.length, (s.read16 (s.arg 0 + 2 * (3 + k))).toNat % 256 =
      ((carriedBytes did sdid b).getD k 0#8).toNat := by
    intro k hk
    rw [← toNat_lowByte]
    exact congrArg BitVec.toNat (hpacket.lowByte hk)
  have hn : (s.read16 (s.arg 0 + 2 * 5)).toNat % 256 = b.length := by
    rw [hbyte 2 (by omega)]
    exact Nat.mod_eq_of_lt (by omega)
  obtain ⟨-, hchecked⟩ := ancParseOutcome
  specialize hchecked s
  dsimp only at hchecked
  rw [hn] at hchecked
  obtain ⟨t, ht, hdone, hout, -, -, -, hstores⟩ := ok_of_checks_pass hchecked
    ⟨not_lt.mpr hcount, hinput, not_not.mpr (hpacket.packetOk hlen), houtput⟩
  rw [hbyte 0 (by omega), hbyte 1 (by omega), ← setWidth_eq_countBits, ← setWidth_eq_countBits] at hdone
  rw [hpacket.payload] at hstores
  exact ⟨t, ht, hdone, hout, hstores⟩

/-- The bytes of a CDP before its triplets (R191). -/
def cdpHeader (rc q : Nat) (c : BitVec 16) : List Byte :=
  [0x96#8, 0x69#8, BitVec.ofNat 8 (13 + 3 * q), BitVec.ofNat 8 (16 * rc + 15), 0x43#8, BitVec.ofNat 8 (c.toNat / 256),
    BitVec.ofNat 8 c.toNat, 0x72#8, BitVec.ofNat 8 (0xE0 + q)]

/-- The bytes of a CDP after its triplets, with the checksum `k` (R191, R193). -/
def cdpFooter (c : BitVec 16) (k : Byte) : List Byte :=
  [0x74#8, BitVec.ofNat 8 (c.toNat / 256), BitVec.ofNat 8 c.toNat, k]

section
variable {rc q m : Nat} {c : BitVec 16} {t : List Byte} {b : Nat → Byte}

theorem cdp_eq (ht : t.length = 3 * q) :
    cdp rc c t = cdpHeader rc q c ++ t ++ cdpFooter c (cdpChecksum (cdpBody rc c t)) := by
  have hhigh : c.extractLsb' 8 8 = BitVec.ofNat 8 (c.toNat / 256) :=
    congrArg (BitVec.ofNat 8) (Nat.shiftRight_eq_div_pow c.toNat 8)
  have hlow : c.extractLsb' 0 8 = BitVec.ofNat 8 c.toNat := rfl
  have hq : t.length / 3 = q := by omega
  rw [cdp]
  generalize cdpChecksum (cdpBody rc c t) = k
  rw [cdpBody, hhigh, hlow, hq, ht, Nat.mul_comm rc, List.append_assoc]
  rfl

/-- The bytes of a CDP lie in the array. -/
def HoldsCdp (b : Nat → Byte) (rc : Nat) (c : BitVec 16) (t : List Byte) : Prop :=
  ∀ j < 13 + t.length, b j = (cdp rc c t).getD j 0#8

theorem HoldsCdp.header (h : HoldsCdp b rc c t) (ht : t.length = 3 * q) {j : Nat} (hj : j < 9) :
    b j = (cdpHeader rc q c).getD j 0#8 := by
  rw [h j (by omega), cdp_eq ht, List.append_assoc, List.getD_append _ _ _ _ hj]

theorem HoldsCdp.triplet (h : HoldsCdp b rc c t) (ht : t.length = 3 * q) {j : Nat} (hj : j < 3 * q) :
    b (9 + j) = t.getD j 0#8 := by
  have hheader : (cdpHeader rc q c).length = 9 := rfl
  rw [h (9 + j) (by omega), cdp_eq ht, List.append_assoc, List.getD_append_right _ _ _ _ (by omega), hheader,
    Nat.add_sub_cancel_left, List.getD_append _ _ _ _ (by omega)]

theorem HoldsCdp.footer (h : HoldsCdp b rc c t) (ht : t.length = 3 * q) {j : Nat} (hj : j < 4) :
    b (9 + j + 3 * q) = (cdpFooter c (cdpChecksum (cdpBody rc c t))).getD j 0#8 := by
  have hfront : (cdpHeader rc q c ++ t).length = 9 + 3 * q := by rw [List.length_append, ht]; rfl
  rw [h (9 + j + 3 * q) (by omega), cdp_eq ht, List.getD_append_right _ _ _ _ (by omega), hfront]
  congr 1
  omega

theorem HoldsCdp.triplets (h : HoldsCdp b rc c t) (ht : t.length = 3 * q) :
    ((List.range (3 * q)).map fun j => b (9 + j)) = t :=
  map_range_eq ht fun _ hj => h.triplet ht hj

theorem HoldsCdp.cdpOk (h : HoldsCdp b rc c t) (ht : t.length = 3 * q) (hrc : 1 ≤ rc ∧ rc ≤ 8) (hq : q ≤ 31)
    (hm : 13 + 3 * q ≤ m) : CdpOk b m q := by
  have hrate : ∀ rc < 9, BitVec.ofNat 8 (16 * rc + 15) &&& 0x0F#8 = 0x0F#8 ∧
      (BitVec.ofNat 8 (16 * rc + 15)).toNat / 16 = rc := by decide
  have hcount : ∀ q < 32, BitVec.ofNat 8 (0xE0 + q) &&& 0xE0#8 = 0xE0#8 := by decide
  have hlen : (b 2).toNat = 13 + 3 * q := by
    rw [h.header ht (show 2 < 9 by decide)]
    exact Nat.mod_eq_of_lt (by omega)
  have hbytes : ((List.range (13 + 3 * q)).map fun j => (b j).toNat) = (cdp rc c t).map BitVec.toNat := by
    rw [← map_range_eq (f := b) (l := cdp rc c t) (length_cdp rc c t) h, ht, List.map_map]
    rfl
  obtain ⟨hmarker, hcode⟩ := hrate rc (by omega)
  have hbyte3 : b 3 = BitVec.ofNat 8 (16 * rc + 15) := h.header ht (by decide)
  have hbyte8 : b 8 = BitVec.ofNat 8 (0xE0 + q) := h.header ht (by decide)
  have hbyte5 : b 5 = BitVec.ofNat 8 (c.toNat / 256) := h.header ht (by decide)
  have hbyte6 : b 6 = BitVec.ofNat 8 c.toNat := h.header ht (by decide)
  rw [CdpOk, hlen, hbyte3, hbyte8, hbyte5, hbyte6, hmarker, hcode, hcount q (by omega), hbytes]
  exact ⟨by omega, ⟨h.header ht (j := 0) (by decide), h.header ht (j := 1) (by decide)⟩, ⟨by omega, hm⟩, rfl, hrc,
    ⟨h.header ht (j := 7) (by decide), rfl⟩, rfl, h.footer ht (j := 0) (by decide),
    ⟨h.footer ht (j := 1) (by decide), h.footer ht (j := 2) (by decide)⟩, byteSum_cdp rc c t⟩

end

/-- Settles O50: the checksum makes the sum zero; a CDP that the block builds passes the tests, and is what CDP_PARSE
delivers. -/
theorem builtCdpsParse : Obligations.BuiltCdpsParse := by
  intro rc q c t hlow hhigh hq ht
  refine ⟨⟨_, cdp_eq ht⟩, byteSum_cdp rc c t, fun s hbytes hlen hcount hinput houtput => ?_⟩
  have hcdp : HoldsCdp (fun j => s.readByte (s.arg 0 + j)) rc c t := by
    rw [HoldsCdp, ht]
    exact hbytes
  have hok := hcdp.cdpOk ht ⟨hlow, hhigh⟩ hq hlen
  have hn : (s.readByte (s.arg 0 + 8)).toNat % 32 = q := by
    rw [hcdp.header ht (j := 8) (by decide)]
    show (0xE0 + q) % 256 % 32 = q
    omega
  have hcounter : (s.readByte (s.arg 0 + 5)).toNat * 256 + (s.readByte (s.arg 0 + 6)).toNat = c.toNat := by
    rw [hcdp.header ht (j := 5) (by decide), hcdp.header ht (j := 6) (by decide)]
    show c.toNat / 256 % 256 * 256 + c.toNat % 256 = c.toNat
    omega
  have hrate : (s.readByte (s.arg 0 + 3)).toNat / 16 = rc := by
    rw [hcdp.header ht (j := 3) (by decide)]
    show (16 * rc + 15) % 256 / 16 = rc
    omega
  obtain ⟨-, hchecked⟩ := cdpParseOutcome
  specialize hchecked s
  dsimp only at hchecked
  rw [hn, hcounter, hrate, hcdp.triplets ht, ← setWidth_eq_countBits] at hchecked
  obtain ⟨u, hu, hdone, hout, -, -, -, hstores⟩ := ok_of_checks_pass hchecked
    ⟨not_lt.mpr hcount, hinput, not_not.mpr hok, houtput⟩
  exact ⟨u, hu, hdone, hout, hstores⟩

end Sys2Proof.Proofs
end

section
/-! PROOFS. Commands that store cells of one size in rows, as the pixel codec does: a cell that shares no byte with
another ends as the rule says, up to the draws of R73, and no byte outside the rows changes (20_memory.md rules R63,
R73; 44_pixel_codec.md rules R222 to R226). -/

namespace Sys2Proof.Proofs

open Sys2Proof
open Sys2Proof.Config (Params)
open Sys2Proof.Machine
open Sys2Proof.Safety
open Sys2Proof.Laws

/-! ### What storing runs leaves (R73) -/

/-- Every byte of the run ends as the run says, up to the draws of R73. -/
def Landed (s t : State) (raced : Nat → Prop) (run : Run) : Prop :=
  ∀ j < run.2.length, EndsAs s t raced (run.1 + j) (run.2.getD j 0#8)

section
variable {s t : State} {i : Instr} {outputs : List Range} {written : Nat → Prop} {runs : List Run} {a : Nat}

/-- A run that shares no byte with another run of its command lands. -/
theorem landed_of_alone (hform : MemoryOk s) (hbuffers : HasBuffers s i outputs written)
    (hdmem : t.dmem = (s.storeRuns i runs).dmem) {run : Run} (hrun : run ∈ runs)
    (halone : ∀ a, Run.covers run a = true → ∀ other ∈ runs, Run.covers other a = true → other = run) :
    Landed s t (RacedOutput s i outputs written) run := by
  intro j hj
  have hcovers : Run.covers run (run.1 + j) = true := (covers_iff _ _).mpr (by omega)
  refine storeRuns_endsAs hform hbuffers hdmem
    (read_writeRuns_agree hform ⟨run, hrun, hcovers⟩ fun other hother hshared => ?_)
  rw [halone _ hcovers other hother hshared, Nat.add_sub_cancel_left]

theorem endsAs_of_not_runsCover (hform : MemoryOk s) (hbuffers : HasBuffers s i outputs written)
    (hdmem : t.dmem = (s.storeRuns i runs).dmem) (ha : ¬ RunsCover runs a) :
    EndsAs s t (RacedOutput s i outputs written) a (Memory.read s.dmem a) :=
  storeRuns_endsAs hform hbuffers hdmem
    (read_writeRuns_out _ fun run hrun => Bool.eq_false_iff.mpr fun hcovers => ha ⟨run, hrun, hcovers⟩)

/-- A byte of no output range and of no run is left as it is, raced with or not. -/
theorem read_of_not_outputs (hbuffers : HasBuffers s i outputs written)
    (hdmem : t.dmem = (s.storeRuns i runs).dmem) (hout : ∀ r ∈ outputs, r.holds a = false)
    (ha : ¬ RunsCover runs a) : Memory.read t.dmem a = Memory.read s.dmem a := by
  rw [hdmem]
  exact storeRuns_read_out s (fun y hy => hout _ ((hbuffers.ranges _).mpr ⟨y, hy, rfl⟩))
    fun run hrun => Bool.eq_false_iff.mpr fun hcovers => ha ⟨run, hrun, hcovers⟩

/-- A command that past its checks only stores runs. -/
theorem succeeds_of_runs {ok : Prop} {m : Memory} {r0 r1 r2 r3 : DWord} {frame : State → Prop}
    (hends : Ends s ok m (exec i s)) (hexec : exec i s = (s.storeRuns i runs).finish r0 r1 r2 r3)
    (hframe : ok → ∀ t, t.dmem = (s.storeRuns i runs).dmem → frame t) :
    Succeeds s i r0 r1 r2 r3 fun t => SameConfig s t ∧ SameSources s t ∧ SameHead s t ∧ frame t := by
  obtain ⟨t, ht, hdone, hout, hconfig, hsources, hhead, hdmem⟩ := finish_storeRuns_spec s i runs r0 r1 r2 r3
  have hok := hends.ok_iff.mp ⟨t, hexec.trans ht, code_of_completed hdone⟩
  exact ⟨t, hexec.trans ht, hdone, hout, hconfig, hsources, hhead, hframe hok t hdmem⟩

/-- A command that has completed with OK has passed its checks and left the memory that its rule says. -/
theorem Ends.stored {ok : Prop} {m : Memory} (h : Ends s ok m (exec i s)) (ht : exec i s = .next t)
    (hcode : t.ports[s.serving].code = .ok) : ok ∧ t.dmem = m := by
  obtain ⟨u, hu, ⟨hok, -, hdmem⟩ | ⟨-, hfail, -⟩⟩ := h
  · obtain rfl := Host.Outcome.next.inj (ht.symm.trans hu)
    exact ⟨hok, hdmem⟩
  · obtain rfl := Host.Outcome.next.inj (ht.symm.trans hu)
    exact absurd hcode hfail

/-- A command whose buffers its arguments give, and whose checks pass, writes the bytes that its rule names. -/
theorem hasBuffers_of_namesBytes {ok : Prop} {l : List Buffer} (hnames : NamesBytes s i ok) (hok : ok)
    (hwrites : ∀ e, commandWrites s.params s.args e i = l) :
    HasBuffers s i (l.map Buffer.range) (OutputOf s i) := by
  have hmem : ∀ y, y ∈ (s.buffers i).writes ↔ y ∈ l := by
    intro y
    rw [mem_buffers_writes, hwrites, hwrites, or_self]
  constructor
  case reads => exact fun x => ⟨hnames.reads x, hnames.reads_of_ok hok x⟩
  case ranges => exact fun r => by simp only [hmem, List.mem_map]
  case writes =>
    intro r _ x _
    simp only [hmem]
    rw [← hwrites (s.extent s.readByte)]
    exact hnames.writes_of_ok hok x

/-- Where no host has raced with a command, none has raced with its output. -/
theorem not_racedOutput_of_unraced (h : Unraced s i)
    (hwritten : ∀ r ∈ outputs, ∀ x, r.holds x = true → written x → OutputOf s i x) :
    ¬ RacedOutput s i outputs written a := by
  obtain ⟨-, hwrites, htouches⟩ := h
  rintro ⟨r, hr, -, x, hx, ⟨hwrote, hinput⟩ | ⟨htouched, hw⟩⟩
  · exact hwrites x hwrote hinput
  · exact htouches x htouched (hwritten r hr x hx hw)

end

/-! ### Cells in rows -/

/-- Rows of `bytes` bytes, `pitch` bytes apart, of cells of `cell` bytes: cell `x` of row `r` holds `content r x`. -/
structure Grid where
  base : Nat
  pitch : Nat
  rows : Nat
  bytes : Nat
  cell : Nat
  content : Nat → Nat → List Byte

/-- The range from the first row to the last byte of the last. -/
def Grid.range (q : Grid) : Range := rowsRange q.base q.pitch q.rows q.bytes

/-- The run of cell `x` of row `r`. -/
def Grid.run (q : Grid) (r x : Nat) : Run := (q.base + r * q.pitch + q.cell * x, q.content r x)

/-- Cell `x` of row `r` lies inside the row. -/
def Grid.HasCell (q : Grid) (r x : Nat) : Prop := r < q.rows ∧ q.cell * x + q.cell ≤ q.bytes

/-- Byte `a` lies in a row. -/
def Grid.InRow (q : Grid) (a : Nat) : Prop :=
  ∃ r < q.rows, q.base + r * q.pitch ≤ a ∧ a < q.base + r * q.pitch + q.bytes

/-- Two ranges share no byte. -/
def RangesApart (r r' : Range) : Prop := r.base + r.size ≤ r'.base ∨ r'.base + r'.size ≤ r.base

theorem RangesApart.not_holds {r r' : Range} (h : RangesApart r r') {a : Nat} (ha : r.holds a = true) :
    ¬ r'.holds a = true := by
  rw [holds_iff] at ha ⊢
  rcases h with h | h <;> omega

/-- The runs are those of the cells of the grids, whose rows lie apart and whose cells are full. -/
structure CellsOf (grids : List Grid) (runs : List Run) : Prop where
  mem : ∀ run, run ∈ runs ↔ ∃ q ∈ grids, ∃ r x, q.HasCell r x ∧ q.run r x = run
  pitch : ∀ q ∈ grids, q.bytes ≤ q.pitch
  length : ∀ q ∈ grids, ∀ r x, (q.content r x).length = q.cell

/-- A place in rows determines its row and its offset there. -/
theorem row_unique {pitch r r' off off' : Nat} (h : r * pitch + off = r' * pitch + off') (hoff : off < pitch)
    (hoff' : off' < pitch) : r = r' ∧ off = off' := by
  have hrow : r = r' := by
    have := congrArg (· / pitch) h
    simpa only [Nat.mul_add_div (show 0 < pitch by omega), Nat.mul_comm _ pitch, Nat.div_eq_of_lt hoff,
      Nat.div_eq_of_lt hoff', Nat.add_zero] using this
  subst hrow
  exact ⟨rfl, Nat.add_left_cancel h⟩

section
variable {grids : List Grid} {runs : List Run} {q : Grid} {r x a : Nat}

/-- The bytes of a cell, by its place in its row. -/
theorem CellsOf.covers_run (h : CellsOf grids runs) (hq : q ∈ grids) :
    Run.covers (q.run r x) a = true ↔ ∃ b < q.cell, a = q.base + (r * q.pitch + (x * q.cell + b)) := by
  rw [covers_iff, Grid.run, h.length q hq, Nat.mul_comm q.cell]
  dsimp only
  constructor
  · rintro ⟨hlow, hhigh⟩
    exact ⟨a - (q.base + r * q.pitch + x * q.cell), by omega, by omega⟩
  · rintro ⟨b, hb, rfl⟩
    omega

/-- Two cells of a grid that share a byte are one. -/
theorem CellsOf.cell_unique (h : CellsOf grids runs) (hq : q ∈ grids) (hx : q.HasCell r x) {r' x' : Nat}
    (hx' : q.HasCell r' x') (ha : Run.covers (q.run r x) a = true) (ha' : Run.covers (q.run r' x') a = true) :
    q.run r' x' = q.run r x := by
  obtain ⟨b, hb, hplace⟩ := (h.covers_run hq).mp ha
  obtain ⟨b', hb', hplace'⟩ := (h.covers_run hq).mp ha'
  have hpitch := h.pitch q hq
  have hlen := hx.2
  have hlen' := hx'.2
  rw [Nat.mul_comm q.cell] at hlen hlen'
  obtain ⟨hrow, hoff⟩ := row_unique (Nat.add_left_cancel (hplace'.symm.trans hplace)) (by omega) (by omega)
  obtain ⟨hcell, -⟩ := row_unique hoff hb' hb
  rw [hrow, hcell]

/-- A cell lies in its row. -/
theorem CellsOf.inRow (h : CellsOf grids runs) (hq : q ∈ grids) (hx : q.HasCell r x)
    (ha : Run.covers (q.run r x) a = true) : q.InRow a := by
  obtain ⟨b, hb, rfl⟩ := (h.covers_run hq).mp ha
  have hlen := hx.2
  rw [Nat.mul_comm q.cell] at hlen
  exact ⟨r, hx.1, by omega, by omega⟩

theorem Grid.range_holds (ha : q.InRow a) : q.range.holds a = true := by
  obtain ⟨r, hr, hlow, hhigh⟩ := ha
  exact rowsRange_holds (off := 0) hr (by omega) ⟨hlow, hhigh⟩

theorem CellsOf.inRow_of_runsCover (h : CellsOf grids runs) (ha : RunsCover runs a) : ∃ q ∈ grids, q.InRow a := by
  obtain ⟨run, hrun, ha⟩ := ha
  obtain ⟨q, hq, r, x, hx, rfl⟩ := (h.mem run).mp hrun
  exact ⟨q, hq, h.inRow hq hx ha⟩

/-- Where the grids lie apart, every cell lands. -/
theorem CellsOf.landed (h : CellsOf grids runs) (hapart : grids.Pairwise fun q q' => RangesApart q.range q'.range)
    {s t : State} {i : Instr} {outputs : List Range} {written : Nat → Prop} (hform : MemoryOk s)
    (hbuffers : HasBuffers s i outputs written) (hdmem : t.dmem = (s.storeRuns i runs).dmem) (hq : q ∈ grids)
    (hx : q.HasCell r x) : Landed s t (RacedOutput s i outputs written) (q.run r x) := by
  refine landed_of_alone hform hbuffers hdmem ((h.mem _).mpr ⟨q, hq, r, x, hx, rfl⟩) fun a ha other hother ha' => ?_
  obtain ⟨q', hq', r', x', hx', rfl⟩ := (h.mem other).mp hother
  have hsymm : Std.Symm fun q q' : Grid => RangesApart q.range q'.range := ⟨fun _ _ => Or.symm⟩
  obtain rfl : q = q' := by
    by_contra hne
    exact (hapart.forall hq hq' hne).not_holds (Grid.range_holds (h.inRow hq hx ha))
      (Grid.range_holds (h.inRow hq' hx' ha'))
  exact h.cell_unique hq hx hx' ha ha'

end

end Sys2Proof.Proofs
end

section
/-! PROOFS. The word arrays of the pixel codec: the bits of a packed group, the bytes of groups and samples, and what
PX_PACK_WORDS and PX_UNPACK_WORDS store (44_pixel_codec.md rules R220 to R223). -/

namespace Sys2Proof.Proofs

open Sys2Proof
open Sys2Proof.Config (Params)
open Sys2Proof.Machine
open Sys2Proof.Safety
open Sys2Proof.Laws

/-! ### The bits of a group (R220, R221) -/

/-- The three positions of a packed word lie apart. -/
theorem pack3_eq (p0 p1 p2 : Sample) :
    pack3 p0 p1 p2 = p0.setWidth 32 ||| (p1.setWidth 32 <<< 10) ||| (p2.setWidth 32 <<< 20) := by
  have hwide : ∀ p : Sample, p.toNat < 2 ^ 32 := fun p => p.isLt.trans (by decide)
  have hpack : (pack3 p0 p1 p2).toNat = p2.toNat <<< 20 ||| p1.toNat <<< 10 ||| p0.toNat := by
    simp only [pack3, BitVec.toNat_append, Nat.shiftLeft_or_distrib, ← Nat.shiftLeft_add]
    simp
  have hplace : ∀ (p : Sample) (n : Nat), n ≤ 20 → (p.setWidth 32 <<< n).toNat = p.toNat <<< n := by
    intro p n hn
    have hlt : p.toNat * 2 ^ n < 2 ^ 10 * 2 ^ 20 :=
      Nat.mul_lt_mul_of_lt_of_le p.isLt (Nat.pow_le_pow_right (by decide) hn) (by positivity)
    rw [BitVec.toNat_shiftLeft, BitVec.toNat_setWidth, Nat.mod_eq_of_lt (hwide p), Nat.shiftLeft_eq,
      Nat.mod_eq_of_lt (by omega)]
  apply BitVec.eq_of_toNat_eq
  rw [BitVec.toNat_or, BitVec.toNat_or, hplace p1 10 (by decide), hplace p2 20 (by decide), BitVec.toNat_setWidth,
    Nat.mod_eq_of_lt (hwide p0), hpack, Nat.or_comm, Nat.or_comm (p2.toNat <<< 20), Nat.or_assoc]

theorem setWidth_clip (v : HalfWord) : (clip v).setWidth 32 = BitVec.ofNat 32 (min (max v.toNat 4) 1019) := by
  apply BitVec.eq_of_toNat_eq
  rw [BitVec.toNat_setWidth, toNat_clip, BitVec.toNat_ofNat]

theorem toNat_packedWord_false (v : HalfWord) : (packedWord false v).toNat = v.toNat % 1024 :=
  BitVec.toNat_setWidth 10 v

/-- What PX_PACK_WORDS packs for an input (R222). -/
theorem setWidth_packedWord (c : Bool) (v : HalfWord) : (packedWord c v).setWidth 32 =
    if c then BitVec.ofNat 32 (min (max (v.setWidth 32).toNat 4) 1019) else v.setWidth 32 &&& 0x3FF#32 := by
  have hwidth : (v.setWidth 32).toNat = v.toNat := by
    rw [BitVec.toNat_setWidth]
    omega
  cases c with
  | false =>
    apply BitVec.eq_of_toNat_eq
    rw [if_neg Bool.false_ne_true, BitVec.toNat_and, hwidth, BitVec.toNat_setWidth, toNat_packedWord_false]
    exact (Nat.mod_eq_of_lt (by omega)).trans (Nat.and_two_pow_sub_one_eq_mod v.toNat 10).symm
  | true =>
    rw [if_pos rfl, hwidth]
    exact setWidth_clip v

section
variable {w : Nat → Word} {j : Nat}

theorem lumaOf_eq_getD (hj : j < 6) : lumaOf w j =
    [(w 0).extractLsb' 10 10, (w 1).extractLsb' 0 10, (w 1).extractLsb' 20 10, (w 2).extractLsb' 10 10,
      (w 3).extractLsb' 0 10, (w 3).extractLsb' 20 10].getD j 0#10 := by
  interval_cases j <;> rfl

theorem cbOf_eq_getD (hj : j < 3) : cbOf w j =
    [(w 0).extractLsb' 0 10, (w 1).extractLsb' 10 10, (w 2).extractLsb' 20 10].getD j 0#10 := by
  interval_cases j <;> rfl

theorem crOf_eq_getD (hj : j < 3) : crOf w j =
    [(w 0).extractLsb' 20 10, (w 2).extractLsb' 0 10, (w 3).extractLsb' 10 10].getD j 0#10 := by
  interval_cases j <;> rfl

end

/-! ### The bytes of groups and samples (R62) -/

theorem extractLsb'_byte {n : Nat} (v : BitVec n) (k : Nat) : v.extractLsb' k 8 = (v >>> k).setWidth 8 := by
  apply BitVec.eq_of_toNat_eq
  simp

/-- Byte `b` of word `k` of a group. -/
theorem getD_groupBytes (ws : List Word) (k : Nat) {b : Nat} (hb : b < 4) :
    (groupBytes ws).getD (4 * k + b) 0#8 = (ws.getD k 0#32 >>> (8 * b)).setWidth 8 := by
  induction ws generalizing k with
  | nil => simp [groupBytes]
  | cons w ws ih =>
    have hcons : groupBytes (w :: ws) = le32 w ++ groupBytes ws := rfl
    have hlen : (le32 w).length = 4 := rfl
    rw [hcons]
    cases k with
    | zero =>
      rw [List.getD_append _ _ _ _ (by omega), ← extractLsb'_byte]
      interval_cases b <;> rfl
    | succ k =>
      rw [List.getD_append_right _ _ _ _ (by omega), hlen, show 4 * (k + 1) + b - 4 = 4 * k + b by omega, ih]
      rfl

theorem sampleBytes_eq (v : Sample) : sampleBytes v = [v.setWidth 8, (v >>> 8).setWidth 8] := wordBytes_cons v []

section
variable {s t : State} {raced : Nat → Prop} {a : Nat}

/-- The words of a group that has landed lie in memory one after another (R220). -/
theorem holdsGroupWord_of_landed {y u v : Nat → Sample} (h : Landed s t raced (a, groupBytes (packGroup y u v)))
    {k : Nat} (hk : k < 4) : HoldsPacked s t raced (a + 4 * k) (groupWord y u v k) := by
  intro b hb
  have hbyte := h (4 * k + b) (by rw [length_groupBytes]; omega)
  rwa [getD_groupBytes _ _ hb, ← Nat.add_assoc] at hbyte

/-- The same, position by position. -/
theorem holdsPacked_of_landed {y u v : Nat → Sample} (h : Landed s t raced (a, groupBytes (packGroup y u v))) :
    HoldsPacked s t raced a
        ((u 0).setWidth 32 ||| ((y 0).setWidth 32 <<< 10) ||| ((v 0).setWidth 32 <<< 20)) ∧
      HoldsPacked s t raced (a + 4)
        ((y 1).setWidth 32 ||| ((u 1).setWidth 32 <<< 10) ||| ((y 2).setWidth 32 <<< 20)) ∧
      HoldsPacked s t raced (a + 8)
        ((v 1).setWidth 32 ||| ((y 3).setWidth 32 <<< 10) ||| ((u 2).setWidth 32 <<< 20)) ∧
      HoldsPacked s t raced (a + 12)
        ((y 4).setWidth 32 ||| ((v 2).setWidth 32 <<< 10) ||| ((y 5).setWidth 32 <<< 20)) := by
  simp only [← pack3_eq]
  exact ⟨holdsGroupWord_of_landed h (k := 0) (by decide), holdsGroupWord_of_landed h (k := 1) (by decide),
    holdsGroupWord_of_landed h (k := 2) (by decide), holdsGroupWord_of_landed h (k := 3) (by decide)⟩

theorem holdsWord_of_landed {v : Sample} (h : Landed s t raced (a, sampleBytes v)) : HoldsWord s t raced a v := by
  have hlen : (sampleBytes v).length = 2 := rfl
  rw [Landed, hlen, sampleBytes_eq] at h
  exact ⟨h 0 (by decide), h 1 (by decide)⟩

end

/-! ### Arrays of cells -/

/-- One row of `n` cells. -/
def arrayGrid (base cell n : Nat) (content : Nat → List Byte) : Grid :=
  ⟨base, cell * n, 1, cell * n, cell, fun _ => content⟩

section
variable {base cell n x : Nat} {content : Nat → List Byte}

theorem arrayGrid_run (r : Nat) (hr : r < 1) :
    (arrayGrid base cell n content).run r x = (base + cell * x, content x) := by
  obtain rfl := Nat.lt_one_iff.mp hr
  simp [Grid.run, arrayGrid]

theorem arrayGrid_hasCell (hcell : 0 < cell) {r : Nat} :
    (arrayGrid base cell n content).HasCell r x ↔ r < 1 ∧ x < n := by
  rw [Grid.HasCell, arrayGrid, ← Nat.mul_succ, Nat.mul_le_mul_left_iff hcell, Nat.succ_le_iff]

theorem cellsOf_array (hcell : 0 < cell) (hlen : ∀ x, (content x).length = cell) :
    CellsOf [arrayGrid base cell n content] ((List.range n).map fun x => (base + cell * x, content x)) where
  mem run := by
    simp only [List.mem_map, List.mem_range, List.mem_singleton, exists_eq_left, arrayGrid_hasCell hcell]
    constructor
    · rintro ⟨x, hx, rfl⟩
      exact ⟨0, x, ⟨Nat.one_pos, hx⟩, arrayGrid_run 0 Nat.one_pos⟩
    · rintro ⟨r, x, ⟨hr, hx⟩, rfl⟩
      exact ⟨x, hx, (arrayGrid_run r hr).symm⟩
  pitch q hq := by
    obtain rfl := List.mem_singleton.mp hq
    exact le_rfl
  length q hq _ x := by
    obtain rfl := List.mem_singleton.mp hq
    exact hlen x

/-- Every cell of an array that a command stores lands. -/
theorem landed_array (hcell : 0 < cell) (hlen : ∀ x, (content x).length = cell) {s t : State} {i : Instr}
    {outputs : List Range} {written : Nat → Prop} (hform : MemoryOk s) (hbuffers : HasBuffers s i outputs written)
    (hdmem : t.dmem = (s.storeRuns i ((List.range n).map fun x => (base + cell * x, content x))).dmem) (hx : x < n) :
    Landed s t (RacedOutput s i outputs written) (base + cell * x, content x) := by
  rw [← arrayGrid_run (n := n) 0 Nat.one_pos]
  exact (cellsOf_array hcell hlen).landed (List.pairwise_singleton _ _) hform hbuffers hdmem
    (List.mem_singleton_self _) ((arrayGrid_hasCell hcell).mpr ⟨Nat.one_pos, hx⟩)

end

/-! ### The checks and the blocks of the word arrays (R222, R223) -/

section
variable {s t : State} {c : Bool}

/-- The word-array commands' checks of their count and their two ranges, as the statements write them. -/
theorem checked_words {i : Instr} {n a m b k : Nat} {ok : Prop} {o : Host.Outcome State Fault Refusal}
    (hexec : exec i s = if !isCount n then s.raise .badArg else if n % 6 ≠ 0 then s.raise .badArg else
      if !(inRange s.params a m && inRange s.params b k) then s.raise .dmemFault else o)
    (h : exec i s = o → ok) :
    Checked s i [(u32Max < n ∨ n % 6 ≠ 0, .badArg), (OutOfRange s.params a m, .dmemFault),
      (OutOfRange s.params b k, .dmemFault)] ok :=
  checked_cons (hexec.trans (ite_or _ _ _ _).symm) (or_congr_left not_isCount_iff) fun _ hexec =>
    checked_ranges hexec h

theorem not_holds_block {base n b : Nat} (h : ¬(base ≤ b ∧ b < base + n)) :
    ∀ r ∈ [(⟨base, n⟩ : Range)], r.holds b = false := by
  intro r hr
  obtain rfl := List.mem_singleton.mp hr
  rwa [Bool.eq_false_iff, ne_eq, holds_iff]

/-! ### PX_PACK_WORDS (R222) -/

theorem pxPackWords_hasBuffers
    (hfits : wordsFit s.params (s.arg 1) (s.arg 0) (2 * s.arg 1) (s.arg 2) (16 * (s.arg 1 / 6)) = true) :
    HasBuffers s (.pxPackWords c) [⟨s.arg 2, 16 * (s.arg 1 / 6)⟩] fun _ => True :=
  hasBuffers_of_block hfits (fun _ => covered_block) fun _ => rfl

/-- Every group that PX_PACK_WORDS packs lands. -/
theorem landed_packWords (hform : MemoryOk s)
    (hfits : wordsFit s.params (s.arg 1) (s.arg 0) (2 * s.arg 1) (s.arg 2) (16 * (s.arg 1 / 6)) = true)
    (hdmem : t.dmem = (s.storeRuns (.pxPackWords c) (s.packWordRuns c)).dmem) {g : Nat} (hg : g < s.arg 1 / 6) :
    Landed s t (RacedBlock s (.pxPackWords c) (s.arg 2) (16 * (s.arg 1 / 6)))
      (s.arg 2 + 16 * g, groupBytes (s.wordGroup c g)) :=
  landed_array (cell := 16) (content := fun g => groupBytes (s.wordGroup c g)) (Nat.succ_pos 15)
    (fun _ => length_groupBytes _ _ _) hform (pxPackWords_hasBuffers hfits) hdmem hg

/-- Settles O52: past its checks the rule stores its groups, each in its own sixteen bytes. -/
theorem pxPackWordsOutcome : Obligations.PxPackWordsOutcome := by
  refine ⟨fun c => decode_encode (i := .pxPackWords c) rfl, fun s c => ?_⟩
  intro n a raced
  refine checked_words rfl fun hexec => succeeds_of_runs (execPxPackWords_ends s c) hexec fun hfits t hdmem =>
    ⟨fun hform g hg => ?_, fun b hb => read_of_not_outputs (pxPackWords_hasBuffers hfits) hdmem ?_
      (mt packWordRuns_cover hb)⟩
  · have hwords := holdsPacked_of_landed (landed_packWords hform hfits hdmem hg)
    simp only [setWidth_packedWord, BitVec.setWidth_zero, BitVec.zero_shiftLeft, BitVec.zero_or,
      BitVec.or_zero] at hwords
    exact hwords
  · exact not_holds_block hb

/-! ### PX_UNPACK_WORDS (R223) -/

theorem pxUnpackWords_hasBuffers
    (hfits : wordsFit s.params (s.arg 1) (s.arg 0) (16 * (s.arg 1 / 6)) (s.arg 2) (2 * s.arg 1) = true) :
    HasBuffers s .pxUnpackWords [⟨s.arg 2, 2 * s.arg 1⟩] fun _ => True :=
  hasBuffers_of_block hfits (fun _ => covered_block) fun _ => rfl

/-- Every word that PX_UNPACK_WORDS produces lies in its place. -/
theorem holdsWord_unpackWords (hform : MemoryOk s)
    (hfits : wordsFit s.params (s.arg 1) (s.arg 0) (16 * (s.arg 1 / 6)) (s.arg 2) (2 * s.arg 1) = true)
    (hdmem : t.dmem = (s.storeRuns .pxUnpackWords s.unpackWordRuns).dmem) {j : Nat} (hj : j < s.arg 1) :
    HoldsWord s t (RacedBlock s .pxUnpackWords (s.arg 2) (2 * s.arg 1)) (s.arg 2 + 2 * j) (s.unpackedWord j) :=
  holdsWord_of_landed (landed_array (cell := 2) (content := fun j => sampleBytes (s.unpackedWord j)) (Nat.succ_pos 1)
    (fun _ => length_sampleBytes _) hform (pxUnpackWords_hasBuffers hfits) hdmem hj)

/-- Settles O53: past its checks the rule stores its words, each in its own two bytes. -/
theorem pxUnpackWordsOutcome : Obligations.PxUnpackWordsOutcome := by
  refine ⟨decode_encode (i := .pxUnpackWords) rfl, fun s => ?_⟩
  intro n w a
  refine checked_words rfl fun hexec => succeeds_of_runs (execPxUnpackWords_ends s) hexec fun hfits t hdmem =>
    ⟨fun hform g j hg hj => ?_, fun b hb => read_of_not_outputs (pxUnpackWords_hasBuffers hfits) hdmem
      (not_holds_block hb) (mt unpackWordRuns_cover hb)⟩
  have hword := holdsWord_unpackWords hform hfits hdmem (j := 6 * g + j) (by omega)
  rwa [State.unpackedWord, show (6 * g + j) / 6 = g by omega, show (6 * g + j) % 6 = j by omega,
    lumaOf_eq_getD hj] at hword

end

end Sys2Proof.Proofs
end

section
/-! PROOFS. The picture planes of the pixel codec: what PX_PACK_PLANE and PX_UNPACK_PLANE store, group by group and
sample by sample (44_pixel_codec.md rules R224, R226). -/

namespace Sys2Proof.Proofs

open Sys2Proof
open Sys2Proof.Config (Params)
open Sys2Proof.Machine
open Sys2Proof.Safety
open Sys2Proof.Laws

/-! ### The checks (R87, R224, R226) -/

section
variable {s : State} {i : Instr} {ok : Prop} {code : Code} {o : Host.Outcome State Fault Refusal} {p : Picture}

theorem not_pictureOk_iff : (!pictureOk p) = true ↔
    (p.width < 2 ∨ p.width % 2 ≠ 0 ∨ p.height < 1) ∨
      (u32Max < p.lumaPitch ∨ u32Max < p.chromaPitch ∨ u32Max < p.stride) ∨
      (p.lumaPitch < 2 * p.width ∨ p.chromaPitch < p.width ∨ p.stride < 16 * pictureGroups p) := by
  simp only [pictureOk, isCount, Bool.not_eq_true', Bool.and_eq_false_iff, decide_eq_false_iff_not, not_and_or,
    not_le, or_assoc]

theorem not_pictureInRange_iff {P : Params} : (!pictureInRange P p) = true ↔
    OutOfRange P (lumaRange p).base (lumaRange p).size ∨ OutOfRange P (cbRange p).base (cbRange p).size ∨
      OutOfRange P (crRange p).base (crRange p).size ∨ OutOfRange P (packedRange p).base (packedRange p).size := by
  simp only [pictureInRange, Range.inside, Bool.not_and, Bool.or_eq_true, not_inRange_iff, or_assoc]

/-- The test of a picture's arguments, which a statement writes as three checks. -/
theorem checked_pictureOk {rest : List (Prop × Code)} (hexec : exec i s = if !pictureOk p then s.raise .badArg else o)
    (h : exec i s = o → Checked s i rest ok) :
    Checked s i ((p.width < 2 ∨ p.width % 2 ≠ 0 ∨ p.height < 1, .badArg) ::
      (u32Max < p.lumaPitch ∨ u32Max < p.chromaPitch ∨ u32Max < p.stride, .badArg) ::
      (p.lumaPitch < 2 * p.width ∨ p.chromaPitch < p.width ∨ p.stride < 16 * pictureGroups p, .badArg) :: rest) ok :=
  checked_part hexec (fun h => not_pictureOk_iff.mpr (.inl h)) fun hsize =>
    checked_part hexec (fun h => not_pictureOk_iff.mpr (.inr (.inl h))) fun hcounts =>
      checked_cons hexec (not_pictureOk_iff.trans ((or_iff_right hsize).trans (or_iff_right hcounts))) fun _ => h

/-- A test that a statement writes as four checks. -/
theorem checked_four {b : Prop} [Decidable b] {bad1 bad2 bad3 bad4 : Prop}
    (hexec : exec i s = if b then s.raise code else o) (hb : b ↔ bad1 ∨ bad2 ∨ bad3 ∨ bad4)
    (h : exec i s = o → ok) :
    Checked s i [(bad1, code), (bad2, code), (bad3, code), (bad4, code)] ok :=
  checked_part hexec (fun h => hb.mpr (.inl h)) fun h1 =>
    checked_part hexec (fun h => hb.mpr (.inr (.inl h))) fun h2 =>
      checked_part hexec (fun h => hb.mpr (.inr (.inr (.inl h)))) fun h3 =>
        checked_cons hexec (hb.trans ((or_iff_right h1).trans ((or_iff_right h2).trans (or_iff_right h3)))) fun _ => h

theorem pitches_of_pictureFits {P : Params} (h : pictureFits P p = true) :
    2 * p.width ≤ p.lumaPitch ∧ p.width ≤ p.chromaPitch ∧ 16 * pictureGroups p ≤ p.stride :=
  of_decide_eq_true (Bool.and_eq_true_iff.mp (Bool.and_eq_true_iff.mp h).1).2

end

/-! ### PX_PACK_PLANE (R224) -/

/-- The packed rows of a picture. -/
def packedGrid (s : State) (p : Picture) : Grid where
  base := p.packed
  pitch := p.stride
  rows := p.height
  bytes := 16 * pictureGroups p
  cell := 16
  content r g := groupBytes (s.packedGroup p r g)

section
variable {s t : State} {p : Picture} {r g a : Nat}

theorem packedGrid_hasCell : (packedGrid s p).HasCell r g ↔ r < p.height ∧ g < pictureGroups p := by
  simp only [Grid.HasCell, packedGrid]
  omega

theorem cellsOf_packRuns (hpitch : 16 * pictureGroups p ≤ p.stride) : CellsOf [packedGrid s p] (s.packRuns p) where
  mem run := by
    simp only [State.packRuns, List.mem_flatMap, List.mem_map, List.mem_range, List.mem_singleton, exists_eq_left,
      packedGrid_hasCell, and_assoc, exists_and_left]
    rfl
  pitch q hq := by
    obtain rfl := List.mem_singleton.mp hq
    exact hpitch
  length q hq r g := by
    obtain rfl := List.mem_singleton.mp hq
    show (groupBytes (s.packedGroup p r g)).length = 16
    rw [State.packedGroup, length_groupBytes]

theorem outputOf_pxPackPlane :
    OutputOf s .pxPackPlane a ↔ (packedGrid s (packPicture s.args)).InRow a := by
  have hwidth : (packPicture s.args).width = s.arg 7 % 2 ^ 32 := pictureWidth_eq _
  have hheight : (packPicture s.args).height = s.arg 7 / 2 ^ 32 := pictureHeight_eq _
  simp only [Grid.InRow, packedGrid, pictureGroups, hwidth, hheight]
  rfl

theorem pxPackPlane_hasBuffers (hfits : pictureFits s.params (packPicture s.args) = true) :
    HasBuffers s .pxPackPlane [packedRange (packPicture s.args)] (packedGrid s (packPicture s.args)).InRow := by
  have hbuffers := hasBuffers_of_namesBytes (pxPackPlane_namesBytes s) hfits fun _ => if_pos hfits
  rwa [show OutputOf s .pxPackPlane = _ from funext fun a => propext outputOf_pxPackPlane] at hbuffers

/-- Hosts have raced with the packed rows. -/
def RacedPacked (s : State) (p : Picture) : Nat → Prop :=
  RacedOutput s .pxPackPlane [packedRange p] (packedGrid s p).InRow

/-- Every group that PX_PACK_PLANE packs lands. -/
theorem landed_packPlane (hform : MemoryOk s) (hfits : pictureFits s.params (packPicture s.args) = true)
    (hdmem : t.dmem = (s.storeRuns .pxPackPlane (s.packRuns (packPicture s.args))).dmem)
    (hr : r < (packPicture s.args).height) (hg : g < pictureGroups (packPicture s.args)) :
    Landed s t (RacedPacked s (packPicture s.args)) (groupAddr (packPicture s.args) r g,
      groupBytes (s.packedGroup (packPicture s.args) r g)) := by
  obtain ⟨-, -, hpitch⟩ := pitches_of_pictureFits hfits
  show Landed s t _ ((packedGrid s (packPicture s.args)).run r g)
  exact (cellsOf_packRuns hpitch).landed (List.pairwise_singleton _ _) hform (pxPackPlane_hasBuffers hfits) hdmem
    (List.mem_singleton_self _) (packedGrid_hasCell.mpr ⟨hr, hg⟩)

/-- A sample as a packed word carries it: clipped, and 0 past the row's width (R224). -/
theorem setWidth_sample (v : HalfWord) (x width : Nat) : (if x < width then clip v else 0#10).setWidth 32 =
    if x < width then BitVec.ofNat 32 (min (max v.toNat 4) 1019) else 0#32 := by
  split
  · exact setWidth_clip v
  · rfl

end

/-- Settles O54: past its checks the rule stores its groups, each in its own sixteen bytes of a packed row. -/
theorem pxPackPlaneOutcome : Obligations.PxPackPlaneOutcome := by
  refine ⟨decode_encode (i := .pxPackPlane) rfl, fun s => ?_⟩
  have hwidth : s.arg 7 % 2 ^ 32 = (packPicture s.args).width := (pictureWidth_eq _).symm
  have hheight : s.arg 7 / 2 ^ 32 = (packPicture s.args).height := (pictureHeight_eq _).symm
  rw [hwidth, hheight]
  intro W H G sample y u v bytes packs raced
  refine checked_pictureOk (p := packPicture s.args) rfl fun hexec => checked_four hexec not_pictureInRange_iff
    fun hexec => succeeds_of_runs (execPxPackPlane_ends s) hexec fun hfits t hdmem => ?_
  have hbuffers := pxPackPlane_hasBuffers hfits
  obtain ⟨-, -, hpitch⟩ := pitches_of_pictureFits hfits
  have hcells := cellsOf_packRuns (s := s) hpitch
  refine ⟨fun hform => ⟨fun r g hr hg => ?_, fun a ha => ?_⟩, fun b hb => ?_⟩
  · have hwords := holdsPacked_of_landed (landed_packPlane hform hfits hdmem hr hg)
    simp only [State.lumaSample, State.cbSample, State.crSample, setWidth_sample] at hwords
    exact hwords
  · refine endsAs_of_not_runsCover hform hbuffers hdmem fun hcover => ha ?_
    obtain ⟨q, hq, hrow⟩ := hcells.inRow_of_runsCover hcover
    obtain rfl := List.mem_singleton.mp hq
    exact hrow
  · exact read_of_not_outputs hbuffers hdmem (not_holds_block hb)
      fun hcover => hb ((holds_iff _ b).mp (packRuns_cover hcover))

/-! ### PX_UNPACK_PLANE (R226) -/

/-- Word `k` of group `g` of row `r` of the packed rows, as a command reads it. -/
def readGroup (s : State) (p : Picture) (r g k : Nat) : Word := s.read32 (groupAddr p r g + 4 * k)

/-- Luma sample `x` of row `r`, as it is unpacked. -/
def unpackedLuma (s : State) (p : Picture) (r x : Nat) : Sample := lumaOf (readGroup s p r (x / 6)) (x % 6)

/-- `Cb` sample `x` of row `r`, as it is unpacked. -/
def unpackedCb (s : State) (p : Picture) (r x : Nat) : Sample := cbOf (readGroup s p r (x / 3)) (x % 3)

/-- `Cr` sample `x` of row `r`, as it is unpacked. -/
def unpackedCr (s : State) (p : Picture) (r x : Nat) : Sample := crOf (readGroup s p r (x / 3)) (x % 3)

/-- The rows of a plane of samples. -/
def sampleGrid (base pitch rows bytes : Nat) (sample : Nat → Nat → Sample) : Grid :=
  ⟨base, pitch, rows, bytes, 2, fun r x => sampleBytes (sample r x)⟩

/-- The three planes of a picture, as they are unpacked. -/
def planeGrids (s : State) (p : Picture) : List Grid :=
  [sampleGrid p.luma p.lumaPitch p.height (2 * p.width) (unpackedLuma s p),
    sampleGrid p.cb p.chromaPitch p.height p.width (unpackedCb s p),
    sampleGrid p.cr p.chromaPitch p.height p.width (unpackedCr s p)]

/-- Byte `a` lies in a row of a plane. -/
def PlaneRows (p : Picture) (a : Nat) : Prop :=
  ∃ r < p.height, (p.luma + r * p.lumaPitch ≤ a ∧ a < p.luma + r * p.lumaPitch + 2 * p.width) ∨
    (p.cb + r * p.chromaPitch ≤ a ∧ a < p.cb + r * p.chromaPitch + p.width) ∨
    (p.cr + r * p.chromaPitch ≤ a ∧ a < p.cr + r * p.chromaPitch + p.width)

/-- The ranges of the three planes. -/
def planeRanges (p : Picture) : List Range := [lumaRange p, cbRange p, crRange p]

/-- The three planes share no byte. -/
def PlanesApart (p : Picture) : Prop := (planeRanges p).Pairwise RangesApart

/-- Hosts have raced with a plane. -/
def RacedPlanes (s : State) (p : Picture) : Nat → Prop := RacedOutput s .pxUnpackPlane (planeRanges p) (PlaneRows p)

section
variable {s t : State} {p : Picture} {r g a j x : Nat}

theorem unpackedLuma_group (hj : j < 6) : unpackedLuma s p r (6 * g + j) = lumaOf (readGroup s p r g) j := by
  rw [unpackedLuma, show (6 * g + j) / 6 = g by omega, show (6 * g + j) % 6 = j by omega]

theorem unpackedChroma_group (hj : j < 3) : unpackedCb s p r (3 * g + j) = cbOf (readGroup s p r g) j ∧
    unpackedCr s p r (3 * g + j) = crOf (readGroup s p r g) j := by
  rw [unpackedCb, unpackedCr, show (3 * g + j) / 3 = g by omega, show (3 * g + j) % 3 = j by omega]
  exact ⟨rfl, rfl⟩

/-- The runs of a group are its samples inside the row's width (R226). -/
theorem mem_unpackGroupRuns {run : Run} : run ∈ s.unpackGroupRuns p r g ↔
    (∃ j < 6, 6 * g + j < p.width ∧ (lumaAddr p r (6 * g + j), sampleBytes (unpackedLuma s p r (6 * g + j))) = run) ∨
      ∃ j < 3, 3 * g + j < p.width / 2 ∧
        ((cbAddr p r (3 * g + j), sampleBytes (unpackedCb s p r (3 * g + j))) = run ∨
          (crAddr p r (3 * g + j), sampleBytes (unpackedCr s p r (3 * g + j))) = run) := by
  rw [State.unpackGroupRuns, List.mem_append, List.mem_filterMap, List.mem_flatMap]
  simp only [List.mem_range, Option.ite_none_right_eq_some, Option.some.injEq, List.mem_ite_nil_right, List.mem_cons,
    List.not_mem_nil, or_false]
  refine or_congr (exists_congr fun j => and_congr_right fun hj => ?_)
    (exists_congr fun j => and_congr_right fun hj => and_congr_right fun _ => ?_)
  · rw [unpackedLuma_group hj]
    rfl
  · obtain ⟨hcb, hcr⟩ := unpackedChroma_group (s := s) (p := p) (r := r) (g := g) hj
    rw [hcb, hcr]
    exact or_congr eq_comm eq_comm

theorem mem_unpackRuns {run : Run} : run ∈ s.unpackRuns p ↔
    ∃ r < p.height, (∃ x < p.width, (lumaAddr p r x, sampleBytes (unpackedLuma s p r x)) = run) ∨
      ∃ x < p.width / 2, (cbAddr p r x, sampleBytes (unpackedCb s p r x)) = run ∨
        (crAddr p r x, sampleBytes (unpackedCr s p r x)) = run := by
  simp only [State.unpackRuns, List.mem_flatMap, List.mem_range, mem_unpackGroupRuns, pictureGroups]
  refine exists_congr fun r => and_congr_right fun _ => ⟨?_, ?_⟩
  · rintro ⟨g, -, ⟨j, -, hx, hrun⟩ | ⟨j, -, hx, hrun⟩⟩
    · exact .inl ⟨_, hx, hrun⟩
    · exact .inr ⟨_, hx, hrun⟩
  · rintro (⟨x, hx, hrun⟩ | ⟨x, hx, hrun⟩)
    · rw [← Nat.div_add_mod x 6] at hx hrun
      exact ⟨x / 6, by omega, .inl ⟨x % 6, Nat.mod_lt _ (by decide), hx, hrun⟩⟩
    · rw [← Nat.div_add_mod x 3] at hx hrun
      exact ⟨x / 3, by omega, .inr ⟨x % 3, Nat.mod_lt _ (by decide), hx, hrun⟩⟩

theorem sampleGrid_hasCell {base pitch rows bytes : Nat} {sample : Nat → Nat → Sample} :
    (sampleGrid base pitch rows bytes sample).HasCell r x ↔ r < rows ∧ x < bytes / 2 := by
  simp only [Grid.HasCell, sampleGrid]
  omega

theorem cellsOf_unpackRuns (hluma : 2 * p.width ≤ p.lumaPitch) (hchroma : p.width ≤ p.chromaPitch) :
    CellsOf (planeGrids s p) (s.unpackRuns p) where
  mem run := by
    simp only [mem_unpackRuns, planeGrids, List.mem_cons, List.not_mem_nil, or_false, exists_eq_or_imp,
      exists_eq_left, sampleGrid_hasCell, Nat.mul_div_cancel_left p.width Nat.two_pos, and_assoc, exists_and_left,
      ← exists_or, ← and_or_left]
    rfl
  pitch q hq := by
    simp only [planeGrids, List.mem_cons, List.not_mem_nil, or_false] at hq
    obtain rfl | rfl | rfl := hq
    · exact hluma
    · exact hchroma
    · exact hchroma
  length q hq r x := by
    simp only [planeGrids, List.mem_cons, List.not_mem_nil, or_false] at hq
    obtain rfl | rfl | rfl := hq
    · exact length_sampleBytes _
    · exact length_sampleBytes _
    · exact length_sampleBytes _

theorem planeRows_of_inRow {q : Grid} (hq : q ∈ planeGrids s p) (ha : q.InRow a) : PlaneRows p a := by
  obtain ⟨r, hr, hrow⟩ := ha
  simp only [planeGrids, List.mem_cons, List.not_mem_nil, or_false] at hq
  obtain rfl | rfl | rfl := hq
  · exact ⟨r, hr, .inl hrow⟩
  · exact ⟨r, hr, .inr (.inl hrow)⟩
  · exact ⟨r, hr, .inr (.inr hrow)⟩

theorem outputOf_pxUnpackPlane : OutputOf s .pxUnpackPlane a ↔ PlaneRows (unpackPicture s.args) a := by
  have hwidth : (unpackPicture s.args).width = s.arg 7 % 2 ^ 32 := pictureWidth_eq _
  have hheight : (unpackPicture s.args).height = s.arg 7 / 2 ^ 32 := pictureHeight_eq _
  rw [PlaneRows, hwidth, hheight]
  rfl

theorem pxUnpackPlane_hasBuffers (hfits : pictureFits s.params (unpackPicture s.args) = true) :
    HasBuffers s .pxUnpackPlane (planeRanges (unpackPicture s.args)) (PlaneRows (unpackPicture s.args)) := by
  have hbuffers := hasBuffers_of_namesBytes (pxUnpackPlane_namesBytes s) hfits fun _ => if_pos hfits
  rwa [show OutputOf s .pxUnpackPlane = _ from funext fun a => propext outputOf_pxUnpackPlane] at hbuffers

/-- Where the planes lie apart, every sample that PX_UNPACK_PLANE produces lies in its place. -/
theorem holdsWord_unpackPlane (hform : MemoryOk s) (hfits : pictureFits s.params (unpackPicture s.args) = true)
    (hdmem : t.dmem = (s.storeRuns .pxUnpackPlane (s.unpackRuns (unpackPicture s.args))).dmem)
    (hapart : PlanesApart (unpackPicture s.args)) :
    (∀ r < (unpackPicture s.args).height, ∀ x < (unpackPicture s.args).width,
      HoldsWord s t (RacedPlanes s (unpackPicture s.args)) (lumaAddr (unpackPicture s.args) r x)
        (unpackedLuma s (unpackPicture s.args) r x)) ∧
    ∀ r < (unpackPicture s.args).height, ∀ x < (unpackPicture s.args).width / 2,
      HoldsWord s t (RacedPlanes s (unpackPicture s.args)) (cbAddr (unpackPicture s.args) r x)
          (unpackedCb s (unpackPicture s.args) r x) ∧
        HoldsWord s t (RacedPlanes s (unpackPicture s.args)) (crAddr (unpackPicture s.args) r x)
          (unpackedCr s (unpackPicture s.args) r x) := by
  obtain ⟨hluma, hchroma, -⟩ := pitches_of_pictureFits hfits
  have hlanded : ∀ q ∈ planeGrids s (unpackPicture s.args), ∀ r x, q.HasCell r x →
      Landed s t (RacedPlanes s (unpackPicture s.args)) (q.run r x) := fun q hq r x hx =>
    (cellsOf_unpackRuns hluma hchroma).landed (List.pairwise_map.mp hapart) hform (pxUnpackPlane_hasBuffers hfits)
      hdmem hq hx
  refine ⟨fun r hr x hx => ?_, fun r hr x hx => ⟨?_, ?_⟩⟩
  · exact holdsWord_of_landed (hlanded _ (.head _) r x (sampleGrid_hasCell.mpr ⟨hr, by omega⟩))
  · exact holdsWord_of_landed (hlanded _ (.tail _ (.head _)) r x (sampleGrid_hasCell.mpr ⟨hr, hx⟩))
  · exact holdsWord_of_landed (hlanded _ (.tail _ (.tail _ (.head _))) r x (sampleGrid_hasCell.mpr ⟨hr, hx⟩))

theorem planesApart_iff : PlanesApart p ↔ RangesApart (lumaRange p) (cbRange p) ∧
    RangesApart (lumaRange p) (crRange p) ∧ RangesApart (cbRange p) (crRange p) := by
  simp [PlanesApart, planeRanges, and_assoc]

end

/-- Settles O55: past its checks the rule stores its samples, each in its own two bytes of a plane where the planes lie
apart. -/
theorem pxUnpackPlaneOutcome : Obligations.PxUnpackPlaneOutcome := by
  refine ⟨decode_encode (i := .pxUnpackPlane) rfl, fun s => ?_⟩
  have hwidth : s.arg 7 % 2 ^ 32 = (unpackPicture s.args).width := (pictureWidth_eq _).symm
  have hheight : s.arg 7 / 2 ^ 32 = (unpackPicture s.args).height := (pictureHeight_eq _).symm
  rw [hwidth, hheight]
  intro W H G w y u v lumaBytes chromaBytes apart unpacks planes raced
  have hranges : ∀ {A B C D : Prop}, A ∨ B ∨ C ∨ D ↔ D ∨ A ∨ B ∨ C := by tauto
  refine checked_pictureOk (p := unpackPicture s.args) rfl fun hexec => checked_four hexec
    (not_pictureInRange_iff.trans hranges) fun hexec =>
    succeeds_of_runs (execPxUnpackPlane_ends s) hexec fun hfits t hdmem => ?_
  have hbuffers := pxUnpackPlane_hasBuffers hfits
  obtain ⟨hluma, hchroma, -⟩ := pitches_of_pictureFits hfits
  have hcells := cellsOf_unpackRuns (s := s) hluma hchroma
  refine ⟨fun hform hlumaCb hlumaCr hcbCr => ?_, fun hform a ha => ?_, fun a ha => ?_⟩
  · obtain ⟨hlumas, hchromas⟩ := holdsWord_unpackPlane hform hfits hdmem 
      (planesApart_iff.mpr ⟨hlumaCb, hlumaCr, hcbCr⟩)
    refine ⟨fun r g j hr hj hx => ?_, fun r g j hr hj hx => ?_⟩
    · have hword := hlumas r hr _ hx
      rwa [unpackedLuma_group hj, lumaOf_eq_getD hj] at hword
    · obtain ⟨hcbGroup, hcrGroup⟩ := unpackedChroma_group (s := s) (p := unpackPicture s.args) (r := r) (g := g) hj
      have hwords := hchromas r hr _ hx
      rwa [hcbGroup, hcrGroup, cbOf_eq_getD hj, crOf_eq_getD hj] at hwords
  · refine endsAs_of_not_runsCover hform hbuffers hdmem fun hcover => ha ?_
    obtain ⟨q, hq, hrow⟩ := hcells.inRow_of_runsCover hcover
    exact planeRows_of_inRow hq hrow
  · refine read_of_not_outputs hbuffers hdmem ha fun hcover => ?_
    obtain ⟨q, hq, hrow⟩ := hcells.inRow_of_runsCover hcover
    have hplane : q.range ∈ planes := List.mem_map_of_mem (f := Grid.range) hq
    exact Bool.eq_false_iff.mp (ha _ hplane) (Grid.range_holds hrow)

end Sys2Proof.Proofs
end

section
/-! PROOFS. Unpacking what was packed: the positions of a group that has landed read as what was packed there, so each
word and each sample comes back as it was packed (44_pixel_codec.md rule R227). -/

namespace Sys2Proof.Proofs

open Sys2Proof
open Sys2Proof.Config (Params)
open Sys2Proof.Machine
open Sys2Proof.Safety
open Sys2Proof.Laws

/-! ### Reading what no host has raced with -/

section
variable {s t u : State} {raced : Nat → Prop} {a : Nat}

/-- The value of a word that lies in memory. -/
theorem word_of_holdsWord (hraced : ∀ b, ¬ raced b) {w : Sample} (h : HoldsWord s t raced a w) :
    (Memory.read t.dmem a).toNat + 256 * (Memory.read t.dmem (a + 1)).toNat = w.toNat := by
  obtain ⟨⟨-, hlow⟩, ⟨-, hhigh⟩⟩ := h
  rw [hlow (hraced _), hhigh (hraced _), BitVec.toNat_setWidth, BitVec.toNat_setWidth, BitVec.toNat_ushiftRight,
    Nat.shiftRight_eq_div_pow]
  omega

/-- A command that reads a packed word's bytes from the memory reads the word. -/
theorem read32_of_holdsPacked (hraced : ∀ b, ¬ raced b) (hread : ∀ b, u.readByte b = Memory.read t.dmem b) {w : Word}
    (h : HoldsPacked s t raced a w) : u.read32 a = w := by
  have hbyte : ∀ b < 4, u.readByte (a + b) = w.extractLsb' (8 * b) 8 := by
    intro b hb
    rw [hread, (h b hb).2 (hraced _), extractLsb'_byte]
  rw [State.read32, hbyte 3 (by decide), hbyte 2 (by decide), hbyte 1 (by decide)]
  exact (congrArg _ (hbyte 0 (by decide))).trans (le32_append w)

/-- The positions of a group lie in its four words. -/
theorem positions_congr {w w' : Nat → Word} (h : ∀ k < 4, w k = w' k) : (∀ j < 6, lumaOf w j = lumaOf w' j) ∧
    ∀ j < 3, cbOf w j = cbOf w' j ∧ crOf w j = crOf w' j := by
  have h0 := h 0 (by decide)
  have h1 := h 1 (by decide)
  have h2 := h 2 (by decide)
  have h3 := h 3 (by decide)
  refine ⟨fun j hj => ?_, fun j hj => ⟨?_, ?_⟩⟩
  · rw [lumaOf_eq_getD hj, lumaOf_eq_getD hj, h0, h1, h2, h3]
  · rw [cbOf_eq_getD hj, cbOf_eq_getD hj, h0, h1, h2]
  · rw [crOf_eq_getD hj, crOf_eq_getD hj, h0, h2, h3]

/-- A group that has landed reads, position by position, as what was packed there (R220). -/
theorem positions_of_landed (hraced : ∀ b, ¬ raced b) (hread : ∀ b, u.readByte b = Memory.read t.dmem b)
    {y c d : Nat → Sample} (h : Landed s t raced (a, groupBytes (packGroup y c d))) :
    (∀ j < 6, lumaOf (fun k => u.read32 (a + 4 * k)) j = y j) ∧
      ∀ j < 3, cbOf (fun k => u.read32 (a + 4 * k)) j = c j ∧ crOf (fun k => u.read32 (a + 4 * k)) j = d j := by
  obtain ⟨hluma, hchroma⟩ := positions_congr (w := fun k => u.read32 (a + 4 * k)) fun k hk =>
    read32_of_holdsPacked hraced hread (holdsGroupWord_of_landed h hk)
  refine ⟨fun j hj => (hluma j hj).trans (lumaOf_packGroup y c d hj), fun j hj => ?_⟩
  obtain ⟨hcb, hcr⟩ := hchroma j hj
  exact ⟨hcb.trans (cbOf_packGroup y c d hj), hcr.trans (crOf_packGroup y c d hj)⟩

end

/-! ### Words (R227 a, b) -/

section
variable {s t u v : State} {c : Bool}

/-- PX_UNPACK_WORDS unpacks each word that PX_PACK_WORDS has packed. -/
theorem unpackedWord_of_packed (hform : MemoryOk s) (hs : Unraced s (.pxPackWords c))
    (ht : exec (.pxPackWords c) s = .next t) (hcode : t.ports[s.serving].code = .ok)
    (hread : ∀ b, u.readByte b = Memory.read t.dmem b) (hsrc : u.arg 0 = s.arg 2) {j : Nat} (hj : j < s.arg 1) :
    u.unpackedWord j = packedWord c (s.read16 (s.arg 0 + 2 * j)) := by
  obtain ⟨hfits, hdmem⟩ := (execPxPackWords_ends s c).stored ht hcode
  have hcount : s.arg 1 % 6 = 0 := by
    have hchecks := hfits
    simp only [wordsFit, Bool.and_eq_true, decide_eq_true_eq] at hchecks
    obtain ⟨⟨-, hmod⟩, -⟩ := hchecks
    exact hmod
  have hraced : ∀ b, ¬ RacedBlock s (.pxPackWords c) (s.arg 2) (16 * (s.arg 1 / 6)) b :=
    fun b => not_racedOutput_of_unraced hs fun r hr x hx _ => by
      obtain rfl := List.mem_singleton.mp hr
      exact (holds_iff _ x).mp hx
  obtain ⟨hluma, -⟩ := positions_of_landed hraced hread (landed_packWords hform hfits hdmem (g := j / 6) (by omega))
  rw [State.unpackedWord, hsrc, hluma (j % 6) (Nat.mod_lt _ (by decide)), Nat.div_add_mod]

/-- The words that PX_UNPACK_WORDS leaves in the memory. -/
theorem words_of_unpackWords (hform : MemoryOk u) (hu : Unraced u .pxUnpackWords)
    (hv : exec .pxUnpackWords u = .next v) (hcode : v.ports[u.serving].code = .ok) {j : Nat} (hj : j < u.arg 1) :
    (Memory.read v.dmem (u.arg 2 + 2 * j)).toNat + 256 * (Memory.read v.dmem (u.arg 2 + 2 * j + 1)).toNat =
      (u.unpackedWord j).toNat := by
  obtain ⟨hfits, hdmem⟩ := (execPxUnpackWords_ends u).stored hv hcode
  refine word_of_holdsWord (fun b => not_racedOutput_of_unraced hu fun r hr x hx _ => ?_)
    (holdsWord_unpackWords hform hfits hdmem hj)
  obtain rfl := List.mem_singleton.mp hr
  exact (holds_iff _ x).mp hx

end

/-! ### Planes (R227 c) -/

section
variable {s t u v : State}

/-- The operands by which PX_UNPACK_PLANE undoes PX_PACK_PLANE: the same picture, but for the planes' addresses. -/
theorem unpackPicture_eq (hsize : u.argBits 7 = s.argBits 7) (hpacked : u.arg 0 = s.arg 3)
    (hstride : u.arg 4 = s.arg 6) (hlumaPitch : u.arg 5 = s.arg 4) (hchromaPitch : u.arg 6 = s.arg 5) :
    unpackPicture u.args = { packPicture s.args with luma := u.arg 1, cb := u.arg 2, cr := u.arg 3 } :=
  (Picture.mk.injEq ..).mpr ⟨hpacked, rfl, rfl, rfl, hlumaPitch, hchromaPitch, hstride, congrArg pictureWidth hsize,
    congrArg pictureHeight hsize⟩

/-- PX_UNPACK_PLANE unpacks, inside the row's width, each sample that PX_PACK_PLANE has packed, clipped. -/
theorem unpacked_of_packed {p p' : Picture} (hp : packPicture s.args = p) (hform : MemoryOk s)
    (hs : Unraced s .pxPackPlane) (ht : exec .pxPackPlane s = .next t) (hcode : t.ports[s.serving].code = .ok)
    (hread : ∀ b, u.readByte b = Memory.read t.dmem b) (hpacked : p'.packed = p.packed)
    (hstride : p'.stride = p.stride) {r : Nat} (hr : r < p.height) :
    (∀ x < p.width, unpackedLuma u p' r x = clip (s.read16 (lumaAddr p r x))) ∧
      ∀ x < p.width / 2, unpackedCb u p' r x = clip (s.read16 (cbAddr p r x)) ∧
        unpackedCr u p' r x = clip (s.read16 (crAddr p r x)) := by
  obtain ⟨hfits, hdmem⟩ := (execPxPackPlane_ends s).stored ht hcode
  have hraced : ∀ b, ¬ RacedPacked s (packPicture s.args) b :=
    fun b => not_racedOutput_of_unraced hs fun _ _ _ _ => outputOf_pxPackPlane.mpr
  have hgroup : ∀ g < pictureGroups p, _ := fun g hg =>
    positions_of_landed hraced hread (landed_packPlane hform hfits hdmem (hp ▸ hr) (hp ▸ hg))
  rw [hp] at hgroup
  have haddr : ∀ g, readGroup u p' r g = fun k => u.read32 (groupAddr p r g + 4 * k) := by
    intro g
    funext k
    rw [readGroup, groupAddr, hpacked, hstride, groupAddr]
  refine ⟨fun x hx => ?_, fun x hx => ?_⟩
  · obtain ⟨hluma, -⟩ := hgroup (x / 6) (by rw [pictureGroups]; omega)
    rw [unpackedLuma, haddr, hluma (x % 6) (Nat.mod_lt _ (by decide)), Nat.div_add_mod, State.lumaSample, if_pos hx]
  · obtain ⟨-, hchroma⟩ := hgroup (x / 3) (by rw [pictureGroups]; omega)
    obtain ⟨hcb, hcr⟩ := hchroma (x % 3) (Nat.mod_lt _ (by decide))
    rw [unpackedCb, unpackedCr, haddr, hcb, hcr, Nat.div_add_mod, State.cbSample, State.crSample, if_pos hx, if_pos hx]
    exact ⟨rfl, rfl⟩

/-- The samples that PX_UNPACK_PLANE leaves in the memory, where the planes lie apart. -/
theorem words_of_unpackPlane {p : Picture} (hp : unpackPicture u.args = p) (hform : MemoryOk u)
    (hu : Unraced u .pxUnpackPlane) (hv : exec .pxUnpackPlane u = .next v) (hcode : v.ports[u.serving].code = .ok)
    (hapart : PlanesApart p) {r : Nat} (hr : r < p.height) :
    let word := fun a => (Memory.read v.dmem a).toNat + 256 * (Memory.read v.dmem (a + 1)).toNat
    (∀ x < p.width, word (lumaAddr p r x) = (unpackedLuma u p r x).toNat) ∧
      ∀ x < p.width / 2, word (cbAddr p r x) = (unpackedCb u p r x).toNat ∧
        word (crAddr p r x) = (unpackedCr u p r x).toNat := by
  subst hp
  obtain ⟨hfits, hdmem⟩ := (execPxUnpackPlane_ends u).stored hv hcode
  have hraced : ∀ b, ¬ RacedPlanes u (unpackPicture u.args) b :=
    fun b => not_racedOutput_of_unraced hu fun _ _ _ _ => outputOf_pxUnpackPlane.mpr
  obtain ⟨hluma, hchroma⟩ := holdsWord_unpackPlane hform hfits hdmem hapart
  exact ⟨fun x hx => word_of_holdsWord hraced (hluma r hr x hx), fun x hx =>
    ⟨word_of_holdsWord hraced (hchroma r hr x hx).1, word_of_holdsWord hraced (hchroma r hr x hx).2⟩⟩

end

/-- A clipped value is in range, and a value in range is not changed (R221). -/
theorem kept_of_clip {v : HalfWord} {w : Sample} {z : Nat} (hz : z = w.toNat) (hw : w = clip v) :
    z = min (max v.toNat 4) 1019 ∧ (4 ≤ v.toNat → v.toNat ≤ 1019 → z = v.toNat) := by
  have hclip : z = min (max v.toNat 4) 1019 := by rw [hz, hw, toNat_clip]
  exact ⟨hclip, by omega⟩

theorem memoryOk_of_packed {s t u : State} {i : Instr} {runs : List Run} (hform : MemoryOk s)
    (hdmem : t.dmem = (s.storeRuns i runs).dmem) (hu : u.dmem = t.dmem) : MemoryOk u := by
  rw [MemoryOk, hu, hdmem]
  exact storeRuns_wf hform i runs

/-- Settles O56: what is unpacked is what was packed, and that is the input clipped, or its low ten bits. -/
theorem packingRoundTrip : Obligations.PackingRoundTrip := by
  constructor
  · intro s t u v c hform hs hu ht hcode hdmem hsrc hn hv hcode' j hj x z
    have hread : ∀ b, u.readByte b = Memory.read t.dmem b := fun b => by rw [hu.1, hdmem]
    have hpacked := unpackedWord_of_packed hform hs ht hcode hread hsrc hj
    have hform' := memoryOk_of_packed hform ((execPxPackWords_ends s c).stored ht hcode).2 hdmem
    have hz : z = (u.unpackedWord j).toNat := words_of_unpackWords hform' hu hv hcode' (hn ▸ hj)
    cases c with
    | false =>
      have hlow : z = x % 1024 := by rw [hz, hpacked, toNat_packedWord_false]
      exact ⟨nofun, fun _ => hlow, by omega⟩
    | true =>
      obtain ⟨hclip, hkept⟩ := kept_of_clip hz hpacked
      exact ⟨fun _ => hclip, nofun, hkept⟩
  · intro s t u v hform hs hu ht hcode hdmem hsize ⟨hpacked, hstride, hlumaPitch, hchromaPitch⟩ hv hcode'
    have hpicture := unpackPicture_eq hsize hpacked hstride hlumaPitch hchromaPitch
    have hread : ∀ b, u.readByte b = Memory.read t.dmem b := fun b => by rw [hu.1, hdmem]
    have hform' := memoryOk_of_packed hform ((execPxPackPlane_ends s).stored ht hcode).2 hdmem
    have hwidth : s.arg 7 % 2 ^ 32 = (packPicture s.args).width := (pictureWidth_eq _).symm
    have hheight : s.arg 7 / 2 ^ 32 = (packPicture s.args).height := (pictureHeight_eq _).symm
    rw [hwidth, hheight]
    intro W H lumaBytes chromaBytes apart word kept hlumaCb hlumaCr hcbCr
    have hpacks := fun r (hr : r < H) => unpacked_of_packed (p' := unpackPicture u.args) rfl hform hs ht hcode hread
      hpacked hstride hr
    have hunpacks := fun r (hr : r < H) => words_of_unpackPlane hpicture hform' hu hv hcode'
      (planesApart_iff.mpr ⟨hlumaCb, hlumaCr, hcbCr⟩) hr
    rw [hpicture] at hpacks
    refine ⟨fun r x hr hx => ?_, fun r x hr hx => ?_⟩
    · obtain ⟨hluma, -⟩ := hpacks r hr
      obtain ⟨hword, -⟩ := hunpacks r hr
      exact kept_of_clip (hword x hx) (hluma x hx)
    · obtain ⟨-, hchroma⟩ := hpacks r hr
      obtain ⟨-, hwords⟩ := hunpacks r hr
      obtain ⟨hcb, hcr⟩ := hchroma x hx
      obtain ⟨hcbWord, hcrWord⟩ := hwords x hx
      exact ⟨kept_of_clip hcbWord hcb, kept_of_clip hcrWord hcr⟩

end Sys2Proof.Proofs
end

section
/-! PROOFS. The control command: NOP's word is the only valid one with its opcode, and NOP only completes (45_control.md
rule R250). -/

namespace Sys2Proof.Proofs

open Sys2Proof
open Sys2Proof.Machine
open Sys2Proof.Laws

/-- NOP's row of the opcode map (R83). -/
theorem decodeOpcode_of_opcOf_zero {w : Word} (ho : opcOf w = 0x00#8) :
    decodeOpcode w = withoutSource w 0#8 .nop := by
  rw [decodeOpcode, ho]
  rfl

theorem eq_nop_of_decode {w : Word} {i : Instr} (ho : opcOf w = 0x00#8) (h : decode w = .ok i) : i = .nop := by
  obtain ⟨-, hd⟩ := decode_eq_ok.mp h
  rw [decodeOpcode_of_opcOf_zero ho] at hd
  obtain ⟨-, -, hi⟩ := withoutSource_eq_ok.mp hd
  exact hi.symm

/-- Settles O20: a valid word with NOP's opcode decodes to NOP, so it is NOP's word; NOP checks nothing and only
reports. -/
theorem nopCompletes : Obligations.NopCompletes := by
  refine ⟨decode_encode (i := .nop) rfl, fun w ho hw i h => hw ?_, fun s => reports_of_exec rfl⟩
  obtain rfl := eq_nop_of_decode ho h
  obtain ⟨henc, -⟩ := encode_of_decode h
  calc w = encode .nop := henc.symm
    _ = 0#32 := rfl

end Sys2Proof.Proofs
end

section
/-! PROOFS. What a failing command leaves, and the interrupt requests (60_exceptions.md rules R264 and R270). -/

namespace Sys2Proof.Proofs

open Sys2Proof
open Sys2Proof.Machine
open Sys2Proof.Safety
open Sys2Proof.Laws

/-! ### Commands that fail from the state they are performed in (R264) -/

/-- The command performed in `s` completes with OK, or raises a code of `s` itself, before any change. -/
def EndsCleanly (s : State) (o : Host.Outcome State Fault Refusal) : Prop :=
  (∃ c, o = s.raise c) ∨ ∃ t, o = .next t ∧ t.ports[s.serving].code = .ok

section
variable {s u t : State} {i : Instr} {o o' : Host.Outcome State Fault Refusal} {b : Prop} [Decidable b]

theorem endsCleanly_raise (s : State) (c : Code) : EndsCleanly s (s.raise c) := .inl ⟨c, rfl⟩

theorem endsCleanly_finish {r0 r1 r2 r3 : DWord} (hserving : u.serving = s.serving := by rfl) :
    EndsCleanly s (u.finish r0 r1 r2 r3) :=
  .inr ⟨_, rfl, complete_code hserving _ _⟩

theorem endsCleanly_ite (h : EndsCleanly s o) (h' : EndsCleanly s o') : EndsCleanly s (if b then o else o') := by
  split
  · exact h
  · exact h'

theorem endsCleanly_check {c : Code} (h : EndsCleanly s o) : EndsCleanly s (if b then s.raise c else o) :=
  endsCleanly_ite (endsCleanly_raise s c) h

/-- The outcome of a parser by what its checks find. -/
theorem endsCleanly_elim {f : Nat → Host.Outcome State Fault Refusal} (h : ∀ n, EndsCleanly s (f n))
    (found : Option Nat) : EndsCleanly s (found.elim (s.raise .malformed) f) := by
  cases found with
  | none => exact endsCleanly_raise s _
  | some n => exact h n

theorem execMxAddMapping_endsCleanly (src : Nat) (x a m : Bool) : EndsCleanly s (execMxAddMapping src x a m s) := by
  refine endsCleanly_check (endsCleanly_check (endsCleanly_check (endsCleanly_check (endsCleanly_check
    (endsCleanly_check ?_)))))
  split
  · exact endsCleanly_raise s _
  · exact endsCleanly_finish

/-- Every command but MX_EXTRACT makes all its checks before its first change. -/
theorem exec_endsCleanly (hi : i ≠ .mxExtract) : EndsCleanly s (exec i s) := by
  cases i with
  | mxExtract => exact absurd rfl hi
  | nop | mxSlotMap => exact endsCleanly_finish
  | mxAddMapping src x a m => exact execMxAddMapping_endsCleanly src x a m
  | ancParse =>
    rw [exec, execAncParse_eq]
    exact endsCleanly_check (endsCleanly_check (endsCleanly_elim (fun _ =>
      endsCleanly_check endsCleanly_finish) _))
  | cdpParse =>
    rw [exec, execCdpParse_eq]
    exact endsCleanly_check (endsCleanly_check (endsCleanly_elim (fun _ =>
      endsCleanly_check endsCleanly_finish) _))
  | rbBufferStart | rbAvailable | rbFlushConsumed | mxRemoveMapping | mxBufferStart | mxAvailableVirtual =>
    exact endsCleanly_check endsCleanly_finish
  | rbForwardTo | mxSetAudioConfig | ancPad | ancAfd | pxPackPlane | pxUnpackPlane =>
    exact endsCleanly_check (endsCleanly_check endsCleanly_finish)
  | rbInfo =>
    exact endsCleanly_check (endsCleanly_ite endsCleanly_finish endsCleanly_finish)
  | rbTagVirtualConsumed | mxAlignedInterleave | ancData10 | ancCaptions | pxPackWords | pxUnpackWords =>
    exact endsCleanly_check (endsCleanly_check (endsCleanly_check endsCleanly_finish))
  | rbRead =>
    exact endsCleanly_check (endsCleanly_check (endsCleanly_check (endsCleanly_check (endsCleanly_check
      (endsCleanly_check (endsCleanly_check endsCleanly_finish))))))
  | rbPush =>
    exact endsCleanly_check (endsCleanly_check (endsCleanly_check (endsCleanly_check (endsCleanly_check
      (endsCleanly_check (endsCleanly_ite endsCleanly_finish
        (endsCleanly_check (endsCleanly_check endsCleanly_finish))))))))

/-! ### What a failure leaves (R264) -/

/-- A command that has failed has raised its code and changed nothing, but for MX_EXTRACT's forwards. -/
theorem failed_cases (ht : exec i s = .next t) (hcode : t.ports[s.serving].code ≠ .ok) :
    (∃ c, Raises s i c) ∨ (i = .mxExtract ∧ ∃ t', exec .mxExtract s = .next t' ∧
      Completed s t' .notReady 0#64 0#64 0#64 0#64 ∧ SameBlock s.forwarded t') := by
  by_cases hi : i = .mxExtract
  · subst hi
    obtain ⟨-, -, hextract⟩ := mxExtractOutcome
    obtain hraises | ⟨hshort, henough⟩ := checked_cases (hextract s)
    · exact .inl hraises
    · refine .inr ⟨rfl, ?_⟩
      rw [forwarded_eq]
      refine hshort (by_contra fun h => ?_)
      obtain ⟨t', ht', hdone, -⟩ := henough h
      obtain rfl := Host.Outcome.next.inj (ht.symm.trans ht')
      exact hcode (code_of_completed hdone)
  · obtain ⟨c, hexec⟩ | ⟨t', ht', hok⟩ := exec_endsCleanly (s := s) hi
    · exact .inl ⟨c, raises_of_exec hexec⟩
    · obtain rfl := Host.Outcome.next.inj (ht.symm.trans ht')
      exact absurd hok hcode

end

/-- Settles O9: every command raises its codes before it changes anything, but for MX_EXTRACT's NOT_READY, which finds
the sources as the forwards left them. -/
theorem failureChangesNothing : Obligations.FailureChangesNothing := by
  intro i s t ht hcode
  obtain ⟨c, t', ht', hdone, hsame⟩ | ⟨rfl, t', ht', hdone, hsame⟩ := failed_cases ht hcode
  · obtain rfl := Host.Outcome.next.inj (ht.symm.trans ht')
    rw [code_of_completed hdone]
    exact ⟨hdone, not_busy_of_completed hdone, .inl hsame⟩
  · obtain rfl := Host.Outcome.next.inj (ht.symm.trans ht')
    rw [code_of_completed hdone]
    refine ⟨hdone, not_busy_of_completed hdone, ?_⟩
    rw [forwarded_eq] at hsame
    split at hsame
    · rename_i hregress
      obtain ⟨hhead, hstart⟩ := hregress
      exact .inr ⟨rfl, rfl, hhead, hstart, hsame⟩
    · exact .inl hsame

/-! ### Interrupt requests (R270) -/

/-- A sum of distinct powers of two has the bits it was taken over. -/
theorem sum_two_pow_eq_ofBits {n : Nat} (f : Fin n → Bool) :
    ((List.finRange n).map fun p => if f p then 2 ^ p.val else 0).sum = Nat.ofBits f := by
  induction n with
  | zero => rfl
  | succ n ih =>
    have hhead : (if f 0 then 2 ^ (0 : Fin (n + 1)).val else 0) = (f 0).toNat := by cases f 0 <;> rfl
    have htail : ∀ p : Fin n, (if f p.succ then 2 ^ p.succ.val else 0) =
        2 * if (f ∘ Fin.succ) p then 2 ^ p.val else 0 := by
      intro p
      simp [pow_succ, mul_comm]
    rw [List.finRange_succ, List.map_cons, List.sum_cons, List.map_map, Nat.ofBits_succ, ← ih, hhead, add_comm,
      ← List.sum_map_mul_left]
    exact congrArg (fun l => List.sum l + _) (List.map_congr_left fun p _ => htail p)

theorem irq_iff (p : Port) : p.irq = true ↔
    (p.done = true ∧ p.ie.done = true) ∨ (p.err = true ∧ p.ie.err = true) ∨ (p.ovr = true ∧ p.ie.ovr = true) := by
  simp [Port.irq, or_assoc]

theorem irqOf_iff (s : State) (p : Fin 15) :
    s.irqOf p = true ↔ p.val < s.params.nports ∧ s.ports[p].irq = true := by
  simp [State.irqOf]

theorem irqOutput_iff (s : State) : s.irqOutput = true ↔ ∃ p, s.irqOf p = true := by
  simp [State.irqOutput]

/-- The bits of IRQ_STATUS (R22, R39). -/
theorem irqStatus_getLsbD_iff (s : State) (n : Nat) :
    s.irqStatus.getLsbD n = true ↔ ∃ p : Fin 15, p.val = n ∧ s.irqOf p = true := by
  rw [State.irqStatus, sum_two_pow_eq_ofBits, BitVec.getLsbD_ofNat]
  rcases Nat.lt_or_ge n 15 with hn | hn
  · have hword : n < 32 := by omega
    rw [Nat.testBit_ofBits_lt _ _ hn, decide_eq_true hword, Bool.true_and]
    exact ⟨fun h => ⟨⟨n, hn⟩, rfl, h⟩, fun ⟨p, hp, h⟩ => (Fin.ext hp : p = ⟨n, hn⟩) ▸ h⟩
  · rw [Nat.testBit_ofBits_ge _ _ hn, Bool.and_false]
    exact ⟨nofun, fun ⟨p, hp, _⟩ => absurd p.isLt (by omega)⟩

/-- Settles O12: the output and IRQ_STATUS are both taken over the requests of the ports that exist. -/
theorem interruptRequests : Obligations.InterruptRequests := by
  refine fun s => ⟨fun p => irq_iff _, ?_, fun n => ?_⟩
  · simp only [irqOutput_iff, irqOf_iff]
  · have hread : s.readReg (hostReg s.params.nports 0x018) = s.irqStatus := rfl
    rw [hread, irqStatus_getLsbD_iff]
    refine exists_congr fun p => and_congr_right fun hp => ?_
    subst hp
    exact irqOf_iff s p

end Sys2Proof.Proofs
end

section
/-! PROOFS. Forward progress (70_reset_and_hazards.md rule R305): a command pends at most until its port's executor is
named, which a fair schedule does at some number of the free choices still to come. -/

namespace Sys2Proof.Proofs

open Sys2Proof
open Sys2Proof.Machine
open Sys2Proof.Safety
open Sys2Proof.Laws

theorem runBy_succ {f : Nat → Nat} {s t : State} (h : stepBy f s = .next t) (k : Nat) :
    runBy f (k + 1) s = runBy f k t := by
  simp only [runBy, h]

theorem pick_ne_none {f : Nat → Nat} {s : State} {x : Agent} (h : s.canMove x = true) : s.pick f ≠ none := by
  have hx := mem_movers.mpr h
  unfold State.pick
  split
  · rename_i hnil
    simp [hnil] at hx
  · exact Option.some_ne_none _
  · exact Option.some_ne_none _

/-- Where some agent can move, a step uses up one free choice. -/
theorem stepBy_steps {f : Nat → Nat} {s t : State} {x : Agent} (hx : s.canMove x = true)
    (h : stepBy f s = .next t) : t.steps = s.steps + 1 := by
  obtain ⟨y, hy⟩ := Option.ne_none_iff_exists'.mp (pick_ne_none (f := f) hx)
  exact agentStep_steps (mem_movers.mp (pick_mem_movers hy)) ((stepBy_of_pick hy).symm.trans h)

theorem canMove_exec_iff {s : State} {p : Fin 15} :
    s.canMove (.exec p) = true ↔ p.val < s.params.nports ∧ s.ports[p].busy = true := by
  simp [State.canMove]

/-- A schedule that names the executor at a port that is BUSY ends that port's command. -/
theorem stepBy_serves {f : Nat → Nat} {s : State} {p : Fin 15} (hp : s.canMove (.exec p) = true)
    (hf : f s.steps = (Agent.exec p).number) : ∃ t, stepBy f s = .next t ∧ t.ports[p].busy = false := by
  obtain ⟨t, ht⟩ := execStep_next s p
  exact ⟨t, (stepBy_of_pick (pick_of_named hp hf)).trans ht, (execStep_ports ht).1⟩

/-- A command that pends ends by the free choice that names its port's executor, `d` choices from now. -/
theorem runBy_serves {f : Nat → Nat} {p : Fin 15} {d : Nat} {s : State} (hs : HostsOk s)
    (hp : s.canMove (.exec p) = true) (hf : f (s.steps + d) = (Agent.exec p).number) :
    ∃ (k : Nat) (u : State), runBy f k s = .next u ∧ u.ports[p].busy = false := by
  induction d generalizing s with
  | zero =>
    obtain ⟨t, ht, hidle⟩ := stepBy_serves hp hf
    exact ⟨1, t, runBy_succ ht 0, hidle⟩
  | succ d ih =>
    obtain ⟨t, ht, htok, hparams⟩ := stepBy_hostsOk f hs
    cases hbusy : t.ports[p].busy with
    | false => exact ⟨1, t, runBy_succ ht 0, hbusy⟩
    | true =>
      have hpt : t.canMove (.exec p) = true :=
        canMove_exec_iff.mpr ⟨hparams ▸ (canMove_exec_iff.mp hp).1, hbusy⟩
      have hchoice : t.steps + d = s.steps + (d + 1) := by
        have := stepBy_steps hp ht
        omega
      obtain ⟨k, u, hu, hidle⟩ := ih htok hpt (hchoice ▸ hf)
      exact ⟨k + 1, u, (runBy_succ ht k).trans hu, hidle⟩

/-- Settles O7: a fair schedule names the port's executor at some free choice not yet taken, and each step until then
takes one. -/
theorem pendingCommandsAreServed : Obligations.PendingCommandsAreServed := by
  intro f s p hfair hs hp hbusy
  obtain ⟨m, hm, hf⟩ := hfair s.steps (Agent.exec p).number
  obtain ⟨d, rfl⟩ := Nat.exists_eq_add_of_le hm
  exact runBy_serves hs (canMove_exec_iff.mpr ⟨hp, hbusy⟩) hf

end Sys2Proof.Proofs
end

section
/-! PROOFS. The commands while audio is disabled and no source is open, as after reset (70_reset_and_hazards.md rule
R291): the checks that fail for want of configuration, and the commands that have no such check. -/

namespace Sys2Proof.Proofs

open Sys2Proof
open Sys2Proof.Machine
open Sys2Proof.Safety
open Sys2Proof.Laws

/-! ### The commands of the ring buffer and of the multiplexer -/

section
variable {s : State} {i : Instr} {o : Host.Outcome State Fault Refusal}

/-- A source command of a source that is closed. -/
theorem raises_badSource_of_closed {src : Nat} (hclosed : (s.source src).isOpen = false)
    (hexec : exec i s = if !s.sourceOpen src then s.raise .badSource else o) : Raises s i .badSource :=
  raises_of_exec (hexec.trans (if_pos (not_sourceOpen_iff.mpr (.inr hclosed))))

/-- A multiplexer command while audio is disabled. -/
theorem raises_badState_of_disabled (haudio : s.audioCh = 0)
    (hexec : exec i s = if s.audioCh = 0 then s.raise .badState else o) : Raises s i .badState :=
  raises_of_exec (hexec.trans (if_pos haudio))

theorem mxAddMapping_raises_badState (haudio : s.audioCh = 0) {src : Nat} (hsrc : src < s.params.maxSources)
    (x a m : Bool) : Raises s (.mxAddMapping src x a m) .badState :=
  raises_badState_of_disabled haudio (if_neg (not_not.mpr hsrc))

theorem rbInfo_reports_closed {src : Nat} (hsrc : src < s.params.maxSources)
    (hclosed : (s.source src).isOpen = false) : Reports s (.rbInfo src) 0#64 0#64 0#64 0#64 :=
  ((rbInfoOutcome.2 s src).2 (Nat.not_le.mpr hsrc)).1 hclosed

/-- MX_SET_AUDIO_CONFIG of a channel count while no source is open (R140). -/
theorem mxSetAudioConfig_succeeds (hclosed : ∀ k, (s.source k).isOpen = false) (hn : s.arg 0 ∈ [0, 2, 8, 16])
    (d : Bool) : Succeeds s (.mxSetAudioConfig d) 0#64 0#64 0#64 0#64 fun t =>
      t.audioCh = s.arg 0 ∧ t.declaredOnly = d := by
  have hnone : ¬ ∃ k, k < s.params.maxSources ∧ (s.source k).isOpen = true := by simp [hclosed]
  obtain ⟨t, ht, hdone, hout, -, -, -, haudio, hdeclared, -⟩ :=
    ((mxSetAudioConfigOutcome.2 s d).2 hnone).2 (not_not.mpr (by simpa using hn))
  exact ⟨t, ht, hdone, hout, haudio, hdeclared⟩

/-- MX_SLOT_MAP while audio is disabled (R165). -/
theorem mxSlotMap_reports_disabled (haudio : s.audioCh = 0) :
    ∃ r0 r1 r2 : DWord, Reports s .mxSlotMap r0 r1 r2 (countBits s.declaredOnly.toNat <<< 8) := by
  have hreports := mxSlotMapOutcome.2 s
  rw [haudio, show countBits 0 = 0#64 from rfl, BitVec.zero_or] at hreports
  exact ⟨_, _, _, hreports⟩

end

/-! ### The packet and pixel commands -/

/-- The codes with which a command completes that asks for no configuration. -/
def configFreeCodes : List Code := [.ok, .badArg, .dmemFault, .malformed]

/-- The command performed in `s` completes with one of these codes. -/
def EndsConfigFree (s : State) (o : Host.Outcome State Fault Refusal) : Prop :=
  ∃ t, o = .next t ∧ t.ports[s.serving].code ∈ configFreeCodes

section
variable {s u : State} {o : Host.Outcome State Fault Refusal} {c : Code}

theorem endsConfigFree_raise (hc : c ∈ configFreeCodes) : EndsConfigFree s (s.raise c) :=
  ⟨_, rfl, (complete_code rfl c _).symm ▸ hc⟩

theorem endsConfigFree_finish (hserving : u.serving = s.serving) (r0 r1 r2 r3 : DWord) :
    EndsConfigFree s (u.finish r0 r1 r2 r3) :=
  ⟨_, rfl, (complete_code hserving .ok _).symm ▸ List.mem_cons_self⟩

theorem endsConfigFree_storeRuns (s : State) (i : Instr) (runs : List Run) (r0 r1 r2 r3 : DWord) :
    EndsConfigFree s ((s.storeRuns i runs).finish r0 r1 r2 r3) :=
  endsConfigFree_finish (storeRuns_serving s i runs) r0 r1 r2 r3

theorem endsConfigFree_check {b : Prop} [Decidable b] (hc : c ∈ configFreeCodes) (h : EndsConfigFree s o) :
    EndsConfigFree s (if b then s.raise c else o) := by
  split
  · exact endsConfigFree_raise hc
  · exact h

theorem endsConfigFree_badArg {b : Prop} [Decidable b] (h : EndsConfigFree s o) :
    EndsConfigFree s (if b then s.raise .badArg else o) := endsConfigFree_check (by decide) h

theorem endsConfigFree_dmemFault {b : Prop} [Decidable b] (h : EndsConfigFree s o) :
    EndsConfigFree s (if b then s.raise .dmemFault else o) := endsConfigFree_check (by decide) h

/-- The outcome of a parser by what its checks find. -/
theorem endsConfigFree_elim {f : Nat → Host.Outcome State Fault Refusal} (h : ∀ n, EndsConfigFree s (f n))
    (found : Option Nat) : EndsConfigFree s (found.elim (s.raise .malformed) f) := by
  cases found with
  | none => exact endsConfigFree_raise (by decide)
  | some n => exact h n

end

/-- The command is one of the packetizer's, a parser, or one of the pixel codec's. -/
def isPacketOrPixel : Instr → Bool
  | .ancData10 _ | .ancPad | .ancAfd _ | .ancCaptions _ | .ancParse | .cdpParse | .pxPackPlane | .pxPackWords _
  | .pxUnpackPlane | .pxUnpackWords => true
  | _ => false

/-- The checks of a packet or pixel command are of its arguments, of its ranges and of what it parses. -/
theorem exec_endsConfigFree {i : Instr} (s : State) (h : isPacketOrPixel i = true) : EndsConfigFree s (exec i s) := by
  cases i with
  | ancPad | ancAfd | pxPackPlane | pxUnpackPlane =>
    exact endsConfigFree_badArg (endsConfigFree_dmemFault (endsConfigFree_storeRuns s _ _ _ _ _ _))
  | ancData10 | pxPackWords | pxUnpackWords =>
    exact endsConfigFree_badArg (endsConfigFree_badArg (endsConfigFree_dmemFault
      (endsConfigFree_storeRuns s _ _ _ _ _ _)))
  | ancCaptions =>
    exact endsConfigFree_badArg (endsConfigFree_badArg (endsConfigFree_dmemFault
      (endsConfigFree_finish rfl _ _ _ _)))
  | ancParse =>
    rw [exec, execAncParse_eq]
    exact endsConfigFree_badArg (endsConfigFree_dmemFault (endsConfigFree_elim (fun _ =>
      endsConfigFree_dmemFault (endsConfigFree_storeRuns s _ _ _ _ _ _)) _))
  | cdpParse =>
    rw [exec, execCdpParse_eq]
    exact endsConfigFree_badArg (endsConfigFree_dmemFault (endsConfigFree_elim (fun _ =>
      endsConfigFree_dmemFault (endsConfigFree_storeRuns s _ _ _ _ _ _)) _))
  | nop | rbPush | rbBufferStart | rbAvailable | rbRead | rbFlushConsumed | rbTagVirtualConsumed | rbForwardTo
  | rbInfo | mxSetAudioConfig | mxAddMapping | mxRemoveMapping | mxBufferStart | mxAvailableVirtual
  | mxAlignedInterleave | mxExtract | mxSlotMap => exact absurd h Bool.false_ne_true

/-- The two lists of R291 hold packet and pixel commands only. -/
theorem isPacketOrPixel_of_mem {i : Instr}
    (h : (∃ p : Bool, i ∈ [Instr.ancData10 p, .ancAfd p, .ancCaptions p, .pxPackWords p]) ∨
      i ∈ [Instr.ancPad, .ancParse, .cdpParse, .pxPackPlane, .pxUnpackPlane, .pxUnpackWords]) :
    isPacketOrPixel i = true := by
  simp only [List.mem_cons, List.not_mem_nil, or_false] at h
  obtain ⟨p, rfl | rfl | rfl | rfl⟩ | rfl | rfl | rfl | rfl | rfl | rfl := h
  all_goals rfl

/-! ### The statement -/

/-- Settles O19: each command of the ring buffer or the multiplexer by its first check that asks for a configuration;
the packet and pixel commands have none. -/
theorem commandsBeforeConfiguration : Obligations.CommandsBeforeConfiguration := by
  refine ⟨fun s haudio hclosed => ?_, fun s t i hi ht => ?_⟩
  · have hdisabled {i : Instr} {o} := raises_badState_of_disabled (s := s) (i := i) (o := o) haudio
    have hnone (src : Nat) {i : Instr} {o} := raises_badSource_of_closed (i := i) (o := o) (hclosed src)
    exact ⟨fun src x a m hsrc => mxAddMapping_raises_badState haudio hsrc x a m,
      hdisabled rfl, hdisabled rfl, hdisabled rfl, hdisabled rfl,
      fun src => ⟨hnone src rfl, hnone src rfl, hnone src rfl, hnone src rfl, hnone src rfl, hnone src rfl,
        hnone src rfl, hnone src rfl⟩,
      fun src hsrc => rbInfo_reports_closed hsrc (hclosed src), fun d hn => mxSetAudioConfig_succeeds hclosed hn d,
      mxSlotMap_reports_disabled haudio, nopCompletes.2.2 s⟩
  · obtain ⟨t', ht', hcode⟩ := exec_endsConfigFree s (isPacketOrPixel_of_mem hi)
    obtain rfl := Host.Outcome.next.inj (ht.symm.trans ht')
    exact hcode

end Sys2Proof.Proofs
end
